-- ==== Sys2Proof/Word.lean ====
section
/-! DEFINITION. Word types and small records of the model: register images, elements, register numbers, rounding modes,
precisions, status flags, exception signals and trap codes. -/

namespace Sys2Proof

/-- A floating-point register as the record `(sign, exp, sig)` of R8; the layout is that of R17: 17-bit exponent field
biased by 65535, 64-bit significand with an explicit integer bit at bit 63. -/
structure Flt where
  neg : Bool
  exp : BitVec 17
  sig : BitVec 64
  deriving DecidableEq, Repr, Inhabited

/-- One element of a Parallel-FP register: an IEEE single (R20). -/
abbrev Elem := BitVec 32

/-- A floating-point register number (R17, 30_encoding.md section 3). -/
abbrev RegNum := BitVec 7

/-- A predicate register number (30_encoding.md section 3). -/
abbrev PredNum := BitVec 6

/-- A status field number, the `x` of `FPSR.sfx` (R8, decision D4). -/
abbrev SfNum := BitVec 2

/-- The 82-bit image of a register: bit 81 sign, bits 80:64 exponent, bits 63:0 significand (R17). -/
def Flt.toBits (r : Flt) : BitVec 82 := BitVec.ofBool r.neg ++ r.exp ++ r.sig

/-- The significand bit `n` of a register (bit 63 is the integer bit, bit 62 the top fraction bit, R74). -/
def Flt.sigBit (r : Flt) (n : Nat) : Bool := r.sig.getLsbD n

/-- The rounding directions of R8. -/
inductive RoundMode where
  /-- to nearest, ties to even -/
  | rn
  /-- toward minus infinity -/
  | rm
  /-- toward plus infinity -/
  | rp
  /-- toward zero -/
  | rz
  deriving DecidableEq, Repr, Inhabited

/-- The three significand precisions of the real types of R19. -/
inductive Precision where
  | single
  | double
  | extended
  deriving DecidableEq, Repr, Inhabited

/-- The flags `o`, `u`, `i` of a status field (R11), or a set of them. -/
structure Flags where
  o : Bool := false
  u : Bool := false
  i : Bool := false
  deriving DecidableEq, Repr, Inhabited

/-- Flag-wise OR: the `|=` of R8. -/
def Flags.or (a b : Flags) : Flags := ⟨a.o || b.o, a.u || b.u, a.i || b.i⟩

/-- The exceptions an operation signals before its result stage: Invalid Operation, Denormal/Unnormal Operand,
Zero Divide, and the Software Assist fault (R70, R102). -/
structure Signals where
  v : Bool := false
  d : Bool := false
  z : Bool := false
  swa : Bool := false
  deriving DecidableEq, Repr, Inhabited

/-- Whether any of them is signaled. -/
def Signals.any (g : Signals) : Bool := g.v || g.d || g.z || g.swa

/-- Exception-wise OR of two elements' signals. -/
def Signals.or (a b : Signals) : Signals := ⟨a.v || b.v, a.d || b.d, a.z || b.z, a.swa || b.swa⟩

/-- The `ISR.code` record of a Floating-point Exception trap (R8, R41, R42). -/
structure TrapCode where
  o : Bool := false
  u : Bool := false
  i : Bool := false
  fpa : Bool := false
  deriving DecidableEq, Repr, Inhabited

end Sys2Proof
end

