-- ==== Sys2Proof/Syntax.lean ====
section
/-! DEFINITION. The instructions: one constructor per row of spec/opcode_table.json. -/

namespace Sys2Proof

/-- The fields of format F1 (30_encoding.md section 3): status field, sources f4, f3, f2, destination f1, predicate. -/
structure F1Fields where
  sf : SfNum
  f4 : RegNum
  f3 : RegNum
  f2 : RegNum
  f1 : RegNum
  qp : PredNum
  deriving DecidableEq, Repr, Inhabited

/-- The fields of format F6: as F1 without f4 and with the predicate p2 the instruction writes. -/
structure F6Fields where
  sf : SfNum
  p2 : PredNum
  f3 : RegNum
  f2 : RegNum
  f1 : RegNum
  qp : PredNum
  deriving DecidableEq, Repr, Inhabited

/-- The fields of format F7: as F6, bits 19:13 ignored. -/
structure F7Fields where
  sf : SfNum
  p2 : PredNum
  f3 : RegNum
  f1 : RegNum
  qp : PredNum
  deriving DecidableEq, Repr, Inhabited

/-- A member of the class of floating-point to integer conversions (R95, R71): `fcvt.fx`, `fcvt.fxu` and their `.trunc`
forms, or the Parallel-FP forms `fpcvt`. -/
structure ConvFields where
  parallel : Bool
  unsigned : Bool
  trunc : Bool
  sf : SfNum
  f2 : RegNum
  f1 : RegNum
  qp : PredNum
  deriving DecidableEq, Repr, Inhabited

/-- The four operations of the minimum and maximum class (R82): `fmin`, `fmax`, `famin`, `famax`. -/
inductive MinMaxOp where
  | min
  | max
  | amin
  | amax
  deriving DecidableEq, Repr, Inhabited

/-- A member of the class of minimum and maximum instructions (R82, R96). -/
structure MinMaxFields where
  parallel : Bool
  op : MinMaxOp
  sf : SfNum
  f2 : RegNum
  f3 : RegNum
  f1 : RegNum
  qp : PredNum
  deriving DecidableEq, Repr, Inhabited

/-- The rows of spec/opcode_table.json, in the table's order. The two class rows carry the member of the class as
an operand, since the table gives each class one row. -/
inductive Instr where
  | fma (a : F1Fields)
  | fmaS (a : F1Fields)
  | fmaD (a : F1Fields)
  | fpma (a : F1Fields)
  | fms (a : F1Fields)
  | fmsS (a : F1Fields)
  | fmsD (a : F1Fields)
  | fpms (a : F1Fields)
  | fnma (a : F1Fields)
  | fnmaS (a : F1Fields)
  | fnmaD (a : F1Fields)
  | fpnma (a : F1Fields)
  | frcpa (a : F6Fields)
  | frsqrta (a : F7Fields)
  | fprcpa (a : F6Fields)
  | fprsqrta (a : F7Fields)
  | fcvt (a : ConvFields)
  | fminmax (a : MinMaxFields)
  deriving DecidableEq, Repr, Inhabited

end Sys2Proof
end

