-- ==== Sys2Proof/WellFormed.lean ====
section
/-! DEFINITION. Well-formed instructions: those the spec gives an encoding. -/

namespace Sys2Proof

/-- An instruction is well formed when its row of spec/opcode_table.json has a `match` and a `mask`: the two class rows
have none (R37), so they exist only as decoded operations (R36). Every operand field is a bit vector of the width the
format gives it, so no operand can be out of range. -/
def Instr.wellFormed : Instr → Bool
  | .fma _ | .fmaS _ | .fmaD _ | .fpma _ => true
  | .fms _ | .fmsS _ | .fmsD _ | .fpms _ => true
  | .fnma _ | .fnmaS _ | .fnmaD _ | .fpnma _ => true
  | .frcpa _ | .frsqrta _ | .fprcpa _ | .fprsqrta _ => true
  | .fcvt _ => false
  | .fminmax _ => false

end Sys2Proof
end

