-- ==== Sys2Proof/Decode.lean ====
section
/-! DEFINITION. Decoding of 41-bit instruction slots by the table of 30_encoding.md section 3, and the encoder written
from the same table. The whole table is PRESUMED: the spec marks it as general knowledge (R37, GK9; log 7). -/

namespace Sys2Proof

/-- Why a slot is refused. -/
inductive DecodeError where
  /-- No row of spec/opcode_table.json matches (R38). -/
  | noRow
  deriving DecidableEq, Repr, Inhabited

/-- The operand fields of format F1. -/
def f1Fields (w : BitVec 41) : F1Fields where
  sf := w.extractLsb' 34 2
  f4 := w.extractLsb' 27 7
  f3 := w.extractLsb' 20 7
  f2 := w.extractLsb' 13 7
  f1 := w.extractLsb' 6 7
  qp := w.extractLsb' 0 6

/-- The operand fields of format F6. -/
def f6Fields (w : BitVec 41) : F6Fields where
  sf := w.extractLsb' 34 2
  p2 := w.extractLsb' 27 6
  f3 := w.extractLsb' 20 7
  f2 := w.extractLsb' 13 7
  f1 := w.extractLsb' 6 7
  qp := w.extractLsb' 0 6

/-- The operand fields of format F7; bits 19:13 are ignored. -/
def f7Fields (w : BitVec 41) : F7Fields where
  sf := w.extractLsb' 34 2
  p2 := w.extractLsb' 27 6
  f3 := w.extractLsb' 20 7
  f1 := w.extractLsb' 6 7
  qp := w.extractLsb' 0 6

/-- A row of the opcode table: its `match`, its `mask`, and the instruction it stands for. -/
structure Row where
  pattern : BitVec 41
  mask : BitVec 41
  build : BitVec 41 → Instr

/-- Whether a slot is the row's instruction. -/
def Row.hits (r : Row) (w : BitVec 41) : Bool := w &&& r.mask == r.pattern

/-- The sixteen encoded rows of spec/opcode_table.json, in its order. -/
def rows : List Row :=
  [⟨0x10000000000, 0x1f000000000, fun w => .fma (f1Fields w)⟩,
   ⟨0x11000000000, 0x1f000000000, fun w => .fmaS (f1Fields w)⟩,
   ⟨0x12000000000, 0x1f000000000, fun w => .fmaD (f1Fields w)⟩,
   ⟨0x13000000000, 0x1f000000000, fun w => .fpma (f1Fields w)⟩,
   ⟨0x14000000000, 0x1f000000000, fun w => .fms (f1Fields w)⟩,
   ⟨0x15000000000, 0x1f000000000, fun w => .fmsS (f1Fields w)⟩,
   ⟨0x16000000000, 0x1f000000000, fun w => .fmsD (f1Fields w)⟩,
   ⟨0x17000000000, 0x1f000000000, fun w => .fpms (f1Fields w)⟩,
   ⟨0x18000000000, 0x1f000000000, fun w => .fnma (f1Fields w)⟩,
   ⟨0x19000000000, 0x1f000000000, fun w => .fnmaS (f1Fields w)⟩,
   ⟨0x1a000000000, 0x1f000000000, fun w => .fnmaD (f1Fields w)⟩,
   ⟨0x1b000000000, 0x1f000000000, fun w => .fpnma (f1Fields w)⟩,
   ⟨0x00200000000, 0x1f200000000, fun w => .frcpa (f6Fields w)⟩,
   ⟨0x01200000000, 0x1f200000000, fun w => .frsqrta (f7Fields w)⟩,
   ⟨0x02200000000, 0x1f200000000, fun w => .fprcpa (f6Fields w)⟩,
   ⟨0x03200000000, 0x1f200000000, fun w => .fprsqrta (f7Fields w)⟩]

/-- Decode a slot: the first row that matches, or the refusal of R38. -/
def decode (w : BitVec 41) : Except DecodeError Instr :=
  match rows.find? (fun r => r.hits w) with
  | some r => .ok (r.build w)
  | none => .error .noRow

/-- A slot of format F1: opcode 40:37, x 36, sf 35:34, f4 33:27, f3 26:20, f2 19:13, f1 12:6, qp 5:0. -/
def slotF1 (opcode : BitVec 4) (x : BitVec 1) (a : F1Fields) : BitVec 41 :=
  opcode ++ x ++ a.sf ++ a.f4 ++ a.f3 ++ a.f2 ++ a.f1 ++ a.qp

/-- A slot of format F6: opcode 40:37, q 36, sf 35:34, x = 1 bit 33, p2 32:27, f3, f2, f1, qp. -/
def slotF6 (opcode : BitVec 4) (q : BitVec 1) (a : F6Fields) : BitVec 41 :=
  opcode ++ q ++ a.sf ++ (1#1) ++ a.p2 ++ a.f3 ++ a.f2 ++ a.f1 ++ a.qp

/-- A slot of format F7: as F6 with bits 19:13, which are ignored, written as zeros. -/
def slotF7 (opcode : BitVec 4) (q : BitVec 1) (a : F7Fields) : BitVec 41 :=
  opcode ++ q ++ a.sf ++ (1#1) ++ a.p2 ++ a.f3 ++ (0#7) ++ a.f1 ++ a.qp

/-- The slot of an instruction; none for the two class rows, which the spec gives no encoding (R37). -/
def encode : Instr → Option (BitVec 41)
  | .fma a => some (slotF1 8 0 a)
  | .fmaS a => some (slotF1 8 1 a)
  | .fmaD a => some (slotF1 9 0 a)
  | .fpma a => some (slotF1 9 1 a)
  | .fms a => some (slotF1 0xA 0 a)
  | .fmsS a => some (slotF1 0xA 1 a)
  | .fmsD a => some (slotF1 0xB 0 a)
  | .fpms a => some (slotF1 0xB 1 a)
  | .fnma a => some (slotF1 0xC 0 a)
  | .fnmaS a => some (slotF1 0xC 1 a)
  | .fnmaD a => some (slotF1 0xD 0 a)
  | .fpnma a => some (slotF1 0xD 1 a)
  | .frcpa a => some (slotF6 0 0 a)
  | .frsqrta a => some (slotF7 0 1 a)
  | .fprcpa a => some (slotF6 1 0 a)
  | .fprsqrta a => some (slotF7 1 1 a)
  | .fcvt _ => none
  | .fminmax _ => none

/-- The slot held by a table word: its low 41 bits. The bits above bit 40 of the byte-wide container are no part of
the instruction (log 7). -/
def tableSlot (w : Nat) : BitVec 41 := BitVec.ofNat 41 w

/-- The instruction read from a table word; `nbits` plays no part, since bits above it are 0. -/
def decodeTableWord (_nbits w : Nat) : Option Instr :=
  match decode (tableSlot w) with
  | .ok i => some i
  | .error _ => none

end Sys2Proof
end

