-- ==== Sys2Proof/Config.lean ====
section
/-! DEFINITION. The free values of the model: constants without a body, one for each point the spec leaves open. A claim
holds for every value of them. Counters they are applied to come from `State.draws`. -/

namespace Sys2Proof

/-- The open parameter NAN_QUIET of R76 (decision D13). -/
structure NanPolicy where
  /-- whether a propagated signaling NaN is quieted (its top fraction bit set) -/
  quiets : Bool
  /-- whether a signaling NaN operand signals Invalid Operation -/
  signals : Bool
  /-- the sign of the NaN an invalid operation delivers -/
  neg : Bool
  /-- the fraction below the top fraction bit of that NaN -/
  payload : BitVec 62
  /-- the same of a Parallel-FP element -/
  elemPayload : BitVec 22
  deriving DecidableEq, Repr, Inhabited

namespace Config

/-- SWA_REQUEST (R62, IM1): whether the implementation asks for software assistance, one draw per evaluation. -/
opaque swaRequest : Nat → Bool

/-- The flags after a Software Assist trap (R63, IM3): any value. -/
opaque swaFlags : Nat → Flags

/-- Whether an approximation instruction raises a Software Assist fault (R91). -/
opaque swaFault : Nat → Bool

/-- The bits of `ISR` an interruption leaves unspecified (R101, R104). -/
opaque isrBits : Nat → BitVec 64

/-- NAN_QUIET (R76). -/
opaque nanPolicy : NanPolicy

/-- Whether flag `v` of the status field is the one that records a signaled Invalid Operation (R22, D24). -/
opaque invalidSetsV : Bool

/-- Whether a minimum or maximum signals Invalid Operation on a quiet NaN operand (R82, R96). -/
opaque minMaxNaNSignals : Bool

/-- The precision the reserved encoding 1 of `sfx.pc` selects (R13). -/
opaque reservedPrecision : Precision

/-- The significand `frcpa` delivers for a divisor (R91), before the bound of R91 is applied. -/
opaque recipSig : Flt → BitVec 64

/-- The same of an element of `fprcpa` (R92). -/
opaque elemRecipSig : Elem → BitVec 24

/-- The operand pairs whose quotient software cannot safely iterate (R91). -/
opaque uniterable : Flt → Flt → Bool

/-- The same of elements (R92). -/
opaque elemUniterable : Elem → Elem → Bool

/-- The approximation `frsqrta` delivers (R93), for which the spec states no accuracy. -/
opaque rootApprox : Flt → Flt

/-- The same of an element of `fprsqrta` (R94). -/
opaque elemRootApprox : Elem → Elem

/-- The finite positive operands `frsqrta` treats as special cases (R93). -/
opaque rootSpecial : Flt → Bool

/-- The same of elements (R94). -/
opaque elemRootSpecial : Elem → Bool

/-- The predicate `p2` where R91 to R94 do not say it: elements that disagree, or a nullified instruction. -/
opaque helperPred : Nat → Bool

end Config

end Sys2Proof
end

