-- ==== Sys2Proof/Machine/Params.lean ====
section
/-! DEFINITION. The numbered parameters of R7 at their defaults, and the destination formats of R19. -/

namespace Sys2Proof.Machine

/-- REG_BIAS (R7): the bias of the register-format exponent. -/
def regBias : Int := 65535

/-- PFP_BIAS (R7): the bias of an element's exponent. -/
def pfpBias : Int := 127

/-- ISR_O_BIT, ISR_U_BIT, ISR_I_BIT, ISR_FPA_BIT (R7, R14): normal operation or low element. -/
def isrO : Nat := 11
def isrU : Nat := 12
def isrI : Nat := 13
def isrFpa : Nat := 14

/-- The same of the high element (R14, R65). -/
def isrHighO : Nat := 7
def isrHighU : Nat := 8
def isrHighI : Nat := 9
def isrHighFpa : Nat := 10

/-- INT_WIDTH (R7): the integer of a normal and of a Parallel-FP conversion. -/
abbrev intWidth : Nat := 64
abbrev elemIntWidth : Nat := 32

/-- A destination format `FMT = (P, EMIN, EMAX)` (R19). -/
structure Fmt where
  p : Nat
  emin : Int
  emax : Int
  deriving DecidableEq, Repr, Inhabited

/-- The rows of R19. -/
def fmtSingle : Fmt := ⟨24, -126, 127⟩
def fmtDouble : Fmt := ⟨53, -1022, 1023⟩
def fmtExtended : Fmt := ⟨64, -16382, 16383⟩
def fmtRegister : Fmt := ⟨64, -65534, 65535⟩

/-- The significand bits of a precision. -/
def precisionBits : Precision → Nat
  | .single => 24
  | .double => 53
  | .extended => 64

/-- The format row of a precision with its own exponent range. -/
def precisionFmt : Precision → Fmt
  | .single => fmtSingle
  | .double => fmtDouble
  | .extended => fmtExtended

/-- The operations whose exact results pass through the exception stage: the three fused operations (R85 to R90), and
the IEEE quotient and square root an approximation instruction delivers in special cases (R91, R93). -/
inductive ArithOp where
  | fma
  | fms
  | fnma
  | quotient
  | root
  deriving DecidableEq, Repr, Inhabited

/-- OVF_RESULT (R47): whether the disabled overflow response is an infinity (else the maximum finite value). The
operation is kept as an argument, as R47 asks. -/
def ovfIsInfinity (rc : RoundMode) (neg : Bool) (_op : ArithOp) : Bool :=
  match rc with
  | .rn => true
  | .rz => false
  | .rp => !neg
  | .rm => neg

/-- Interruption vector offsets (R100). -/
def vectorDisabledFp : BitVec 64 := 0x5500
def vectorFpFault : BitVec 64 := 0x5c00
def vectorFpTrap : BitVec 64 := 0x5d00

end Sys2Proof.Machine
end

