-- ==== Sys2Proof/Machine/Flags.lean ====
section
/-! DEFINITION. The bits of FPSR (R13) and of ISR (R14): controls, flags, and the codes an interruption records. -/

namespace Sys2Proof.Machine

/-- Write one bit of a word. -/
def putBit (w : BitVec 64) (n : Nat) (b : Bool) : BitVec 64 :=
  if b then w ||| BitVec.twoPow 64 n else w &&& ~~~ BitVec.twoPow 64 n

/-- The lowest bit of status field `sf` (R13): sf0 at 6, sf1 at 19, sf2 at 32, sf3 at 45. -/
def sfBase (sf : SfNum) : Nat := 6 + 13 * sf.toNat

/-- Bit `k` of status field `sf`. -/
def sfBit (fpsr : BitVec 64) (sf : SfNum) (k : Nat) : Bool := fpsr.getLsbD (sfBase sf + k)

/-- The rounding mode encoded by `sfx.rc` (R13). -/
def rcMode (hi lo : Bool) : RoundMode :=
  match hi, lo with
  | false, false => .rn
  | false, true => .rm
  | true, false => .rp
  | true, true => .rz

/-- The precision encoded by `sfx.pc` (R13); encoding 1 is reserved and selects a free precision (log 20). -/
def pcPrecision (hi lo : Bool) : Precision :=
  match hi, lo with
  | false, false => .single
  | false, true => Config.reservedPrecision
  | true, false => .double
  | true, true => .extended

/-- The controls of one operation (R12, R13), with the enables of the Denormal Operand and Zero Divide faults beside
them (R102, GK22). -/
structure Controls where
  ovfEn : Bool
  unfEn : Bool
  inxEn : Bool
  invEn : Bool
  denEn : Bool
  zdvEn : Bool
  ftz : Bool
  rc : RoundMode
  deriving DecidableEq, Repr, Inhabited

/-- The controls status field `sf` gives (R13): an exception is enabled iff its bit of `traps` and `sfx.td` are 0. -/
def controlsOf (fpsr : BitVec 64) (sf : SfNum) : Controls where
  ovfEn := !fpsr.getLsbD 3 && !sfBit fpsr sf 6
  unfEn := !fpsr.getLsbD 4 && !sfBit fpsr sf 6
  inxEn := !fpsr.getLsbD 5 && !sfBit fpsr sf 6
  invEn := !fpsr.getLsbD 0 && !sfBit fpsr sf 6
  denEn := !fpsr.getLsbD 1 && !sfBit fpsr sf 6
  zdvEn := !fpsr.getLsbD 2 && !sfBit fpsr sf 6
  ftz := sfBit fpsr sf 0
  rc := rcMode (sfBit fpsr sf 5) (sfBit fpsr sf 4)

/-- `sfx.wre` (R13). -/
def wreOf (fpsr : BitVec 64) (sf : SfNum) : Bool := sfBit fpsr sf 1

/-- The precision `sfx.pc` selects (R13). -/
def pcOf (fpsr : BitVec 64) (sf : SfNum) : Precision := pcPrecision (sfBit fpsr sf 3) (sfBit fpsr sf 2)

/-- The flags `o`, `u`, `i` of a status field (R11, R13). -/
def flagsOf (fpsr : BitVec 64) (sf : SfNum) : Flags := ⟨sfBit fpsr sf 10, sfBit fpsr sf 11, sfBit fpsr sf 12⟩

/-- Write the flags `o`, `u`, `i` of a status field (R11). -/
def putFlags (fpsr : BitVec 64) (sf : SfNum) (f : Flags) : BitVec 64 :=
  putBit (putBit (putBit fpsr (sfBase sf + 10) f.o) (sfBase sf + 11) f.u) (sfBase sf + 12) f.i

/-- Set bit `n` if `b`, else leave it: the `|=` of R8 on one bit. -/
def orBit (w : BitVec 64) (n : Nat) (b : Bool) : BitVec 64 := if b then putBit w n true else w

/-- The flags of exceptions signaled with the fault disabled: `d` and `z` are set (R102, GK22); whether `v` is the flag
that records Invalid Operation is free (R22, log 18). -/
def recordSignals (fpsr : BitVec 64) (sf : SfNum) (g : Signals) : BitVec 64 :=
  orBit (orBit (orBit fpsr (sfBase sf + 7) (g.v && Config.invalidSetsV)) (sfBase sf + 8) g.d) (sfBase sf + 9) g.z

/-- The signals whose fault is enabled (R70, R102); a Software Assist fault has no enable. -/
def enabledSignals (c : Controls) (g : Signals) : Signals :=
  ⟨g.v && c.invEn, g.d && c.denEn, g.z && c.zdvEn, g.swa⟩

/-- Write the group of the low element, or of a normal operation, of a trap's `ISR.code` (R14). -/
def putTrapLow (w : BitVec 64) (t : TrapCode) : BitVec 64 :=
  putBit (putBit (putBit (putBit w isrO t.o) isrU t.u) isrI t.i) isrFpa t.fpa

/-- Write the high element's group (R14, R65). -/
def putTrapHigh (w : BitVec 64) (t : TrapCode) : BitVec 64 :=
  putBit (putBit (putBit (putBit w isrHighO t.o) isrHighU t.u) isrHighI t.i) isrHighFpa t.fpa

/-- `ISR` after a Floating-point Exception trap: bit 0 marks a Floating-point trap (GK6), the groups report the elements,
every other bit is a bit of `free` (R101). -/
def isrOfTrap (free : BitVec 64) (low : TrapCode) (high : Option TrapCode) : BitVec 64 :=
  let w := putTrapLow (putBit free 0 true) low
  match high with
  | none => w
  | some t => putTrapHigh w t

/-- Write the four fault kinds V, D, Z, SWA at bits `base` to `base + 3` (R102, GK22). -/
def putFault (w : BitVec 64) (base : Nat) (g : Signals) : BitVec 64 :=
  putBit (putBit (putBit (putBit w base g.v) (base + 1) g.d) (base + 2) g.z) (base + 3) g.swa

/-- `ISR` after a Floating-point Exception fault: kinds in `ISR.code{3:0}`, the high element's in `{7:4}` (R102). -/
def isrOfFault (free : BitVec 64) (low : Signals) (high : Option Signals) : BitVec 64 :=
  let w := putFault free 0 low
  match high with
  | none => w
  | some g => putFault w 4 g

end Sys2Proof.Machine
end

