-- ==== Sys2Proof/Machine/Exact.lean ====
section
/-! DEFINITION. Exact arithmetic on magnitudes and the two roundings of R8. -/

namespace Sys2Proof.Machine

/-- A positive magnitude, kept exact: a rational times a power of two, or the square root of a binary number. -/
inductive Mag where
  /-- `num / den * 2^exp` -/
  | ratio (num den : Nat) (exp : Int)
  /-- the square root of `num * 2^exp` -/
  | root (num : Nat) (exp : Int)
  deriving DecidableEq, Repr, Inhabited

/-- What is left of a magnitude below a grid point, against half the grid step. -/
inductive Tail where
  | exact
  | below
  | tie
  | above
  deriving DecidableEq, Repr, Inhabited

/-- Compare a remainder `r` of a division by `d` with half of `d`. -/
def tailOf (r d : Nat) : Tail :=
  if r = 0 then .exact
  else if 2 * r < d then .below
  else if 2 * r = d then .tie
  else .above

/-- Numerator and denominator of `num / den * 2^e`, with no exponent left. -/
def scaled (num den : Nat) (e : Int) : Nat × Nat := (num <<< e.toNat, den <<< (-e).toNat)

/-- The integer square root, one bit at a time from bit `k - 1` down. -/
def isqrtFrom (n : Nat) : Nat → Nat → Nat
  | 0, r => r
  | k + 1, r => isqrtFrom n k (if (r + 2 ^ k) * (r + 2 ^ k) ≤ n then r + 2 ^ k else r)

/-- The integer square root of `n`. -/
def isqrt (n : Nat) : Nat := isqrtFrom n (Nat.log2 n / 2 + 1) 0

/-- The tail of a square root: `n + rem / den` is the operand, `k` the root of its integer part; half way is the square
`k * k + k + 1/4`. -/
def rootTail (n rem den k : Nat) : Tail :=
  if n = k * k ∧ rem = 0 then .exact
  else if n < k * k + k then .below
  else if n > k * k + k then .above
  else if 4 * rem < den then .below
  else if 4 * rem = den then .tie
  else .above

/-- The largest multiple of `2^g` not above the magnitude, as a multiple, and what is left of it. -/
def Mag.quantize (m : Mag) (g : Int) : Nat × Tail :=
  match m with
  | .ratio num den e =>
    let nd := scaled num den (e - g)
    (nd.1 / nd.2, tailOf (nd.1 % nd.2) nd.2)
  | .root num e =>
    let nd := scaled num 1 (e - 2 * g)
    let n := nd.1 / nd.2
    let k := isqrt n
    (k, rootTail n (nd.1 % nd.2) nd.2 k)

/-- The integer `e` with `2^e <= m < 2^(e+1)` (R8). -/
def Mag.ilog (m : Mag) : Int :=
  match m with
  | .ratio num den e =>
    let d : Int := (Nat.log2 num : Int) - (Nat.log2 den : Int)
    let nd := scaled num den (-d)
    if nd.2 ≤ nd.1 then d + e else d - 1 + e
  | .root num e => ((Nat.log2 num : Int) + e) / 2

/-- Whether rounding in direction `rc` increments the magnitude of a value of sign `neg` (R8). -/
def roundsUp (rc : RoundMode) (neg odd : Bool) : Tail → Bool
  | .exact => false
  | .below =>
    match rc with
    | .rn => false
    | .rz => false
    | .rp => !neg
    | .rm => neg
  | .tie =>
    match rc with
    | .rn => odd
    | .rz => false
    | .rp => !neg
    | .rm => neg
  | .above =>
    match rc with
    | .rn => true
    | .rz => false
    | .rp => !neg
    | .rm => neg

/-- A magnitude rounded to a multiple of `2^g`: the multiple, `t_i` and `t_fpa` (R8). -/
structure Quantized where
  k : Nat
  i : Bool
  fpa : Bool
  deriving DecidableEq, Repr, Inhabited

/-- Round a magnitude to a multiple of `2^g` in direction `rc`. -/
def roundToGrid (m : Mag) (g : Int) (rc : RoundMode) (neg : Bool) : Quantized :=
  let q := m.quantize g
  let up := roundsUp rc neg (q.1 % 2 == 1) q.2
  ⟨if up then q.1 + 1 else q.1, q.2 != .exact, up⟩

/-- The result of `round_unbounded` (R8): unbiased exponent, `P`-bit significand as an integer, `t_i`, `t_fpa`. -/
structure Rounded where
  exp : Int
  sig : Nat
  i : Bool
  fpa : Bool
  deriving DecidableEq, Repr, Inhabited

/-- `round_unbounded(v, P, RC)` of R8 on the magnitude and sign of `v`. -/
def roundUnbounded (m : Mag) (p : Nat) (rc : RoundMode) (neg : Bool) : Rounded :=
  let e := m.ilog
  let q := roundToGrid m (e - ((p : Int) - 1)) rc neg
  if q.k = 2 ^ p then ⟨e + 1, 2 ^ (p - 1), q.i, q.fpa⟩ else ⟨e, q.k, q.i, q.fpa⟩

/-- `round_bounded(v, P, EMIN, RC)` of R8: a multiple of `2^(EMIN - (P - 1))`. -/
def roundBounded (m : Mag) (p : Nat) (emin : Int) (rc : RoundMode) (neg : Bool) : Quantized :=
  roundToGrid m (emin - ((p : Int) - 1)) rc neg

end Sys2Proof.Machine
end

