-- ==== Sys2Proof/Machine/Operands.lean ====
section
/-! DEFINITION. Operand forms: the value a register or an element holds (R17, R20), the destination format of an
operation (R19), NaN classification and priority (R74, R75), and the image of a delivered result. -/

namespace Sys2Proof.Machine

/-- A numeric operand: an infinity, or the finite value `(-1)^neg * mag * 2^exp`. -/
inductive Numeric where
  | inf (neg : Bool)
  | fin (neg : Bool) (mag : Nat) (exp : Int)
  deriving DecidableEq, Repr, Inhabited

/-- What an operand's encoding stands for (R18). `unsupported` is an encoding R17 gives no value (log 16). -/
inductive Operand where
  | natVal
  | unsupported
  | nan (quiet : Bool)
  | num (x : Numeric)
  deriving DecidableEq, Repr, Inhabited

/-- The value `NaTVal`: sign 0, exponent 0x1FFFE, significand 0 (R17, R77). -/
def natVal : Flt := ⟨false, 0x1FFFE, 0⟩

/-- The class and value of a register (R17, R74). -/
def classifyReg (r : Flt) : Operand :=
  if r = natVal then .natVal
  else if r.exp = 0x1FFFF then
    if r.sigBit 63 then
      if r.sig = 0x8000000000000000 then .num (.inf r.neg) else .nan (r.sigBit 62)
    else .unsupported
  else
    let e : Int := if r.exp = 0 then -65534 else (r.exp.toNat : Int) - regBias
    .num (.fin r.neg r.sig.toNat (e - 63))

/-- A denormal or unnormal register operand: finite, non-zero, integer bit 0 (R102, R17; log 19). DESIGN CHOICE (log 19),
unsafe: exponent field 0 with integer bit 1, which R17's words call a register-format denormal and whose magnitude is at least
`2^(-65534)`, so a normal one by R9's glossary, is not counted. -/
def unnormalReg (r : Flt) : Bool :=
  r.exp != 0x1FFFF && !r.sigBit 63 && r.sig != 0

/-- The class and value of an element (R20, R74). -/
def classifyElem (x : Elem) : Operand :=
  let neg := x.getLsbD 31
  let e := (x.extractLsb' 23 8).toNat
  let f := (x.extractLsb' 0 23).toNat
  if e = 255 then
    if f = 0 then .num (.inf neg) else .nan (x.getLsbD 22)
  else if e = 0 then .num (.fin neg f (-149))
  else .num (.fin neg (2 ^ 23 + f) ((e : Int) - pfpBias - 23))

/-- A denormal element operand. -/
def unnormalElem (x : Elem) : Bool :=
  x.extractLsb' 23 8 == 0 && x.extractLsb' 0 23 != 0

/-- The low and the high element of a Parallel-FP register (R20). -/
def lowElem (r : Flt) : Elem := r.sig.extractLsb' 0 32
def highElem (r : Flt) : Elem := r.sig.extractLsb' 32 32

/-- A register image holding a 64-bit integer or two elements: sign 0, exponent field 0x1003E (R20; log 23, log 28). -/
def intReg (w : BitVec 64) : Flt := ⟨false, 0x1003E, w⟩

/-- A Parallel-FP register of two elements. -/
def packElems (high low : Elem) : Flt := intReg (high ++ low)

/-- The destination format (R19, GK13): the completer fixes the precision, or `sfx.pc` does; `sfx.wre` widens the
exponent range to the register format's; without a completer the narrow range is double-extended's. -/
def fmtOf (completer : Option Precision) (pc : Precision) (wre : Bool) : Fmt :=
  let row := match completer with
    | some c => precisionFmt c
    | none => { fmtExtended with p := precisionBits pc }
  if wre then { fmtRegister with p := row.p } else row

/-- A result as the exception stage delivers it (R66), before it is given an image. -/
inductive Delivered where
  | infinity (neg : Bool)
  | zero (neg : Bool)
  /-- MAXREAL of the destination format (R8) -/
  | maxReal (neg : Bool)
  /-- exponent `exp + BIAS` MOD `2^W` and a normalised `P`-bit significand: the in-range result (R59), and the
  wrapped-exponent response (R48, R53) -/
  | rounded (neg : Bool) (exp : Int) (sig : Nat)
  /-- the multiple `k` of `2^(EMIN - (P - 1))` (R52): zero, denormal or the smallest normal -/
  | bounded (neg : Bool) (k : Nat)
  deriving DecidableEq, Repr, Inhabited

/-- A `P`-bit significand left-aligned in 64 bits (R17). -/
def alignSig (p k : Nat) : BitVec 64 := BitVec.ofNat 64 (k * 2 ^ (64 - p))

/-- The 17-bit field of an unbiased exponent: the true biased exponent MOD `2^17` (R48, decision D5). -/
def regExpField (e : Int) : BitVec 17 := BitVec.ofInt 17 (e + regBias)

/-- The exponent field a denormal is held with (R17): that of EMIN, or 0 in the register format (log 22). -/
def denormalExpField (emin : Int) : BitVec 17 := if emin = -65534 then 0 else regExpField emin

/-- The register image of a result (R17). -/
def encodeReg (fmt : Fmt) : Delivered → Flt
  | .infinity s => ⟨s, 0x1FFFF, 0x8000000000000000⟩
  | .zero s => ⟨s, 0, 0⟩
  | .maxReal s => ⟨s, regExpField fmt.emax, alignSig fmt.p (2 ^ fmt.p - 1)⟩
  | .rounded s e k => ⟨s, regExpField e, alignSig fmt.p k⟩
  | .bounded s k =>
    if k = 0 then ⟨s, 0, 0⟩
    else if k = 2 ^ (fmt.p - 1) then ⟨s, regExpField fmt.emin, alignSig fmt.p k⟩
    else ⟨s, denormalExpField fmt.emin, alignSig fmt.p k⟩

/-- A 32-bit element from its sign, 8-bit exponent field and 23-bit fraction (R20). -/
def elemOf (neg : Bool) (e : BitVec 8) (f : BitVec 23) : Elem := BitVec.ofBool neg ++ e ++ f

/-- The element image of a result (R64); a wrapped exponent is taken MOD `2^8`. -/
def encodeElem : Delivered → Elem
  | .infinity s => elemOf s 0xFF 0
  | .zero s => elemOf s 0 0
  | .maxReal s => elemOf s 0xFE 0x7FFFFF
  | .rounded s e k => elemOf s (BitVec.ofInt 8 (e + pfpBias)) (BitVec.ofNat 23 k)
  | .bounded s k => elemOf s (if k = 2 ^ 23 then 1 else 0) (BitVec.ofNat 23 k)

/-- How values of one kind are held: in a register under a destination format, or in an element. The arithmetic of both
kinds is written once over this record. -/
structure Carrier (α : Type) where
  fmt : Fmt
  classify : α → Operand
  unnormal : α → Bool
  /-- the NaN with its top fraction bit set (R76) -/
  quieted : α → α
  /-- the NaN an invalid operation delivers (R76) -/
  defaultNaN : α
  encode : Delivered → α

/-- Registers under a destination format (R17). -/
def regCarrier (fmt : Fmt) : Carrier Flt where
  fmt := fmt
  classify := classifyReg
  unnormal := unnormalReg
  quieted r := { r with sig := r.sig ||| BitVec.twoPow 64 62 }
  defaultNaN := ⟨Config.nanPolicy.neg, 0x1FFFF, (3#2) ++ Config.nanPolicy.payload⟩
  encode := encodeReg fmt

/-- Elements of a Parallel-FP register (R20). -/
def elemCarrier : Carrier Elem where
  fmt := fmtSingle
  classify := classifyElem
  unnormal := unnormalElem
  quieted x := x ||| BitVec.twoPow 32 22
  defaultNaN := elemOf Config.nanPolicy.neg 0xFF ((1#1) ++ Config.nanPolicy.elemPayload)
  encode := encodeElem

/-- Whether an operand is a NaN. -/
def Operand.isNaN : Operand → Bool
  | .nan _ => true
  | _ => false

/-- Whether an operand is a signaling NaN (R74). -/
def Operand.isSignaling : Operand → Bool
  | .nan quiet => !quiet
  | _ => false

/-- Whether an operand is an encoding without a value. -/
def Operand.isUnsupported : Operand → Bool
  | .unsupported => true
  | _ => false

/-- The NaN operand that is propagated: the first in the priority order of the encoding fields (R75). -/
def chooseNaN {α : Type} (C : Carrier α) (byPriority : List α) : Option α :=
  byPriority.find? fun x => (C.classify x).isNaN

end Sys2Proof.Machine
end

