-- ==== Sys2Proof/Machine/Stage.lean ====
section
/-! DEFINITION. The floating-point exception stage `fp_stage` of R66, on exact results. -/

namespace Sys2Proof.Machine

/-- An exact result: the outcomes of "Pre-computed Res?" (R55), or a finite non-zero value. -/
inductive Precise where
  | inf (neg : Bool)
  | zero (neg : Bool)
  | value (neg : Bool) (m : Mag)
  deriving DecidableEq, Repr, Inhabited

/-- The inputs of the stage beside the exact result (R66). -/
structure StageEnv where
  ctl : Controls
  fmt : Fmt
  op : ArithOp
  /-- the draw of SWA_REQUEST (R62) -/
  swa : Bool
  deriving DecidableEq, Repr, Inhabited

/-- The outcome of the stage (R66). The new flags are `old OR sets`, or, when `freed`, `any value OR sets` (R63). -/
structure StageOut where
  dest : Delivered
  sets : Flags
  freed : Bool
  trap : Option TrapCode
  deriving DecidableEq, Repr, Inhabited

/-- Ending DONE with no flag changed. -/
def stageDone (dest : Delivered) : StageOut := ⟨dest, {}, false, none⟩

/-- The inexact tail (R60): FLAGS.i is set, and the inexact trap is raised if it is enabled. -/
def inexactTail (c : Controls) (dest : Delivered) (sets : Flags) (fpa : Bool) : StageOut :=
  ⟨dest, { sets with i := true }, false, if c.inxEn then some { i := true, fpa := fpa } else none⟩

/-- Branch ">Emax" (R57): the enabled response (R48), the Software Assist trap (R62, R63), or the disabled response
(R46) and the inexact tail. -/
def overflowStage (v : StageEnv) (neg : Bool) (r : Rounded) : StageOut :=
  if v.ctl.ovfEn then
    ⟨.rounded neg r.exp r.sig, { o := true, i := r.i }, false, some { o := true, i := r.i, fpa := r.fpa }⟩
  else if v.swa then
    ⟨.rounded neg r.exp r.sig, {}, true, some { o := true, i := r.i, fpa := r.fpa }⟩
  else
    let toInf := ovfIsInfinity v.ctl.rc neg v.op
    inexactTail v.ctl (if toInf then .infinity neg else .maxReal neg) { o := true } toInf

/-- Branch "<Emin" (R58): the enabled response (R53) before the Flush-to-Zero test (decision D3), the Software Assist
trap, Flush-to-Zero (R54), or the disabled response rounded again from the exact value (R52). -/
def tinyStage (v : StageEnv) (neg : Bool) (m : Mag) (r : Rounded) : StageOut :=
  if v.ctl.unfEn then
    ⟨.rounded neg r.exp r.sig, { u := true, i := r.i }, false, some { u := true, i := r.i, fpa := r.fpa }⟩
  else if v.ctl.ftz then
    inexactTail v.ctl (.zero neg) { u := true } false
  else if v.swa then
    ⟨.rounded neg r.exp r.sig, {}, true, some { u := true, i := r.i, fpa := r.fpa }⟩
  else
    let q := roundBounded m v.fmt.p v.fmt.emin v.ctl.rc neg
    if q.i then inexactTail v.ctl (.bounded neg q.k) { u := true } q.fpa
    else stageDone (.bounded neg q.k)

/-- Branch ">=Emin <=Emax" (R59): exact, Software Assist at the inexact point (R62, R63), or the inexact tail. -/
def inRangeStage (v : StageEnv) (neg : Bool) (r : Rounded) : StageOut :=
  if !r.i then stageDone (.rounded neg r.exp r.sig)
  else if !v.ctl.inxEn && v.swa then
    ⟨.rounded neg r.exp r.sig, {}, true, some { i := true, fpa := r.fpa }⟩
  else inexactTail v.ctl (.rounded neg r.exp r.sig) {} r.fpa

/-- The three-way split after unbounded-range rounding (R56). -/
def valueStage (v : StageEnv) (neg : Bool) (m : Mag) : StageOut :=
  let r := roundUnbounded m v.fmt.p v.ctl.rc neg
  if v.fmt.emax < r.exp then overflowStage v neg r
  else if r.exp < v.fmt.emin then tinyStage v neg m r
  else inRangeStage v neg r

/-- `fp_stage` (R66). -/
def fpStage (v : StageEnv) : Precise → StageOut
  | .inf s => stageDone (.infinity s)
  | .zero s => stageDone (.zero s)
  | .value s m => valueStage v s m

/-- Software's recovery of the true exponent on an overflow trap (R84): the least integer congruent to `Exp - REG_BIAS`
modulo `2^17` that is greater than EMAX. -/
def recoverOverflowExp (fmt : Fmt) (field : BitVec 17) : Int :=
  fmt.emax + 1 + ((field.toNat : Int) - regBias - (fmt.emax + 1)) % 2 ^ 17

/-- The same on an underflow trap (R84): the greatest such integer less than EMIN. -/
def recoverUnderflowExp (fmt : Fmt) (field : BitVec 17) : Int :=
  fmt.emin - 1 - ((fmt.emin - 1) - ((field.toNat : Int) - regBias)) % 2 ^ 17

end Sys2Proof.Machine
end

