-- ==== Sys2Proof/Machine/State.lean ====
section
/-! DEFINITION. The machine state as plain data, its reset value, and the named reasons a step can stop. -/

namespace Sys2Proof.Machine

/-- An entry of the program list: a decoded operation (R36), or a 41-bit slot (30_encoding.md section 3). -/
inductive Entry where
  | op (i : Instr)
  | slot (w : BitVec 41)
  deriving DecidableEq, Repr, Inhabited

/-- The processor status bits the rules name: `dfl`, `dfh` (R104), interruption collection `ic`, interrupt enable `i`
and the privilege level (R107). The spec gives them no bit positions. PRESUMED (log 9), unsafe: the privilege level is 2
bits wide, so four levels, as in the family; the spec names level 0 alone (R107, GK15), and R110 gives no number of levels. -/
structure Psr where
  dfl : Bool
  dfh : Bool
  ic : Bool
  i : Bool
  cpl : BitVec 2
  deriving DecidableEq, Repr, Inhabited

/-- Everything the spec gives the machine (INVENTORY.md, '## State'). -/
structure State where
  /-- f0 to f127 (R17); f0 and f1 are read through `readF` only -/
  fr : Vector Flt 128
  /-- predicate registers; p0 is read through `readP` only (30_encoding.md section 3) -/
  pr : BitVec 64
  /-- FPSR (R10, R13) -/
  fpsr : BitVec 64
  /-- ISR (R14) -/
  isr : BitVec 64
  /-- processor status (R104, R107) -/
  psr : Psr
  /-- saved processor status (R107) -/
  ipsr : Psr
  /-- saved instruction position (R107, R25) -/
  iip : Nat
  /-- interruption vector table address (R107) -/
  iva : BitVec 64
  /-- the program: a fixed list of operations (R34, R36) -/
  program : List Entry
  /-- position in the program (R25) -/
  pos : Nat
  /-- the interruption vector control has gone to, if any (R107) -/
  handler : Option (BitVec 64)
  /-- the event record of R22, D24: what the last completed operation signaled with the fault disabled -/
  signaled : Signals
  /-- the model's own counter, which indexes the free values of Config -/
  draws : Nat
  deriving DecidableEq, Repr

/-- The processor status at reset: all clear (PRESUMED, log 5). -/
def Psr.reset : Psr := ⟨false, false, false, false, 0⟩

/-- The machine at reset. The spec states no reset value (R29, R115): every value here is named in log 5 and log 6. -/
def State.reset : State where
  fr := Vector.replicate 128 ⟨false, 0, 0⟩
  pr := 0
  fpsr := 0x0009804C0270033F
  isr := 0
  psr := Psr.reset
  ipsr := Psr.reset
  iip := 0
  iva := 0
  program := []
  pos := 0
  handler := none
  signaled := {}
  draws := 0

/-- Why the machine stops with a fault. -/
inductive Fault where
  /-- Raised by any instruction whose destination is f0 or f1: "writes to them fault" (R17), with no interruption
  named. Safe: the machine stops. -/
  | hardwiredRegisterWrite
  /-- Raised by the step when the position is past the last operation: the run has ended Done (R119). Safe. -/
  | runEnded
  deriving DecidableEq, Repr

/-- Why the model gives no meaning. -/
inductive Refusal where
  /-- An instruction of the table not reached yet. Safe. -/
  | notModelled (mnemonic : String)
  /-- Raised by the step on a slot that is no row of spec/opcode_table.json (R38). Safe. -/
  | notInTable
  /-- Raised by the step when control is at an interruption vector: what stands there is not in the spec and the run
  ends (R107, R119, D10). Safe. -/
  | handlerCode
  deriving DecidableEq, Repr

end Sys2Proof.Machine
end

