-- ==== Sys2Proof/Machine/Ops.lean ====
section
/-! DEFINITION. The named operations over the state: registers, predicates, the position, taking an interruption, and the
one completion of every floating-point instruction. -/

namespace Sys2Proof.Machine

/-- Read a floating-point register: f0 reads +0.0 and f1 reads +1.0 (R17). -/
def State.readF (s : State) (n : RegNum) : Flt :=
  if n = 0 then ⟨false, 0, 0⟩
  else if n = 1 then ⟨false, 0xFFFF, 0x8000000000000000⟩
  else s.fr[n.toNat]'n.isLt

/-- Write a floating-point register other than f0 and f1; a write to those is stopped before (`guarded`). -/
def State.writeF (s : State) (n : RegNum) (x : Flt) : State := { s with fr := s.fr.set n.toNat x n.isLt }

/-- Read a predicate register: p0 is always true (30_encoding.md section 3). -/
def State.readP (s : State) (n : PredNum) : Bool := n == 0 || s.pr.getLsbD n.toNat

/-- Write a predicate register; a write to p0 is discarded. -/
def State.writeP (s : State) (n : PredNum) (b : Bool) : State :=
  if n = 0 then s else { s with pr := putBit s.pr n.toNat b }

/-- Write the predicate an approximation instruction names, if there is one. -/
def State.writeOptP (s : State) (n : Option PredNum) (b : Bool) : State :=
  match n with
  | none => s
  | some p => s.writeP p b

/-- FP_REG_DISABLED (R104): `dfl` disables f2 to f31, `dfh` disables f32 to f127 (GK20). -/
def State.fpDisabled (s : State) (n : RegNum) : Bool :=
  (s.psr.dfl && decide (2 ≤ n.toNat ∧ n.toNat ≤ 31)) || (s.psr.dfh && decide (32 ≤ n.toNat))

/-- The next operation of the list (R25). -/
def State.advance (s : State) : State := { s with pos := s.pos + 1 }

/-- Move on to fresh free values: two a step, one for each element. -/
def State.tick (s : State) : State := { s with draws := s.draws + 2 }

/-- The three interruptions of R100 (a Software Assist trap is a Floating-point Exception trap). -/
inductive Interruption where
  | disabledFpRegister
  | fpFault
  | fpTrap
  deriving DecidableEq, Repr

/-- The vector offset of an interruption (R100, GK19). -/
def vectorOf : Interruption → BitVec 64
  | .disabledFpRegister => vectorDisabledFp
  | .fpFault => vectorFpFault
  | .fpTrap => vectorFpTrap

/-- The position an interruption records (R107, GK15): a fault the faulting instruction, a trap the next. -/
def State.savedPos (s : State) : Interruption → Nat
  | .disabledFpRegister => s.pos
  | .fpFault => s.pos
  | .fpTrap => s.pos + 1

/-- TAKING AN INTERRUPTION (R107, GK15): the position in IIP, the status in IPSR, ISR written, interruption collection and
interrupt enable cleared, privilege level 0, control at the vector of the table IVA addresses. DESIGN CHOICE (log 9), unsafe:
`dfl` and `dfh`, the rest of the processor status, stay as they were; R107 leaves open what is masked on entry, and GK15 names
only the interruption collection, the interrupt enable and the privilege level. -/
def State.interrupt (s : State) (kind : Interruption) (isr : BitVec 64) : State :=
  { s with
    isr := isr
    iip := s.savedPos kind
    ipsr := s.psr
    psr := { s.psr with ic := false, i := false, cpl := 0 }
    handler := some (s.iva + vectorOf kind)
    draws := s.draws + 2 }

/-- The outcome type of every meaning. -/
abbrev Result := Host.Outcome State Fault Refusal

/-- What every instruction does before its own effect: nullified when the qualifying predicate is false; then the
Disabled Floating-point Register fault, before any other effect (R104); then the fault of a write to f0 or f1 (R17). -/
def State.guarded (s : State) (qp : PredNum) (p2 : Option PredNum) (f1 : RegNum) (srcs : List RegNum)
    (own : Result) : Result :=
  if !s.readP qp then .next ((s.writeOptP p2 (Config.helperPred s.draws)).advance.tick)
  else if (f1 :: srcs).any s.fpDisabled then .next (s.interrupt .disabledFpRegister (Config.isrBits s.draws))
  else if f1 = 0 ∨ f1 = 1 then .fault .hardwiredRegisterWrite
  else own

/-- What one element, or a normal operation, reports beside its value. -/
structure Report where
  /-- flags it sets (R57 to R60) -/
  sets : Flags := {}
  /-- it ended in a Software Assist trap, after which the flags are any value (R63) -/
  freed : Bool := false
  /-- the trap it raises (R66) -/
  trap : Option TrapCode := none
  /-- what it signals before the stage (R70, R102) -/
  signals : Signals := {}
  /-- it delivered an approximation (R91 to R94) -/
  approx : Bool := false
  deriving DecidableEq, Repr, Inhabited

/-- The value of an element or of a normal operation, with its report. -/
structure ElemResult (α : Type) where
  value : α
  report : Report

/-- The flags after an operation (R11, R63, R65): the elements' updates ORed into the old flags, or into any value after a
Software Assist trap. -/
def newFlags (old free : Flags) (low : Report) (high : Option Report) : Flags :=
  match high with
  | none => (if low.freed then free else old).or low.sets
  | some h => (if low.freed || h.freed then free else old).or (low.sets.or h.sets)

/-- All that the elements signal. -/
def allSignals (low : Report) (high : Option Report) : Signals :=
  match high with
  | none => low.signals
  | some h => low.signals.or h.signals

/-- The predicate p2 of an approximation instruction (R91, R92): 1 for an approximation, free if elements disagree. -/
def helperPredOf (free : Bool) (low : Report) (high : Option Report) : Bool :=
  match high with
  | none => low.approx
  | some h => if low.approx = h.approx then low.approx else free

/-- The trap an operation raises, if any element traps (R65): the groups of `ISR.code`, absent ones all zero. -/
def trapOf (low : Report) (high : Option Report) : Option (TrapCode × Option TrapCode) :=
  match high with
  | none => low.trap.map fun t => (t, none)
  | some h =>
    if low.trap.isSome || h.trap.isSome then some (low.trap.getD {}, some (h.trap.getD {})) else none

/-- The state with an operation's effects written: destination, flags, event record, predicate (R66, R68). -/
def State.commit (s : State) (sf : SfNum) (f1 : RegNum) (p2 : Option PredNum) (x : Flt) (low : Report)
    (high : Option Report) : State :=
  let s1 := (s.writeF f1 x).writeOptP p2 (helperPredOf (Config.helperPred s.draws) low high)
  let fpsr := putFlags s.fpsr sf (newFlags (flagsOf s.fpsr sf) (Config.swaFlags s.draws) low high)
  { s1 with fpsr := recordSignals fpsr sf (allSignals low high), signaled := allSignals low high }

/-- The completion of every floating-point instruction: an enabled fault leaves destination and flags unchanged (R102);
otherwise the effects are written, and then the trap is taken, if there is one (R68). -/
def State.finish (s : State) (sf : SfNum) (f1 : RegNum) (p2 : Option PredNum) (x : Flt) (low : Report)
    (high : Option Report) : Result :=
  let c := controlsOf s.fpsr sf
  let fl := enabledSignals c low.signals
  let fh := high.map fun h => enabledSignals c h.signals
  if fl.any || (fh.getD {}).any then
    .next (s.interrupt .fpFault (isrOfFault (Config.isrBits s.draws) fl fh))
  else
    let t := s.commit sf f1 p2 x low high
    match trapOf low high with
    | none => .next t.advance.tick
    | some code => .next (t.interrupt .fpTrap (isrOfTrap (Config.isrBits s.draws) code.1 code.2))

/-- The completion of a normal operation. -/
def State.finishNormal (s : State) (sf : SfNum) (f1 : RegNum) (p2 : Option PredNum) (r : ElemResult Flt) : Result :=
  s.finish sf f1 p2 r.value r.report none

/-- The completion of a Parallel-FP operation: every element is written (R65). -/
def State.finishParallel (s : State) (sf : SfNum) (f1 : RegNum) (p2 : Option PredNum) (high low : ElemResult Elem) :
    Result :=
  s.finish sf f1 p2 (packElems high.value low.value) low.report (some high.report)

/-- A source that is `NaTVal` delivers `NaTVal` and raises nothing, before NaNs are looked at (R76, R77, GK4). -/
def State.unlessNaT (s : State) (sf : SfNum) (f1 : RegNum) (p2 : Option PredNum) (srcs : List RegNum) (own : Result) :
    Result :=
  if srcs.any fun n => s.readF n == natVal then s.finish sf f1 p2 natVal {} none else own

/-- The stage environment of an operation on status field `sf`, with the draw of element `lane`. -/
def State.stageEnv (s : State) (sf : SfNum) (fmt : Fmt) (op : ArithOp) (lane : Nat) : StageEnv :=
  ⟨controlsOf s.fpsr sf, fmt, op, Config.swaRequest (s.draws + lane)⟩

end Sys2Proof.Machine
end

