-- ==== Sys2Proof/Machine/Arith.lean ====
section
/-! DEFINITION. Arithmetic on operands of either kind: NaN delivery (R74 to R76), fused multiply and add (R85 to R90),
approximations with their special cases (R91 to R94), conversions (R70, R71, R95), minimum and maximum (R82, R96). -/

namespace Sys2Proof.Machine

/-- The delivery of an invalid operation without NaN operands (R76, GK8): the default NaN, Invalid Operation signaled. -/
def invalidResult {α : Type} (C : Carrier α) : ElemResult α := ⟨C.defaultNaN, { signals := { v := true } }⟩

/-- NaN delivery (R75, R76): the chosen operand, quieted if NAN_QUIET says so; none without a NaN operand. DESIGN CHOICE
(log 36): for Parallel-FP it is used on each element by itself, since R76 gives no element-wise rule. -/
def propagate {α : Type} (C : Carrier α) (byPriority : List α) : Option (ElemResult α) :=
  (chooseNaN C byPriority).map fun x =>
    let signaling := byPriority.any fun y => (C.classify y).isSignaling
    let unsupported := byPriority.any fun y => (C.classify y).isUnsupported
    ⟨if (C.classify x).isSignaling && Config.nanPolicy.quiets then C.quieted x else x,
      { signals := { v := (signaling && Config.nanPolicy.signals) || unsupported } }⟩

/-- A result of the exception stage as an operation's result; `den` says that a denormal operand was read. -/
def stageResult {α : Type} (C : Carrier α) (env : StageEnv) (den z : Bool) (p : Precise) : ElemResult α :=
  let o := fpStage env p
  ⟨C.encode o.dest, { sets := o.sets, freed := o.freed, trap := o.trap, signals := { d := den, z := z } }⟩

/-- The exact product; none for infinity times zero, which is invalid (GK8). -/
def mulNum : Numeric → Numeric → Option Numeric
  | .inf a, .inf b => some (.inf (a ^^ b))
  | .inf a, .fin b m _ => if m = 0 then none else some (.inf (a ^^ b))
  | .fin a m _, .inf b => if m = 0 then none else some (.inf (a ^^ b))
  | .fin a m e, .fin b n f => some (.fin (a ^^ b) (m * n) (e + f))

/-- The opposite of a number. -/
def negNum (neg : Bool) : Numeric → Numeric
  | .inf s => .inf (s ^^ neg)
  | .fin s m e => .fin (s ^^ neg) m e

/-- A signed integer from sign and magnitude. -/
def signedInt (neg : Bool) (m : Nat) : Int := if neg then -(m : Int) else (m : Int)

/-- The exact sum of two finite numbers. An exact zero has the common sign of two zeros, else + except under RM (GK8). -/
def addFin (rc : RoundMode) (a : Bool) (m : Nat) (e : Int) (b : Bool) (n : Nat) (f : Int) : Precise :=
  if m = 0 then
    if n = 0 then .zero (if a = b then a else rc == .rm) else .value b (.ratio n 1 f)
  else if n = 0 then .value a (.ratio m 1 e)
  else
    let g := min e f
    let t := signedInt a (m <<< (e - g).toNat) + signedInt b (n <<< (f - g).toNat)
    if t = 0 then .zero (rc == .rm) else .value (decide (t < 0)) (.ratio t.natAbs 1 g)

/-- The exact sum; none for infinities of opposite signs, which is invalid (GK8). -/
def addNum (rc : RoundMode) : Numeric → Numeric → Option Precise
  | .inf a, .inf b => if a = b then some (.inf a) else none
  | .inf a, .fin _ _ _ => some (.inf a)
  | .fin _ _ _, .inf b => some (.inf b)
  | .fin a m e, .fin b n f => some (addFin rc a m e b n f)

/-- The exact result of a fused operation (R85 to R90): `x3 * x4 + x2`, `x3 * x4 - x2`, `-(x3 * x4) + x2`; none when it
is invalid. -/
def fusedExact (op : ArithOp) (rc : RoundMode) (x3 x4 x2 : Numeric) : Option Precise :=
  (mulNum x3 x4).bind fun p => addNum rc (negNum (op == .fnma) p) (negNum (op == .fms) x2)

/-- A fused operation on three operands (R85): NaNs by the priority f4, f2, f3 (R75), else the stage. DESIGN CHOICE
(log 38): it raises no Software Assist fault. -/
def fusedElem {α : Type} (C : Carrier α) (env : StageEnv) (x3 x4 x2 : α) : ElemResult α :=
  match propagate C [x4, x2, x3] with
  | some r => r
  | none =>
    match C.classify x3, C.classify x4, C.classify x2 with
    | .num a, .num b, .num c =>
      match fusedExact env.op env.ctl.rc a b c with
      | some p => stageResult C env (C.unnormal x3 || C.unnormal x4 || C.unnormal x2) false p
      | none => invalidResult C
    | _, _, _ => invalidResult C

/-- A free significand brought into the bound of R91: `y` with `|y * m - 1| <= 1/473` for the divisor's significand `m`
(both of `p` bits). "About 8.886 bits" is read as the relative error `2^-8.886`, which is 1/473.1 (log 24). -/
def boundedRecipSig (p sig free : Nat) : Nat :=
  let lo := max (2 ^ (p - 1)) ((472 * 2 ^ (2 * p - 1) + 473 * sig - 1) / (473 * sig))
  let hi := min (2 ^ p - 1) (474 * 2 ^ (2 * p - 1) / (473 * sig))
  max lo (min free hi)

/-- The approximation of `1 / x` for a finite non-zero divisor (R91), or none if its exponent does not fit. -/
def recipApprox (fmt : Fmt) (free : Nat) (neg : Bool) (m : Nat) (e : Int) : Option Delivered :=
  let l := Nat.log2 m
  let r : Int := -((l : Int) + e) - 1
  if fmt.emin ≤ r ∧ r ≤ fmt.emax then
    some (.rounded neg r (boundedRecipSig fmt.p (m <<< (fmt.p - 1 - l)) free))
  else none

/-- What an approximation instruction leaves to free values for its operands. -/
structure HelperFree where
  sig : Nat
  special : Bool
  swaFault : Bool

/-- `frcpa` on two finite non-zero operands (R91): a Software Assist fault, the IEEE quotient, or the approximation.
DESIGN CHOICE (log 39): the Software Assist fault is reported alone, a denormal operand's signal is dropped beside it. -/
def recipFinite {α : Type} (C A : Carrier α) (env : StageEnv) (fr : HelperFree) (den : Bool)
    (a : Bool) (m : Nat) (e : Int) (b : Bool) (n : Nat) (f : Int) : ElemResult α :=
  if fr.swaFault then ⟨C.defaultNaN, { signals := { swa := true } }⟩
  else
    match (if fr.special then none else recipApprox A.fmt fr.sig b n f) with
    | some d => ⟨A.encode d, { signals := { d := den }, approx := true }⟩
    | none => stageResult C env den false (.value (a ^^ b) (.ratio m n (e - f)))

/-- `frcpa` on numbers (R91): the special quotients of IEEE 754 (invalid, zero divide, infinity, zero), else finite. -/
def recipNum {α : Type} (C A : Carrier α) (env : StageEnv) (fr : HelperFree) (den : Bool) : Numeric → Numeric → ElemResult α
  | .inf _, .inf _ => invalidResult C
  | .inf a, .fin b _ _ => stageResult C env den false (.inf (a ^^ b))
  | .fin a _ _, .inf b => stageResult C env den false (.zero (a ^^ b))
  | .fin a m e, .fin b n f =>
    if n = 0 then
      if m = 0 then invalidResult C else stageResult C env den true (.inf (a ^^ b))
    else if m = 0 then stageResult C env den false (.zero (a ^^ b))
    else recipFinite C A env fr den a m e b n f

/-- `frcpa` and `fprcpa` on one pair of operands (R91, R92); `A` carries the approximation. -/
def recipElem {α : Type} (C A : Carrier α) (env : StageEnv) (fr : HelperFree) (x2 x3 : α) : ElemResult α :=
  match propagate C [x2, x3] with
  | some r => r
  | none =>
    match C.classify x2, C.classify x3 with
    | .num a, .num b => recipNum C A env fr (C.unnormal x2 || C.unnormal x3) a b
    | _, _ => invalidResult C

/-- `frsqrta` on a number (R93): invalid when negative and non-zero, the IEEE root of zero and of infinity, else a
Software Assist fault, alone (log 39), the IEEE root, or the approximation. -/
def rootNum {α : Type} (C : Carrier α) (env : StageEnv) (fr : HelperFree) (approx : α) (den : Bool) : Numeric → ElemResult α
  | .inf s => if s then invalidResult C else stageResult C env den false (.inf false)
  | .fin s m e =>
    if m = 0 then stageResult C env den false (.zero s)
    else if s then invalidResult C
    else if fr.swaFault then ⟨C.defaultNaN, { signals := { swa := true } }⟩
    else if fr.special then stageResult C env den false (.value false (.root m e))
    else ⟨approx, { signals := { d := den }, approx := true }⟩

/-- `frsqrta` and `fprsqrta` on one operand (R93, R94). -/
def rootElem {α : Type} (C : Carrier α) (env : StageEnv) (fr : HelperFree) (approx : α) (x3 : α) : ElemResult α :=
  match propagate C [x3] with
  | some r => r
  | none =>
    match C.classify x3 with
    | .num a => rootNum C env fr approx (C.unnormal x3) a
    | _ => invalidResult C

/-- The result of an invalid conversion (R70): the largest magnitude negative integer, Invalid Operation signaled. -/
def invalidInt (n : Nat) : ElemResult (BitVec n) := ⟨BitVec.intMin n, { signals := { v := true } }⟩

/-- Whether an integer fits the destination of a conversion (R71). -/
def fitsInt (uns : Bool) (n : Nat) (x : Int) : Bool :=
  if uns then decide (0 ≤ x ∧ x < 2 ^ n) else decide (-(2 ^ (n - 1)) ≤ x ∧ x < 2 ^ (n - 1))

/-- A conversion to an `n`-bit integer (R95, R70, R71): invalid for NaNs, infinities and values whose rounded integer
does not fit; else the rounded integer, inexact signaled when it differs from the operand. PRESUMED (log 37): the plain
forms round in the direction of the status field and the `.trunc` forms toward zero. -/
def convElem {α : Type} (C : Carrier α) (ctl : Controls) (uns trunc : Bool) (n : Nat) (x : α) : ElemResult (BitVec n) :=
  match C.classify x with
  | .num (.fin neg m e) =>
    let q := roundToGrid (.ratio m 1 e) 0 (if trunc then .rz else ctl.rc) neg
    let v := signedInt neg q.k
    if fitsInt uns n v then
      ⟨BitVec.ofInt n v,
        { sets := { i := q.i }
          trap := if q.i && ctl.inxEn then some { i := true, fpa := q.fpa } else none
          signals := { d := C.unnormal x } }⟩
    else invalidInt n
  | _ => invalidInt n

/-- Exact comparison of two finite numbers. -/
def ltFin (a : Bool) (m : Nat) (e : Int) (b : Bool) (n : Nat) (f : Int) : Bool :=
  let g := min e f
  decide (signedInt a (m <<< (e - g).toNat) < signedInt b (n <<< (f - g).toNat))

/-- Exact comparison of two numbers. -/
def ltNum : Numeric → Numeric → Bool
  | .inf a, .inf b => a && !b
  | .inf a, .fin _ _ _ => a
  | .fin _ _ _, .inf b => !b
  | .fin a m e, .fin b n f => ltFin a m e b n f

/-- The magnitude of a number. -/
def absNum : Numeric → Numeric
  | .inf _ => .inf false
  | .fin _ m e => .fin false m e

/-- The comparison of the idiom `a<b?a:b` for each operation (R82): whether the first operand is delivered. -/
def minMaxTakesFirst (op : MinMaxOp) (a b : Numeric) : Bool :=
  match op with
  | .min => ltNum a b
  | .max => ltNum b a
  | .amin => ltNum (absNum a) (absNum b)
  | .amax => ltNum (absNum b) (absNum a)

/-- A minimum or maximum (R82): the second operand whenever the comparison is false, so also on NaNs and equal zeros.
DESIGN CHOICE (log 36, log 38): element by element in Parallel-FP, and never a Software Assist fault. -/
def minMaxElem {α : Type} (C : Carrier α) (op : MinMaxOp) (x2 x3 : α) : ElemResult α :=
  match C.classify x2, C.classify x3 with
  | .num a, .num b =>
    ⟨if minMaxTakesFirst op a b then x2 else x3, { signals := { d := C.unnormal x2 || C.unnormal x3 } }⟩
  | p, q =>
    if p.isUnsupported || q.isUnsupported then invalidResult C
    else
      ⟨x3, { signals :=
        { v := ((p.isSignaling || q.isSignaling) && Config.nanPolicy.signals) || Config.minMaxNaNSignals } }⟩

end Sys2Proof.Machine
end

