-- ==== Sys2Proof/Machine/Approx.lean ====
section
/-! DEFINITION. The approximation instructions: frcpa (R91), fprcpa (R92), frsqrta (R93), fprsqrta (R94). The tables are
lost, so the approximations are free values (log 24). -/

namespace Sys2Proof.Machine

/-- The destination format of the IEEE quotient or root an approximation instruction delivers: that of an instruction
without a completer (R19, GK13). -/
def State.helperFmt (s : State) (sf : SfNum) : Fmt := fmtOf none (pcOf s.fpsr sf) (wreOf s.fpsr sf)

/-- The result of `frcpa` on the operands the state holds (R91). -/
def State.recipResult (s : State) (a : F6Fields) : ElemResult Flt :=
  let fmt := s.helperFmt a.sf
  let x2 := s.readF a.f2
  let x3 := s.readF a.f3
  recipElem (regCarrier fmt) (regCarrier fmtRegister) (s.stageEnv a.sf fmt .quotient 0)
    ⟨(Config.recipSig x3).toNat, Config.uniterable x2 x3, Config.swaFault s.draws⟩ x2 x3

/-- The result of one element of `fprcpa` (R92). -/
def State.recipLane (s : State) (pick : Flt → Elem) (lane : Nat) (a : F6Fields) : ElemResult Elem :=
  let x2 := pick (s.readF a.f2)
  let x3 := pick (s.readF a.f3)
  recipElem elemCarrier elemCarrier (s.stageEnv a.sf fmtSingle .quotient lane)
    ⟨(Config.elemRecipSig x3).toNat, Config.elemUniterable x2 x3, Config.swaFault (s.draws + lane)⟩ x2 x3

/-- The result of `frsqrta` on the operand the state holds (R93). -/
def State.rootResult (s : State) (a : F7Fields) : ElemResult Flt :=
  let fmt := s.helperFmt a.sf
  let x3 := s.readF a.f3
  rootElem (regCarrier fmt) (s.stageEnv a.sf fmt .root 0)
    ⟨0, Config.rootSpecial x3, Config.swaFault s.draws⟩ (Config.rootApprox x3) x3

/-- The result of one element of `fprsqrta` (R94). -/
def State.rootLane (s : State) (pick : Flt → Elem) (lane : Nat) (a : F7Fields) : ElemResult Elem :=
  let x3 := pick (s.readF a.f3)
  rootElem elemCarrier (s.stageEnv a.sf fmtSingle .root lane)
    ⟨0, Config.elemRootSpecial x3, Config.swaFault (s.draws + lane)⟩ (Config.elemRootApprox x3) x3

/-- `frcpa` (R91): approximates `1 / f3`, or delivers the quotient `f2 / f3` in special cases; p2 tells which. -/
def execFrcpa (a : F6Fields) (s : State) : Result :=
  s.guarded a.qp (some a.p2) a.f1 [a.f2, a.f3]
    (s.unlessNaT a.sf a.f1 (some a.p2) [a.f2, a.f3]
      (s.finishNormal a.sf a.f1 (some a.p2) (s.recipResult a)))

/-- `fprcpa` (R92): as `frcpa`, element-wise. -/
def execFprcpa (a : F6Fields) (s : State) : Result :=
  s.guarded a.qp (some a.p2) a.f1 [a.f2, a.f3]
    (s.unlessNaT a.sf a.f1 (some a.p2) [a.f2, a.f3]
      (s.finishParallel a.sf a.f1 (some a.p2) (s.recipLane highElem 1 a) (s.recipLane lowElem 0 a)))

/-- `frsqrta` (R93): approximates `1 / sqrt(f3)`, or delivers the square root in special cases; p2 tells which. -/
def execFrsqrta (a : F7Fields) (s : State) : Result :=
  s.guarded a.qp (some a.p2) a.f1 [a.f3]
    (s.unlessNaT a.sf a.f1 (some a.p2) [a.f3]
      (s.finishNormal a.sf a.f1 (some a.p2) (s.rootResult a)))

/-- `fprsqrta` (R94): as `frsqrta`, element-wise. -/
def execFprsqrta (a : F7Fields) (s : State) : Result :=
  s.guarded a.qp (some a.p2) a.f1 [a.f3]
    (s.unlessNaT a.sf a.f1 (some a.p2) [a.f3]
      (s.finishParallel a.sf a.f1 (some a.p2) (s.rootLane highElem 1 a) (s.rootLane lowElem 0 a)))

end Sys2Proof.Machine
end

