-- ==== Sys2Proof/Machine/Convert.lean ====
section
/-! DEFINITION. The class of floating-point to integer conversions (R95, R70, R71). -/

namespace Sys2Proof.Machine

/-- The result of a normal conversion: a 64-bit integer in the significand (R23, R95). -/
def State.convResult (s : State) (a : ConvFields) : ElemResult Flt :=
  let r := convElem (regCarrier fmtRegister) (controlsOf s.fpsr a.sf) a.unsigned a.trunc intWidth (s.readF a.f2)
  ⟨intReg r.value, r.report⟩

/-- The result of one element of a Parallel-FP conversion: a 32-bit integer (R23, R95). -/
def State.convLane (s : State) (pick : Flt → Elem) (a : ConvFields) : ElemResult Elem :=
  convElem elemCarrier (controlsOf s.fpsr a.sf) a.unsigned a.trunc elemIntWidth (pick (s.readF a.f2))

/-- A floating-point to integer conversion (R95). -/
def execFcvt (a : ConvFields) (s : State) : Result :=
  s.guarded a.qp none a.f1 [a.f2]
    (s.unlessNaT a.sf a.f1 none [a.f2]
      (if a.parallel then s.finishParallel a.sf a.f1 none (s.convLane highElem a) (s.convLane lowElem a)
       else s.finishNormal a.sf a.f1 none (s.convResult a)))

end Sys2Proof.Machine
end

