-- ==== Sys2Proof/Machine/Fma.lean ====
section
/-! DEFINITION. The normal fused multiply and add instructions: fma (R85), fms (R86), fnma (R87), with the completers
`.s` and `.d`. -/

namespace Sys2Proof.Machine

/-- The destination format of an instruction with this completer on status field `sf` (R19, GK13). -/
def State.destFmt (s : State) (completer : Option Precision) (sf : SfNum) : Fmt :=
  fmtOf completer (pcOf s.fpsr sf) (wreOf s.fpsr sf)

/-- The result of a normal fused operation on the operands the state holds (R85). -/
def State.fusedResult (s : State) (op : ArithOp) (completer : Option Precision) (a : F1Fields) : ElemResult Flt :=
  let fmt := s.destFmt completer a.sf
  fusedElem (regCarrier fmt) (s.stageEnv a.sf fmt op 0) (s.readF a.f3) (s.readF a.f4) (s.readF a.f2)

/-- A normal fused instruction (R85). -/
def fusedNormal (op : ArithOp) (completer : Option Precision) (a : F1Fields) (s : State) : Result :=
  s.guarded a.qp none a.f1 [a.f3, a.f4, a.f2]
    (s.unlessNaT a.sf a.f1 none [a.f3, a.f4, a.f2]
      (s.finishNormal a.sf a.f1 none (s.fusedResult op completer a)))

/-- `fma` (R85): precision from `sfx.pc`. -/
def execFma (a : F1Fields) (s : State) : Result := fusedNormal .fma none a s

/-- `fma.s` (R85). -/
def execFmaS (a : F1Fields) (s : State) : Result := fusedNormal .fma (some .single) a s

/-- `fma.d` (R85). -/
def execFmaD (a : F1Fields) (s : State) : Result := fusedNormal .fma (some .double) a s

/-- `fms` (R86). -/
def execFms (a : F1Fields) (s : State) : Result := fusedNormal .fms none a s

/-- `fms.s` (R86). -/
def execFmsS (a : F1Fields) (s : State) : Result := fusedNormal .fms (some .single) a s

/-- `fms.d` (R86). -/
def execFmsD (a : F1Fields) (s : State) : Result := fusedNormal .fms (some .double) a s

/-- `fnma` (R87). -/
def execFnma (a : F1Fields) (s : State) : Result := fusedNormal .fnma none a s

/-- `fnma.s` (R87). -/
def execFnmaS (a : F1Fields) (s : State) : Result := fusedNormal .fnma (some .single) a s

/-- `fnma.d` (R87). -/
def execFnmaD (a : F1Fields) (s : State) : Result := fusedNormal .fnma (some .double) a s

end Sys2Proof.Machine
end

