-- ==== Sys2Proof/Machine/MinMax.lean ====
section
/-! DEFINITION. The class of minimum and maximum instructions (R82, R96). -/

namespace Sys2Proof.Machine

/-- The result of a normal minimum or maximum (R82). -/
def State.minMaxResult (s : State) (a : MinMaxFields) : ElemResult Flt :=
  minMaxElem (regCarrier fmtRegister) a.op (s.readF a.f2) (s.readF a.f3)

/-- The result of one element of a Parallel-FP minimum or maximum (R82). -/
def State.minMaxLane (s : State) (pick : Flt → Elem) (a : MinMaxFields) : ElemResult Elem :=
  minMaxElem elemCarrier a.op (pick (s.readF a.f2)) (pick (s.readF a.f3))

/-- A minimum or maximum (R82, R96). -/
def execFminmax (a : MinMaxFields) (s : State) : Result :=
  s.guarded a.qp none a.f1 [a.f2, a.f3]
    (s.unlessNaT a.sf a.f1 none [a.f2, a.f3]
      (if a.parallel then s.finishParallel a.sf a.f1 none (s.minMaxLane highElem a) (s.minMaxLane lowElem a)
       else s.finishNormal a.sf a.f1 none (s.minMaxResult a)))

end Sys2Proof.Machine
end

