-- ==== Sys2Proof/Machine/ParallelFma.lean ====
section
/-! DEFINITION. The Parallel-FP fused multiply and add instructions: fpma (R88), fpms (R89), fpnma (R90). -/

namespace Sys2Proof.Machine

/-- The result of one element of a Parallel-FP fused operation; `pick` selects the element, `lane` its draw (R88).
DESIGN CHOICE (log 36): NaNs are chosen, quieted and signaled in each element by itself. -/
def State.fusedLane (s : State) (op : ArithOp) (pick : Flt → Elem) (lane : Nat) (a : F1Fields) : ElemResult Elem :=
  fusedElem elemCarrier (s.stageEnv a.sf fmtSingle op lane) (pick (s.readF a.f3)) (pick (s.readF a.f4))
    (pick (s.readF a.f2))

/-- A Parallel-FP fused instruction: each element on its own, then combined (R65, R88). -/
def fusedParallel (op : ArithOp) (a : F1Fields) (s : State) : Result :=
  s.guarded a.qp none a.f1 [a.f3, a.f4, a.f2]
    (s.unlessNaT a.sf a.f1 none [a.f3, a.f4, a.f2]
      (s.finishParallel a.sf a.f1 none (s.fusedLane op highElem 1 a) (s.fusedLane op lowElem 0 a)))

/-- `fpma` (R88). -/
def execFpma (a : F1Fields) (s : State) : Result := fusedParallel .fma a s

/-- `fpms` (R89). -/
def execFpms (a : F1Fields) (s : State) : Result := fusedParallel .fms a s

/-- `fpnma` (R90). -/
def execFpnma (a : F1Fields) (s : State) : Result := fusedParallel .fnma a s

end Sys2Proof.Machine
end

