-- ==== Sys2Proof/Machine/Dispatch.lean ====
section
/-! DEFINITION. One arm per instruction. -/

namespace Sys2Proof.Machine

def exec (i : Instr) (s : State) : Host.Outcome State Fault Refusal :=
  match i with
  | .fma a => Sys2Proof.Machine.execFma a s
  | .fmaS a => Sys2Proof.Machine.execFmaS a s
  | .fmaD a => Sys2Proof.Machine.execFmaD a s
  | .fpma a => Sys2Proof.Machine.execFpma a s
  | .fms a => Sys2Proof.Machine.execFms a s
  | .fmsS a => Sys2Proof.Machine.execFmsS a s
  | .fmsD a => Sys2Proof.Machine.execFmsD a s
  | .fpms a => Sys2Proof.Machine.execFpms a s
  | .fnma a => Sys2Proof.Machine.execFnma a s
  | .fnmaS a => Sys2Proof.Machine.execFnmaS a s
  | .fnmaD a => Sys2Proof.Machine.execFnmaD a s
  | .fpnma a => Sys2Proof.Machine.execFpnma a s
  | .frcpa a => Sys2Proof.Machine.execFrcpa a s
  | .frsqrta a => Sys2Proof.Machine.execFrsqrta a s
  | .fprcpa a => Sys2Proof.Machine.execFprcpa a s
  | .fprsqrta a => Sys2Proof.Machine.execFprsqrta a s
  | .fcvt a => Sys2Proof.Machine.execFcvt a s
  | .fminmax a => Sys2Proof.Machine.execFminmax a s

end Sys2Proof.Machine
end

