-- ==== Sys2Proof/Machine/Fetch.lean ====
section
/-! DEFINITION. Reading the next operation of the program list and loading one. -/

namespace Sys2Proof.Machine

/-- The entry the position names, if the list has one there (R25, R34). -/
def State.fetch (s : State) : Option Entry := s.program[s.pos]?

/-- The instruction of an entry: a decoded operation as it stands (R36), or the decoding of a slot. -/
def Entry.instr : Entry → Option Instr
  | .op i => some i
  | .slot w =>
    match decode w with
    | .ok i => some i
    | .error _ => none

/-- Put an entry at position `n` of a program, keeping what stands elsewhere; a gap is filled with copies of it. -/
def placeAt (program : List Entry) (n : Nat) (e : Entry) : List Entry :=
  if n < program.length then program.set n e else program ++ List.replicate (n - program.length + 1) e

/-- Execute a fetched entry; an entry that is no row of the table is refused (R38). -/
def runEntry (e : Entry) (s : State) : Result :=
  match e.instr with
  | some i => exec i s
  | none => .refused .notInTable

end Sys2Proof.Machine
end

