-- ==== Sys2Proof/Machine/Step.lean ====
section
/-! DEFINITION. One step of the machine. -/

namespace Sys2Proof.Machine

/-- One step: nothing runs at an interruption vector (R107, R119), the run ends after the last operation (R119), else the
operation at the position is executed. -/
def step (s : State) : Host.Outcome State Fault Refusal :=
  match s.handler with
  | some _ => .refused .handlerCode
  | none =>
    match s.fetch with
    | none => .fault .runEnded
    | some e => runEntry e s

/-- `s` with the instruction of a table word loaded where the step fetches next: the slot at the position, and control in
the program. This stands for the load of a program from outside (log 6). -/
def State.withFetchWord (s : State) (_nbits w : Nat) : State :=
  { s with program := placeAt s.program s.pos (.slot (tableSlot w)), handler := none }

end Sys2Proof.Machine
end

