-- ==== Sys2Proof/Safety.lean ====
section
/-! DEFINITION. The terms claims use: what an instruction names, when it runs undisturbed, the invariant of the machine, and
the exact rational values of registers, elements and magnitudes. -/

namespace Sys2Proof

/-- The qualifying predicate an instruction names. -/
def Instr.qp : Instr → PredNum
  | .fma a | .fmaS a | .fmaD a | .fpma a | .fms a | .fmsS a | .fmsD a | .fpms a => a.qp
  | .fnma a | .fnmaS a | .fnmaD a | .fpnma a => a.qp
  | .frcpa a | .fprcpa a => a.qp
  | .frsqrta a | .fprsqrta a => a.qp
  | .fcvt a => a.qp
  | .fminmax a => a.qp

/-- The destination register an instruction names. -/
def Instr.dest : Instr → RegNum
  | .fma a | .fmaS a | .fmaD a | .fpma a | .fms a | .fmsS a | .fmsD a | .fpms a => a.f1
  | .fnma a | .fnmaS a | .fnmaD a | .fpnma a => a.f1
  | .frcpa a | .fprcpa a => a.f1
  | .frsqrta a | .fprsqrta a => a.f1
  | .fcvt a => a.f1
  | .fminmax a => a.f1

/-- The source registers an instruction names. -/
def Instr.sources : Instr → List RegNum
  | .fma a | .fmaS a | .fmaD a | .fpma a | .fms a | .fmsS a | .fmsD a | .fpms a => [a.f3, a.f4, a.f2]
  | .fnma a | .fnmaS a | .fnmaD a | .fpnma a => [a.f3, a.f4, a.f2]
  | .frcpa a | .fprcpa a => [a.f2, a.f3]
  | .frsqrta a | .fprsqrta a => [a.f3]
  | .fcvt a => [a.f2]
  | .fminmax a => [a.f2, a.f3]

/-- The predicate register an instruction writes, if it writes one. -/
def Instr.pred : Instr → Option PredNum
  | .fma _ | .fmaS _ | .fmaD _ | .fpma _ | .fms _ | .fmsS _ | .fmsD _ | .fpms _ => none
  | .fnma _ | .fnmaS _ | .fnmaD _ | .fpnma _ => none
  | .frcpa a | .fprcpa a => some a.p2
  | .frsqrta a | .fprsqrta a => some a.p2
  | .fcvt _ | .fminmax _ => none

/-- The status field an instruction uses. -/
def Instr.sf : Instr → SfNum
  | .fma a | .fmaS a | .fmaD a | .fpma a | .fms a | .fmsS a | .fmsD a | .fpms a => a.sf
  | .fnma a | .fnmaS a | .fnmaD a | .fpnma a => a.sf
  | .frcpa a | .fprcpa a => a.sf
  | .frsqrta a | .fprsqrta a => a.sf
  | .fcvt a => a.sf
  | .fminmax a => a.sf

/-- The normal fused instructions: operation, completer and fields. -/
def Instr.normalFused : Instr → Option (Machine.ArithOp × Option Precision × F1Fields)
  | .fma a => some (.fma, none, a)
  | .fmaS a => some (.fma, some .single, a)
  | .fmaD a => some (.fma, some .double, a)
  | .fms a => some (.fms, none, a)
  | .fmsS a => some (.fms, some .single, a)
  | .fmsD a => some (.fms, some .double, a)
  | .fnma a => some (.fnma, none, a)
  | .fnmaS a => some (.fnma, some .single, a)
  | .fnmaD a => some (.fnma, some .double, a)
  | .fpma _ | .fpms _ | .fpnma _ | .frcpa _ | .frsqrta _ | .fprcpa _ | .fprsqrta _ | .fcvt _ | .fminmax _ => none

/-- The Parallel-FP fused instructions: operation and fields. -/
def Instr.parallelFused : Instr → Option (Machine.ArithOp × F1Fields)
  | .fpma a => some (.fma, a)
  | .fpms a => some (.fms, a)
  | .fpnma a => some (.fnma, a)
  | .fma _ | .fmaS _ | .fmaD _ | .fms _ | .fmsS _ | .fmsD _ | .fnma _ | .fnmaS _ | .fnmaD _ => none
  | .frcpa _ | .frsqrta _ | .fprcpa _ | .fprsqrta _ | .fcvt _ | .fminmax _ => none

namespace Machine

/-- An instruction's own effect is reached: its predicate is true, no register it names is disabled, and its destination
is neither f0 nor f1. -/
def State.ready (s : State) (i : Instr) : Bool :=
  s.readP i.qp && !(i.dest :: i.sources).any s.fpDisabled && decide (i.dest ≠ 0 ∧ i.dest ≠ 1)

/-- No source register holds `NaTVal`. -/
def State.noNaT (s : State) (i : Instr) : Bool := i.sources.all fun n => s.readF n != natVal

/-- A run is undisturbed as long as control is in the program: `FpTrap`, `FpFault` and `DisabledFpRegisterFault` refute a
claim that "the program computes X" (R114). -/
def State.undisturbed (s : State) : Bool := s.handler.isNone

/-- The vectors an interruption can go to (R100). -/
def vectorAddresses (iva : BitVec 64) : List (BitVec 64) := [iva + 0x5500, iva + 0x5c00, iva + 0x5d00]

/-- The invariant of the machine: the position never passes the end of the list, and control at a vector means one of the
three vectors, with interruptions off and privilege level 0 (R107, R119). -/
def State.Inv (s : State) : Prop :=
  s.pos ≤ s.program.length ∧
    ∀ a, s.handler = some a →
      a ∈ vectorAddresses s.iva ∧ s.psr.ic = false ∧ s.psr.i = false ∧ s.psr.cpl = 0

/-- The sign of a value as a rational factor. -/
def signRat (neg : Bool) : ℚ := if neg then -1 else 1

/-- A finite register: neither an exponent field of all ones nor `NaTVal` (R17). -/
def finiteReg (r : Flt) : Bool := r.exp != 0x1FFFF && r != natVal

/-- The value of a finite register (R17): `(-1)^sign * 2^(E - 65535) * S / 2^63`, and `2^(-65534)` for exponent field 0. -/
def regValue (r : Flt) : ℚ :=
  signRat r.neg * r.sig.toNat * 2 ^ ((if r.exp = 0 then (-65534 : Int) else (r.exp.toNat : Int) - 65535) - 63)

/-- The value of a finite element (R20): an IEEE single. -/
def elemValue (x : Elem) : ℚ :=
  let e := (x.extractLsb' 23 8).toNat
  let f := (x.extractLsb' 0 23).toNat
  signRat (x.getLsbD 31) * (if e = 0 then (f : ℚ) * 2 ^ (-149 : Int) else ((2 ^ 23 + f : Nat) : ℚ) * 2 ^ ((e : Int) - 150))

/-- A finite element: its exponent field is not all ones. -/
def finiteElem (x : Elem) : Bool := x.extractLsb' 23 8 != 0xFF

/-- The exact value of a fused operation on three values (R85 to R90). -/
def fusedRat (op : ArithOp) (x3 x4 x2 : ℚ) : ℚ :=
  match op with
  | .fms => x3 * x4 - x2
  | .fnma => -(x3 * x4) + x2
  | .fma | .quotient | .root => x3 * x4 + x2

/-- The sign, infinity and zero of a number. -/
def Numeric.isNeg : Numeric → Bool
  | .inf s => s
  | .fin s _ _ => s
def Numeric.isInf : Numeric → Bool
  | .inf _ => true
  | .fin _ _ _ => false
def Numeric.isZero : Numeric → Bool
  | .inf _ => false
  | .fin _ m _ => m == 0

/-- The sign of the product, and that of the addend, of a fused operation on operands of these signs (R85 to R87). -/
def productNeg (op : ArithOp) (n3 n4 : Bool) : Bool := (n3 ^^ n4) ^^ (op == .fnma)
def addendNeg (op : ArithOp) (n2 : Bool) : Bool := n2 ^^ (op == .fms)

/-- The sign of an exact zero of a fused operation (IEEE 754, GK8; log 15): that of both terms if they agree, else minus
only under RM. -/
def exactZeroNeg (rc : RoundMode) (op : ArithOp) (n3 n4 n2 : Bool) : Bool :=
  if productNeg op n3 n4 = addendNeg op n2 then addendNeg op n2 else rc == .rm

/-- A fused operation is invalid: infinity times zero, or an infinite product and an infinite addend of opposite signs (IEEE
754, R55, GK8; log 15). -/
def invalidFused (op : ArithOp) (x3 x4 x2 : Numeric) : Bool :=
  (x3.isInf && x4.isZero) || (x3.isZero && x4.isInf) ||
    ((x3.isInf || x4.isInf) && x2.isInf && productNeg op x3.isNeg x4.isNeg != addendNeg op x2.isNeg)

/-- A fused operation that is not invalid has the infinite result of sign `neg` (IEEE 754, R55, GK8; log 15): that of an
infinite product, or else of an infinite addend. -/
def infiniteFused (op : ArithOp) (x3 x4 x2 : Numeric) (neg : Bool) : Prop :=
  ((x3.isInf = true ∨ x4.isInf = true) ∧ x3.isZero = false ∧ x4.isZero = false ∧
      (x2.isInf = true → addendNeg op x2.isNeg = productNeg op x3.isNeg x4.isNeg) ∧
      neg = productNeg op x3.isNeg x4.isNeg) ∨
    (x3.isInf = false ∧ x4.isInf = false ∧ x2.isInf = true ∧ neg = addendNeg op x2.isNeg)

/-- `r` is the exact result of a fused operation on three finite elements: a normal single, or zero (R88, R20). -/
def exactElem (rc : RoundMode) (op : ArithOp) (x3 x4 x2 r : Elem) : Prop :=
  (∃ (neg : Bool) (k : Nat) (e : Int), 2 ^ 23 ≤ k ∧ k < 2 ^ 24 ∧ -126 ≤ e ∧ e ≤ 127 ∧
    fusedRat op (elemValue x3) (elemValue x4) (elemValue x2) = signRat neg * k * 2 ^ (e - 23) ∧
    r = BitVec.ofBool neg ++ BitVec.ofInt 8 (e + 127) ++ BitVec.ofNat 23 k) ∨
  (fusedRat op (elemValue x3) (elemValue x4) (elemValue x2) = 0 ∧
    r = BitVec.ofBool (exactZeroNeg rc op (x3.getLsbD 31) (x4.getLsbD 31) (x2.getLsbD 31)) ++ 0#31)

/-- The elements of a Parallel-FP register and their numbers: low 0, high 1. -/
def isLane (pick : Flt → Elem) (lane : Nat) : Prop := (pick = lowElem ∧ lane = 0) ∨ (pick = highElem ∧ lane = 1)

/-- The bit of ISR that reports fault kind `kind` (V 0, D 1, Z 2, SWA 3) of an element, and of the other element (R102,
GK22; log 17). -/
def laneFaultBit (lane kind : Nat) : Nat := 4 * lane + kind
def otherFaultBit (lane kind : Nat) : Nat := 4 * (1 - lane) + kind

/-- `t` is `s` after a Floating-point Exception fault: control at its vector, and nothing else written that a program
computes (R102; log 9). -/
def faultedFrom (s t : State) : Prop :=
  t.handler = some (s.iva + 0x5c00) ∧ t.iip = s.pos ∧ t.fr = s.fr ∧ t.pr = s.pr ∧ t.fpsr = s.fpsr

/-- Whether the Denormal Operand fault is taken for operands of which one is denormal or unnormal (`den`): if it is enabled
(R102, GK22; log 19). -/
def State.denormalStops (s : State) (sf : SfNum) (den : Bool) : Bool := den && (controlsOf s.fpsr sf).denEn

/-- A Denormal Operand signaled without its fault: flag d and the event record (R22, R102, GK22; log 18). -/
def denormalRecorded (t : State) (sf : SfNum) : Prop := sfBit t.fpsr sf 8 = true ∧ t.signaled.d = true

/-- ISR reports exactly the fault kinds `g` of element `lane`, or of a normal operation as lane 0 (R102, GK22; log 17). -/
def faultReport (isr : BitVec 64) (lane : Nat) (g : Signals) : Prop :=
  isr.getLsbD (laneFaultBit lane 0) = g.v ∧ isr.getLsbD (laneFaultBit lane 1) = g.d ∧
  isr.getLsbD (laneFaultBit lane 2) = g.z ∧ isr.getLsbD (laneFaultBit lane 3) = g.swa

/-- ISR reports a fault of the element beside element `lane`. -/
def otherElementFaults (t : State) (lane : Nat) : Prop :=
  ∃ kind, kind < 4 ∧ t.isr.getLsbD (otherFaultBit lane kind) = true

/-- A Parallel-FP instruction faults although element `lane` is a number and not invalid: for its enabled Denormal Operand, or
for the other element alone (R102, GK22; log 17, log 36). -/
def elementStops (s t : State) (sf : SfNum) (lane : Nat) (den : Bool) : Prop :=
  faultedFrom s t ∧ faultReport t.isr lane { d := s.denormalStops sf den } ∧
    (s.denormalStops sf den = true ∨ otherElementFaults t lane)

/-- What ISR reports of element `lane`, finite and not invalid, when an approximation instruction faults: Software Assist
alone (log 39), or Denormal Operand exactly if it stops the instruction; without either the other element has a fault (R102,
GK22; log 17). -/
def elementFaultKinds (s t : State) (sf : SfNum) (lane : Nat) (den : Bool) : Prop :=
  faultReport t.isr lane { swa := true } ∨
  (faultReport t.isr lane { d := s.denormalStops sf den } ∧
    (s.denormalStops sf den = true ∨ otherElementFaults t lane))

/-- The group of ISR for a normal operation or the low element, and that of the high element, report the trap code `k` (R14,
R101; positions GK6, log 4). -/
def lowTrapReport (isr : BitVec 64) (k : TrapCode) : Prop :=
  isr.getLsbD 11 = k.o ∧ isr.getLsbD 12 = k.u ∧ isr.getLsbD 13 = k.i ∧ isr.getLsbD 14 = k.fpa
def highTrapReport (isr : BitVec 64) (k : TrapCode) : Prop :=
  isr.getLsbD 7 = k.o ∧ isr.getLsbD 8 = k.u ∧ isr.getLsbD 9 = k.i ∧ isr.getLsbD 10 = k.fpa

/-- The flags and the trap with which `t` follows `s` when the operation's result passed through the stage with outcome `o`
and no fault was taken (R63, R66, R68). -/
def stageEnds (s t : State) (sf : SfNum) (o : StageOut) : Prop :=
  flagsOf t.fpsr sf = (if o.freed then Config.swaFlags s.draws else flagsOf s.fpsr sf).or o.sets ∧
  (o.trap = none → t.handler = s.handler) ∧
  ∀ k, o.trap = some k → t.handler = some (s.iva + 0x5d00) ∧ lowTrapReport t.isr k

/-- The same of two elements: flags ORed, one trap that reports both, an element without a trap as zeros (R65; log 23). -/
def elementsEnd (s t : State) (sf : SfNum) (oh ol : StageOut) : Prop :=
  flagsOf t.fpsr sf =
    (if (ol.freed || oh.freed) = true then Config.swaFlags s.draws else flagsOf s.fpsr sf).or (ol.sets.or oh.sets) ∧
  (oh.trap = none → ol.trap = none → t.handler = s.handler) ∧
  (oh.trap.isSome = true ∨ ol.trap.isSome = true →
    t.handler = some (s.iva + 0x5d00) ∧ lowTrapReport t.isr (ol.trap.getD {}) ∧ highTrapReport t.isr (oh.trap.getD {}))

/-- The same of element `lane` beside an element that sets no flag and raises no trap: its flags and its trap alone, the
other group of ISR reporting zeros (R65; log 23). -/
def laneTrapReport (isr : BitVec 64) (lane : Nat) (k : TrapCode) : Prop :=
  if lane = 0 then lowTrapReport isr k else highTrapReport isr k
def laneEnds (s t : State) (sf : SfNum) (lane : Nat) (sets : Flags) (freed : Bool) (trap : Option TrapCode) : Prop :=
  flagsOf t.fpsr sf = (if freed then Config.swaFlags s.draws else flagsOf s.fpsr sf).or sets ∧
  (trap = none → t.handler = s.handler) ∧
  ∀ k, trap = some k →
    t.handler = some (s.iva + 0x5d00) ∧ laneTrapReport t.isr lane k ∧ laneTrapReport t.isr (1 - lane) {}

/-- `r` is the NaN `x`, or `x` with its top fraction bit set where `x` is signaling (R74, R76; log 13): of registers and of
elements. -/
def nanOrQuieted (x r : Flt) : Prop :=
  r = x ∨ (classifyReg x = .nan false ∧ r = { x with sig := x.sig ||| BitVec.twoPow 64 62 })
def nanElemOrQuieted (x r : Elem) : Prop :=
  r = x ∨ (classifyElem x = .nan false ∧ r = x ||| BitVec.twoPow 32 22)

/-- A source register has an encoding R17 gives no value (log 16), and none is a NaN or `NaTVal`. -/
def State.valuelessOperand (s : State) (i : Instr) : Prop :=
  s.noNaT i = true ∧ (∃ n ∈ i.sources, classifyReg (s.readF n) = .unsupported) ∧
    ∀ n ∈ i.sources, (classifyReg (s.readF n)).isNaN = false

/-- The three points at which R62 admits a Software Assist trap, for the unbounded-range rounded value `r`. -/
def swaAdmitted (v : StageEnv) (r : Rounded) : Prop :=
  (v.fmt.emax < r.exp ∧ v.ctl.ovfEn = false) ∨
  (r.exp < v.fmt.emin ∧ v.ctl.unfEn = false ∧ v.ctl.ftz = false) ∨
  (v.fmt.emin ≤ r.exp ∧ r.exp ≤ v.fmt.emax ∧ r.i = true ∧ v.ctl.inxEn = false)

/-- Pairs whose quotient, and numbers whose root, is an invalid operation (IEEE 754, GK8; log 24). -/
def invalidQuotient (x2 x3 : Numeric) : Bool := (x2.isInf && x3.isInf) || (x2.isZero && x3.isZero)
def invalidRoot (x3 : Numeric) : Bool := x3.isNeg && !x3.isZero

/-- The exact quotient, with its sign, of two finite non-zero numbers, and the exact root of a finite positive one (R91,
R93). -/
def finiteQuotient : Numeric → Numeric → Option (Bool × Mag)
  | .fin a m e, .fin b n f => if m ≠ 0 ∧ n ≠ 0 then some (a ^^ b, .ratio m n (e - f)) else none
  | .inf _, .inf _ | .inf _, .fin _ _ _ | .fin _ _ _, .inf _ => none
def finiteRoot : Numeric → Option Mag
  | .fin s m e => if s = false ∧ m ≠ 0 then some (.root m e) else none
  | .inf _ => none

/-- An infinite register (R17) and an infinite element (R20). -/
def infReg (r : Flt) : Bool := r.exp == 0x1FFFF && r.sig == 0x8000000000000000
def infElem (x : Elem) : Bool := x.extractLsb' 0 31 == 0x7F800000

/-- `a < b` for numbers given as infinite or not, sign, and finite value. -/
def extLess (ia na : Bool) (va : ℚ) (ib nb : Bool) (vb : ℚ) : Prop :=
  if ia then na = true ∧ ¬ (ib = true ∧ nb = true)
  else if ib then nb = false
  else va < vb

/-- The order of registers and of elements, by value and by magnitude. -/
def regLess (a b : Flt) : Prop := extLess (infReg a) a.neg (regValue a) (infReg b) b.neg (regValue b)
def regMagLess (a b : Flt) : Prop := extLess (infReg a) false |regValue a| (infReg b) false |regValue b|
def elemLess (a b : Elem) : Prop :=
  extLess (infElem a) (a.getLsbD 31) (elemValue a) (infElem b) (b.getLsbD 31) (elemValue b)
def elemMagLess (a b : Elem) : Prop := extLess (infElem a) false |elemValue a| (infElem b) false |elemValue b|

/-- The quotients IEEE 754 gives for operands that are not both finite and non-zero, other than the invalid ones and the
division by zero (R91, GK8). -/
def specialQuotient : Numeric → Numeric → Option Delivered
  | .inf _, .inf _ => none
  | .inf a, .fin b _ _ => some (.infinity (a ^^ b))
  | .fin a _ _, .inf b => some (.zero (a ^^ b))
  | .fin a m _, .fin b n _ => if m = 0 ∧ n ≠ 0 then some (.zero (a ^^ b)) else none

/-- The square roots IEEE 754 gives for zeros and plus infinity (R93, GK8). -/
def specialRoot : Numeric → Option Delivered
  | .inf s => if s then none else some (.infinity false)
  | .fin s m _ => if m = 0 then some (.zero s) else none

/-- The integer an operand rounds to in direction `rc`; none for an operand that is not a finite number. -/
def roundedInt (rc : RoundMode) : Operand → Option Int
  | .num (.fin neg m e) => some (signedInt neg (roundToGrid (.ratio m 1 e) 0 rc neg).k)
  | .num (.inf _) | .natVal | .unsupported | .nan _ => none

/-- A conversion that is "invalid (in the IEEE sense)" (R70, R71). -/
def conversionInvalid (uns : Bool) (rc : RoundMode) (n : Nat) (o : Operand) : Bool :=
  match roundedInt rc o with
  | none => true
  | some z => !fitsInt uns n z

/-- The rounding direction of a conversion: toward zero for the `.trunc` forms (PRESUMED, log 37). -/
def conversionRc (a : ConvFields) (c : Controls) : RoundMode := if a.trunc then .rz else c.rc

/-- The exact value of a magnitude: a rational, or the square root of a binary number. -/
def Mag.hasValue : Mag → ℝ → Prop
  | .ratio num den e, v => 0 < den ∧ v = (num : ℝ) / den * 2 ^ e
  | .root num e, v => v = Real.sqrt ((num : ℝ) * 2 ^ e)

/-- The infinitely precise result is the rational `q`: its magnitude and sign if `q` is not zero, else a zero of sign
`zeroNeg` (R79, R66). -/
def Precise.isExactly (p : Precise) (q : ℚ) (zeroNeg : Bool) : Prop :=
  match p with
  | .inf _ => False
  | .zero neg => q = 0 ∧ neg = zeroNeg
  | .value neg m => q ≠ 0 ∧ m.hasValue ((|q| : ℚ) : ℝ) ∧ (neg = true ↔ q < 0)

/-- MAXREAL (R8): `(2 - 2^(1-P)) * 2^EMAX`. -/
def maxRealRat (fmt : Fmt) : ℚ := (2 - 2 ^ (1 - (fmt.p : Int))) * 2 ^ fmt.emax

/-- Whether the magnitude delivered is greater than `v` (R42); an infinity is greater, a zero is not. A wrapped exponent is
taken before it is wrapped (DEDUCED, 90_conflicts.md C3, log 33). -/
def deliveredAbove (fmt : Fmt) (d : Delivered) (v : ℝ) : Prop :=
  match d with
  | .infinity _ => True
  | .zero _ => False
  | .maxReal _ => v < (maxRealRat fmt : ℝ)
  | .rounded _ e k => v < (k : ℝ) * 2 ^ (e - ((fmt.p : Int) - 1))
  | .bounded _ k => v < (k : ℝ) * 2 ^ (fmt.emin - ((fmt.p : Int) - 1))

/-- The four formats of R19 and the two narrow precisions in the register's exponent range (GK13). -/
def destFormats : List Fmt :=
  [fmtSingle, fmtDouble, fmtExtended, fmtRegister, ⟨24, -16382, 16383⟩, ⟨53, -16382, 16383⟩, ⟨24, -65534, 65535⟩,
    ⟨53, -65534, 65535⟩]

end Machine

end Sys2Proof
end

