-- ==== Sys2Proof/Certificates/Slice0/Obligations.lean ====
section
/-! DEFINITION. The statements for the provers. -/

open Sys2Proof Sys2Proof.Machine

/-- R37 and 30_encoding.md section 3: every well-formed instruction has a slot, and decoding the slot gives the instruction
back, with every operand at every value. -/
def Obligations.DecodeOfEncode : Prop :=
  ∀ i : Instr, i.wellFormed = true → ∃ w, encode i = some w ∧ decode w = .ok i

/-- 30_encoding.md section 3: no slot matches two rows of the table, and a slot that decodes is the encoding of what it
decodes to; the F7 forms drop the ignored bits 19:13 and nothing else. -/
def Obligations.EncodeOfDecode : Prop :=
  (∀ (w : BitVec 41) (r r' : Row), r ∈ rows → r' ∈ rows → r.hits w = true → r'.hits w = true →
    r.pattern = r'.pattern ∧ r.mask = r'.mask) ∧
  ∀ (w : BitVec 41) (i : Instr), decode w = .ok i →
    encode i = some w ∨
      ((∃ a, i = .frsqrta a ∨ i = .fprsqrta a) ∧ encode i = some (w &&& ~~~0xFE000#41))

/-- The slot values of the programs of 95_test_vectors.md Part 3, and one F6 and one F7 slot written out from the table. -/
def Obligations.SlotsOfTheSpecDecode : Prop :=
  decode 0x11028400180 = .ok (.fmaS ⟨0, 5, 4, 0, 6, 0⟩) ∧
  decode 0x11428400280 = .ok (.fmaS ⟨1, 5, 4, 0, 10, 0⟩) ∧
  decode 0x1100850C200 = .ok (.fmaS ⟨0, 1, 5, 6, 8, 0⟩) ∧
  decode 0x130284002C0 = .ok (.fpma ⟨0, 5, 4, 0, 11, 0⟩) ∧
  decode 0b00000001000011000001000000111001010100000#41 = .ok (.frcpa ⟨0, 3, 2, 3, 0b1001010, 0b100000⟩) ∧
  decode 0b00011101000011000001011111111001010100000#41 = .ok (.fprsqrta ⟨2, 3, 2, 0b1001010, 0b100000⟩)

/-- R36, log 6: a step runs the operation at the position, decoded or given as a slot, and adds nothing around it. -/
def Obligations.StepRunsTheFetchedInstruction : Prop :=
  ∀ (s : State) (i : Instr), s.handler = none →
    (s.fetch = some (.op i) → step s = exec i s) ∧
    (∀ w, s.fetch = some (.slot w) → decode w = .ok i → step s = exec i s)

/-- R119, R107 (log 6, log 9), R38 (D18), R17 (GK4; log 2): the run ends past the last operation, and at an interruption
vector; nothing else makes a step stop but a slot that no row of the table matches, which is refused, and an instruction
whose destination is f0 or f1, which faults. -/
def Obligations.StepStopsOnlyByName : Prop :=
  ∀ s : State,
    (s.handler = none → s.program.length ≤ s.pos → step s = .fault .runEnded) ∧
    (∀ a, s.handler = some a → step s = .refused .handlerCode) ∧
    (s.handler = none → s.pos < s.program.length →
      (∃ t, step s = .next t) ∨ step s = .fault .hardwiredRegisterWrite ∨ step s = .refused .notInTable) ∧
    (∀ w, s.handler = none → s.fetch = some (.slot w) → (∀ r ∈ rows, r.hits w = false) → step s = .refused .notInTable) ∧
    (step s = .refused .notInTable → ∃ w, s.fetch = some (.slot w) ∧ ∀ r ∈ rows, r.hits w = false) ∧
    (step s = .fault .hardwiredRegisterWrite →
      ∃ e i, s.fetch = some e ∧ e.instr = some i ∧ (i.dest = 0 ∨ i.dest = 1))

/-- R107, R119: the invariant of Safety.lean is kept by every step. -/
def Obligations.InvariantKeptByEveryStep : Prop :=
  ∀ s t : State, s.Inv → step s = .next t → t.Inv

/-- The invariant holds at reset. -/
def Obligations.InvariantAtReset : Prop := State.reset.Inv

/-- R34: no operation modifies the program. -/
def Obligations.ProgramNeverModified : Prop :=
  ∀ s t : State, step s = .next t → t.program = s.program

/-- R15: ISR is written only when an interruption is taken. -/
def Obligations.IsrWrittenOnlyByInterruptions : Prop :=
  ∀ s t : State, step s = .next t → t.handler = none → t.isr = s.isr

/-- R12, R97: no instruction of the table writes a control of FPSR, a precision control, or the reserved bits. The bits are
those of R13 (GK5; log 3, PRESUMED): an exception is enabled when its bit of `traps` and `td` of the status field are 0, with
`ftz`, `wre`, `pc`, `rc` and the flags at their places; writing the flags, and recording flags d and z (GK22; log 18), touch
nothing else but, for an Invalid Operation, flag v. The reserved encoding of `pc` is a free value (log 20). -/
def Obligations.ControlsNeverWritten : Prop :=
  (∀ (w : BitVec 64) (sf : SfNum) (b : Nat), b = 6 + 13 * sf.toNat →
    (((controlsOf w sf).invEn = true ↔ w.getLsbD 0 = false ∧ w.getLsbD (b + 6) = false) ∧
      ((controlsOf w sf).denEn = true ↔ w.getLsbD 1 = false ∧ w.getLsbD (b + 6) = false) ∧
      ((controlsOf w sf).zdvEn = true ↔ w.getLsbD 2 = false ∧ w.getLsbD (b + 6) = false) ∧
      ((controlsOf w sf).ovfEn = true ↔ w.getLsbD 3 = false ∧ w.getLsbD (b + 6) = false) ∧
      ((controlsOf w sf).unfEn = true ↔ w.getLsbD 4 = false ∧ w.getLsbD (b + 6) = false) ∧
      ((controlsOf w sf).inxEn = true ↔ w.getLsbD 5 = false ∧ w.getLsbD (b + 6) = false)) ∧
    ((controlsOf w sf).ftz = w.getLsbD b ∧ wreOf w sf = w.getLsbD (b + 1)) ∧
    ((w.getLsbD (b + 3) = false → w.getLsbD (b + 2) = false → pcOf w sf = .single) ∧
      (w.getLsbD (b + 3) = true → w.getLsbD (b + 2) = false → pcOf w sf = .double) ∧
      (w.getLsbD (b + 3) = true → w.getLsbD (b + 2) = true → pcOf w sf = .extended)) ∧
    (((controlsOf w sf).rc = .rn ↔ w.getLsbD (b + 5) = false ∧ w.getLsbD (b + 4) = false) ∧
      ((controlsOf w sf).rc = .rm ↔ w.getLsbD (b + 5) = false ∧ w.getLsbD (b + 4) = true) ∧
      ((controlsOf w sf).rc = .rp ↔ w.getLsbD (b + 5) = true ∧ w.getLsbD (b + 4) = false) ∧
      ((controlsOf w sf).rc = .rz ↔ w.getLsbD (b + 5) = true ∧ w.getLsbD (b + 4) = true)) ∧
    (flagsOf w sf = ⟨w.getLsbD (b + 10), w.getLsbD (b + 11), w.getLsbD (b + 12)⟩ ∧
      (∀ k, sfBit w sf k = w.getLsbD (b + k)) ∧ sfBase sf = b) ∧
    (∀ f : Flags, flagsOf (putFlags w sf f) sf = f ∧
      ∀ k, k < b + 10 ∨ b + 12 < k → (putFlags w sf f).getLsbD k = w.getLsbD k) ∧
    ∀ g : Signals, (recordSignals w sf g).getLsbD (b + 8) = (w.getLsbD (b + 8) || g.d) ∧
      (recordSignals w sf g).getLsbD (b + 9) = (w.getLsbD (b + 9) || g.z) ∧
      (g.v = false → (recordSignals w sf g).getLsbD (b + 7) = w.getLsbD (b + 7)) ∧
      ∀ k, k < b + 7 ∨ b + 9 < k → (recordSignals w sf g).getLsbD k = w.getLsbD k) ∧
  ∀ s t : State, step s = .next t →
    (∀ sf, controlsOf t.fpsr sf = controlsOf s.fpsr sf ∧ wreOf t.fpsr sf = wreOf s.fpsr sf ∧
      pcOf t.fpsr sf = pcOf s.fpsr sf) ∧
    (∀ k, 58 ≤ k → t.fpsr.getLsbD k = s.fpsr.getLsbD k)

/-- R11: once 1, a flag o, u or i of any status field stays 1 under a step that ends without an interruption. (A Software
Assist trap leaves any value, R63, and is an interruption.) -/
def Obligations.FlagsStickyWithoutInterruption : Prop :=
  ∀ s t : State, step s = .next t → t.handler = none → ∀ sf,
    ((flagsOf s.fpsr sf).o = true → (flagsOf t.fpsr sf).o = true) ∧
    ((flagsOf s.fpsr sf).u = true → (flagsOf t.fpsr sf).u = true) ∧
    ((flagsOf s.fpsr sf).i = true → (flagsOf t.fpsr sf).i = true)

/-- R11: an operation that uses status field SF writes no bit of another status field. -/
def Obligations.OtherStatusFieldsUntouched : Prop :=
  ∀ (i : Instr) (s t : State), exec i s = .next t → ∀ sf, sf ≠ i.sf → ∀ k, k < 13 →
    sfBit t.fpsr sf k = sfBit s.fpsr sf k

/-- The frame of every instruction: it leaves every register but its destination, every predicate but the one it names,
every bit of FPSR but the six flags of its status field, the program and the vector table address; and, without an
interruption, ISR, the saved state and the processor status, while the position advances. (There is no memory, R30.) -/
def Obligations.FrameOfEveryInstruction : Prop :=
  ∀ (i : Instr) (s t : State), s.handler = none → exec i s = .next t →
    (∀ n, n ≠ i.dest → t.readF n = s.readF n) ∧
    (∀ p, i.pred ≠ some p → t.readP p = s.readP p) ∧
    (∀ k, k < sfBase i.sf + 7 ∨ sfBase i.sf + 12 < k → t.fpsr.getLsbD k = s.fpsr.getLsbD k) ∧
    t.program = s.program ∧ t.iva = s.iva ∧
    (t.handler = none →
      t.isr = s.isr ∧ t.iip = s.iip ∧ t.ipsr = s.ipsr ∧ t.psr = s.psr ∧ t.pos = s.pos + 1)

/-- The flag frames of the classes, the model's choice where the spec gives no exception behaviour: a minimum or maximum
writes none of o, u, i (log 27); a conversion writes neither o nor u (R95); only frcpa and fprcpa write z (GK9, GK22; log
18, log 24). -/
def Obligations.FlagFramesByClass : Prop :=
  ∀ (i : Instr) (s t : State), exec i s = .next t →
    ((∃ a, i = .fminmax a) → flagsOf t.fpsr i.sf = flagsOf s.fpsr i.sf) ∧
    ((∃ a, i = .fcvt a) →
      (flagsOf t.fpsr i.sf).o = (flagsOf s.fpsr i.sf).o ∧ (flagsOf t.fpsr i.sf).u = (flagsOf s.fpsr i.sf).u) ∧
    ((∀ a, i ≠ .frcpa a ∧ i ≠ .fprcpa a) → sfBit t.fpsr i.sf 9 = sfBit s.fpsr i.sf 9)

/-- R107, R100 (GK15, GK19; log 9): entering an interruption. A trap records the next position; a fault records the
faulting one and leaves registers, predicates, FPSR and the event record unchanged. That dfl and dfh keep their values on
entry is the model's choice (log 9, DESIGN CHOICE). -/
def Obligations.InterruptionEntry : Prop :=
  ∀ (i : Instr) (s t : State) (a : BitVec 64), s.handler = none → exec i s = .next t → t.handler = some a →
    t.ipsr = s.psr ∧ t.psr = { s.psr with ic := false, i := false, cpl := 0 } ∧
    ((a = s.iva + 0x5d00 ∧ t.iip = s.pos + 1) ∨
      ((a = s.iva + 0x5c00 ∨ a = s.iva + 0x5500) ∧ t.iip = s.pos ∧ t.fr = s.fr ∧ t.pr = s.pr ∧ t.fpsr = s.fpsr ∧
        t.signaled = s.signaled))

/-- R104: an instruction that names a disabled register takes the Disabled Floating-point Register fault before any other
effect; `dfl` disables f2 to f31 and `dfh` disables f32 to f127. -/
def Obligations.DisabledRegisterFaultFirst : Prop :=
  (∀ (s : State) (n : RegNum), s.fpDisabled n = true ↔
    (s.psr.dfl = true ∧ 2 ≤ n.toNat ∧ n.toNat ≤ 31) ∨ (s.psr.dfh = true ∧ 32 ≤ n.toNat)) ∧
  ∀ (i : Instr) (s : State), s.readP i.qp = true → (∃ n ∈ i.dest :: i.sources, s.fpDisabled n = true) →
    ∃ t, exec i s = .next t ∧ t.handler = some (s.iva + 0x5500) ∧ t.iip = s.pos ∧ t.fr = s.fr ∧ t.pr = s.pr ∧
      t.fpsr = s.fpsr ∧ t.signaled = s.signaled

/-- R17: f0 reads +0.0 and f1 reads +1.0 after any step, and an instruction whose destination is f0 or f1 faults. -/
def Obligations.HardwiredRegisters : Prop :=
  (∀ s t : State, step s = .next t →
    t.readF 0 = ⟨false, 0, 0⟩ ∧ t.readF 1 = ⟨false, 0xFFFF, 0x8000000000000000⟩) ∧
  ∀ (i : Instr) (s : State), s.readP i.qp = true → (∀ n ∈ i.dest :: i.sources, s.fpDisabled n = false) →
    i.dest = 0 ∨ i.dest = 1 → exec i s = .fault .hardwiredRegisterWrite

/-- 30_encoding.md section 3, log 26: under a false qualifying predicate an instruction only advances the position; the
predicate an approximation instruction names is then free (log 25). -/
def Obligations.NullifiedInstruction : Prop :=
  ∀ (i : Instr) (s : State), s.readP i.qp = false →
    ∃ t, exec i s = .next t ∧ t.pos = s.pos + 1 ∧ t.fr = s.fr ∧ t.fpsr = s.fpsr ∧ t.isr = s.isr ∧ t.psr = s.psr ∧
      t.handler = s.handler ∧ t.signaled = s.signaled ∧ (i.pred = none → t.pr = s.pr) ∧
      (∀ p, i.pred ≠ some p → t.readP p = s.readP p)

/-- R77 (GK4; log 14): a `NaTVal` source delivers `NaTVal`, raises nothing and changes no flag; an approximation
instruction clears its predicate. -/
def Obligations.NaTValPropagates : Prop :=
  ∀ (i : Instr) (s : State), s.ready i = true → (∃ n ∈ i.sources, s.readF n = natVal) →
    exec i s = .next { s.writeOptP i.pred false with
      fr := s.fr.set i.dest.toNat natVal i.dest.isLt
      signaled := {}
      pos := s.pos + 1
      draws := s.draws + 2 }

/-- R85, R86, R87, R79, R59, R83 (operand roles GK10): a normal fused instruction on finite operands whose exact result is a
number of the destination format delivers exactly that number, in one rounding, and changes no flag. -/
def Obligations.NormalFusedExactResult : Prop :=
  ∀ (i : Instr) (op : ArithOp) (c : Option Precision) (a : F1Fields) (s : State) (neg : Bool) (k : Nat) (e : Int),
    i.normalFused = some (op, c, a) → s.ready i = true →
    (∀ n ∈ i.sources, finiteReg (s.readF n) = true ∧ unnormalReg (s.readF n) = false) →
    2 ^ ((s.destFmt c a.sf).p - 1) ≤ k → k < 2 ^ (s.destFmt c a.sf).p →
    (s.destFmt c a.sf).emin ≤ e → e ≤ (s.destFmt c a.sf).emax →
    fusedRat op (regValue (s.readF a.f3)) (regValue (s.readF a.f4)) (regValue (s.readF a.f2)) =
      signRat neg * k * 2 ^ (e - ((s.destFmt c a.sf).p - 1)) →
    exec i s = .next { s with
      fr := s.fr.set a.f1.toNat
        ⟨neg, BitVec.ofInt 17 (e + 65535), BitVec.ofNat 64 (k * 2 ^ (64 - (s.destFmt c a.sf).p))⟩ a.f1.isLt
      signaled := {}
      pos := s.pos + 1
      draws := s.draws + 2 }

/-- R85, R86, R87, R55 (signs GK8; log 15): a normal fused instruction on finite operands whose exact result is zero delivers
a zero, + unless both terms are negative or, for terms of opposite signs, the direction is RM, and changes no flag. -/
def Obligations.NormalFusedExactZero : Prop :=
  ∀ (i : Instr) (op : ArithOp) (c : Option Precision) (a : F1Fields) (s : State),
    i.normalFused = some (op, c, a) → s.ready i = true →
    (∀ n ∈ i.sources, finiteReg (s.readF n) = true ∧ unnormalReg (s.readF n) = false) →
    fusedRat op (regValue (s.readF a.f3)) (regValue (s.readF a.f4)) (regValue (s.readF a.f2)) = 0 →
    exec i s = .next { s with
      fr := s.fr.set a.f1.toNat
        ⟨exactZeroNeg (controlsOf s.fpsr a.sf).rc op (s.readF a.f3).neg (s.readF a.f4).neg (s.readF a.f2).neg, 0, 0⟩
        a.f1.isLt
      signaled := {}
      pos := s.pos + 1
      draws := s.draws + 2 }

/-- R85 to R87, R79, R66, R68: a normal fused instruction on numeric operands writes the destination and the flags the stage
gives for the infinitely precise result, and only then takes the trap the stage raises; on finite operands that result is
the exact rational `f3 * f4 + f2` (`- f2`, or of the opposite product), representable or not, with its sign, and of an exact
zero the sign of IEEE 754 (GK8; log 15). With a denormal or unnormal operand and that fault enabled (R102, GK22; log 17, log
18, log 19) it takes the fault instead and writes nothing. The ISR positions are GK6 (log 4), those of the fault kinds GK22.
The destination format is that of R19 (GK3, GK13; log 20): single for `.s` and double for `.d`, else the precision of `pc`
with the exponent range of double-extended; with `wre` the exponent range is that of the register format. -/
def Obligations.NormalFusedFollowsStage : Prop :=
  (fmtSingle = ⟨24, -126, 127⟩ ∧ fmtRegister = ⟨64, -65534, 65535⟩ ∧
    ∀ (s : State) (sf : SfNum) (b : Nat), b = 6 + 13 * sf.toNat →
      (∀ c, s.destFmt c sf ∈ destFormats) ∧
      (s.destFmt (some .single) sf = if s.fpsr.getLsbD (b + 1) then ⟨24, -65534, 65535⟩ else ⟨24, -126, 127⟩) ∧
      (s.destFmt (some .double) sf = if s.fpsr.getLsbD (b + 1) then ⟨53, -65534, 65535⟩ else ⟨53, -1022, 1023⟩) ∧
      ((s.destFmt none sf).emin = (if s.fpsr.getLsbD (b + 1) then -65534 else -16382) ∧
        (s.destFmt none sf).emax = if s.fpsr.getLsbD (b + 1) then 65535 else 16383) ∧
      (s.fpsr.getLsbD (b + 3) = false → s.fpsr.getLsbD (b + 2) = false → (s.destFmt none sf).p = 24) ∧
      (s.fpsr.getLsbD (b + 3) = true → s.fpsr.getLsbD (b + 2) = false → (s.destFmt none sf).p = 53) ∧
      (s.fpsr.getLsbD (b + 3) = true → s.fpsr.getLsbD (b + 2) = true → (s.destFmt none sf).p = 64)) ∧
  ∀ (i : Instr) (op : ArithOp) (c : Option Precision) (a : F1Fields) (s : State) (x3 x4 x2 : Numeric) (p : Precise)
    (den : Bool) (o : StageOut) (u : State),
    i.normalFused = some (op, c, a) → s.ready i = true →
    classifyReg (s.readF a.f3) = .num x3 → classifyReg (s.readF a.f4) = .num x4 →
    classifyReg (s.readF a.f2) = .num x2 → fusedExact op (controlsOf s.fpsr a.sf).rc x3 x4 x2 = some p →
    den = (unnormalReg (s.readF a.f3) || unnormalReg (s.readF a.f4) || unnormalReg (s.readF a.f2)) →
    o = fpStage ⟨controlsOf s.fpsr a.sf, s.destFmt c a.sf, op, Config.swaRequest s.draws⟩ p →
    u = { s with
      fr := s.fr.set a.f1.toNat (encodeReg (s.destFmt c a.sf) o.dest) a.f1.isLt
      fpsr := recordSignals
        (putFlags s.fpsr a.sf ((if o.freed then Config.swaFlags s.draws else flagsOf s.fpsr a.sf).or o.sets))
        a.sf { d := den }
      signaled := { d := den } } →
    ((∀ n ∈ i.sources, finiteReg (s.readF n) = true) →
      p.isExactly (fusedRat op (regValue (s.readF a.f3)) (regValue (s.readF a.f4)) (regValue (s.readF a.f2)))
        (exactZeroNeg (controlsOf s.fpsr a.sf).rc op (s.readF a.f3).neg (s.readF a.f4).neg (s.readF a.f2).neg)) ∧
    (den = true ∧ (controlsOf s.fpsr a.sf).denEn = true →
      exec i s = .next (s.interrupt .fpFault (isrOfFault (Config.isrBits s.draws) { d := true } none)) ∧
        faultReport (isrOfFault (Config.isrBits s.draws) { d := true } none) 0 { d := true }) ∧
    (¬ (den = true ∧ (controlsOf s.fpsr a.sf).denEn = true) →
      (o.trap = none → exec i s = .next { u with pos := s.pos + 1, draws := s.draws + 2 }) ∧
      (∀ k, o.trap = some k →
        exec i s = .next (u.interrupt .fpTrap (isrOfTrap (Config.isrBits s.draws) k none)) ∧
          lowTrapReport (isrOfTrap (Config.isrBits s.draws) k none) k))

/-- R55, R85 to R87 (GK8; log 15): a fused operation whose product or addend is infinite, and which is not invalid, delivers
the infinity with no flag changed and no trap, whatever is enabled: of the product's sign if a factor is infinite (an
infinite addend then has the same sign), else of the addend's. The result that the
stage is given is that infinity for the elements of a Parallel-FP fused operation as well. -/
def Obligations.FusedInfinityPrecomputed : Prop :=
  (∀ (op : ArithOp) (rc : RoundMode) (x3 x4 x2 : Numeric) (neg : Bool), infiniteFused op x3 x4 x2 neg →
    fusedExact op rc x3 x4 x2 = some (.inf neg)) ∧
  (∀ (v : StageEnv) (neg : Bool), fpStage v (.inf neg) = ⟨.infinity neg, {}, false, none⟩ ∧
    fpStage v (.zero neg) = ⟨.zero neg, {}, false, none⟩) ∧
  ∀ (i : Instr) (op : ArithOp) (c : Option Precision) (a : F1Fields) (s : State) (x3 x4 x2 : Numeric) (neg : Bool),
    i.normalFused = some (op, c, a) → s.ready i = true →
    (∀ n ∈ i.sources, unnormalReg (s.readF n) = false) →
    classifyReg (s.readF a.f3) = .num x3 → classifyReg (s.readF a.f4) = .num x4 →
    classifyReg (s.readF a.f2) = .num x2 →
    infiniteFused op x3 x4 x2 neg →
    exec i s = .next { s with
      fr := s.fr.set a.f1.toNat ⟨neg, 0x1FFFF, 0x8000000000000000⟩ a.f1.isLt
      signaled := {}
      pos := s.pos + 1
      draws := s.draws + 2 }

/-- R85 to R90, R55 (GK8), R102 (GK22), R76 (log 13, log 15, log 18): a fused operation that is invalid without a NaN
operand (infinity times zero, or an infinite product and an infinite addend of opposite signs; no other) takes the fault
when Invalid Operation is enabled, and else signals it and delivers a quiet NaN; the same of each element of a Parallel-FP
fused operation (log 36), unless the other element takes the Denormal Operand fault. A register that R17 gives no value is
such an operand (log 16, PRESUMED). That an unnormal or denormal operand of the invalid operation signals no Denormal
Operand is the model's choice (log 19, PRESUMED). -/
def Obligations.FusedInvalidOperation : Prop :=
  (∀ (op : ArithOp) (rc : RoundMode) (x3 x4 x2 : Numeric),
    fusedExact op rc x3 x4 x2 = none ↔ invalidFused op x3 x4 x2 = true) ∧
  (∀ (i : Instr) (op : ArithOp) (c : Option Precision) (a : F1Fields) (s : State),
    i.normalFused = some (op, c, a) → s.ready i = true → s.handler = none →
    (∃ x3 x4 x2, classifyReg (s.readF a.f3) = .num x3 ∧ classifyReg (s.readF a.f4) = .num x4 ∧
        classifyReg (s.readF a.f2) = .num x2 ∧ invalidFused op x3 x4 x2 = true) ∨
      s.valuelessOperand i →
    ((controlsOf s.fpsr a.sf).invEn = true →
      ∃ t, exec i s = .next t ∧ faultedFrom s t ∧ t.isr.getLsbD 0 = true ∧ t.isr.getLsbD 1 = false) ∧
    ((controlsOf s.fpsr a.sf).invEn = false →
      ∃ t, exec i s = .next t ∧ t.handler = none ∧ t.signaled.v = true ∧ t.signaled.d = false ∧
        classifyReg (t.readF a.f1) = .nan true ∧ flagsOf t.fpsr a.sf = flagsOf s.fpsr a.sf)) ∧
  ∀ (i : Instr) (op : ArithOp) (a : F1Fields) (s : State) (pick : Flt → Elem) (lane : Nat) (x3 x4 x2 : Numeric),
    isLane pick lane → i.parallelFused = some (op, a) → s.ready i = true → s.noNaT i = true →
    classifyElem (pick (s.readF a.f3)) = .num x3 → classifyElem (pick (s.readF a.f4)) = .num x4 →
    classifyElem (pick (s.readF a.f2)) = .num x2 → invalidFused op x3 x4 x2 = true →
    ((controlsOf s.fpsr a.sf).invEn = true →
      ∃ t, exec i s = .next t ∧ faultedFrom s t ∧ t.isr.getLsbD (laneFaultBit lane 0) = true ∧
        t.isr.getLsbD (laneFaultBit lane 1) = false) ∧
    ((controlsOf s.fpsr a.sf).invEn = false →
      ∃ t, exec i s = .next t ∧
        ((faultedFrom s t ∧ t.isr.getLsbD (laneFaultBit lane 1) = false ∧
            t.isr.getLsbD (otherFaultBit lane 1) = true) ∨
          (t.signaled.v = true ∧ classifyElem (pick (t.readF a.f1)) = .nan true)))

/-- R75: with NaN operands the result is the operand NaN first in the priority f4, f2, f3, by field and not by class (a quiet
NaN in f4 goes before a signaling one in f3, vector NV8). Quiet NaNs alone: that the NaN is delivered unchanged, that no flag
changes, and that no Invalid Operation or Denormal Operand is signaled for the operands beside it is the model's choice (log
13, log 19, log 29). With a signaling NaN among the operands (R76 leaves NAN_QUIET open, log 13), or an encoding without a
value (log 16), that NaN is delivered, or its quieted image (top fraction bit set) if it is signaling itself, and none of o,
u, i changes; or the Invalid Operation fault is taken, which needs it enabled. The same of each element of a Parallel-FP
fused operation (log 36), unless the other element takes a fault; no operand of the element itself signals Denormal Operand
(log 19). -/
def Obligations.FusedNaNPriority : Prop :=
  (∀ (i : Instr) (op : ArithOp) (c : Option Precision) (a : F1Fields) (s : State) (chosen : Flt),
    i.normalFused = some (op, c, a) → s.ready i = true → s.noNaT i = true →
    (∀ n ∈ i.sources, classifyReg (s.readF n) ≠ .nan false ∧ classifyReg (s.readF n) ≠ .unsupported) →
    ((classifyReg (s.readF a.f4) = .nan true ∧ chosen = s.readF a.f4) ∨
      ((classifyReg (s.readF a.f4)).isNaN = false ∧ classifyReg (s.readF a.f2) = .nan true ∧ chosen = s.readF a.f2) ∨
      ((classifyReg (s.readF a.f4)).isNaN = false ∧ (classifyReg (s.readF a.f2)).isNaN = false ∧
        classifyReg (s.readF a.f3) = .nan true ∧ chosen = s.readF a.f3)) →
    exec i s = .next { s with
      fr := s.fr.set a.f1.toNat chosen a.f1.isLt
      signaled := {}
      pos := s.pos + 1
      draws := s.draws + 2 }) ∧
  (∀ (i : Instr) (op : ArithOp) (c : Option Precision) (a : F1Fields) (s : State) (chosen : Flt),
    i.normalFused = some (op, c, a) → s.ready i = true → s.noNaT i = true → s.handler = none →
    (((classifyReg (s.readF a.f4)).isNaN = true ∧ chosen = s.readF a.f4) ∨
      ((classifyReg (s.readF a.f4)).isNaN = false ∧ (classifyReg (s.readF a.f2)).isNaN = true ∧ chosen = s.readF a.f2) ∨
      ((classifyReg (s.readF a.f4)).isNaN = false ∧ (classifyReg (s.readF a.f2)).isNaN = false ∧
        (classifyReg (s.readF a.f3)).isNaN = true ∧ chosen = s.readF a.f3)) →
    ∃ t, exec i s = .next t ∧
      ((faultedFrom s t ∧ t.isr.getLsbD 0 = true ∧ t.isr.getLsbD 1 = false ∧ (controlsOf s.fpsr a.sf).invEn = true ∧
          ∃ n ∈ i.sources, classifyReg (s.readF n) = .nan false ∨ classifyReg (s.readF n) = .unsupported) ∨
        (t.handler = none ∧ t.signaled.d = false ∧ flagsOf t.fpsr a.sf = flagsOf s.fpsr a.sf ∧
          nanOrQuieted chosen (t.readF a.f1)))) ∧
  ∀ (i : Instr) (op : ArithOp) (a : F1Fields) (s : State) (pick : Flt → Elem) (lane : Nat) (chosen : Elem),
    isLane pick lane → i.parallelFused = some (op, a) → s.ready i = true → s.noNaT i = true →
    (((classifyElem (pick (s.readF a.f4))).isNaN = true ∧ chosen = pick (s.readF a.f4)) ∨
      ((classifyElem (pick (s.readF a.f4))).isNaN = false ∧ (classifyElem (pick (s.readF a.f2))).isNaN = true ∧
        chosen = pick (s.readF a.f2)) ∨
      ((classifyElem (pick (s.readF a.f4))).isNaN = false ∧ (classifyElem (pick (s.readF a.f2))).isNaN = false ∧
        (classifyElem (pick (s.readF a.f3))).isNaN = true ∧ chosen = pick (s.readF a.f3))) →
    ∃ t, exec i s = .next t ∧
      ((faultedFrom s t ∧ t.isr.getLsbD (laneFaultBit lane 1) = false ∧
          (t.isr.getLsbD (otherFaultBit lane 0) = true ∨ t.isr.getLsbD (otherFaultBit lane 1) = true ∨
            (t.isr.getLsbD (laneFaultBit lane 0) = true ∧ (controlsOf s.fpsr a.sf).invEn = true ∧
              ∃ n ∈ i.sources, classifyElem (pick (s.readF n)) = .nan false))) ∨
        nanElemOrQuieted chosen (pick (t.readF a.f1)))

/-- R74, R17, R20 (bit positions GK21; formats GK4, GK11; log 2, log 23): a NaN is quiet exactly when the top fraction bit is
1: bit 62 of a register's significand, bit 22 of an element. The sign, magnitude and exponent an operand is computed with are
those of its value, finite or infinite; and the encodings have these classes: exponent field all ones, integer bit 1 and
another significand bit 1 a NaN, the significand 0x8000000000000000 an infinity, integer bit 0 none (log 16, PRESUMED), and
only the encoding of R17 `NaTVal`; an element with exponent field 255 a NaN, or an infinity for fraction 0. -/
def Obligations.NaNClassesAndOperandValues : Prop :=
  ((∀ (r : Flt) (q : Bool), classifyReg r = .nan q → q = r.sig.getLsbD 62) ∧
    (∀ (x : Elem) (q : Bool), classifyElem x = .nan q → q = x.getLsbD 22)) ∧
  ((∀ (r : Flt) (n : Bool) (m : Nat) (e : Int), classifyReg r = .num (.fin n m e) →
      n = r.neg ∧ finiteReg r = true ∧ regValue r = signRat n * m * 2 ^ e) ∧
    (∀ (r : Flt) (n : Bool), classifyReg r = .num (.inf n) → n = r.neg ∧ infReg r = true)) ∧
  (∀ (x : Elem) (n : Bool) (m : Nat) (e : Int), classifyElem x = .num (.fin n m e) →
    n = x.getLsbD 31 ∧ finiteElem x = true ∧ elemValue x = signRat n * m * 2 ^ e) ∧
  (∀ (x : Elem) (n : Bool), classifyElem x = .num (.inf n) → n = x.getLsbD 31 ∧ infElem x = true) ∧
  ((∀ r : Flt, r.exp = 0x1FFFF → r.sig.getLsbD 63 = true → r.sig ≠ 0x8000000000000000 →
      classifyReg r = .nan (r.sig.getLsbD 62)) ∧
    (∀ r : Flt, classifyReg r = .natVal ↔ r = ⟨false, 0x1FFFE, 0⟩) ∧
    (∀ r : Flt, infReg r = true → classifyReg r = .num (.inf r.neg)) ∧
    (∀ r : Flt, finiteReg r = true → ∃ m e, classifyReg r = .num (.fin r.neg m e)) ∧
    (∀ r : Flt, r.exp = 0x1FFFF → r.sig.getLsbD 63 = false → classifyReg r = .unsupported)) ∧
  (∀ x : Elem, x.extractLsb' 23 8 = 0xFF → x.extractLsb' 0 23 ≠ 0 → classifyElem x = .nan (x.getLsbD 22)) ∧
  (∀ x : Elem, infElem x = true → classifyElem x = .num (.inf (x.getLsbD 31))) ∧
  (∀ x : Elem, finiteElem x = true → ∃ m e, classifyElem x = .num (.fin (x.getLsbD 31) m e))

/-- R88 to R90, R65, R66, R101 (GK10, GK11, ISR positions GK6; log 4, log 23): a Parallel-FP fused instruction on numeric
elements writes both elements as the stage gives them, each with its own Software Assist draw, and ORs both flag updates
into the status field; if an element traps it then takes one trap, and ISR reports the low element in bits 14:11 and the
high element in bits 10:7, an element without a trap as zeros. With a denormal element and that fault enabled (R102, GK22;
log 17, log 18, log 19) it takes the fault instead and writes nothing. On finite elements the result the stage is given is
the exact rational of that element (R79), representable or not, with its sign, and of an exact zero the sign of IEEE 754
(GK8; log 15). A numeric element beside any other element is delivered so too, unless a fault is taken; beside an element
with a NaN or an invalid one, the flags and the trap are its own alone (R65; log 36). -/
def Obligations.ParallelFusedFollowsStage : Prop :=
  (∀ (i : Instr) (op : ArithOp) (a : F1Fields) (s : State) (h3 h4 h2 l3 l4 l2 : Numeric) (ph pl : Precise)
    (dh dl : Bool) (oh ol : StageOut) (kh kl : TrapCode) (u : State),
    i.parallelFused = some (op, a) → s.ready i = true → s.noNaT i = true →
    classifyElem (highElem (s.readF a.f3)) = .num h3 → classifyElem (highElem (s.readF a.f4)) = .num h4 →
    classifyElem (highElem (s.readF a.f2)) = .num h2 → classifyElem (lowElem (s.readF a.f3)) = .num l3 →
    classifyElem (lowElem (s.readF a.f4)) = .num l4 → classifyElem (lowElem (s.readF a.f2)) = .num l2 →
    fusedExact op (controlsOf s.fpsr a.sf).rc h3 h4 h2 = some ph →
    fusedExact op (controlsOf s.fpsr a.sf).rc l3 l4 l2 = some pl →
    dh = (unnormalElem (highElem (s.readF a.f3)) || unnormalElem (highElem (s.readF a.f4)) ||
      unnormalElem (highElem (s.readF a.f2))) →
    dl = (unnormalElem (lowElem (s.readF a.f3)) || unnormalElem (lowElem (s.readF a.f4)) ||
      unnormalElem (lowElem (s.readF a.f2))) →
    oh = fpStage ⟨controlsOf s.fpsr a.sf, fmtSingle, op, Config.swaRequest (s.draws + 1)⟩ ph →
    ol = fpStage ⟨controlsOf s.fpsr a.sf, fmtSingle, op, Config.swaRequest s.draws⟩ pl →
    kh = oh.trap.getD {} → kl = ol.trap.getD {} →
    u = { s with
      fr := s.fr.set a.f1.toNat ⟨false, 0x1003E, encodeElem oh.dest ++ encodeElem ol.dest⟩ a.f1.isLt
      fpsr := recordSignals
        (putFlags s.fpsr a.sf
          ((if (ol.freed || oh.freed) = true then Config.swaFlags s.draws else flagsOf s.fpsr a.sf).or
            (ol.sets.or oh.sets)))
        a.sf { d := dl || dh }
      signaled := { d := dl || dh } } →
    ((∀ n ∈ i.sources, finiteElem (highElem (s.readF n)) = true) →
      ph.isExactly
        (fusedRat op (elemValue (highElem (s.readF a.f3))) (elemValue (highElem (s.readF a.f4)))
          (elemValue (highElem (s.readF a.f2))))
        (exactZeroNeg (controlsOf s.fpsr a.sf).rc op ((highElem (s.readF a.f3)).getLsbD 31)
          ((highElem (s.readF a.f4)).getLsbD 31) ((highElem (s.readF a.f2)).getLsbD 31))) ∧
    ((∀ n ∈ i.sources, finiteElem (lowElem (s.readF n)) = true) →
      pl.isExactly
        (fusedRat op (elemValue (lowElem (s.readF a.f3))) (elemValue (lowElem (s.readF a.f4)))
          (elemValue (lowElem (s.readF a.f2))))
        (exactZeroNeg (controlsOf s.fpsr a.sf).rc op ((lowElem (s.readF a.f3)).getLsbD 31)
          ((lowElem (s.readF a.f4)).getLsbD 31) ((lowElem (s.readF a.f2)).getLsbD 31))) ∧
    ((dh || dl) = true ∧ (controlsOf s.fpsr a.sf).denEn = true →
      exec i s = .next (s.interrupt .fpFault (isrOfFault (Config.isrBits s.draws) { d := dl } (some { d := dh })))) ∧
    (¬ ((dh || dl) = true ∧ (controlsOf s.fpsr a.sf).denEn = true) →
      (oh.trap = none → ol.trap = none → exec i s = .next { u with pos := s.pos + 1, draws := s.draws + 2 }) ∧
      (oh.trap.isSome = true ∨ ol.trap.isSome = true →
        ∃ w, exec i s = .next (u.interrupt .fpTrap w) ∧
          (w.getLsbD 11 = kl.o ∧ w.getLsbD 12 = kl.u ∧ w.getLsbD 13 = kl.i ∧ w.getLsbD 14 = kl.fpa) ∧
          (w.getLsbD 7 = kh.o ∧ w.getLsbD 8 = kh.u ∧ w.getLsbD 9 = kh.i ∧ w.getLsbD 10 = kh.fpa)))) ∧
  ∀ (i : Instr) (op : ArithOp) (a : F1Fields) (s : State) (pick other : Flt → Elem) (lane : Nat) (x3 x4 x2 : Numeric)
    (p : Precise) (den : Bool) (o : StageOut),
    isLane pick lane → isLane other (1 - lane) →
    i.parallelFused = some (op, a) → s.ready i = true → s.noNaT i = true →
    classifyElem (pick (s.readF a.f3)) = .num x3 → classifyElem (pick (s.readF a.f4)) = .num x4 →
    classifyElem (pick (s.readF a.f2)) = .num x2 → fusedExact op (controlsOf s.fpsr a.sf).rc x3 x4 x2 = some p →
    den = (unnormalElem (pick (s.readF a.f3)) || unnormalElem (pick (s.readF a.f4)) ||
      unnormalElem (pick (s.readF a.f2))) →
    o = fpStage ⟨controlsOf s.fpsr a.sf, fmtSingle, op, Config.swaRequest (s.draws + lane)⟩ p →
    ∃ t, exec i s = .next t ∧
      (elementStops s t a.sf lane den ∨
        (s.denormalStops a.sf den = false ∧ pick (t.readF a.f1) = encodeElem o.dest ∧
          (den = true → denormalRecorded t a.sf) ∧
          ((∃ n ∈ i.sources, (classifyElem (other (s.readF n))).isNaN = true) ∨
              (∃ y3 y4 y2, classifyElem (other (s.readF a.f3)) = .num y3 ∧ classifyElem (other (s.readF a.f4)) = .num y4 ∧
                classifyElem (other (s.readF a.f2)) = .num y2 ∧ invalidFused op y3 y4 y2 = true) →
            laneEnds s t a.sf lane o.sets o.freed o.trap)))

/-- R88, R89, R90, R79, R59, R83 (elements R20, GK11; zero signs GK8, log 15): a Parallel-FP fused instruction on finite
elements whose exact results are normal singles or zeros delivers exactly them, sign, exponent field and fraction, and
changes no flag; and each such element is delivered beside any other element, unless that one takes a fault (log 36). -/
def Obligations.ParallelFusedExactResult : Prop :=
  (∀ (i : Instr) (op : ArithOp) (a : F1Fields) (s : State) (rh rl : Elem),
    i.parallelFused = some (op, a) → s.ready i = true → s.noNaT i = true →
    (∀ n ∈ i.sources, ∀ x ∈ [highElem (s.readF n), lowElem (s.readF n)], finiteElem x = true ∧ unnormalElem x = false) →
    exactElem (controlsOf s.fpsr a.sf).rc op (highElem (s.readF a.f3)) (highElem (s.readF a.f4)) (highElem (s.readF a.f2))
      rh →
    exactElem (controlsOf s.fpsr a.sf).rc op (lowElem (s.readF a.f3)) (lowElem (s.readF a.f4)) (lowElem (s.readF a.f2))
      rl →
    exec i s = .next { s with
      fr := s.fr.set a.f1.toNat ⟨false, 0x1003E, rh ++ rl⟩ a.f1.isLt
      signaled := {}
      pos := s.pos + 1
      draws := s.draws + 2 }) ∧
  ∀ (i : Instr) (op : ArithOp) (a : F1Fields) (s : State) (pick : Flt → Elem) (lane : Nat) (r : Elem),
    isLane pick lane → i.parallelFused = some (op, a) → s.ready i = true → s.noNaT i = true →
    (∀ n ∈ i.sources, finiteElem (pick (s.readF n)) = true ∧ unnormalElem (pick (s.readF n)) = false) →
    exactElem (controlsOf s.fpsr a.sf).rc op (pick (s.readF a.f3)) (pick (s.readF a.f4)) (pick (s.readF a.f2)) r →
    ∃ t, exec i s = .next t ∧ (elementStops s t a.sf lane false ∨ pick (t.readF a.f1) = r)

/-- R91 (GK9; log 24): on finite non-zero operands `frcpa` takes a Software Assist fault, or delivers an approximation of
`1 / f3` with p2 set and within 1/473 of it ("about 8.886 bits", 2^-8.886 = 1/473.1), or delivers the IEEE quotient with
p2 cleared, with the flags and the trap the exception stage gives it (R66; ISR positions GK6, log 4). Where an operand is
denormal or unnormal and the Software Assist fault, reported alone (log 39), is not taken, the Denormal Operand fault is
taken if it is enabled, and else flag d is set (R102, GK22; log 17, log 18, log 19). -/
def Obligations.FrcpaOutcomes : Prop :=
  ∀ (a : F6Fields) (s : State) (n2 n3 : Bool) (m2 m3 : Nat) (e2 e3 : Int) (den : Bool) (o : StageOut),
    s.ready (.frcpa a) = true → s.handler = none →
    classifyReg (s.readF a.f2) = .num (.fin n2 m2 e2) → m2 ≠ 0 →
    classifyReg (s.readF a.f3) = .num (.fin n3 m3 e3) → m3 ≠ 0 →
    den = (unnormalReg (s.readF a.f2) || unnormalReg (s.readF a.f3)) →
    o = fpStage ⟨controlsOf s.fpsr a.sf, s.destFmt none a.sf, .quotient, Config.swaRequest s.draws⟩
      (.value (n2 ^^ n3) (.ratio m2 m3 (e2 - e3))) →
    ∃ t, exec (.frcpa a) s = .next t ∧
      ((faultedFrom s t ∧ faultReport t.isr 0 { swa := true }) ∨
       (faultedFrom s t ∧ faultReport t.isr 0 { d := true } ∧ s.denormalStops a.sf den = true) ∨
       (s.denormalStops a.sf den = false ∧ t.signaled = { d := den } ∧
         ((t.handler = none ∧ t.fpsr = orBit s.fpsr (sfBase a.sf + 8) den ∧ t.readP a.p2 = true ∧
             |regValue (t.readF a.f1) * regValue (s.readF a.f3) - 1| ≤ 1 / 473) ∨
          ((a.p2 ≠ 0 → t.readP a.p2 = false) ∧ t.readF a.f1 = encodeReg (s.destFmt none a.sf) o.dest ∧
             stageEnds s t a.sf o ∧ sfBit t.fpsr a.sf 8 = (sfBit s.fpsr a.sf 8 || den)))))

/-- R91, R92 (GK8, GK9; log 24): `frcpa` delivers the IEEE quotient of special operands and clears p2; `fprcpa` does so in
each element when both pairs are special, and in a special element beside any other (log 36), unless a fault is taken. No
flag changes but d: with a denormal or unnormal operand the Denormal Operand fault is taken if it is enabled, with nothing
written, and else flag d is set (R102, GK22; log 17, log 18, log 19). -/
def Obligations.ReciprocalSpecialCases : Prop :=
  (∀ (a : F6Fields) (s : State) (x2 x3 : Numeric) (d : Delivered) (den : Bool),
    s.ready (.frcpa a) = true →
    classifyReg (s.readF a.f2) = .num x2 → classifyReg (s.readF a.f3) = .num x3 → specialQuotient x2 x3 = some d →
    den = (unnormalReg (s.readF a.f2) || unnormalReg (s.readF a.f3)) →
    (s.denormalStops a.sf den = true →
      exec (.frcpa a) s = .next (s.interrupt .fpFault (isrOfFault (Config.isrBits s.draws) { d := true } none))) ∧
    (s.denormalStops a.sf den = false →
      exec (.frcpa a) s = .next { s.writeP a.p2 false with
        fr := s.fr.set a.f1.toNat (encodeReg fmtRegister d) a.f1.isLt
        fpsr := orBit s.fpsr (sfBase a.sf + 8) den
        signaled := { d := den }
        pos := s.pos + 1
        draws := s.draws + 2 })) ∧
  (∀ (a : F6Fields) (s : State) (h2 h3 l2 l3 : Numeric) (qh ql : Delivered) (dh dl : Bool),
    s.ready (.fprcpa a) = true → s.noNaT (.fprcpa a) = true →
    classifyElem (highElem (s.readF a.f2)) = .num h2 → classifyElem (highElem (s.readF a.f3)) = .num h3 →
    classifyElem (lowElem (s.readF a.f2)) = .num l2 → classifyElem (lowElem (s.readF a.f3)) = .num l3 →
    specialQuotient h2 h3 = some qh → specialQuotient l2 l3 = some ql →
    dh = (unnormalElem (highElem (s.readF a.f2)) || unnormalElem (highElem (s.readF a.f3))) →
    dl = (unnormalElem (lowElem (s.readF a.f2)) || unnormalElem (lowElem (s.readF a.f3))) →
    (s.denormalStops a.sf (dl || dh) = true →
      exec (.fprcpa a) s =
        .next (s.interrupt .fpFault (isrOfFault (Config.isrBits s.draws) { d := dl } (some { d := dh })))) ∧
    (s.denormalStops a.sf (dl || dh) = false →
      exec (.fprcpa a) s = .next { s.writeP a.p2 false with
        fr := s.fr.set a.f1.toNat ⟨false, 0x1003E, encodeElem qh ++ encodeElem ql⟩ a.f1.isLt
        fpsr := orBit s.fpsr (sfBase a.sf + 8) (dl || dh)
        signaled := { d := dl || dh }
        pos := s.pos + 1
        draws := s.draws + 2 })) ∧
  ∀ (a : F6Fields) (s : State) (pick : Flt → Elem) (lane : Nat) (x2 x3 : Numeric) (d : Delivered) (den : Bool),
    isLane pick lane → s.ready (.fprcpa a) = true → s.noNaT (.fprcpa a) = true →
    classifyElem (pick (s.readF a.f2)) = .num x2 → classifyElem (pick (s.readF a.f3)) = .num x3 →
    specialQuotient x2 x3 = some d → den = (unnormalElem (pick (s.readF a.f2)) || unnormalElem (pick (s.readF a.f3))) →
    ∃ t, exec (.fprcpa a) s = .next t ∧
      (elementStops s t a.sf lane den ∨
        (s.denormalStops a.sf den = false ∧ pick (t.readF a.f1) = encodeElem d ∧ (den = true → denormalRecorded t a.sf)))

/-- R91 to R94 (GK8, GK9), R102 (GK22; log 17, log 18, log 24): an invalid quotient (0/0, infinity by infinity) of `frcpa`
and an invalid root (of a negative non-zero operand, minus infinity among them) of `frsqrta` take the fault when Invalid
Operation is enabled, and else signal it, deliver a quiet NaN and clear p2; the same of each element of `fprcpa` and
`fprsqrta` (log 36), a register operand R17 gives no value counting as invalid (log 16, PRESUMED), unless the other element
takes a fault (p2 then depends on both, log 24). That a negative unnormal operand, or denormal element, of an invalid root
signals no Denormal Operand is the model's choice (log 19, PRESUMED). -/
def Obligations.ApproxInvalidOperation : Prop :=
  (∀ (i : Instr) (s : State), s.ready i = true → s.noNaT i = true → s.handler = none →
    (∃ a x2 x3, i = .frcpa a ∧ classifyReg (s.readF a.f2) = .num x2 ∧ classifyReg (s.readF a.f3) = .num x3 ∧
        invalidQuotient x2 x3 = true) ∨
      (∃ a x3, i = .frsqrta a ∧ classifyReg (s.readF a.f3) = .num x3 ∧ invalidRoot x3 = true) ∨
      (((∃ a, i = .frcpa a) ∨ ∃ a, i = .frsqrta a) ∧ s.valuelessOperand i) →
    ((controlsOf s.fpsr i.sf).invEn = true →
      ∃ t, exec i s = .next t ∧ faultedFrom s t ∧ t.isr.getLsbD 0 = true ∧ t.isr.getLsbD 1 = false) ∧
    ((controlsOf s.fpsr i.sf).invEn = false →
      ∃ t, exec i s = .next t ∧ t.handler = none ∧ t.signaled.v = true ∧ t.signaled.d = false ∧
        classifyReg (t.readF i.dest) = .nan true ∧
        flagsOf t.fpsr i.sf = flagsOf s.fpsr i.sf ∧ ∀ p, i.pred = some p → p ≠ 0 → t.readP p = false)) ∧
  ∀ (i : Instr) (s : State) (pick : Flt → Elem) (lane : Nat), isLane pick lane → s.ready i = true → s.noNaT i = true →
    (∃ a x2 x3, i = .fprcpa a ∧ classifyElem (pick (s.readF a.f2)) = .num x2 ∧
        classifyElem (pick (s.readF a.f3)) = .num x3 ∧ invalidQuotient x2 x3 = true) ∨
      (∃ a x3, i = .fprsqrta a ∧ classifyElem (pick (s.readF a.f3)) = .num x3 ∧ invalidRoot x3 = true) →
    ((controlsOf s.fpsr i.sf).invEn = true →
      ∃ t, exec i s = .next t ∧ faultedFrom s t ∧ t.isr.getLsbD (laneFaultBit lane 0) = true ∧
        t.isr.getLsbD (laneFaultBit lane 1) = false) ∧
    ((controlsOf s.fpsr i.sf).invEn = false →
      ∃ t, exec i s = .next t ∧
        ((faultedFrom s t ∧ t.isr.getLsbD (laneFaultBit lane 1) = false ∧
            (t.isr.getLsbD (otherFaultBit lane 1) = true ∨ t.isr.getLsbD (otherFaultBit lane 2) = true ∨
              t.isr.getLsbD (otherFaultBit lane 3) = true)) ∨
          (t.signaled.v = true ∧ classifyElem (pick (t.readF i.dest)) = .nan true)))

/-- R91 to R94, R75 (GK9; log 13, log 19, log 24, log 29): `frcpa` and `frsqrta` with quiet NaN operands deliver the NaN
first in the priority f2, f3, clear p2 and change no flag. With a signaling NaN among the operands (R76 leaves NAN_QUIET
open, log 13), or an encoding without a value (log 16), they deliver that NaN, chosen by field and not by class, or its
quieted image if it is signaling itself, clear p2 and change none of o, u, i, or take the Invalid Operation fault, which
needs it enabled. In each element of `fprcpa` and `fprsqrta` the NaN of that element is so delivered (log 36), unless the
other element takes a fault (p2 then depends on both, log 24). An operand beside
the NaN signals no Denormal Operand (log 19). -/
def Obligations.ApproxNaNOperand : Prop :=
  (∀ (i : Instr) (s : State) (chosen : RegNum), s.ready i = true → s.noNaT i = true →
    (∀ n ∈ i.sources, classifyReg (s.readF n) ≠ .nan false ∧ classifyReg (s.readF n) ≠ .unsupported) →
    classifyReg (s.readF chosen) = .nan true →
    (∃ a, i = .frcpa a ∧ (chosen = a.f2 ∨ ((classifyReg (s.readF a.f2)).isNaN = false ∧ chosen = a.f3))) ∨
      (∃ a, i = .frsqrta a ∧ chosen = a.f3) →
    exec i s = .next { s.writeOptP i.pred false with
      fr := s.fr.set i.dest.toNat (s.readF chosen) i.dest.isLt
      signaled := {}
      pos := s.pos + 1
      draws := s.draws + 2 }) ∧
  (∀ (i : Instr) (s : State) (chosen : RegNum), s.ready i = true → s.noNaT i = true → s.handler = none →
    (classifyReg (s.readF chosen)).isNaN = true →
    (∃ a, i = .frcpa a ∧ (chosen = a.f2 ∨ ((classifyReg (s.readF a.f2)).isNaN = false ∧ chosen = a.f3))) ∨
      (∃ a, i = .frsqrta a ∧ chosen = a.f3) →
    ∃ t, exec i s = .next t ∧
      ((faultedFrom s t ∧ t.isr.getLsbD 0 = true ∧ t.isr.getLsbD 1 = false ∧ (controlsOf s.fpsr i.sf).invEn = true ∧
          ∃ n ∈ i.sources, classifyReg (s.readF n) = .nan false ∨ classifyReg (s.readF n) = .unsupported) ∨
        (t.handler = none ∧ t.signaled.d = false ∧ flagsOf t.fpsr i.sf = flagsOf s.fpsr i.sf ∧
          (∀ p, i.pred = some p → p ≠ 0 → t.readP p = false) ∧ nanOrQuieted (s.readF chosen) (t.readF i.dest)))) ∧
  ∀ (i : Instr) (s : State) (pick : Flt → Elem) (lane : Nat) (chosen : RegNum),
    isLane pick lane → s.ready i = true → s.noNaT i = true →
    (classifyElem (pick (s.readF chosen))).isNaN = true →
    (∃ a, i = .fprcpa a ∧ (chosen = a.f2 ∨ ((classifyElem (pick (s.readF a.f2))).isNaN = false ∧ chosen = a.f3))) ∨
      (∃ a, i = .fprsqrta a ∧ chosen = a.f3) →
    ∃ t, exec i s = .next t ∧
      ((faultedFrom s t ∧ t.isr.getLsbD (laneFaultBit lane 1) = false ∧
          ((∃ kind, kind < 4 ∧ t.isr.getLsbD (otherFaultBit lane kind) = true) ∨
            (t.isr.getLsbD (laneFaultBit lane 0) = true ∧ (controlsOf s.fpsr i.sf).invEn = true ∧
              ∃ n ∈ i.sources, classifyElem (pick (s.readF n)) = .nan false))) ∨
        nanElemOrQuieted (pick (s.readF chosen)) (pick (t.readF i.dest)))

/-- R91, R92, R102 (GK9, GK22; log 17, log 24): `frcpa` with a zero divisor and a finite non-zero dividend takes the Zero
Divide fault when it is enabled, and else delivers the infinity of the quotient's sign, clears p2 and sets flag z (log 18),
unless the dividend is unnormal and the Denormal Operand fault is enabled, which is then taken (log 19); the same of each
element of `fprcpa`, unless the other element takes a fault (p2 then depends on both, log 24). -/
def Obligations.FrcpaZeroDivide : Prop :=
  (∀ (a : F6Fields) (s : State) (n2 n3 : Bool) (m2 : Nat) (e2 e3 : Int) (den : Bool),
    s.ready (.frcpa a) = true → s.handler = none →
    classifyReg (s.readF a.f2) = .num (.fin n2 m2 e2) → m2 ≠ 0 → den = unnormalReg (s.readF a.f2) →
    classifyReg (s.readF a.f3) = .num (.fin n3 0 e3) →
    ((controlsOf s.fpsr a.sf).zdvEn = true →
      ∃ t, exec (.frcpa a) s = .next t ∧ faultedFrom s t ∧ t.isr.getLsbD 2 = true ∧
        t.isr.getLsbD 1 = s.denormalStops a.sf den) ∧
    ((controlsOf s.fpsr a.sf).zdvEn = false → s.denormalStops a.sf den = true →
      ∃ t, exec (.frcpa a) s = .next t ∧ faultedFrom s t ∧ t.isr.getLsbD 2 = false ∧ t.isr.getLsbD 1 = true) ∧
    ((controlsOf s.fpsr a.sf).zdvEn = false → s.denormalStops a.sf den = false →
      ∃ t, exec (.frcpa a) s = .next t ∧ t.handler = none ∧
        t.readF a.f1 = ⟨n2 ^^ n3, 0x1FFFF, 0x8000000000000000⟩ ∧ (a.p2 ≠ 0 → t.readP a.p2 = false) ∧
        sfBit t.fpsr a.sf 9 = true ∧ t.signaled = { d := den, z := true } ∧
        sfBit t.fpsr a.sf 8 = (sfBit s.fpsr a.sf 8 || den))) ∧
  ∀ (a : F6Fields) (s : State) (pick : Flt → Elem) (lane : Nat) (n2 n3 : Bool) (m2 : Nat) (e2 e3 : Int) (den : Bool),
    isLane pick lane → s.ready (.fprcpa a) = true → s.noNaT (.fprcpa a) = true →
    classifyElem (pick (s.readF a.f2)) = .num (.fin n2 m2 e2) → m2 ≠ 0 → den = unnormalElem (pick (s.readF a.f2)) →
    classifyElem (pick (s.readF a.f3)) = .num (.fin n3 0 e3) →
    ((controlsOf s.fpsr a.sf).zdvEn = true →
      ∃ t, exec (.fprcpa a) s = .next t ∧ faultedFrom s t ∧ t.isr.getLsbD (laneFaultBit lane 2) = true ∧
        t.isr.getLsbD (laneFaultBit lane 1) = s.denormalStops a.sf den) ∧
    ((controlsOf s.fpsr a.sf).zdvEn = false → s.denormalStops a.sf den = true →
      ∃ t, exec (.fprcpa a) s = .next t ∧ faultedFrom s t ∧ t.isr.getLsbD (laneFaultBit lane 1) = true) ∧
    ((controlsOf s.fpsr a.sf).zdvEn = false → s.denormalStops a.sf den = false →
      ∃ t, exec (.fprcpa a) s = .next t ∧
        ((faultedFrom s t ∧ (t.isr.getLsbD (otherFaultBit lane 0) = true ∨ t.isr.getLsbD (otherFaultBit lane 1) = true ∨
            t.isr.getLsbD (otherFaultBit lane 3) = true)) ∨
          (pick (t.readF a.f1) = BitVec.ofBool (n2 ^^ n3) ++ 0x7F800000#31 ∧ sfBit t.fpsr a.sf 9 = true ∧
            t.signaled.z = true ∧ (den = true → denormalRecorded t a.sf))))

/-- R92 (log 24): `fprcpa` on an element pair that is finite and non-zero takes a Floating-point Exception fault, or
delivers in that element an approximation within 1/473 of the reciprocal, or the IEEE quotient. A fault is that of the pair,
for software assistance, reported without another kind of it (log 39), or for an enabled Denormal Operand, or that of the
other element; without a fault a denormal element sets flag d (R102, GK22; log 17, log 18, log 19). When both pairs are such
and no fault is taken, flags and trap are those of the quotients' stage outcomes (R65, R66; ISR positions GK6, log 4, log
23), and p2 is set if both elements are approximations and cleared if both are quotients; when one pair is such (the other
of any kind, log 36), flags and trap are its own alone, and p2 is cleared beside a quotient (beside an approximation the
elements disagree, log 24); when none is, no flag o, u, i changes, no trap is taken and p2 is cleared. -/
def Obligations.FprcpaElementOutcomes : Prop :=
  (∀ (a : F6Fields) (s : State) (pick : Flt → Elem) (lane : Nat) (n2 n3 : Bool) (m2 m3 : Nat) (e2 e3 : Int) (den : Bool),
    isLane pick lane →
    s.ready (.fprcpa a) = true → s.noNaT (.fprcpa a) = true →
    classifyElem (pick (s.readF a.f2)) = .num (.fin n2 m2 e2) → m2 ≠ 0 →
    classifyElem (pick (s.readF a.f3)) = .num (.fin n3 m3 e3) → m3 ≠ 0 →
    den = (unnormalElem (pick (s.readF a.f2)) || unnormalElem (pick (s.readF a.f3))) →
    ∃ t, exec (.fprcpa a) s = .next t ∧
      ((faultedFrom s t ∧ elementFaultKinds s t a.sf lane den) ∨
       (s.denormalStops a.sf den = false ∧ (den = true → denormalRecorded t a.sf) ∧
         (|elemValue (pick (t.readF a.f1)) * elemValue (pick (s.readF a.f3)) - 1| ≤ 1 / 473 ∨
          pick (t.readF a.f1) = encodeElem
            (fpStage ⟨controlsOf s.fpsr a.sf, fmtSingle, .quotient, Config.swaRequest (s.draws + lane)⟩
              (.value (n2 ^^ n3) (.ratio m2 m3 (e2 - e3)))).dest)))) ∧
  (∀ (a : F6Fields) (s : State) (h2 h3 l2 l3 : Numeric) (nh nl : Bool) (mh ml : Mag) (oh ol : StageOut),
    s.ready (.fprcpa a) = true → s.noNaT (.fprcpa a) = true →
    classifyElem (highElem (s.readF a.f2)) = .num h2 → classifyElem (highElem (s.readF a.f3)) = .num h3 →
    classifyElem (lowElem (s.readF a.f2)) = .num l2 → classifyElem (lowElem (s.readF a.f3)) = .num l3 →
    finiteQuotient h2 h3 = some (nh, mh) → finiteQuotient l2 l3 = some (nl, ml) →
    oh = fpStage ⟨controlsOf s.fpsr a.sf, fmtSingle, .quotient, Config.swaRequest (s.draws + 1)⟩ (.value nh mh) →
    ol = fpStage ⟨controlsOf s.fpsr a.sf, fmtSingle, .quotient, Config.swaRequest s.draws⟩ (.value nl ml) →
    ∃ t, exec (.fprcpa a) s = .next t ∧
      (faultedFrom s t ∨
        ∃ ah al : Bool,
          (if ah then |elemValue (highElem (t.readF a.f1)) * elemValue (highElem (s.readF a.f3)) - 1| ≤ 1 / 473
            else highElem (t.readF a.f1) = encodeElem oh.dest) ∧
          (if al then |elemValue (lowElem (t.readF a.f1)) * elemValue (lowElem (s.readF a.f3)) - 1| ≤ 1 / 473
            else lowElem (t.readF a.f1) = encodeElem ol.dest) ∧
          elementsEnd s t a.sf (if ah then stageDone oh.dest else oh) (if al then stageDone ol.dest else ol) ∧
          (ah = true → al = true → t.readP a.p2 = true ∧ t.handler = s.handler) ∧
          (ah = false → al = false → a.p2 ≠ 0 → t.readP a.p2 = false))) ∧
  (∀ (a : F6Fields) (s : State) (pick other : Flt → Elem) (lane : Nat) (x2 x3 : Numeric) (n : Bool) (m : Mag) (o : StageOut),
    isLane pick lane → isLane other (1 - lane) → s.ready (.fprcpa a) = true → s.noNaT (.fprcpa a) = true →
    classifyElem (pick (s.readF a.f2)) = .num x2 → classifyElem (pick (s.readF a.f3)) = .num x3 →
    finiteQuotient x2 x3 = some (n, m) →
    (∀ y2 y3, classifyElem (other (s.readF a.f2)) = .num y2 → classifyElem (other (s.readF a.f3)) = .num y3 →
      finiteQuotient y2 y3 = none) →
    o = fpStage ⟨controlsOf s.fpsr a.sf, fmtSingle, .quotient, Config.swaRequest (s.draws + lane)⟩ (.value n m) →
    ∃ t, exec (.fprcpa a) s = .next t ∧
      (faultedFrom s t ∨
        (|elemValue (pick (t.readF a.f1)) * elemValue (pick (s.readF a.f3)) - 1| ≤ 1 / 473 ∧
          laneEnds s t a.sf lane {} false none) ∨
        (pick (t.readF a.f1) = encodeElem o.dest ∧ laneEnds s t a.sf lane o.sets o.freed o.trap ∧
          (a.p2 ≠ 0 → t.readP a.p2 = false)))) ∧
  ∀ (a : F6Fields) (s : State), s.ready (.fprcpa a) = true → s.noNaT (.fprcpa a) = true →
    (∀ pick y2 y3, pick = highElem ∨ pick = lowElem → classifyElem (pick (s.readF a.f2)) = .num y2 →
      classifyElem (pick (s.readF a.f3)) = .num y3 → finiteQuotient y2 y3 = none) →
    ∃ t, exec (.fprcpa a) s = .next t ∧
      (faultedFrom s t ∨ (t.handler = s.handler ∧ flagsOf t.fpsr a.sf = flagsOf s.fpsr a.sf ∧
        (a.p2 ≠ 0 → t.readP a.p2 = false)))

/-- R93, R94 (GK8, GK9; log 24): `frsqrta` delivers the IEEE root of a zero and of plus infinity and clears p2; `fprsqrta`
does so in each element when both are such, with no flag changed, and in such an element beside any other, unless that one
takes a fault (log 36). -/
def Obligations.RootSpecialCases : Prop :=
  (∀ (a : F7Fields) (s : State) (x3 : Numeric) (d : Delivered),
    s.ready (.frsqrta a) = true → classifyReg (s.readF a.f3) = .num x3 → specialRoot x3 = some d →
    exec (.frsqrta a) s = .next { s.writeP a.p2 false with
      fr := s.fr.set a.f1.toNat (encodeReg fmtRegister d) a.f1.isLt
      signaled := {}
      pos := s.pos + 1
      draws := s.draws + 2 }) ∧
  (∀ (a : F7Fields) (s : State) (h3 l3 : Numeric) (dh dl : Delivered),
    s.ready (.fprsqrta a) = true → s.noNaT (.fprsqrta a) = true →
    classifyElem (highElem (s.readF a.f3)) = .num h3 → classifyElem (lowElem (s.readF a.f3)) = .num l3 →
    specialRoot h3 = some dh → specialRoot l3 = some dl →
    exec (.fprsqrta a) s = .next { s.writeP a.p2 false with
      fr := s.fr.set a.f1.toNat ⟨false, 0x1003E, encodeElem dh ++ encodeElem dl⟩ a.f1.isLt
      signaled := {}
      pos := s.pos + 1
      draws := s.draws + 2 }) ∧
  ∀ (a : F7Fields) (s : State) (pick : Flt → Elem) (lane : Nat) (x3 : Numeric) (d : Delivered),
    isLane pick lane → s.ready (.fprsqrta a) = true → s.noNaT (.fprsqrta a) = true →
    classifyElem (pick (s.readF a.f3)) = .num x3 → specialRoot x3 = some d →
    ∃ t, exec (.fprsqrta a) s = .next t ∧ (elementStops s t a.sf lane false ∨ pick (t.readF a.f1) = encodeElem d)

/-- R93 (GK9; log 24): on a finite positive operand `frsqrta` takes a Software Assist fault, or delivers an approximation
with p2 set and no flag o, u, i changed, or delivers the IEEE root through the stage, with the flags and the trap it gives
(R66; ISR positions GK6, log 4), with p2 cleared. Where the operand is unnormal and the Software Assist fault, reported alone
(log 39), is not taken, the Denormal Operand fault is taken if it is enabled, and else flag d is set (R102, GK22; log 17, log
18, log 19). A negative non-zero operand is an invalid operation, an unnormal one too, with no Denormal Operand (log 19). -/
def Obligations.FrsqrtaOutcomes : Prop :=
  ∀ (a : F7Fields) (s : State) (neg : Bool) (m : Nat) (e : Int) (den : Bool) (o : StageOut),
    s.ready (.frsqrta a) = true → s.handler = none →
    classifyReg (s.readF a.f3) = .num (.fin neg m e) → m ≠ 0 → den = unnormalReg (s.readF a.f3) →
    o = fpStage ⟨controlsOf s.fpsr a.sf, s.destFmt none a.sf, .root, Config.swaRequest s.draws⟩
      (.value false (.root m e)) →
    ∃ t, exec (.frsqrta a) s = .next t ∧
      (neg = false →
        (faultedFrom s t ∧ faultReport t.isr 0 { swa := true }) ∨
        (faultedFrom s t ∧ faultReport t.isr 0 { d := true } ∧ s.denormalStops a.sf den = true) ∨
        (s.denormalStops a.sf den = false ∧ t.signaled = { d := den } ∧
          ((t.handler = none ∧ t.fpsr = orBit s.fpsr (sfBase a.sf + 8) den ∧ t.readP a.p2 = true ∧
              t.readF a.f1 = Config.rootApprox (s.readF a.f3)) ∨
           ((a.p2 ≠ 0 → t.readP a.p2 = false) ∧ t.readF a.f1 = encodeReg (s.destFmt none a.sf) o.dest ∧
              stageEnds s t a.sf o ∧ sfBit t.fpsr a.sf 8 = (sfBit s.fpsr a.sf 8 || den))))) ∧
      (neg = true → (controlsOf s.fpsr a.sf).invEn = true →
        faultedFrom s t ∧ t.isr.getLsbD 0 = true ∧ t.isr.getLsbD 1 = false) ∧
      (neg = true → (controlsOf s.fpsr a.sf).invEn = false →
        t.handler = none ∧ t.signaled.v = true ∧ t.signaled.d = false ∧ classifyReg (t.readF a.f1) = .nan true ∧
          (a.p2 ≠ 0 → t.readP a.p2 = false))

/-- R94 (log 24): `fprsqrta` on an element that is finite and positive takes a Floating-point Exception fault, or delivers
in that element the approximation, or the IEEE root. A fault is that of the element, for software assistance, reported
without another kind of it (log 39), or for an enabled Denormal Operand, or that of the other element; without a fault a
denormal element sets flag d (R102, GK22; log 17, log 18, log 19). When both elements are such and no fault is taken, flags
and trap are those of the roots' stage outcomes (R65, R66; ISR positions GK6, log 4, log 23), and p2 is set if both elements
are approximations and cleared if both are roots; when one element is such (the other of any kind, log 36), flags and trap
are its own alone, and p2 is cleared beside a root (beside an approximation the elements disagree, log 24); when none is, no
flag o, u, i changes, no trap is taken and p2 is cleared. -/
def Obligations.FprsqrtaElementOutcomes : Prop :=
  (∀ (a : F7Fields) (s : State) (pick : Flt → Elem) (lane : Nat) (m : Nat) (e : Int) (den : Bool),
    isLane pick lane →
    s.ready (.fprsqrta a) = true → s.noNaT (.fprsqrta a) = true →
    classifyElem (pick (s.readF a.f3)) = .num (.fin false m e) → m ≠ 0 → den = unnormalElem (pick (s.readF a.f3)) →
    ∃ t, exec (.fprsqrta a) s = .next t ∧
      ((faultedFrom s t ∧ elementFaultKinds s t a.sf lane den) ∨
       (s.denormalStops a.sf den = false ∧ (den = true → denormalRecorded t a.sf) ∧
         (pick (t.readF a.f1) = Config.elemRootApprox (pick (s.readF a.f3)) ∨
          pick (t.readF a.f1) = encodeElem
            (fpStage ⟨controlsOf s.fpsr a.sf, fmtSingle, .root, Config.swaRequest (s.draws + lane)⟩
              (.value false (.root m e))).dest)))) ∧
  (∀ (a : F7Fields) (s : State) (h3 l3 : Numeric) (mh ml : Mag) (oh ol : StageOut),
    s.ready (.fprsqrta a) = true → s.noNaT (.fprsqrta a) = true →
    classifyElem (highElem (s.readF a.f3)) = .num h3 → classifyElem (lowElem (s.readF a.f3)) = .num l3 →
    finiteRoot h3 = some mh → finiteRoot l3 = some ml →
    oh = fpStage ⟨controlsOf s.fpsr a.sf, fmtSingle, .root, Config.swaRequest (s.draws + 1)⟩ (.value false mh) →
    ol = fpStage ⟨controlsOf s.fpsr a.sf, fmtSingle, .root, Config.swaRequest s.draws⟩ (.value false ml) →
    ∃ t, exec (.fprsqrta a) s = .next t ∧
      (faultedFrom s t ∨
        ∃ ah al : Bool,
          (if ah then highElem (t.readF a.f1) = Config.elemRootApprox (highElem (s.readF a.f3))
            else highElem (t.readF a.f1) = encodeElem oh.dest) ∧
          (if al then lowElem (t.readF a.f1) = Config.elemRootApprox (lowElem (s.readF a.f3))
            else lowElem (t.readF a.f1) = encodeElem ol.dest) ∧
          elementsEnd s t a.sf (if ah then stageDone oh.dest else oh) (if al then stageDone ol.dest else ol) ∧
          (ah = true → al = true → t.readP a.p2 = true ∧ t.handler = s.handler) ∧
          (ah = false → al = false → a.p2 ≠ 0 → t.readP a.p2 = false))) ∧
  (∀ (a : F7Fields) (s : State) (pick other : Flt → Elem) (lane : Nat) (x3 : Numeric) (m : Mag) (o : StageOut),
    isLane pick lane → isLane other (1 - lane) → s.ready (.fprsqrta a) = true → s.noNaT (.fprsqrta a) = true →
    classifyElem (pick (s.readF a.f3)) = .num x3 → finiteRoot x3 = some m →
    (∀ y3, classifyElem (other (s.readF a.f3)) = .num y3 → finiteRoot y3 = none) →
    o = fpStage ⟨controlsOf s.fpsr a.sf, fmtSingle, .root, Config.swaRequest (s.draws + lane)⟩ (.value false m) →
    ∃ t, exec (.fprsqrta a) s = .next t ∧
      (faultedFrom s t ∨
        (pick (t.readF a.f1) = Config.elemRootApprox (pick (s.readF a.f3)) ∧ laneEnds s t a.sf lane {} false none) ∨
        (pick (t.readF a.f1) = encodeElem o.dest ∧ laneEnds s t a.sf lane o.sets o.freed o.trap ∧
          (a.p2 ≠ 0 → t.readP a.p2 = false)))) ∧
  ∀ (a : F7Fields) (s : State), s.ready (.fprsqrta a) = true → s.noNaT (.fprsqrta a) = true →
    (∀ pick y3, pick = highElem ∨ pick = lowElem → classifyElem (pick (s.readF a.f3)) = .num y3 → finiteRoot y3 = none) →
    ∃ t, exec (.fprsqrta a) s = .next t ∧
      (faultedFrom s t ∨ (t.handler = s.handler ∧ flagsOf t.fpsr a.sf = flagsOf s.fpsr a.sf ∧
        (a.p2 ≠ 0 → t.readP a.p2 = false)))

/-- R70 (width GK16; log 18): an invalid conversion to a 64-bit integer, signed or unsigned, delivers the largest magnitude
negative integer when Invalid Operation is disabled, and takes the Floating-point Exception fault, with nothing written,
when it is enabled. The model's choice: a register that R17 gives no value counts as invalid (log 16), which rounded
integers fit follows from the direction of log 37, and an invalid conversion signals no Denormal Operand beside it (log 19),
all PRESUMED. -/
def Obligations.InvalidConversion : Prop :=
  ∀ (a : ConvFields) (s : State), a.parallel = false → s.ready (.fcvt a) = true → s.noNaT (.fcvt a) = true →
    s.handler = none →
    conversionInvalid a.unsigned (conversionRc a (controlsOf s.fpsr a.sf)) 64 (classifyReg (s.readF a.f2)) = true →
    ((controlsOf s.fpsr a.sf).invEn = false →
      ∃ t, exec (.fcvt a) s = .next t ∧ t.handler = none ∧ (t.readF a.f1).sig = 0x8000000000000000 ∧
        (t.readF a.f1).sig.toInt = -2 ^ 63 ∧ t.signaled.v = true ∧ t.signaled.d = false ∧
        flagsOf t.fpsr a.sf = flagsOf s.fpsr a.sf) ∧
    ((controlsOf s.fpsr a.sf).invEn = true →
      ∃ t, exec (.fcvt a) s = .next t ∧ t.handler = some (s.iva + 0x5c00) ∧ t.isr.getLsbD 0 = true ∧
        t.isr.getLsbD 1 = false ∧ t.fr = s.fr ∧ t.fpsr = s.fpsr)

/-- R70, R95 (widths GK16; log 17, log 18): a Parallel-FP conversion with an invalid element takes the fault when Invalid
Operation is enabled, and else delivers 0x80000000 in it and signals it, unless the other element takes the Denormal
Operand fault; with that fault and the inexact trap disabled as well, nothing interrupts. The model's choice: a conversion is
invalid in each element by itself (log 36, DESIGN CHOICE), and which rounded integers fit follows from RC or the truncating
form (log 37, PRESUMED), and an invalid element signals no Denormal Operand (log 19, PRESUMED). -/
def Obligations.InvalidElementConversion : Prop :=
  (∀ (a : ConvFields) (s : State), a.parallel = true → s.ready (.fcvt a) = true → s.noNaT (.fcvt a) = true →
    s.handler = none → (controlsOf s.fpsr a.sf).invEn = false → (controlsOf s.fpsr a.sf).denEn = false →
    (controlsOf s.fpsr a.sf).inxEn = false →
    ∃ t, exec (.fcvt a) s = .next t ∧ t.handler = none ∧
      (conversionInvalid a.unsigned (conversionRc a (controlsOf s.fpsr a.sf)) 32
          (classifyElem (lowElem (s.readF a.f2))) = true →
        lowElem (t.readF a.f1) = 0x80000000 ∧ t.signaled.v = true) ∧
      (conversionInvalid a.unsigned (conversionRc a (controlsOf s.fpsr a.sf)) 32
          (classifyElem (highElem (s.readF a.f2))) = true →
        highElem (t.readF a.f1) = 0x80000000 ∧ t.signaled.v = true)) ∧
  ∀ (a : ConvFields) (s : State) (pick : Flt → Elem) (lane : Nat), isLane pick lane → a.parallel = true →
    s.ready (.fcvt a) = true → s.noNaT (.fcvt a) = true →
    conversionInvalid a.unsigned (conversionRc a (controlsOf s.fpsr a.sf)) 32 (classifyElem (pick (s.readF a.f2))) = true →
    ((controlsOf s.fpsr a.sf).invEn = true →
      ∃ t, exec (.fcvt a) s = .next t ∧ faultedFrom s t ∧ t.isr.getLsbD (laneFaultBit lane 0) = true ∧
        t.isr.getLsbD (laneFaultBit lane 1) = false) ∧
    ((controlsOf s.fpsr a.sf).invEn = false →
      ∃ t, exec (.fcvt a) s = .next t ∧
        ((faultedFrom s t ∧ t.isr.getLsbD (laneFaultBit lane 1) = false ∧
            t.isr.getLsbD (otherFaultBit lane 1) = true) ∨
          (pick (t.readF a.f1) = 0x80000000 ∧ t.signaled.v = true)))

/-- R95 (GK16; log 28): a conversion of a finite operand that is an integer in range delivers that integer and changes no
flag but d: with an unnormal operand the Denormal Operand fault is taken if it is enabled, with nothing written, and else
flag d is set (R102, GK22; log 17, log 18, log 19); a Parallel-FP conversion delivers both elements' integers of 32 bits (a
denormal element is no integer), and the integer of such an element beside any other, unless that one takes a fault (log
36). -/
def Obligations.ExactConversion : Prop :=
  (∀ (a : ConvFields) (s : State) (z : Int) (den : Bool), a.parallel = false → s.ready (.fcvt a) = true →
    finiteReg (s.readF a.f2) = true → regValue (s.readF a.f2) = (z : ℚ) → fitsInt a.unsigned 64 z = true →
    den = unnormalReg (s.readF a.f2) →
    (s.denormalStops a.sf den = true →
      exec (.fcvt a) s = .next (s.interrupt .fpFault (isrOfFault (Config.isrBits s.draws) { d := true } none))) ∧
    (s.denormalStops a.sf den = false →
      exec (.fcvt a) s = .next { s with
        fr := s.fr.set a.f1.toNat ⟨false, 0x1003E, BitVec.ofInt 64 z⟩ a.f1.isLt
        fpsr := orBit s.fpsr (sfBase a.sf + 8) den
        signaled := { d := den }
        pos := s.pos + 1
        draws := s.draws + 2 })) ∧
  (∀ (a : ConvFields) (s : State) (zh zl : Int), a.parallel = true → s.ready (.fcvt a) = true →
    s.noNaT (.fcvt a) = true →
    (∀ x ∈ [highElem (s.readF a.f2), lowElem (s.readF a.f2)], finiteElem x = true) →
    elemValue (highElem (s.readF a.f2)) = (zh : ℚ) → elemValue (lowElem (s.readF a.f2)) = (zl : ℚ) →
    fitsInt a.unsigned 32 zh = true → fitsInt a.unsigned 32 zl = true →
    exec (.fcvt a) s = .next { s with
      fr := s.fr.set a.f1.toNat ⟨false, 0x1003E, BitVec.ofInt 32 zh ++ BitVec.ofInt 32 zl⟩ a.f1.isLt
      signaled := {}
      pos := s.pos + 1
      draws := s.draws + 2 }) ∧
  ∀ (a : ConvFields) (s : State) (pick : Flt → Elem) (lane : Nat) (z : Int), isLane pick lane → a.parallel = true →
    s.ready (.fcvt a) = true → s.noNaT (.fcvt a) = true → finiteElem (pick (s.readF a.f2)) = true →
    elemValue (pick (s.readF a.f2)) = (z : ℚ) → fitsInt a.unsigned 32 z = true →
    ∃ t, exec (.fcvt a) s = .next t ∧ (elementStops s t a.sf lane false ∨ pick (t.readF a.f1) = BitVec.ofInt 32 z)

/-- R95, R40, R60 (GK16; directions log 37, image log 28): a valid conversion of an operand that is not an integer sets flag
i and, when the inexact trap is enabled, takes the trap after writing the rounded integer; a valid Parallel-FP conversion
writes both rounded integers, ORs flag i of the elements, and takes one trap that reports both if an element is inexact (R65,
D14; log 23). The ISR positions are GK6 (log 4), the register images GK11 and GK16. With a denormal or unnormal operand the
Denormal Operand fault is taken if it is enabled, with nothing written, and else flag d is set (R102, GK22; log 17, log 18,
log 19). A valid element beside any other delivers its integer, unless a fault is taken, and beside an invalid one flag i and
the trap are its own alone (log 36). -/
def Obligations.InexactConversion : Prop :=
  (∀ (a : ConvFields) (s : State) (neg : Bool) (m : Nat) (e z : Int) (q : Quantized) (den : Bool), a.parallel = false →
    s.ready (.fcvt a) = true → s.handler = none →
    classifyReg (s.readF a.f2) = .num (.fin neg m e) → den = unnormalReg (s.readF a.f2) →
    q = roundToGrid (.ratio m 1 e) 0 (conversionRc a (controlsOf s.fpsr a.sf)) neg →
    z = signedInt neg q.k → fitsInt a.unsigned 64 z = true → q.i = true →
    (s.denormalStops a.sf den = true →
      ∃ t, exec (.fcvt a) s = .next t ∧ faultedFrom s t ∧ t.isr.getLsbD 1 = true) ∧
    (s.denormalStops a.sf den = false →
      ∃ t, exec (.fcvt a) s = .next t ∧ t.readF a.f1 = ⟨false, 0x1003E, BitVec.ofInt 64 z⟩ ∧
        (flagsOf t.fpsr a.sf).i = true ∧
        t.signaled = { d := den } ∧ sfBit t.fpsr a.sf 8 = (sfBit s.fpsr a.sf 8 || den) ∧
        ((controlsOf s.fpsr a.sf).inxEn = false → t.handler = none) ∧
        ((controlsOf s.fpsr a.sf).inxEn = true →
          t.handler = some (s.iva + 0x5d00) ∧ t.isr.getLsbD 11 = false ∧ t.isr.getLsbD 12 = false ∧
            t.isr.getLsbD 13 = true ∧ t.isr.getLsbD 14 = q.fpa))) ∧
  (∀ (a : ConvFields) (s : State) (nh nl : Bool) (mh ml : Nat) (eh el zh zl : Int) (qh ql : Quantized) (dh dl : Bool),
    a.parallel = true → s.ready (.fcvt a) = true → s.noNaT (.fcvt a) = true → s.handler = none →
    classifyElem (highElem (s.readF a.f2)) = .num (.fin nh mh eh) → dh = unnormalElem (highElem (s.readF a.f2)) →
    classifyElem (lowElem (s.readF a.f2)) = .num (.fin nl ml el) → dl = unnormalElem (lowElem (s.readF a.f2)) →
    qh = roundToGrid (.ratio mh 1 eh) 0 (conversionRc a (controlsOf s.fpsr a.sf)) nh →
    ql = roundToGrid (.ratio ml 1 el) 0 (conversionRc a (controlsOf s.fpsr a.sf)) nl →
    zh = signedInt nh qh.k → zl = signedInt nl ql.k →
    fitsInt a.unsigned 32 zh = true → fitsInt a.unsigned 32 zl = true →
    (s.denormalStops a.sf (dl || dh) = true →
      ∃ t, exec (.fcvt a) s = .next t ∧ faultedFrom s t ∧ t.isr.getLsbD (laneFaultBit 0 1) = dl ∧
        t.isr.getLsbD (laneFaultBit 1 1) = dh) ∧
    (s.denormalStops a.sf (dl || dh) = false →
      ∃ t, exec (.fcvt a) s = .next t ∧
        t.readF a.f1 = ⟨false, 0x1003E, BitVec.ofInt 32 zh ++ BitVec.ofInt 32 zl⟩ ∧
        flagsOf t.fpsr a.sf = (flagsOf s.fpsr a.sf).or ⟨false, false, ql.i || qh.i⟩ ∧
        t.signaled = { d := dl || dh } ∧ sfBit t.fpsr a.sf 8 = (sfBit s.fpsr a.sf 8 || (dl || dh)) ∧
        ((controlsOf s.fpsr a.sf).inxEn = false ∨ (ql.i || qh.i) = false → t.handler = none) ∧
        ((controlsOf s.fpsr a.sf).inxEn = true → (ql.i || qh.i) = true →
          t.handler = some (s.iva + 0x5d00) ∧
            (t.isr.getLsbD 11 = false ∧ t.isr.getLsbD 12 = false ∧ t.isr.getLsbD 13 = ql.i ∧ t.isr.getLsbD 14 = ql.fpa) ∧
            (t.isr.getLsbD 7 = false ∧ t.isr.getLsbD 8 = false ∧ t.isr.getLsbD 9 = qh.i ∧ t.isr.getLsbD 10 = qh.fpa)))) ∧
  ∀ (a : ConvFields) (s : State) (pick other : Flt → Elem) (lane : Nat) (neg : Bool) (m : Nat) (e z : Int) (q : Quantized)
    (den : Bool), isLane pick lane → isLane other (1 - lane) → a.parallel = true →
    s.ready (.fcvt a) = true → s.noNaT (.fcvt a) = true →
    classifyElem (pick (s.readF a.f2)) = .num (.fin neg m e) → den = unnormalElem (pick (s.readF a.f2)) →
    q = roundToGrid (.ratio m 1 e) 0 (conversionRc a (controlsOf s.fpsr a.sf)) neg →
    z = signedInt neg q.k → fitsInt a.unsigned 32 z = true →
    ∃ t, exec (.fcvt a) s = .next t ∧
      (elementStops s t a.sf lane den ∨
        (s.denormalStops a.sf den = false ∧ pick (t.readF a.f1) = BitVec.ofInt 32 z ∧
          (den = true → denormalRecorded t a.sf) ∧
          (conversionInvalid a.unsigned (conversionRc a (controlsOf s.fpsr a.sf)) 32
              (classifyElem (other (s.readF a.f2))) = true →
            laneEnds s t a.sf lane { i := q.i } false
              (if q.i = true ∧ (controlsOf s.fpsr a.sf).inxEn = true then some { i := true, fpa := q.fpa } else none))))

/-- R82 (GK17; log 27): a minimum or maximum of finite or infinite operands delivers the operand the idiom `a<b?a:b` picks by
exact value (so the second one for equal values, zeros of opposite sign among them), unchanged, and changes no flag but d:
with a denormal or unnormal operand the Denormal Operand fault is taken if it is enabled, with nothing written, and else flag
d is set (R102, GK22; log 17, log 18, log 19). A Parallel-FP one does so in each element, beside any other element too, unless
a fault is taken (log 36). -/
def Obligations.MinMaxByValue : Prop :=
  (∀ (a : MinMaxFields) (s : State) (x y : Flt) (first den : Bool), a.parallel = false → s.ready (.fminmax a) = true →
    x = s.readF a.f2 → y = s.readF a.f3 →
    (∀ r ∈ [x, y], finiteReg r = true ∨ infReg r = true) → den = (unnormalReg x || unnormalReg y) →
    (first = true ↔
      match a.op with
      | .min => regLess x y
      | .max => regLess y x
      | .amin => regMagLess x y
      | .amax => regMagLess y x) →
    (s.denormalStops a.sf den = true →
      exec (.fminmax a) s = .next (s.interrupt .fpFault (isrOfFault (Config.isrBits s.draws) { d := true } none))) ∧
    (s.denormalStops a.sf den = false →
      exec (.fminmax a) s = .next { s with
        fr := s.fr.set a.f1.toNat (if first then x else y) a.f1.isLt
        fpsr := orBit s.fpsr (sfBase a.sf + 8) den
        signaled := { d := den }
        pos := s.pos + 1
        draws := s.draws + 2 })) ∧
  (∀ (a : MinMaxFields) (s : State) (pickFirst : (Flt → Elem) → Bool) (dh dl : Bool), a.parallel = true →
    s.ready (.fminmax a) = true → s.noNaT (.fminmax a) = true →
    (∀ n ∈ [a.f2, a.f3], ∀ x ∈ [highElem (s.readF n), lowElem (s.readF n)], finiteElem x = true ∨ infElem x = true) →
    dh = (unnormalElem (highElem (s.readF a.f2)) || unnormalElem (highElem (s.readF a.f3))) →
    dl = (unnormalElem (lowElem (s.readF a.f2)) || unnormalElem (lowElem (s.readF a.f3))) →
    (∀ pick, pick = highElem ∨ pick = lowElem →
      (pickFirst pick = true ↔
        match a.op with
        | .min => elemLess (pick (s.readF a.f2)) (pick (s.readF a.f3))
        | .max => elemLess (pick (s.readF a.f3)) (pick (s.readF a.f2))
        | .amin => elemMagLess (pick (s.readF a.f2)) (pick (s.readF a.f3))
        | .amax => elemMagLess (pick (s.readF a.f3)) (pick (s.readF a.f2)))) →
    (s.denormalStops a.sf (dl || dh) = true →
      exec (.fminmax a) s =
        .next (s.interrupt .fpFault (isrOfFault (Config.isrBits s.draws) { d := dl } (some { d := dh })))) ∧
    (s.denormalStops a.sf (dl || dh) = false →
      exec (.fminmax a) s = .next { s with
        fr := s.fr.set a.f1.toNat
          ⟨false, 0x1003E,
            (if pickFirst highElem then highElem (s.readF a.f2) else highElem (s.readF a.f3)) ++
            (if pickFirst lowElem then lowElem (s.readF a.f2) else lowElem (s.readF a.f3))⟩ a.f1.isLt
        fpsr := orBit s.fpsr (sfBase a.sf + 8) (dl || dh)
        signaled := { d := dl || dh }
        pos := s.pos + 1
        draws := s.draws + 2 })) ∧
  ∀ (a : MinMaxFields) (s : State) (pick : Flt → Elem) (lane : Nat) (first den : Bool), isLane pick lane →
    a.parallel = true → s.ready (.fminmax a) = true → s.noNaT (.fminmax a) = true →
    (∀ n ∈ [a.f2, a.f3], finiteElem (pick (s.readF n)) = true ∨ infElem (pick (s.readF n)) = true) →
    den = (unnormalElem (pick (s.readF a.f2)) || unnormalElem (pick (s.readF a.f3))) →
    (first = true ↔
      match a.op with
      | .min => elemLess (pick (s.readF a.f2)) (pick (s.readF a.f3))
      | .max => elemLess (pick (s.readF a.f3)) (pick (s.readF a.f2))
      | .amin => elemMagLess (pick (s.readF a.f2)) (pick (s.readF a.f3))
      | .amax => elemMagLess (pick (s.readF a.f3)) (pick (s.readF a.f2))) →
    ∃ t, exec (.fminmax a) s = .next t ∧
      (elementStops s t a.sf lane den ∨
        (s.denormalStops a.sf den = false ∧ pick (t.readF a.f1) = pick (s.readF (if first then a.f2 else a.f3)) ∧
          (den = true → denormalRecorded t a.sf) ∧ flagsOf t.fpsr a.sf = flagsOf s.fpsr a.sf ∧ t.handler = s.handler))

/-- R82 (GK17; log 27): with a NaN operand, and Invalid Operation disabled, a minimum or maximum delivers the second operand
and changes none of o, u, i; enabled, it does that or takes the Invalid Operation fault, for which of the two is open
(R76). In each element of a Parallel-FP one (log 36) the second element is delivered, unless a fault is taken, which needs
Invalid Operation or Denormal Operand enabled. That a NaN operand suppresses the Denormal Operand of an unnormal operand or
denormal element beside it is the model's choice (log 19, PRESUMED), and so is what a register does that R17 gives no value,
beside a NaN too: Invalid Operation, as a fault when enabled, and else the default quiet NaN (log 16, PRESUMED). -/
def Obligations.MinMaxNaNDeliversSecond : Prop :=
  (∀ (a : MinMaxFields) (s : State), a.parallel = false → s.ready (.fminmax a) = true →
    s.noNaT (.fminmax a) = true → s.handler = none → (controlsOf s.fpsr a.sf).invEn = false →
    (∀ n ∈ [a.f2, a.f3], classifyReg (s.readF n) ≠ .unsupported) →
    (classifyReg (s.readF a.f2)).isNaN = true ∨ (classifyReg (s.readF a.f3)).isNaN = true →
    ∃ t, exec (.fminmax a) s = .next t ∧ t.handler = none ∧ t.readF a.f1 = s.readF a.f3 ∧ t.signaled.d = false ∧
      flagsOf t.fpsr a.sf = flagsOf s.fpsr a.sf) ∧
  (∀ (a : MinMaxFields) (s : State), a.parallel = false → s.ready (.fminmax a) = true →
    s.noNaT (.fminmax a) = true → s.handler = none → (controlsOf s.fpsr a.sf).invEn = true →
    (∀ n ∈ [a.f2, a.f3], classifyReg (s.readF n) ≠ .unsupported) →
    (classifyReg (s.readF a.f2)).isNaN = true ∨ (classifyReg (s.readF a.f3)).isNaN = true →
    ∃ t, exec (.fminmax a) s = .next t ∧
      ((faultedFrom s t ∧ t.isr.getLsbD 0 = true ∧ t.isr.getLsbD 1 = false) ∨
        (t.handler = none ∧ t.readF a.f1 = s.readF a.f3 ∧ t.signaled.d = false ∧
          flagsOf t.fpsr a.sf = flagsOf s.fpsr a.sf))) ∧
  (∀ (a : MinMaxFields) (s : State), a.parallel = false → s.ready (.fminmax a) = true →
    s.noNaT (.fminmax a) = true → s.handler = none → (∃ n ∈ [a.f2, a.f3], classifyReg (s.readF n) = .unsupported) →
    ((controlsOf s.fpsr a.sf).invEn = true →
      ∃ t, exec (.fminmax a) s = .next t ∧ faultedFrom s t ∧ t.isr.getLsbD 0 = true ∧ t.isr.getLsbD 1 = false) ∧
    ((controlsOf s.fpsr a.sf).invEn = false →
      ∃ t, exec (.fminmax a) s = .next t ∧ t.handler = none ∧ t.signaled.v = true ∧ t.signaled.d = false ∧
        classifyReg (t.readF a.f1) = .nan true ∧ flagsOf t.fpsr a.sf = flagsOf s.fpsr a.sf)) ∧
  ∀ (a : MinMaxFields) (s : State) (pick : Flt → Elem) (lane : Nat), isLane pick lane → a.parallel = true →
    s.ready (.fminmax a) = true → s.noNaT (.fminmax a) = true → s.handler = none →
    (classifyElem (pick (s.readF a.f2))).isNaN = true ∨ (classifyElem (pick (s.readF a.f3))).isNaN = true →
    ∃ t, exec (.fminmax a) s = .next t ∧
      ((faultedFrom s t ∧ t.isr.getLsbD (laneFaultBit lane 1) = false ∧
          ((controlsOf s.fpsr a.sf).invEn = true ∨
            ((controlsOf s.fpsr a.sf).denEn = true ∧ t.isr.getLsbD (otherFaultBit lane 1) = true))) ∨
        (t.handler = none ∧ pick (t.readF a.f1) = pick (s.readF a.f3) ∧
          flagsOf t.fpsr a.sf = flagsOf s.fpsr a.sf))

/-- R48, R64: the overflow trap-enabled response: true biased exponent MOD 2^17 (MOD 2^8 in an element), the rounded
significand (in an element its low 23 bits, R64), the flags, and the trap, whatever the Software Assist draw. The places of
the fields and the biases are those of R17 and R20 (GK4, GK11; log 2, log 23, PRESUMED). -/
def Obligations.OverflowEnabledResponse : Prop :=
  ∀ (v : StageEnv) (neg : Bool) (m : Mag) (r : Rounded) (o : StageOut),
    r = roundUnbounded m v.fmt.p v.ctl.rc neg → o = fpStage v (.value neg m) →
    v.fmt.emax < r.exp → v.ctl.ovfEn = true →
    o.trap = some ⟨true, false, r.i, r.fpa⟩ ∧ o.sets = ⟨true, false, r.i⟩ ∧ o.freed = false ∧
    (encodeReg v.fmt o.dest).neg = neg ∧ ((encodeReg v.fmt o.dest).exp.toNat : Int) = (r.exp + regBias) % 2 ^ 17 ∧
    (encodeReg v.fmt o.dest).sig = BitVec.ofNat 64 (r.sig * 2 ^ (64 - v.fmt.p)) ∧
    (((encodeElem o.dest).extractLsb' 23 8).toNat : Int) = (r.exp + pfpBias) % 2 ^ 8 ∧
    (encodeElem o.dest).extractLsb' 0 23 = BitVec.ofNat 23 r.sig ∧ (encodeElem o.dest).getLsbD 31 = neg

/-- R46, R47: the overflow trap-disabled response without software assistance: an infinity or the maximum finite value by
the table of R47, flags o and i, and only the inexact trap. -/
def Obligations.OverflowDisabledResponse : Prop :=
  ∀ (v : StageEnv) (neg : Bool) (m : Mag) (r : Rounded) (o : StageOut) (inf : Bool),
    r = roundUnbounded m v.fmt.p v.ctl.rc neg → o = fpStage v (.value neg m) →
    v.fmt.emax < r.exp → v.ctl.ovfEn = false → v.swa = false →
    (inf = true ↔ v.ctl.rc = .rn ∨ (v.ctl.rc = .rp ∧ neg = false) ∨ (v.ctl.rc = .rm ∧ neg = true)) →
    o.dest = (if inf then .infinity neg else .maxReal neg) ∧ o.sets = ⟨true, false, true⟩ ∧ o.freed = false ∧
    (v.ctl.inxEn = false → o.trap = none) ∧ (v.ctl.inxEn = true → o.trap = some ⟨false, false, true, inf⟩)

/-- R53: the underflow trap-enabled response, also for an exact result: the exponent is the residue in [0, 2^17) (or [0,
2^8)) also where it needs a borrow, the significand the rounded one (in an element its low 23 bits, R64). That it is taken
also with Flush-to-Zero on is decision D3 (C8, DEDUCED and called unverified; log 33); the places of the fields are those
of R17 and R20 (GK4, GK11; log 2, log 23). -/
def Obligations.UnderflowEnabledResponse : Prop :=
  ∀ (v : StageEnv) (neg : Bool) (m : Mag) (r : Rounded) (o : StageOut),
    r = roundUnbounded m v.fmt.p v.ctl.rc neg → o = fpStage v (.value neg m) →
    v.fmt.emin ≤ v.fmt.emax → r.exp < v.fmt.emin → v.ctl.unfEn = true →
    o.trap = some ⟨false, true, r.i, r.fpa⟩ ∧ o.sets = ⟨false, true, r.i⟩ ∧ o.freed = false ∧
    (encodeReg v.fmt o.dest).neg = neg ∧ ((encodeReg v.fmt o.dest).exp.toNat : Int) = (r.exp + regBias) % 2 ^ 17 ∧
    (encodeReg v.fmt o.dest).sig = BitVec.ofNat 64 (r.sig * 2 ^ (64 - v.fmt.p)) ∧
    (((encodeElem o.dest).extractLsb' 23 8).toNat : Int) = (r.exp + pfpBias) % 2 ^ 8 ∧
    (encodeElem o.dest).extractLsb' 0 23 = BitVec.ofNat 23 r.sig ∧ (encodeElem o.dest).getLsbD 31 = neg

/-- R52: the underflow trap-disabled response without software assistance rounds again from the exact value to the grid
`2^(EMIN - (P - 1))`; the multiple is a denormal, zero, or the smallest normal; exact, it sets no flag; inexact, flags u and
i, and only the inexact trap. -/
def Obligations.UnderflowDisabledResponse : Prop :=
  ∀ (v : StageEnv) (neg : Bool) (m : Mag) (q : Quantized) (o : StageOut),
    q = roundToGrid m (v.fmt.emin - ((v.fmt.p : Int) - 1)) v.ctl.rc neg → o = fpStage v (.value neg m) →
    v.fmt.emin ≤ v.fmt.emax → (roundUnbounded m v.fmt.p v.ctl.rc neg).exp < v.fmt.emin → v.ctl.unfEn = false →
    v.ctl.ftz = false → v.swa = false →
    o.dest = .bounded neg q.k ∧ o.freed = false ∧ (∀ x, m.hasValue x → 0 < x → q.k ≤ 2 ^ (v.fmt.p - 1)) ∧
    (q.i = false → o.sets = {} ∧ o.trap = none) ∧
    (q.i = true → o.sets = ⟨false, true, true⟩ ∧
      o.trap = if v.ctl.inxEn then some ⟨false, false, true, q.fpa⟩ else none)

/-- R54: Flush-to-Zero with the underflow trap disabled: a correctly signed zero, flags u and i, fpa 0, no Software Assist
trap whatever the draw, and only the inexact trap; the zero as a register is that of R17 and as an element (R64) that of R20
(GK4, GK11; log 2, log 23, PRESUMED). -/
def Obligations.FlushToZero : Prop :=
  ∀ (v : StageEnv) (neg : Bool) (m : Mag) (o : StageOut),
    o = fpStage v (.value neg m) → v.fmt.emin ≤ v.fmt.emax →
    (roundUnbounded m v.fmt.p v.ctl.rc neg).exp < v.fmt.emin → v.ctl.unfEn = false → v.ctl.ftz = true →
    o.dest = .zero neg ∧ encodeReg v.fmt o.dest = ⟨neg, 0, 0⟩ ∧ encodeElem o.dest = BitVec.ofBool neg ++ 0#31 ∧
    o.sets = ⟨false, true, true⟩ ∧ o.freed = false ∧
    o.trap = if v.ctl.inxEn then some ⟨false, false, true, false⟩ else none

/-- R59, R60, R62, R63: the in-range result is the unbounded-range rounded value; exact, nothing else happens; inexact, flag
i and the inexact trap if enabled, or, disabled and with software assistance, the trap with any flags. -/
def Obligations.InRangeResponse : Prop :=
  ∀ (v : StageEnv) (neg : Bool) (m : Mag) (r : Rounded) (o : StageOut),
    r = roundUnbounded m v.fmt.p v.ctl.rc neg → o = fpStage v (.value neg m) →
    v.fmt.emin ≤ r.exp → r.exp ≤ v.fmt.emax →
    o.dest = .rounded neg r.exp r.sig ∧
    (r.i = false → o.sets = {} ∧ o.freed = false ∧ o.trap = none) ∧
    (r.i = true → v.ctl.inxEn = true →
      o.sets = ⟨false, false, true⟩ ∧ o.freed = false ∧ o.trap = some ⟨false, false, true, r.fpa⟩) ∧
    (r.i = true → v.ctl.inxEn = false → v.swa = false →
      o.sets = ⟨false, false, true⟩ ∧ o.freed = false ∧ o.trap = none) ∧
    (r.i = true → v.ctl.inxEn = false → v.swa = true →
      o.freed = true ∧ o.trap = some ⟨false, false, true, r.fpa⟩)

/-- R17, R20, R8, R46, R52 (GK4, GK11; log 2, log 22, log 23): what the delivered results are as registers and as elements:
the infinities, the zeros, the signed MAXREAL, the signed multiple of `2^(EMIN - (P - 1))`, held with the exponent field of
EMIN (0 in the register format) and integer bit 0 where it is a denormal, and the normalised in-range value. -/
def Obligations.ResultImages : Prop :=
  (∀ (fmt : Fmt) (s : Bool), fmt ∈ destFormats →
    encodeReg fmt (.infinity s) = ⟨s, 0x1FFFF, 0x8000000000000000⟩ ∧ encodeReg fmt (.zero s) = ⟨s, 0, 0⟩ ∧
    ((encodeReg fmt (.maxReal s)).neg = s ∧ finiteReg (encodeReg fmt (.maxReal s)) = true ∧
      regValue (encodeReg fmt (.maxReal s)) = signRat s * maxRealRat fmt) ∧
    (∀ k, k < 2 ^ fmt.p → (encodeReg fmt (.bounded s k)).neg = s ∧ finiteReg (encodeReg fmt (.bounded s k)) = true ∧
      regValue (encodeReg fmt (.bounded s k)) = signRat s * k * 2 ^ (fmt.emin - ((fmt.p : Int) - 1))) ∧
    (∀ k, 0 < k → k < 2 ^ (fmt.p - 1) → (encodeReg fmt (.bounded s k)).sig.getLsbD 63 = false ∧
      (encodeReg fmt (.bounded s k)).exp = if fmt.emin = -65534 then 0 else BitVec.ofInt 17 (fmt.emin + 65535)) ∧
    (∀ e k, fmt.emin ≤ e → e ≤ fmt.emax → 2 ^ (fmt.p - 1) ≤ k → k < 2 ^ fmt.p →
      (encodeReg fmt (.rounded s e k)).neg = s ∧ finiteReg (encodeReg fmt (.rounded s e k)) = true ∧
      (encodeReg fmt (.rounded s e k)).sig.getLsbD 63 = true ∧
      regValue (encodeReg fmt (.rounded s e k)) = signRat s * k * 2 ^ (e - ((fmt.p : Int) - 1)))) ∧
  ∀ s : Bool,
    encodeElem (.infinity s) = BitVec.ofBool s ++ 0x7F800000#31 ∧ encodeElem (.zero s) = BitVec.ofBool s ++ 0#31 ∧
    ((encodeElem (.maxReal s)).getLsbD 31 = s ∧ finiteElem (encodeElem (.maxReal s)) = true ∧
      elemValue (encodeElem (.maxReal s)) = signRat s * maxRealRat fmtSingle) ∧
    (∀ k, k ≤ 2 ^ 23 → (encodeElem (.bounded s k)).getLsbD 31 = s ∧ finiteElem (encodeElem (.bounded s k)) = true ∧
      elemValue (encodeElem (.bounded s k)) = signRat s * k * 2 ^ (-149 : Int)) ∧
    (∀ e k, -126 ≤ e → e ≤ 127 → 2 ^ 23 ≤ k → k < 2 ^ 24 →
      (encodeElem (.rounded s e k)).getLsbD 31 = s ∧ finiteElem (encodeElem (.rounded s e k)) = true ∧
      elemValue (encodeElem (.rounded s e k)) = signRat s * k * 2 ^ (e - 23))

/-- R40, R62: a trap is raised exactly for one of the four causes: software assistance, where the implementation asks for it
and R62 admits it, or an enabled overflow, underflow or inexact result. That the enabled underflow trap is taken also with
Flush-to-Zero on is decision D3 (90_conflicts.md C8, DEDUCED and called unverified; log 33). -/
def Obligations.FourCausesOfATrap : Prop :=
  ∀ (v : StageEnv) (neg : Bool) (m : Mag) (r : Rounded) (o : StageOut),
    r = roundUnbounded m v.fmt.p v.ctl.rc neg → o = fpStage v (.value neg m) → v.fmt.emin ≤ v.fmt.emax →
    (o.trap.isSome = true ↔
      (v.swa = true ∧ swaAdmitted v r) ∨ (v.ctl.ovfEn = true ∧ v.fmt.emax < r.exp) ∨
        (v.ctl.unfEn = true ∧ r.exp < v.fmt.emin) ∨ (v.ctl.inxEn = true ∧ o.sets.i = true)) ∧
    (o.freed = true ↔ v.swa = true ∧ swaAdmitted v r)

/-- R61 as 90_conflicts.md C4 reads it (DEDUCED, log 33): a trap is a Software Assist trap exactly when `ISR.code` holds o
with overflow disabled, or u with underflow disabled, or i alone, without o and u, with inexact disabled; the destination
then holds the trap-enabled response. -/
def Obligations.SoftwareAssistIndication : Prop :=
  ∀ (v : StageEnv) (neg : Bool) (m : Mag) (r : Rounded) (o : StageOut) (k : TrapCode),
    r = roundUnbounded m v.fmt.p v.ctl.rc neg → o = fpStage v (.value neg m) → o.trap = some k →
    (o.freed = true ↔
      (k.o = true ∧ v.ctl.ovfEn = false) ∨ (k.u = true ∧ v.ctl.unfEn = false) ∨
        (k.i = true ∧ k.o = false ∧ k.u = false ∧ v.ctl.inxEn = false)) ∧
    (o.freed = true → o.dest = .rounded neg r.exp r.sig)

/-- R63, R62: a Software Assist trap is taken exactly where the implementation asks for it and one of the three points of R62
is reached: an overflow with its trap disabled, a tiny result with its trap disabled and without Flush-to-Zero, an inexact
in-range result with its trap disabled. It then delivers the trap-enabled response of its point and the bits of its trap. It
is never taken for a tiny result under Flush-to-Zero nor where the matching trap is enabled. -/
def Obligations.SoftwareAssistDelivery : Prop :=
  ∀ (v : StageEnv) (neg : Bool) (m : Mag) (r : Rounded) (o : StageOut),
    r = roundUnbounded m v.fmt.p v.ctl.rc neg → o = fpStage v (.value neg m) → v.fmt.emin ≤ v.fmt.emax →
    (v.swa = true →
      (v.fmt.emax < r.exp → v.ctl.ovfEn = false → o.freed = true) ∧
      (r.exp < v.fmt.emin → v.ctl.unfEn = false → v.ctl.ftz = false → o.freed = true) ∧
      (v.fmt.emin ≤ r.exp → r.exp ≤ v.fmt.emax → r.i = true → v.ctl.inxEn = false → o.freed = true)) ∧
    (o.freed = true →
      v.swa = true ∧ o.dest = .rounded neg r.exp r.sig ∧
      o.trap = some ⟨decide (v.fmt.emax < r.exp), decide (r.exp < v.fmt.emin), r.i, r.fpa⟩ ∧
      (v.fmt.emax < r.exp → v.ctl.ovfEn = false) ∧
      (r.exp < v.fmt.emin → v.ctl.unfEn = false ∧ v.ctl.ftz = false) ∧
      (v.fmt.emin ≤ r.exp → r.exp ≤ v.fmt.emax → r.i = true ∧ v.ctl.inxEn = false))

/-- R42 as 90_conflicts.md C3 reads it (DEDUCED, log 33): `ISR.fpa` of a trap is 1 exactly when the magnitude delivered,
before an exponent is wrapped, is greater than that of the infinitely precise result, a rational or a square root. -/
def Obligations.FpaMeansDeliveredIsGreater : Prop :=
  ∀ (v : StageEnv) (neg : Bool) (m : Mag) (x : ℝ) (k : TrapCode),
    v.fmt ∈ destFormats → m.hasValue x → 0 < x → (fpStage v (.value neg m)).trap = some k →
    (k.fpa = true ↔ deliveredAbove v.fmt (fpStage v (.value neg m)).dest x)

/-- R67: `ISR.code` of a trap that is not a Software Assist trap: only bits of enabled traps are set, except `ISR.i`, which
accompanies o or u as the inexactness report; o and u are never both 1. -/
def Obligations.TrapCodeBits : Prop :=
  ∀ (v : StageEnv) (p : Precise) (k : TrapCode), (fpStage v p).trap = some k →
    ¬ (k.o = true ∧ k.u = true) ∧
    ((fpStage v p).freed = false →
      (k.o = true → v.ctl.ovfEn = true) ∧ (k.u = true → v.ctl.unfEn = true) ∧
      (k.o = false → k.u = false → k.i = true ∧ v.ctl.inxEn = true))

/-- R49: without Flush-to-Zero and software assistance, underflow is signaled when the result is tiny and, if its trap is
disabled, also inexact after bounded-range rounding; tiny and exact with the trap disabled, nothing is signaled. -/
def Obligations.UnderflowSignaledWhen : Prop :=
  ∀ (v : StageEnv) (neg : Bool) (m : Mag) (o : StageOut) (tiny : Bool) (q : Quantized),
    o = fpStage v (.value neg m) → v.fmt.emin ≤ v.fmt.emax → v.ctl.ftz = false → v.swa = false →
    (tiny = true ↔ (roundUnbounded m v.fmt.p v.ctl.rc neg).exp < v.fmt.emin) →
    q = roundBounded m v.fmt.p v.fmt.emin v.ctl.rc neg →
    (o.sets.u = true ↔ tiny = true ∧ (v.ctl.unfEn = true ∨ q.i = true)) ∧
    (tiny = true → v.ctl.unfEn = false → q.i = false → o.sets = {} ∧ o.trap = none ∧ o.dest = .bounded neg q.k)

/-- R8: `round_unbounded` of a positive magnitude, a rational or a square root: a significand of exactly `P` bits, within one
step of the value, nearest under RN with ties to even, never above under RZ, above or below by sign under RP and RM; `t_i`
and `t_fpa` as defined. -/
def Obligations.RoundUnboundedIsRounding : Prop :=
  ∀ (m : Mag) (p : Nat) (rc : RoundMode) (neg : Bool) (r : Rounded) (v ulp rv : ℝ),
    m.hasValue v → 0 < v → 0 < p → r = roundUnbounded m p rc neg →
    rv = (r.sig : ℝ) * 2 ^ (r.exp - ((p : Int) - 1)) → ulp = 2 ^ (m.ilog - ((p : Int) - 1)) →
    (2 : ℝ) ^ m.ilog ≤ v ∧ v < 2 ^ (m.ilog + 1) ∧
    2 ^ (p - 1) ≤ r.sig ∧ r.sig < 2 ^ p ∧ |rv - v| < ulp ∧
    (r.i = true ↔ rv ≠ v) ∧ (r.fpa = true ↔ v < rv) ∧
    (rc = .rn → |rv - v| ≤ ulp / 2) ∧
    (rc = .rn → |rv - v| = ulp / 2 → ∃ n : Int, rv = 2 * n * ulp) ∧
    (rc = .rz → rv ≤ v) ∧ (rc = .rp → if neg then rv ≤ v else v ≤ rv) ∧ (rc = .rm → if neg then v ≤ rv else rv ≤ v)

/-- R8: `round_bounded`, and rounding to any grid `2^g`, of a magnitude, a rational or a square root: a multiple of the grid
step within one step of the value, by the same directions. -/
def Obligations.RoundToGridIsRounding : Prop :=
  ∀ (m : Mag) (g : Int) (rc : RoundMode) (neg : Bool) (q : Quantized) (v step rv : ℝ),
    m.hasValue v → q = roundToGrid m g rc neg → step = 2 ^ g → rv = (q.k : ℝ) * step →
    |rv - v| < step ∧ (q.i = true ↔ rv ≠ v) ∧ (q.fpa = true ↔ v < rv) ∧
    (rc = .rn → |rv - v| ≤ step / 2) ∧ (rc = .rn → |rv - v| = step / 2 → q.k % 2 = 0) ∧
    (rc = .rz → rv ≤ v) ∧ (rc = .rp → if neg then rv ≤ v else v ≤ rv) ∧ (rc = .rm → if neg then v ≤ rv else rv ≤ v)

/-- R45, R50: overflow is the rounded result exceeding MAXREAL, and tininess is the rounded result lying below `2^EMIN`, in
every destination format (GK3). -/
def Obligations.OverflowAndTininessByValue : Prop :=
  ∀ (fmt : Fmt) (m : Mag) (rc : RoundMode) (neg : Bool) (r : Rounded) (v rv : ℝ),
    fmt ∈ destFormats → m.hasValue v → 0 < v → r = roundUnbounded m fmt.p rc neg →
    rv = (r.sig : ℝ) * 2 ^ (r.exp - ((fmt.p : Int) - 1)) →
    (fmt.emax < r.exp ↔ (maxRealRat fmt : ℝ) < rv) ∧ (r.exp < fmt.emin ↔ rv < 2 ^ fmt.emin)

/-- R84: from the delivered exponent field software recovers the true exponent of a result less than `2^17` outside the
destination range. -/
def Obligations.TrueExponentRecovered : Prop :=
  ∀ (fmt : Fmt) (e : Int),
    (fmt.emax < e → e < fmt.emax + 2 ^ 17 + 1 → recoverOverflowExp fmt (regExpField e) = e) ∧
    (e < fmt.emin → fmt.emin - 2 ^ 17 - 1 < e → recoverUnderflowExp fmt (regExpField e) = e)
end

