-- ==== Sys2Proof/Laws/State.lean ====
section
/-! SUPPORT. What each update of the state leaves of each field. -/

namespace Sys2Proof.Machine

/-! `writeF` -/

@[simp] theorem State.writeF_fr (s : State) (n : RegNum) (x : Flt) : (s.writeF n x).fr = s.fr.set n.toNat x n.isLt := rfl
@[simp] theorem State.writeF_pr (s : State) (n : RegNum) (x : Flt) : (s.writeF n x).pr = s.pr := rfl
@[simp] theorem State.writeF_fpsr (s : State) (n : RegNum) (x : Flt) : (s.writeF n x).fpsr = s.fpsr := rfl
@[simp] theorem State.writeF_isr (s : State) (n : RegNum) (x : Flt) : (s.writeF n x).isr = s.isr := rfl
@[simp] theorem State.writeF_psr (s : State) (n : RegNum) (x : Flt) : (s.writeF n x).psr = s.psr := rfl
@[simp] theorem State.writeF_ipsr (s : State) (n : RegNum) (x : Flt) : (s.writeF n x).ipsr = s.ipsr := rfl
@[simp] theorem State.writeF_iip (s : State) (n : RegNum) (x : Flt) : (s.writeF n x).iip = s.iip := rfl
@[simp] theorem State.writeF_iva (s : State) (n : RegNum) (x : Flt) : (s.writeF n x).iva = s.iva := rfl
@[simp] theorem State.writeF_program (s : State) (n : RegNum) (x : Flt) : (s.writeF n x).program = s.program := rfl
@[simp] theorem State.writeF_pos (s : State) (n : RegNum) (x : Flt) : (s.writeF n x).pos = s.pos := rfl
@[simp] theorem State.writeF_handler (s : State) (n : RegNum) (x : Flt) : (s.writeF n x).handler = s.handler := rfl
@[simp] theorem State.writeF_signaled (s : State) (n : RegNum) (x : Flt) : (s.writeF n x).signaled = s.signaled := rfl
@[simp] theorem State.writeF_draws (s : State) (n : RegNum) (x : Flt) : (s.writeF n x).draws = s.draws := rfl

/-! `writeP` -/

@[simp] theorem State.writeP_fr (s : State) (n : PredNum) (b : Bool) : (s.writeP n b).fr = s.fr := by
  unfold State.writeP; split <;> rfl
@[simp] theorem State.writeP_pr (s : State) (n : PredNum) (b : Bool) : (s.writeP n b).pr = if n = 0 then s.pr else putBit s.pr n.toNat b := by
  unfold State.writeP; split <;> rfl
@[simp] theorem State.writeP_fpsr (s : State) (n : PredNum) (b : Bool) : (s.writeP n b).fpsr = s.fpsr := by
  unfold State.writeP; split <;> rfl
@[simp] theorem State.writeP_isr (s : State) (n : PredNum) (b : Bool) : (s.writeP n b).isr = s.isr := by
  unfold State.writeP; split <;> rfl
@[simp] theorem State.writeP_psr (s : State) (n : PredNum) (b : Bool) : (s.writeP n b).psr = s.psr := by
  unfold State.writeP; split <;> rfl
@[simp] theorem State.writeP_ipsr (s : State) (n : PredNum) (b : Bool) : (s.writeP n b).ipsr = s.ipsr := by
  unfold State.writeP; split <;> rfl
@[simp] theorem State.writeP_iip (s : State) (n : PredNum) (b : Bool) : (s.writeP n b).iip = s.iip := by
  unfold State.writeP; split <;> rfl
@[simp] theorem State.writeP_iva (s : State) (n : PredNum) (b : Bool) : (s.writeP n b).iva = s.iva := by
  unfold State.writeP; split <;> rfl
@[simp] theorem State.writeP_program (s : State) (n : PredNum) (b : Bool) : (s.writeP n b).program = s.program := by
  unfold State.writeP; split <;> rfl
@[simp] theorem State.writeP_pos (s : State) (n : PredNum) (b : Bool) : (s.writeP n b).pos = s.pos := by
  unfold State.writeP; split <;> rfl
@[simp] theorem State.writeP_handler (s : State) (n : PredNum) (b : Bool) : (s.writeP n b).handler = s.handler := by
  unfold State.writeP; split <;> rfl
@[simp] theorem State.writeP_signaled (s : State) (n : PredNum) (b : Bool) : (s.writeP n b).signaled = s.signaled := by
  unfold State.writeP; split <;> rfl
@[simp] theorem State.writeP_draws (s : State) (n : PredNum) (b : Bool) : (s.writeP n b).draws = s.draws := by
  unfold State.writeP; split <;> rfl

/-! `writeOptP` -/

@[simp] theorem State.writeOptP_fr (s : State) (n : Option PredNum) (b : Bool) : (s.writeOptP n b).fr = s.fr := by
  cases n <;> simp [State.writeOptP]
@[simp] theorem State.writeOptP_fpsr (s : State) (n : Option PredNum) (b : Bool) : (s.writeOptP n b).fpsr = s.fpsr := by
  cases n <;> simp [State.writeOptP]
@[simp] theorem State.writeOptP_isr (s : State) (n : Option PredNum) (b : Bool) : (s.writeOptP n b).isr = s.isr := by
  cases n <;> simp [State.writeOptP]
@[simp] theorem State.writeOptP_psr (s : State) (n : Option PredNum) (b : Bool) : (s.writeOptP n b).psr = s.psr := by
  cases n <;> simp [State.writeOptP]
@[simp] theorem State.writeOptP_ipsr (s : State) (n : Option PredNum) (b : Bool) : (s.writeOptP n b).ipsr = s.ipsr := by
  cases n <;> simp [State.writeOptP]
@[simp] theorem State.writeOptP_iip (s : State) (n : Option PredNum) (b : Bool) : (s.writeOptP n b).iip = s.iip := by
  cases n <;> simp [State.writeOptP]
@[simp] theorem State.writeOptP_iva (s : State) (n : Option PredNum) (b : Bool) : (s.writeOptP n b).iva = s.iva := by
  cases n <;> simp [State.writeOptP]
@[simp] theorem State.writeOptP_program (s : State) (n : Option PredNum) (b : Bool) : (s.writeOptP n b).program = s.program := by
  cases n <;> simp [State.writeOptP]
@[simp] theorem State.writeOptP_pos (s : State) (n : Option PredNum) (b : Bool) : (s.writeOptP n b).pos = s.pos := by
  cases n <;> simp [State.writeOptP]
@[simp] theorem State.writeOptP_handler (s : State) (n : Option PredNum) (b : Bool) : (s.writeOptP n b).handler = s.handler := by
  cases n <;> simp [State.writeOptP]
@[simp] theorem State.writeOptP_signaled (s : State) (n : Option PredNum) (b : Bool) : (s.writeOptP n b).signaled = s.signaled := by
  cases n <;> simp [State.writeOptP]
@[simp] theorem State.writeOptP_draws (s : State) (n : Option PredNum) (b : Bool) : (s.writeOptP n b).draws = s.draws := by
  cases n <;> simp [State.writeOptP]

/-! `advance` -/

@[simp] theorem State.advance_fr (s : State)  : (s.advance).fr = s.fr := rfl
@[simp] theorem State.advance_pr (s : State)  : (s.advance).pr = s.pr := rfl
@[simp] theorem State.advance_fpsr (s : State)  : (s.advance).fpsr = s.fpsr := rfl
@[simp] theorem State.advance_isr (s : State)  : (s.advance).isr = s.isr := rfl
@[simp] theorem State.advance_psr (s : State)  : (s.advance).psr = s.psr := rfl
@[simp] theorem State.advance_ipsr (s : State)  : (s.advance).ipsr = s.ipsr := rfl
@[simp] theorem State.advance_iip (s : State)  : (s.advance).iip = s.iip := rfl
@[simp] theorem State.advance_iva (s : State)  : (s.advance).iva = s.iva := rfl
@[simp] theorem State.advance_program (s : State)  : (s.advance).program = s.program := rfl
@[simp] theorem State.advance_pos (s : State)  : (s.advance).pos = s.pos + 1 := rfl
@[simp] theorem State.advance_handler (s : State)  : (s.advance).handler = s.handler := rfl
@[simp] theorem State.advance_signaled (s : State)  : (s.advance).signaled = s.signaled := rfl
@[simp] theorem State.advance_draws (s : State)  : (s.advance).draws = s.draws := rfl

/-! `tick` -/

@[simp] theorem State.tick_fr (s : State)  : (s.tick).fr = s.fr := rfl
@[simp] theorem State.tick_pr (s : State)  : (s.tick).pr = s.pr := rfl
@[simp] theorem State.tick_fpsr (s : State)  : (s.tick).fpsr = s.fpsr := rfl
@[simp] theorem State.tick_isr (s : State)  : (s.tick).isr = s.isr := rfl
@[simp] theorem State.tick_psr (s : State)  : (s.tick).psr = s.psr := rfl
@[simp] theorem State.tick_ipsr (s : State)  : (s.tick).ipsr = s.ipsr := rfl
@[simp] theorem State.tick_iip (s : State)  : (s.tick).iip = s.iip := rfl
@[simp] theorem State.tick_iva (s : State)  : (s.tick).iva = s.iva := rfl
@[simp] theorem State.tick_program (s : State)  : (s.tick).program = s.program := rfl
@[simp] theorem State.tick_pos (s : State)  : (s.tick).pos = s.pos := rfl
@[simp] theorem State.tick_handler (s : State)  : (s.tick).handler = s.handler := rfl
@[simp] theorem State.tick_signaled (s : State)  : (s.tick).signaled = s.signaled := rfl
@[simp] theorem State.tick_draws (s : State)  : (s.tick).draws = s.draws + 2 := rfl

/-! `interrupt` -/

@[simp] theorem State.interrupt_fr (s : State) (k : Interruption) (w : BitVec 64) : (s.interrupt k w).fr = s.fr := rfl
@[simp] theorem State.interrupt_pr (s : State) (k : Interruption) (w : BitVec 64) : (s.interrupt k w).pr = s.pr := rfl
@[simp] theorem State.interrupt_fpsr (s : State) (k : Interruption) (w : BitVec 64) : (s.interrupt k w).fpsr = s.fpsr := rfl
@[simp] theorem State.interrupt_isr (s : State) (k : Interruption) (w : BitVec 64) : (s.interrupt k w).isr = w := rfl
@[simp] theorem State.interrupt_psr (s : State) (k : Interruption) (w : BitVec 64) : (s.interrupt k w).psr = { s.psr with ic := false, i := false, cpl := 0 } := rfl
@[simp] theorem State.interrupt_ipsr (s : State) (k : Interruption) (w : BitVec 64) : (s.interrupt k w).ipsr = s.psr := rfl
@[simp] theorem State.interrupt_iip (s : State) (k : Interruption) (w : BitVec 64) : (s.interrupt k w).iip = s.savedPos k := rfl
@[simp] theorem State.interrupt_iva (s : State) (k : Interruption) (w : BitVec 64) : (s.interrupt k w).iva = s.iva := rfl
@[simp] theorem State.interrupt_program (s : State) (k : Interruption) (w : BitVec 64) : (s.interrupt k w).program = s.program := rfl
@[simp] theorem State.interrupt_pos (s : State) (k : Interruption) (w : BitVec 64) : (s.interrupt k w).pos = s.pos := rfl
@[simp] theorem State.interrupt_handler (s : State) (k : Interruption) (w : BitVec 64) : (s.interrupt k w).handler = some (s.iva + vectorOf k) := rfl
@[simp] theorem State.interrupt_signaled (s : State) (k : Interruption) (w : BitVec 64) : (s.interrupt k w).signaled = s.signaled := rfl
@[simp] theorem State.interrupt_draws (s : State) (k : Interruption) (w : BitVec 64) : (s.interrupt k w).draws = s.draws + 2 := rfl

/-! `commit` -/

@[simp] theorem State.commit_fr (s : State) (sf : SfNum) (f1 : RegNum) (p2 : Option PredNum) (x : Flt) (low : Report)
    (high : Option Report) : (s.commit sf f1 p2 x low high).fr = s.fr.set f1.toNat x f1.isLt := by
  simp [State.commit]
@[simp] theorem State.commit_isr (s : State) (sf : SfNum) (f1 : RegNum) (p2 : Option PredNum) (x : Flt) (low : Report)
    (high : Option Report) : (s.commit sf f1 p2 x low high).isr = s.isr := by
  simp [State.commit]
@[simp] theorem State.commit_psr (s : State) (sf : SfNum) (f1 : RegNum) (p2 : Option PredNum) (x : Flt) (low : Report)
    (high : Option Report) : (s.commit sf f1 p2 x low high).psr = s.psr := by
  simp [State.commit]
@[simp] theorem State.commit_ipsr (s : State) (sf : SfNum) (f1 : RegNum) (p2 : Option PredNum) (x : Flt) (low : Report)
    (high : Option Report) : (s.commit sf f1 p2 x low high).ipsr = s.ipsr := by
  simp [State.commit]
@[simp] theorem State.commit_iip (s : State) (sf : SfNum) (f1 : RegNum) (p2 : Option PredNum) (x : Flt) (low : Report)
    (high : Option Report) : (s.commit sf f1 p2 x low high).iip = s.iip := by
  simp [State.commit]
@[simp] theorem State.commit_iva (s : State) (sf : SfNum) (f1 : RegNum) (p2 : Option PredNum) (x : Flt) (low : Report)
    (high : Option Report) : (s.commit sf f1 p2 x low high).iva = s.iva := by
  simp [State.commit]
@[simp] theorem State.commit_program (s : State) (sf : SfNum) (f1 : RegNum) (p2 : Option PredNum) (x : Flt) (low : Report)
    (high : Option Report) : (s.commit sf f1 p2 x low high).program = s.program := by
  simp [State.commit]
@[simp] theorem State.commit_pos (s : State) (sf : SfNum) (f1 : RegNum) (p2 : Option PredNum) (x : Flt) (low : Report)
    (high : Option Report) : (s.commit sf f1 p2 x low high).pos = s.pos := by
  simp [State.commit]
@[simp] theorem State.commit_handler (s : State) (sf : SfNum) (f1 : RegNum) (p2 : Option PredNum) (x : Flt) (low : Report)
    (high : Option Report) : (s.commit sf f1 p2 x low high).handler = s.handler := by
  simp [State.commit]
@[simp] theorem State.commit_signaled (s : State) (sf : SfNum) (f1 : RegNum) (p2 : Option PredNum) (x : Flt) (low : Report)
    (high : Option Report) : (s.commit sf f1 p2 x low high).signaled = allSignals low high := by
  simp [State.commit]
@[simp] theorem State.commit_draws (s : State) (sf : SfNum) (f1 : RegNum) (p2 : Option PredNum) (x : Flt) (low : Report)
    (high : Option Report) : (s.commit sf f1 p2 x low high).draws = s.draws := by
  simp [State.commit]

end Sys2Proof.Machine
end

