-- ==== Sys2Proof/Laws/Ops.lean ====
section
/-! SUPPORT. What the shared operations can do: registers, bits of a word, the guard, the completion. -/

namespace Sys2Proof.Machine

theorem State.readF_writeF_self (s : State) (n : RegNum) (x : Flt) (h0 : n ≠ 0) (h1 : n ≠ 1) :
    (s.writeF n x).readF n = x := by
  unfold State.readF
  rw [if_neg h0, if_neg h1]
  simp

theorem State.readF_writeF_other (s : State) {n m : RegNum} (x : Flt) (h : m ≠ n) :
    (s.writeF n x).readF m = s.readF m := by
  have hne : ¬ n.toNat = m.toNat := fun e => h (BitVec.eq_of_toNat_eq e.symm)
  simp [State.readF, hne]

/-- Reading a register depends on the register file alone. -/
theorem State.readF_congr {s t : State} (h : t.fr = s.fr) (n : RegNum) : t.readF n = s.readF n := by
  simp [State.readF, h]

/-- Reading a predicate depends on the predicate registers alone. -/
theorem State.readP_congr {s t : State} (h : t.pr = s.pr) (n : PredNum) : t.readP n = s.readP n := by
  simp [State.readP, h]

theorem getLsbD_putBit (w : BitVec 64) (n k : Nat) (b : Bool) (hn : n < 64) :
    (putBit w n b).getLsbD k = if k = n then b else w.getLsbD k := by
  unfold putBit
  by_cases h : k = n
  · subst h
    cases b <;> simp [hn]
  · by_cases hk : k < 64
    · cases b <;> simp [hk, h]
    · cases b <;> simp [BitVec.getLsbD_of_ge _ _ (Nat.le_of_not_lt hk), h]

theorem getLsbD_orBit (w : BitVec 64) (n k : Nat) (b : Bool) (hn : n < 64) :
    (orBit w n b).getLsbD k = (w.getLsbD k || (b && k == n)) := by
  unfold orBit
  cases b
  · simp
  · rw [if_pos rfl, getLsbD_putBit _ _ _ _ hn]
    by_cases h : k = n <;> simp [h]

theorem State.readP_writeP_other (s : State) {n m : PredNum} (b : Bool) (h : m ≠ n) :
    (s.writeP n b).readP m = s.readP m := by
  have hn : n.toNat < 64 := n.isLt
  have hne : m.toNat ≠ n.toNat := fun e => h (BitVec.eq_of_toNat_eq e)
  unfold State.readP
  simp only [State.writeP_pr]
  split
  · rfl
  · rw [getLsbD_putBit _ _ _ _ hn, if_neg hne]

theorem State.readP_writeP_self (s : State) (n : PredNum) (b : Bool) (h : n ≠ 0) :
    (s.writeP n b).readP n = b := by
  have hn : n.toNat < 64 := n.isLt
  unfold State.readP
  rw [State.writeP_pr, if_neg h, getLsbD_putBit _ _ _ _ hn, if_pos rfl, beq_eq_false_iff_ne.2 h, Bool.false_or]

theorem State.readP_writeOptP_other (s : State) {n : Option PredNum} {m : PredNum} (b : Bool) (h : n ≠ some m) :
    (s.writeOptP n b).readP m = s.readP m := by
  cases n with
  | none => rfl
  | some p => exact s.readP_writeP_other b fun e => h (by rw [e])

/-- Status field bits lie below bit 58. -/
theorem sfBase_le (sf : SfNum) : 6 ≤ sfBase sf ∧ sfBase sf ≤ 45 := by
  have := sf.isLt
  unfold sfBase
  omega

/-- Writing the flags of a status field touches its bits 10 to 12 only. -/
theorem getLsbD_putFlags (w : BitVec 64) (sf : SfNum) (f : Flags) (k : Nat) :
    (putFlags w sf f).getLsbD k =
      if k = sfBase sf + 12 then f.i
      else if k = sfBase sf + 11 then f.u
      else if k = sfBase sf + 10 then f.o
      else w.getLsbD k := by
  have := sfBase_le sf
  unfold putFlags
  rw [getLsbD_putBit _ _ _ _ (by omega), getLsbD_putBit _ _ _ _ (by omega), getLsbD_putBit _ _ _ _ (by omega)]

/-- Recording signals touches bits 7 to 9 of the status field only, and clears none. -/
theorem getLsbD_recordSignals (w : BitVec 64) (sf : SfNum) (g : Signals) (k : Nat) :
    (recordSignals w sf g).getLsbD k =
      (w.getLsbD k || (g.v && Config.invalidSetsV && k == sfBase sf + 7) || (g.d && k == sfBase sf + 8)
        || (g.z && k == sfBase sf + 9)) := by
  have := sfBase_le sf
  unfold recordSignals
  rw [getLsbD_orBit _ _ _ _ (by omega), getLsbD_orBit _ _ _ _ (by omega), getLsbD_orBit _ _ _ _ (by omega)]

/-- Writing back the flags a status field holds changes nothing. -/
theorem putFlags_flagsOf (w : BitVec 64) (sf : SfNum) : putFlags w sf (flagsOf w sf) = w := by
  apply BitVec.eq_of_getLsbD_eq
  intro k _
  rw [getLsbD_putFlags]
  simp only [flagsOf, sfBit]
  split
  · simp_all
  · split
    · simp_all
    · split <;> simp_all

theorem recordSignals_none (w : BitVec 64) (sf : SfNum) : recordSignals w sf {} = w := rfl

@[simp] theorem Flags.or_none (f : Flags) : f.or {} = f := by
  simp [Flags.or]

/-- Everything the guard can answer. -/
theorem State.guarded_cases {s t : State} {qp : PredNum} {p2 : Option PredNum} {f1 : RegNum} {srcs : List RegNum}
    {own : Result} (h : s.guarded qp p2 f1 srcs own = .next t) :
    (s.readP qp = false ∧ t = (s.writeOptP p2 (Config.helperPred s.draws)).advance.tick) ∨
    (s.readP qp = true ∧ (f1 :: srcs).any s.fpDisabled = true ∧
      t = s.interrupt .disabledFpRegister (Config.isrBits s.draws)) ∨
    (s.readP qp = true ∧ (f1 :: srcs).any s.fpDisabled = false ∧ f1 ≠ 0 ∧ f1 ≠ 1 ∧ own = .next t) := by
  unfold State.guarded at h
  split at h
  · rename_i hq
    exact .inl ⟨by simpa using hq, by cases h; rfl⟩
  · rename_i hq
    split at h
    · rename_i hd
      exact .inr (.inl ⟨by simpa using hq, hd, by cases h; rfl⟩)
    · rename_i hd
      split at h
      · cases h
      · rename_i hf
        rw [not_or] at hf
        exact .inr (.inr ⟨by simpa using hq, by simpa using hd, hf.1, hf.2, h⟩)

/-- The guard passes an instruction that names an enabled, writable destination under a true predicate. -/
theorem State.guarded_own {s : State} {qp : PredNum} {p2 : Option PredNum} {f1 : RegNum} {srcs : List RegNum}
    {own : Result} (hq : s.readP qp = true) (hd : (f1 :: srcs).any s.fpDisabled = false) (h0 : f1 ≠ 0) (h1 : f1 ≠ 1) :
    s.guarded qp p2 f1 srcs own = own := by
  unfold State.guarded
  rw [if_neg (by simp [hq]), if_neg (by simp [hd]), if_neg (not_or.2 ⟨h0, h1⟩)]

/-- The fault an operation's signals raise, if one of them is enabled (R102). -/
def State.faultIsr (s : State) (sf : SfNum) (low : Report) (high : Option Report) : BitVec 64 :=
  isrOfFault (Config.isrBits s.draws) (enabledSignals (controlsOf s.fpsr sf) low.signals)
    (high.map fun h => enabledSignals (controlsOf s.fpsr sf) h.signals)

/-- Everything the completion can answer: a fault with nothing written, an end without a trap, or a trap. -/
theorem State.finish_cases {s t : State} {sf : SfNum} {f1 : RegNum} {p2 : Option PredNum} {x : Flt} {low : Report}
    {high : Option Report} (h : s.finish sf f1 p2 x low high = .next t) :
    t = s.interrupt .fpFault (s.faultIsr sf low high) ∨
    (trapOf low high = none ∧ t = (s.commit sf f1 p2 x low high).advance.tick) ∨
    (∃ code, trapOf low high = some code ∧
      t = (s.commit sf f1 p2 x low high).interrupt .fpTrap (isrOfTrap (Config.isrBits s.draws) code.1 code.2)) := by
  unfold State.finish at h
  simp only at h
  split at h
  · exact .inl (by cases h; rfl)
  · split at h
    · rename_i ht
      exact .inr (.inl ⟨ht, by cases h; rfl⟩)
    · rename_i code ht
      exact .inr (.inr ⟨code, ht, by cases h; rfl⟩)

/-- The completion always answers a next state. -/
theorem State.finish_next (s : State) (sf : SfNum) (f1 : RegNum) (p2 : Option PredNum) (x : Flt) (low : Report)
    (high : Option Report) : ∃ t, s.finish sf f1 p2 x low high = .next t := by
  unfold State.finish
  simp only
  split
  · exact ⟨_, rfl⟩
  · split <;> exact ⟨_, rfl⟩

/-- An operation that signals nothing and raises no trap ends with its effects written. -/
theorem State.finish_quiet (s : State) (sf : SfNum) (f1 : RegNum) (p2 : Option PredNum) (x : Flt) (low : Report)
    (high : Option Report) (hl : low.signals = {}) (hh : ∀ h ∈ high, h.signals = {}) (ht : trapOf low high = none) :
    s.finish sf f1 p2 x low high = .next (s.commit sf f1 p2 x low high).advance.tick := by
  cases high with
  | none => simp [State.finish, hl, ht, enabledSignals, Signals.any]
  | some h =>
    have := hh h rfl
    simp [State.finish, hl, ht, this, enabledSignals, Signals.any]

/-- Whether a completion takes the Floating-point Exception fault: an enabled kind is signaled (R102). -/
def State.finishStops (s : State) (sf : SfNum) (low : Report) (high : Option Report) : Bool :=
  (enabledSignals (controlsOf s.fpsr sf) low.signals).any ||
    ((high.map fun h => enabledSignals (controlsOf s.fpsr sf) h.signals).getD {}).any

/-- A completion that stops takes the fault, with nothing written. -/
theorem State.finish_stops {s : State} {sf : SfNum} {f1 : RegNum} {p2 : Option PredNum} {x : Flt} {low : Report}
    {high : Option Report} (h : s.finishStops sf low high = true) :
    s.finish sf f1 p2 x low high = .next (s.interrupt .fpFault (s.faultIsr sf low high)) := by
  unfold State.finishStops at h
  unfold State.finish
  simp only [h, if_true]
  rfl

/-- Bits of one status field are compared by their offsets. -/
theorem add_beq_add_left (a b c : Nat) : (a + b == a + c) = (b == c) := by simp

/-- The flags o, u, i, and the bits d and z, of the status field of a completion. -/
theorem State.commit_flagsOf (s : State) (sf : SfNum) (f1 : RegNum) (p2 : Option PredNum) (x : Flt) (low : Report)
    (high : Option Report) :
    flagsOf (s.commit sf f1 p2 x low high).fpsr sf =
      newFlags (flagsOf s.fpsr sf) (Config.swaFlags s.draws) low high := by
  simp [State.commit, flagsOf, sfBit, getLsbD_recordSignals, getLsbD_putFlags, add_beq_add_left]

theorem State.commit_sfBit_d (s : State) (sf : SfNum) (f1 : RegNum) (p2 : Option PredNum) (x : Flt) (low : Report)
    (high : Option Report) :
    sfBit (s.commit sf f1 p2 x low high).fpsr sf 8 = (sfBit s.fpsr sf 8 || (allSignals low high).d) := by
  simp [State.commit, sfBit, getLsbD_recordSignals, getLsbD_putFlags, add_beq_add_left]

theorem State.commit_sfBit_z (s : State) (sf : SfNum) (f1 : RegNum) (p2 : Option PredNum) (x : Flt) (low : Report)
    (high : Option Report) :
    sfBit (s.commit sf f1 p2 x low high).fpsr sf 9 = (sfBit s.fpsr sf 9 || (allSignals low high).z) := by
  simp [State.commit, sfBit, getLsbD_recordSignals, getLsbD_putFlags, add_beq_add_left]

theorem State.commit_readP (s : State) (sf : SfNum) (f1 : RegNum) (p : PredNum) (x : Flt) (low : Report)
    (high : Option Report) (h : p ≠ 0) :
    (s.commit sf f1 (some p) x low high).readP p = helperPredOf (Config.helperPred s.draws) low high :=
  State.readP_writeP_self (s.writeF f1 x) p _ h

/-- A completion that does not stop writes the destination, the flags, the predicate and the event record, and then takes
the trap, if there is one (R66, R68). -/
theorem State.finish_delivers {s : State} {sf : SfNum} {f1 : RegNum} {p2 : Option PredNum} {x : Flt} {low : Report}
    {high : Option Report} (h : s.finishStops sf low high = false) (h0 : f1 ≠ 0) (h1 : f1 ≠ 1) :
    ∃ t, s.finish sf f1 p2 x low high = .next t ∧ t.fpsr = (s.commit sf f1 p2 x low high).fpsr ∧
      t.readF f1 = x ∧ t.signaled = allSignals low high ∧
      (∀ p, p2 = some p → p ≠ 0 → t.readP p = helperPredOf (Config.helperPred s.draws) low high) ∧
      (trapOf low high = none → t.handler = s.handler) ∧
      ∀ code, trapOf low high = some code → t.handler = some (s.iva + vectorFpTrap) ∧
        t.isr = isrOfTrap (Config.isrBits s.draws) code.1 code.2 := by
  have hf : (s.commit sf f1 p2 x low high).readF f1 = x :=
    (State.readF_congr (s.commit_fr sf f1 p2 x low high) f1).trans (s.readF_writeF_self f1 x h0 h1)
  have hp : ∀ p, p2 = some p → p ≠ 0 →
      (s.commit sf f1 p2 x low high).readP p = helperPredOf (Config.helperPred s.draws) low high := by
    rintro p rfl hp
    exact s.commit_readP sf f1 p x low high hp
  unfold State.finishStops at h
  unfold State.finish
  simp only [h, Bool.false_eq_true, if_false]
  cases ht : trapOf low high with
  | none => exact ⟨_, rfl, rfl, hf, by simp, hp, fun _ => by simp, fun _ hc => by cases hc⟩
  | some code =>
    refine ⟨_, rfl, rfl, hf, by simp, hp, nofun, fun _ hc => ?_⟩
    obtain rfl := Option.some.inj hc
    exact ⟨by simp [vectorOf], rfl⟩

end Sys2Proof.Machine
end

