-- ==== Sys2Proof/Laws/Elements.lean ====
section
/-! SUPPORT. Elements of a packed register, and what a Floating-point Exception fault leaves and reports. -/

namespace Sys2Proof.Machine

@[simp] theorem highElem_packElems (high low : Elem) : highElem (packElems high low) = high := by
  ext i hi
  simp only [highElem, packElems, intReg, BitVec.getElem_extractLsb']
  exact (BitVec.getLsbD_append (x := high) (y := low)).trans (by simp [hi])

@[simp] theorem lowElem_packElems (high low : Elem) : lowElem (packElems high low) = low := by
  ext i hi
  simp only [lowElem, packElems, intReg, BitVec.getElem_extractLsb']
  exact (BitVec.getLsbD_append (x := high) (y := low)).trans (by simp [hi])

/-- The fault entry is what claims call a fault. -/
theorem faultedFrom_interrupt (s : State) (isr : BitVec 64) : faultedFrom s (s.interrupt .fpFault isr) :=
  ⟨rfl, rfl, rfl, rfl, rfl⟩

/-- The four kinds written at `base`, and every other bit as it was. -/
theorem getLsbD_putFault (w : BitVec 64) (base : Nat) (g : Signals) (k : Nat) (hb : base ≤ 60) :
    (putFault w base g).getLsbD k =
      if k = base + 3 then g.swa else if k = base + 2 then g.z else if k = base + 1 then g.d
      else if k = base then g.v else w.getLsbD k := by
  unfold putFault
  rw [getLsbD_putBit _ _ _ _ (by omega), getLsbD_putBit _ _ _ _ (by omega), getLsbD_putBit _ _ _ _ (by omega),
    getLsbD_putBit _ _ _ _ (by omega)]

/-- What ISR reports of a Parallel-FP fault: the low element's kinds in bits 3:0, the high element's in bits 7:4. -/
theorem isrOfFault_low (free : BitVec 64) (low high : Signals) :
    (isrOfFault free low (some high)).getLsbD 0 = low.v ∧ (isrOfFault free low (some high)).getLsbD 1 = low.d ∧
    (isrOfFault free low (some high)).getLsbD 2 = low.z ∧ (isrOfFault free low (some high)).getLsbD 3 = low.swa := by
  simp only [isrOfFault, getLsbD_putFault, Nat.zero_le, Nat.reduceLeDiff]
  exact ⟨rfl, rfl, rfl, rfl⟩

theorem isrOfFault_high (free : BitVec 64) (low high : Signals) :
    (isrOfFault free low (some high)).getLsbD 4 = high.v ∧ (isrOfFault free low (some high)).getLsbD 5 = high.d ∧
    (isrOfFault free low (some high)).getLsbD 6 = high.z ∧ (isrOfFault free low (some high)).getLsbD 7 = high.swa := by
  simp only [isrOfFault, getLsbD_putFault, Nat.zero_le, Nat.reduceLeDiff]
  exact ⟨rfl, rfl, rfl, rfl⟩

/-- What ISR reports of a fault of a normal operation. -/
theorem isrOfFault_normal (free : BitVec 64) (g : Signals) :
    (isrOfFault free g none).getLsbD 0 = g.v ∧ (isrOfFault free g none).getLsbD 1 = g.d ∧
    (isrOfFault free g none).getLsbD 2 = g.z ∧ (isrOfFault free g none).getLsbD 3 = g.swa := by
  simp only [isrOfFault, getLsbD_putFault, Nat.zero_le]
  exact ⟨rfl, rfl, rfl, rfl⟩

/-- The same in the words of the statements. -/
theorem faultReport_normal (free : BitVec 64) (g : Signals) : faultReport (isrOfFault free g none) 0 g :=
  isrOfFault_normal free g

theorem faultReport_low (free : BitVec 64) (low high : Signals) : faultReport (isrOfFault free low (some high)) 0 low :=
  isrOfFault_low free low high

theorem faultReport_high (free : BitVec 64) (low high : Signals) : faultReport (isrOfFault free low (some high)) 1 high :=
  isrOfFault_high free low high

/-- What ISR reports of a trap: the low element, or a normal operation, in bits 14:11, the high element in bits 10:7. -/
theorem isrOfTrap_low (free : BitVec 64) (low : TrapCode) (high : Option TrapCode) :
    (isrOfTrap free low high).getLsbD 11 = low.o ∧ (isrOfTrap free low high).getLsbD 12 = low.u ∧
    (isrOfTrap free low high).getLsbD 13 = low.i ∧ (isrOfTrap free low high).getLsbD 14 = low.fpa := by
  cases high <;>
    simp only [isrOfTrap, putTrapLow, putTrapHigh, getLsbD_putBit, isrO, isrU, isrI, isrFpa, isrHighO, isrHighU, isrHighI,
      isrHighFpa, Nat.reduceLT] <;>
    exact ⟨rfl, rfl, rfl, rfl⟩

theorem isrOfTrap_high (free : BitVec 64) (low high : TrapCode) :
    (isrOfTrap free low (some high)).getLsbD 7 = high.o ∧ (isrOfTrap free low (some high)).getLsbD 8 = high.u ∧
    (isrOfTrap free low (some high)).getLsbD 9 = high.i ∧ (isrOfTrap free low (some high)).getLsbD 10 = high.fpa := by
  simp only [isrOfTrap, putTrapHigh, getLsbD_putBit, isrHighO, isrHighU, isrHighI, isrHighFpa, Nat.reduceLT]
  exact ⟨rfl, rfl, rfl, rfl⟩

end Sys2Proof.Machine
end

