-- ==== Sys2Proof/Laws/Exec.lean ====
section
/-! SUPPORT. What any instruction can do, said once: it is guarded, and its own effect is one completion. -/

namespace Sys2Proof.Machine

/-- A completion under the `NaTVal` check is a completion. -/
theorem State.unlessNaT_completion {s : State} {sf : SfNum} {f1 : RegNum} {p2 : Option PredNum} {srcs : List RegNum}
    {own : Result} (h : ∃ x low high, own = s.finish sf f1 p2 x low high) :
    ∃ x low high, s.unlessNaT sf f1 p2 srcs own = s.finish sf f1 p2 x low high := by
  unfold State.unlessNaT
  split
  · exact ⟨_, _, _, rfl⟩
  · exact h

/-- A completion chosen by a flag is a completion. -/
theorem State.ite_completion {s : State} {sf : SfNum} {f1 : RegNum} {p2 : Option PredNum} {b : Bool} {own own' : Result}
    (h : ∃ x low high, own = s.finish sf f1 p2 x low high) (h' : ∃ x low high, own' = s.finish sf f1 p2 x low high) :
    ∃ x low high, (if b then own else own') = s.finish sf f1 p2 x low high := by
  cases b
  · exact h'
  · exact h

/-- Every instruction is the guard around one completion on its own fields. -/
theorem exec_own (i : Instr) (s : State) :
    ∃ own, exec i s = s.guarded i.qp i.pred i.dest i.sources own ∧
      ∃ x low high, own = s.finish i.sf i.dest i.pred x low high := by
  cases i with
  | fcvt a => exact ⟨_, rfl, State.unlessNaT_completion (State.ite_completion ⟨_, _, _, rfl⟩ ⟨_, _, _, rfl⟩)⟩
  | fminmax a => exact ⟨_, rfl, State.unlessNaT_completion (State.ite_completion ⟨_, _, _, rfl⟩ ⟨_, _, _, rfl⟩)⟩
  | _ a => exact ⟨_, rfl, State.unlessNaT_completion ⟨_, _, _, rfl⟩⟩

theorem exec_guarded (i : Instr) (s : State) :
    ∃ x low high, exec i s = s.guarded i.qp i.pred i.dest i.sources (s.finish i.sf i.dest i.pred x low high) := by
  obtain ⟨own, h, x, low, high, ho⟩ := exec_own i s
  exact ⟨x, low, high, by rw [h, ho]⟩

/-- Every next state of an instruction: nullified, a disabled register, or the completion of its own effect. -/
theorem exec_cases {i : Instr} {s t : State} (h : exec i s = .next t) :
    (s.readP i.qp = false ∧ t = (s.writeOptP i.pred (Config.helperPred s.draws)).advance.tick) ∨
    (s.readP i.qp = true ∧ (i.dest :: i.sources).any s.fpDisabled = true ∧
      t = s.interrupt .disabledFpRegister (Config.isrBits s.draws)) ∨
    (s.ready i = true ∧ ∃ x low high, s.finish i.sf i.dest i.pred x low high = .next t) := by
  obtain ⟨x, low, high, hx⟩ := exec_guarded i s
  rw [hx] at h
  rcases State.guarded_cases h with h | h | ⟨hq, hd, h0, h1, ho⟩
  · exact .inl h
  · exact .inr (.inl h)
  · exact .inr (.inr ⟨by rw [State.ready, hq, hd, decide_eq_true ⟨h0, h1⟩]; rfl, x, low, high, ho⟩)

/-- No instruction is refused, and the only fault is the write to f0 or f1. -/
theorem exec_not_next {i : Instr} {s : State} :
    (∃ t, exec i s = .next t) ∨ exec i s = .fault .hardwiredRegisterWrite := by
  obtain ⟨x, low, high, hx⟩ := exec_guarded i s
  obtain ⟨t, ht⟩ := s.finish_next i.sf i.dest i.pred x low high
  rw [hx]
  unfold State.guarded
  split
  · exact .inl ⟨_, rfl⟩
  · split
    · exact .inl ⟨_, rfl⟩
    · split
      · exact .inr rfl
      · exact .inl ⟨t, ht⟩

/-- An instruction that is ready reaches its own effect. -/
theorem State.guarded_ready {s : State} {i : Instr} {own : Result} (h : s.ready i = true) :
    s.guarded i.qp i.pred i.dest i.sources own = own := by
  simp only [State.ready, Bool.and_eq_true, Bool.not_eq_true', decide_eq_true_eq] at h
  exact State.guarded_own h.1.1 h.1.2 h.2.1 h.2.2

theorem State.ready_dest {s : State} {i : Instr} (h : s.ready i = true) : i.dest ≠ 0 ∧ i.dest ≠ 1 := by
  simp only [State.ready, Bool.and_eq_true, decide_eq_true_eq] at h
  exact h.2

/-- Without a `NaTVal` source the `NaTVal` check is passed. -/
theorem State.unlessNaT_own {s : State} {i : Instr} {sf : SfNum} {f1 : RegNum} {p2 : Option PredNum} {own : Result}
    (h : s.noNaT i = true) : s.unlessNaT sf f1 p2 i.sources own = own := by
  refine if_neg fun hs => ?_
  obtain ⟨n, hn, e⟩ := List.any_eq_true.1 hs
  exact absurd e (by simpa using List.all_eq_true.1 h n hn)

/-- Source registers that hold another class of value hold no `NaTVal`. -/
theorem State.noNaT_of_classify {s : State} {i : Instr}
    (h : ∀ n ∈ i.sources, classifyReg (s.readF n) ≠ .natVal) : s.noNaT i = true := by
  refine List.all_eq_true.2 fun n hn => bne_iff_ne.2 fun e => h n hn ?_
  rw [e]
  decide

end Sys2Proof.Machine
end

