-- ==== Sys2Proof/Laws/Completion.lean ====
section
/-! SUPPORT. How a normal operation ends, said once for each kind of result: the exception stage, an approximation, a NaN, and
the faults of a denormal operand and of software assistance. -/

namespace Sys2Proof.Machine

/-- With the Denormal Operand alone signaled, a completion stops exactly if that fault is enabled. -/
theorem State.finishStops_denormal {s : State} {sf : SfNum} {r : Report} {den : Bool} (h : r.signals = { d := den }) :
    s.finishStops sf r none = s.denormalStops sf den := by
  simp [State.finishStops, h, enabledSignals, Signals.any, State.denormalStops]

/-- The same with Invalid Operation alone signaled. -/
theorem State.finishStops_invalid {s : State} {sf : SfNum} {r : Report} {v : Bool} (h : r.signals = { v := v }) :
    s.finishStops sf r none = (v && (controlsOf s.fpsr sf).invEn) := by
  simp [State.finishStops, h, enabledSignals, Signals.any]

/-- A Software Assist fault, reported alone. -/
theorem State.finishNormal_swaFault {s : State} {sf : SfNum} {f1 : RegNum} {p2 : Option PredNum} {r : ElemResult Flt}
    (h : r.report.signals = { swa := true }) :
    ∃ t, s.finishNormal sf f1 p2 r = .next t ∧ faultedFrom s t ∧ faultReport t.isr 0 { swa := true } := by
  refine ⟨_, State.finish_stops (by simp [State.finishStops, h, enabledSignals, Signals.any]), faultedFrom_interrupt .., ?_⟩
  have report := faultReport_normal (Config.isrBits s.draws) (enabledSignals (controlsOf s.fpsr sf) r.report.signals)
  simp only [enabledSignals, h, Bool.false_and] at report
  simpa [State.faultIsr, enabledSignals, h] using report

/-- The fault of a denormal operand, reported alone. -/
theorem State.finishNormal_denormalFault {s : State} {sf : SfNum} {f1 : RegNum} {p2 : Option PredNum} {r : ElemResult Flt}
    {den : Bool} (h : r.report.signals = { d := den }) (hd : s.denormalStops sf den = true) :
    ∃ t, s.finishNormal sf f1 p2 r = .next t ∧ faultedFrom s t ∧ faultReport t.isr 0 { d := true } := by
  refine ⟨_, State.finish_stops ((State.finishStops_denormal h).trans hd), faultedFrom_interrupt .., ?_⟩
  rw [State.denormalStops] at hd
  have report := faultReport_normal (Config.isrBits s.draws) (enabledSignals (controlsOf s.fpsr sf) r.report.signals)
  simp only [enabledSignals, h, Bool.false_and, hd] at report
  simpa [State.faultIsr, enabledSignals, h, hd] using report

/-- A result of the exception stage: its destination, flags and trap, flag d for a denormal operand, p2 cleared. -/
theorem State.finishNormal_stage {s : State} {sf : SfNum} {f1 : RegNum} {p2 : Option PredNum} {C : Carrier Flt}
    {env : StageEnv} {den : Bool} {p : Precise} (h0 : f1 ≠ 0) (h1 : f1 ≠ 1) (hs : s.denormalStops sf den = false) :
    ∃ t, s.finishNormal sf f1 p2 (stageResult C env den false p) = .next t ∧ t.signaled = { d := den } ∧
      (∀ n, p2 = some n → n ≠ 0 → t.readP n = false) ∧ t.readF f1 = C.encode (fpStage env p).dest ∧
      stageEnds s t sf (fpStage env p) ∧ sfBit t.fpsr sf 8 = (sfBit s.fpsr sf 8 || den) := by
  obtain ⟨t, h, hf, hd, hsg, hp, hn, ht⟩ := State.finish_delivers (p2 := p2) (x := (stageResult C env den false p).value)
    ((State.finishStops_denormal (r := (stageResult C env den false p).report) rfl).trans hs) h0 h1
  have trap : trapOf (stageResult C env den false p).report none = (fpStage env p).trap.map fun k => (k, none) := rfl
  refine ⟨t, h, hsg, hp, hd, ⟨?_, fun e => hn (by rw [trap, e]; rfl), fun k e => ?_⟩, ?_⟩
  · rw [hf, State.commit_flagsOf]
    rfl
  · obtain ⟨hh, hi⟩ := ht (k, none) (by rw [trap, e]; rfl)
    exact ⟨hh, hi ▸ isrOfTrap_low ..⟩
  · rw [hf, State.commit_sfBit_d]
    rfl

/-- An approximation: p2 set, no flag written but d for a denormal operand, no trap. -/
theorem State.finishNormal_approx {s : State} {sf : SfNum} {f1 : RegNum} {p2 : PredNum} {x : Flt} {den : Bool}
    (h0 : f1 ≠ 0) (h1 : f1 ≠ 1) (hs : s.denormalStops sf den = false) :
    ∃ t, s.finishNormal sf f1 (some p2) ⟨x, { signals := { d := den }, approx := true }⟩ = .next t ∧
      t.signaled = { d := den } ∧ t.handler = s.handler ∧ t.fpsr = orBit s.fpsr (sfBase sf + 8) den ∧
      t.readP p2 = true ∧ t.readF f1 = x := by
  obtain ⟨t, h, hf, hd, hsg, hp, hn, -⟩ := State.finish_delivers (p2 := some p2) (x := x)
    ((State.finishStops_denormal (r := { signals := { d := den }, approx := true }) rfl).trans hs) h0 h1
  refine ⟨t, h, hsg, hn rfl, ?_, ?_, hd⟩
  · simp only [hf, State.commit, newFlags, Bool.false_eq_true, if_false, Flags.or_none, putFlags_flagsOf, allSignals]
    rfl
  · by_cases e : p2 = 0
    · rw [e]
      simp [State.readP]
    · exact hp _ rfl e

/-- A result that signals at most Invalid Operation: the fault if it is signaled and enabled, else the value, no flag o, u or
i changed, p2 cleared. -/
theorem State.finishNormal_invalid {s : State} {sf : SfNum} {f1 : RegNum} {p2 : Option PredNum} {x : Flt} {v : Bool}
    (h0 : f1 ≠ 0) (h1 : f1 ≠ 1) :
    ∃ t, s.finishNormal sf f1 p2 ⟨x, { signals := { v := v } }⟩ = .next t ∧
      ((faultedFrom s t ∧ t.isr.getLsbD 0 = true ∧ (controlsOf s.fpsr sf).invEn = true ∧ v = true) ∨
        (t.handler = s.handler ∧ t.signaled = { v := v } ∧ flagsOf t.fpsr sf = flagsOf s.fpsr sf ∧
          (∀ n, p2 = some n → n ≠ 0 → t.readP n = false) ∧ t.readF f1 = x)) := by
  have stops := State.finishStops_invalid (s := s) (sf := sf) (r := { signals := { v := v } }) rfl
  cases hv : v && (controlsOf s.fpsr sf).invEn
  · obtain ⟨t, h, hf, hd, hsg, hp, hn, -⟩ := State.finish_delivers (p2 := p2) (x := x) (stops.trans hv) h0 h1
    exact ⟨t, h, .inr ⟨hn rfl, hsg, by rw [hf, State.commit_flagsOf]; simp [newFlags], hp, hd⟩⟩
  · refine ⟨_, State.finish_stops (stops.trans hv),
      .inl ⟨faultedFrom_interrupt .., (isrOfFault_normal ..).1.trans (by simpa [enabledSignals] using hv), ?_⟩⟩
    rw [Bool.and_eq_true] at hv
    exact ⟨hv.2, hv.1⟩

/-- A Parallel-FP operation as one element sees it, `r` the result of element `lane` and `o` that of the other: a fault that
reports both, taken for one of them, or the element's value, with its flags and its trap alone where the other element sets
no flag and raises no trap (R65, R102). -/
theorem State.finishParallel_lane {s : State} {sf : SfNum} {f1 : RegNum} {p2 : Option PredNum} {pick : Flt → Elem} {lane : Nat}
    {high low r o : ElemResult Elem} (h0 : f1 ≠ 0) (h1 : f1 ≠ 1)
    (hl : (pick = highElem ∧ lane = 1 ∧ high = r ∧ low = o) ∨ (pick = lowElem ∧ lane = 0 ∧ high = o ∧ low = r)) :
    ∃ t, s.finishParallel sf f1 p2 high low = .next t ∧
      ((faultedFrom s t ∧ faultReport t.isr lane (enabledSignals (controlsOf s.fpsr sf) r.report.signals) ∧
          faultReport t.isr (1 - lane) (enabledSignals (controlsOf s.fpsr sf) o.report.signals) ∧
          ((enabledSignals (controlsOf s.fpsr sf) r.report.signals).any = true ∨
            (enabledSignals (controlsOf s.fpsr sf) o.report.signals).any = true)) ∨
        ((enabledSignals (controlsOf s.fpsr sf) r.report.signals).any = false ∧
          (enabledSignals (controlsOf s.fpsr sf) o.report.signals).any = false ∧ pick (t.readF f1) = r.value ∧
          (r.report.signals.d = true → denormalRecorded t sf) ∧
          (o.report.sets = {} → o.report.freed = false → o.report.trap = none →
            laneEnds s t sf lane r.report.sets r.report.freed r.report.trap))) := by
  cases hs : s.finishStops sf low.report (some high.report)
  · obtain ⟨t, h, hf, hd, hsg, -, hn, ht⟩ :=
      State.finish_delivers (p2 := p2) (x := packElems high.value low.value) hs h0 h1
    simp only [State.finishStops, Option.map_some, Option.getD_some, Bool.or_eq_false_iff] at hs
    refine ⟨t, h, .inr ?_⟩
    rcases hl with ⟨rfl, rfl, rfl, rfl⟩ | ⟨rfl, rfl, rfl, rfl⟩
    · refine ⟨hs.2, hs.1, by rw [hd, highElem_packElems], fun e => ?_, fun e1 e2 e3 => ⟨?_, fun e => ?_, fun k e => ?_⟩⟩
      · exact ⟨by rw [hf, State.commit_sfBit_d]; simp [allSignals, Signals.or, e], by simp [hsg, allSignals, Signals.or, e]⟩
      · rw [hf, State.commit_flagsOf]
        simp [newFlags, e1, e2, Flags.or]
      · exact hn (by simp [trapOf, e, e3])
      · obtain ⟨hh, hi⟩ := ht ({}, some k) (by simp [trapOf, e, e3])
        exact ⟨hh, hi ▸ isrOfTrap_high .., hi ▸ isrOfTrap_low ..⟩
    · refine ⟨hs.1, hs.2, by rw [hd, lowElem_packElems], fun e => ?_, fun e1 e2 e3 => ⟨?_, fun e => ?_, fun k e => ?_⟩⟩
      · exact ⟨by rw [hf, State.commit_sfBit_d]; simp [allSignals, Signals.or, e], by simp [hsg, allSignals, Signals.or, e]⟩
      · rw [hf, State.commit_flagsOf]
        simp [newFlags, e1, e2, Flags.or]
      · exact hn (by simp [trapOf, e, e3])
      · obtain ⟨hh, hi⟩ := ht (k, some {}) (by simp [trapOf, e, e3])
        exact ⟨hh, hi ▸ isrOfTrap_low .., hi ▸ isrOfTrap_high ..⟩
  · refine ⟨_, State.finish_stops hs, .inl ⟨faultedFrom_interrupt .., ?_⟩⟩
    simp only [State.finishStops, Option.map_some, Option.getD_some, Bool.or_eq_true] at hs
    rcases hl with ⟨rfl, rfl, rfl, rfl⟩ | ⟨rfl, rfl, rfl, rfl⟩
    · exact ⟨faultReport_high .., faultReport_low .., hs.symm⟩
    · exact ⟨faultReport_low .., faultReport_high .., hs⟩

/-- NaN delivery on registers (R75, R76): the chosen NaN or its quieted image; Invalid Operation is signaled only for a
signaling operand or one without a value. -/
theorem propagate_reg {fmt : Fmt} {l : List Flt} {x : Flt} (h : chooseNaN (regCarrier fmt) l = some x) :
    ∃ y v, propagate (regCarrier fmt) l = some ⟨y, { signals := { v := v } }⟩ ∧ nanOrQuieted x y ∧
      (v = true → ∃ z ∈ l, classifyReg z = .nan false ∨ classifyReg z = .unsupported) := by
  refine ⟨_, _, by simp only [propagate, h]; rfl, ?_, fun hv => ?_⟩
  · split
    · rename_i hs
      refine .inr ⟨?_, rfl⟩
      have hs := (Bool.and_eq_true _ _ ▸ hs : _ ∧ _).1
      revert hs
      simp only [regCarrier]
      cases classifyReg x <;> simp [Operand.isSignaling]
    · exact .inl rfl
  · simp only [Bool.or_eq_true, Bool.and_eq_true, List.any_eq_true, regCarrier] at hv
    rcases hv with ⟨⟨z, hz, hs⟩, -⟩ | ⟨z, hz, hs⟩
    · refine ⟨z, hz, .inl ?_⟩
      revert hs
      cases classifyReg z <;> simp [Operand.isSignaling]
    · refine ⟨z, hz, .inr ?_⟩
      revert hs
      cases classifyReg z <;> simp [Operand.isUnsupported]

end Sys2Proof.Machine
end

