-- ==== Sys2Proof/Laws/Exact.lean ====
section
/-! SUPPORT. The exact sum of two finite numbers, and so the exact result of a fused operation, is the rational it stands for. -/

namespace Sys2Proof.Machine

/-- A magnitude brought to a smaller exponent keeps its value. -/
theorem shiftLeft_mul_zpow (m : Nat) {e g : Int} (h : g ≤ e) :
    ((m <<< (e - g).toNat : Nat) : ℚ) * 2 ^ g = m * 2 ^ e := by
  rw [Nat.shiftLeft_eq, Nat.cast_mul, Nat.cast_pow, mul_assoc, ← zpow_natCast, Nat.cast_ofNat,
    ← zpow_add₀ two_ne_zero]
  congr 2
  omega

theorem signedInt_cast (a : Bool) (m : Nat) : ((signedInt a m : Int) : ℚ) = signRat a * m := by
  cases a <;> simp [signedInt, signRat]

/-- A sign and a non-zero magnitude are exactly the number they denote. -/
theorem Precise.value_isExactly (b : Bool) {n : Nat} (f : Int) (z : Bool) (hn : n ≠ 0) :
    (Precise.value b (.ratio n 1 f)).isExactly (signRat b * n * 2 ^ f) z := by
  have hp : (0 : ℚ) < n * 2 ^ f := by positivity
  have habs : |signRat b * n * (2 : ℚ) ^ f| = n * 2 ^ f := by cases b <;> simp [signRat, abs_of_pos hp]
  refine ⟨abs_pos.1 (habs ▸ hp), ⟨by decide, by rw [habs]; simp⟩, ?_⟩
  cases b
  · simpa [signRat] using hp.le
  · simpa [signRat] using hp

/-- The exact sum (GK8): the rational sum, and for a zero the common sign, or that of the direction. -/
theorem addFin_isExactly (rc : RoundMode) (a : Bool) (m : Nat) (e : Int) (b : Bool) (n : Nat) (f : Int) :
    (addFin rc a m e b n f).isExactly (signRat a * m * 2 ^ e + signRat b * n * 2 ^ f)
      (if a = b then a else rc == .rm) := by
  unfold addFin
  by_cases hm : m = 0
  · by_cases hn : n = 0
    · simp [hm, hn, Precise.isExactly]
    · simpa [hm, hn] using Precise.value_isExactly b f _ hn
  by_cases hn : n = 0
  · simpa [hm, hn] using Precise.value_isExactly a e _ hm
  simp only [hm, hn, if_false]
  have hsum : signRat a * m * 2 ^ e + signRat b * n * (2 : ℚ) ^ f =
      ((signedInt a (m <<< (e - min e f).toNat) + signedInt b (n <<< (f - min e f).toNat) : Int) : ℚ) * 2 ^ min e f := by
    rw [Int.cast_add, signedInt_cast, signedInt_cast, add_mul, mul_assoc, mul_assoc, mul_assoc, mul_assoc,
      shiftLeft_mul_zpow _ (min_le_left e f), shiftLeft_mul_zpow _ (min_le_right e f)]
  rw [hsum]
  generalize ht : signedInt a (m <<< (e - min e f).toNat) + signedInt b (n <<< (f - min e f).toNat) = t
  by_cases h0 : t = 0
  · have hne : a ≠ b := by
      rintro rfl
      have hm' : 0 < m <<< (e - min e f).toNat := by rw [Nat.shiftLeft_eq]; positivity
      have hn' := Nat.zero_le (n <<< (f - min e f).toNat)
      cases a <;> simp only [signedInt, Bool.false_eq_true, if_false, if_true] at ht <;> omega
    simp [h0, hne, Precise.isExactly]
  · have hs : (t : ℚ) = signRat (decide (t < 0)) * (t.natAbs : ℚ) := by
      rw [← signedInt_cast]
      congr 1
      unfold signedInt
      by_cases h : t < 0 <;> simp only [h, decide_true, decide_false, if_true, Bool.false_eq_true, if_false] <;> omega
    rw [if_neg h0, hs]
    exact Precise.value_isExactly _ _ _ (by omega)

/-- The exact result of a fused operation on finite numbers (R79, R85 to R90). -/
theorem fusedExact_isExactly {op : ArithOp} (hop : op = .fma ∨ op = .fms ∨ op = .fnma) (rc : RoundMode) (a b c : Bool)
    (m n k : Nat) (e f g : Int) :
    ∃ p, fusedExact op rc (.fin a m e) (.fin b n f) (.fin c k g) = some p ∧
      p.isExactly (fusedRat op (signRat a * m * 2 ^ e) (signRat b * n * 2 ^ f) (signRat c * k * 2 ^ g))
        (exactZeroNeg rc op a b c) := by
  refine ⟨_, rfl, ?_⟩
  have h := addFin_isExactly rc ((a ^^ b) ^^ (op == .fnma)) (m * n) (e + f) (c ^^ (op == .fms)) k g
  have hz : (if ((a ^^ b) ^^ (op == .fnma)) = (c ^^ (op == .fms)) then ((a ^^ b) ^^ (op == .fnma)) else rc == .rm) =
      exactZeroNeg rc op a b c := by
    unfold exactZeroNeg productNeg addendNeg
    split <;> simp_all
  rw [hz] at h
  convert h using 1
  rw [zpow_add₀ two_ne_zero]
  rcases hop with rfl | rfl | rfl <;> cases a <;> cases b <;> cases c <;> simp [fusedRat, signRat] <;> ring

end Sys2Proof.Machine
end

