-- ==== Sys2Proof/Laws/PerInstr.lean ====
section
/-! SUPPORT. Statements made instruction by instruction. -/

namespace Sys2Proof.Laws.Encodes

/-- The spec gives an instruction an encoding exactly when it is well formed (R37). -/
def Statement (i : Instr) : Prop := (encode i).isSome = i.wellFormed

theorem fma (a : F1Fields) : Statement (.fma a) := rfl
theorem fmaS (a : F1Fields) : Statement (.fmaS a) := rfl
theorem fmaD (a : F1Fields) : Statement (.fmaD a) := rfl
theorem fpma (a : F1Fields) : Statement (.fpma a) := rfl
theorem fms (a : F1Fields) : Statement (.fms a) := rfl
theorem fmsS (a : F1Fields) : Statement (.fmsS a) := rfl
theorem fmsD (a : F1Fields) : Statement (.fmsD a) := rfl
theorem fpms (a : F1Fields) : Statement (.fpms a) := rfl
theorem fnma (a : F1Fields) : Statement (.fnma a) := rfl
theorem fnmaS (a : F1Fields) : Statement (.fnmaS a) := rfl
theorem fnmaD (a : F1Fields) : Statement (.fnmaD a) := rfl
theorem fpnma (a : F1Fields) : Statement (.fpnma a) := rfl
theorem frcpa (a : F6Fields) : Statement (.frcpa a) := rfl
theorem frsqrta (a : F7Fields) : Statement (.frsqrta a) := rfl
theorem fprcpa (a : F6Fields) : Statement (.fprcpa a) := rfl
theorem fprsqrta (a : F7Fields) : Statement (.fprsqrta a) := rfl
theorem fcvt (a : ConvFields) : Statement (.fcvt a) := rfl
theorem fminmax (a : MinMaxFields) : Statement (.fminmax a) := rfl

end Sys2Proof.Laws.Encodes
end

