-- ==== Sys2Proof/Tests/Slice0.lean ====
section
/-! SUPPORT. Tests of the model against the words, vectors and programs of the spec, and a witness for the hypotheses of
every statement. -/

namespace Sys2Proof.Tests

set_option Elab.async false

open Sys2Proof Sys2Proof.Machine

/-! ### Helpers -/

/-- A state with this FPSR, these registers and every other field as at reset. -/
def st (fpsr : BitVec 64) (regs : List (RegNum × Flt)) : State :=
  regs.foldl (fun s r => s.writeF r.1 r.2) { State.reset with fpsr := fpsr }

/-- Whether a result is a next state with a property. -/
def nextWith (p : State → Bool) : Result → Bool
  | .next t => p t
  | .fault _ => false
  | .refused _ => false

theorem nextWith_exists {p : State → Bool} {r : Result} (h : nextWith p r = true) : ∃ t, r = .next t ∧ p t = true := by
  cases r with
  | next t => exact ⟨t, rfl, h⟩
  | fault _ => cases h
  | refused _ => cases h

/-- The FPSR images of the programs of 95_test_vectors.md: traps disabled, overflow enabled, program C, inexact enabled. -/
def fpsrA : BitVec 64 := 0x0009804C0270033F
def fpsrB : BitVec 64 := 0x0009804C02700337
def fpsrC : BitVec 64 := 0x0009804C0268033F
def fpsrE : BitVec 64 := 0x0009804C0270031F
/-- Invalid Operation, Denormal Operand, Zero Divide enabled (R13, GK22). -/
def fpsrV : BitVec 64 := 0x0009804C0270033E
def fpsrD : BitVec 64 := 0x0009804C0270033D
def fpsrZ : BitVec 64 := 0x0009804C0270033B

/-- Register images of R17. -/
def fOne : Flt := ⟨false, 0xFFFF, 0x8000000000000000⟩
def fTwo : Flt := ⟨false, 0x10000, 0x8000000000000000⟩
def fMinusTwo : Flt := ⟨true, 0x10000, 0x8000000000000000⟩
def fOneHalfMore : Flt := ⟨false, 0xFFFF, 0xC000000000000000⟩
def fBig : Flt := ⟨false, 0x10063, 0x8000000000000000⟩
def fInf : Flt := ⟨false, 0x1FFFF, 0x8000000000000000⟩
def fQuiet : Flt := ⟨false, 0x1FFFF, 0xC000000000000001⟩
def fMinusZero : Flt := ⟨true, 0, 0⟩
def fUnnormal : Flt := ⟨false, 0x10000, 0x4000000000000000⟩
/-- Parallel-FP registers: (2^64, 1), (2^65, 1), (2, -2), (+0, +0), (quiet NaN, +infinity). -/
def fPair64 : Flt := ⟨false, 0x1003E, 0x5F8000003F800000⟩
def fPair65 : Flt := ⟨false, 0x1003E, 0x600000003F800000⟩
def fPairTwo : Flt := ⟨false, 0x1003E, 0x40000000C0000000⟩
def fPairZero : Flt := ⟨false, 0x1003E, 0⟩
def fPairNaN : Flt := ⟨false, 0x1003E, 0x7FC000007F800000⟩

/-- f2 = 1, f3 = 2, f4 = 1.5, f5 = 2^100, f6 = +infinity, f7 = quiet NaN, f8 = -2, f9 = -0, f10 = NaTVal,
f11 to f15 Parallel-FP pairs, f16 unnormal (1.0), f31 = 1, f127 = 1.5. -/
def demo (fpsr : BitVec 64) : State :=
  st fpsr [(2, fOne), (3, fTwo), (4, fOneHalfMore), (5, fBig), (6, fInf), (7, fQuiet), (8, fMinusTwo), (9, fMinusZero),
    (10, natVal), (11, fPair64), (12, fPair65), (13, fPairTwo), (14, fPairZero), (15, fPairNaN), (16, fUnnormal),
    (31, fOne), (127, fOneHalfMore)]

/-! ### Well-formedness: the two class rows have no encoding -/

theorem test_wf_fma : (Instr.fma ⟨3, 127, 127, 127, 127, 63⟩).wellFormed = true := by decide
theorem test_wf_fcvt_refused : (Instr.fcvt ⟨false, false, false, 0, 4, 6, 0⟩).wellFormed = false := by decide
theorem test_wf_fminmax_refused : (Instr.fminmax ⟨false, .min, 0, 4, 5, 6, 0⟩).wellFormed = false := by decide
theorem test_encode_fcvt_refused : encode (.fcvt ⟨false, false, false, 0, 4, 6, 0⟩) = none := by decide
theorem test_encode_fminmax_refused : encode (.fminmax ⟨false, .min, 0, 4, 5, 6, 0⟩) = none := by decide

/-! ### Decoding: the slots of programs A to E, and a word of each other row written out from 30_encoding.md section 3 -/

theorem test_decode_programA :
    decode 0x11028400180 = .ok (.fmaS ⟨0, 5, 4, 0, 6, 0⟩) ∧ decode 0x110086001C0 = .ok (.fmaS ⟨0, 1, 6, 0, 7, 0⟩) := by
  decide +kernel
theorem test_decode_programC :
    decode 0x110488001C0 = .ok (.fmaS ⟨0, 9, 8, 0, 7, 0⟩) ∧ decode 0x11428400280 = .ok (.fmaS ⟨1, 5, 4, 0, 10, 0⟩) := by
  decide +kernel
theorem test_decode_programD : decode 0x130284002C0 = .ok (.fpma ⟨0, 5, 4, 0, 11, 0⟩) := by decide +kernel
theorem test_decode_programE :
    decode 0x110084001C0 = .ok (.fmaS ⟨0, 1, 4, 0, 7, 0⟩) ∧ decode 0x1100850C200 = .ok (.fmaS ⟨0, 1, 5, 6, 8, 0⟩) ∧
      decode 0x11020400240 = .ok (.fmaS ⟨0, 4, 4, 0, 9, 0⟩) := by
  decide +kernel

/-- opcode 8, x 0, sf 2, f4 5, f3 4, f2 3, f1 2, qp 1. -/
theorem test_decode_fma : decode 0b1000_0_10_0000101_0000100_0000011_0000010_000001#41 = .ok (.fma ⟨2, 5, 4, 3, 2, 1⟩) := by
  decide +kernel
/-- opcode 9, x 0. -/
theorem test_decode_fmaD : decode 0b1001_0_11_1111111_0000100_0000011_0000010_111111#41 = .ok (.fmaD ⟨3, 127, 4, 3, 2, 63⟩) := by
  decide +kernel
/-- opcode A, x 0. -/
theorem test_decode_fms : decode 0b1010_0_00_0000101_1111111_0000011_0000010_000000#41 = .ok (.fms ⟨0, 5, 127, 3, 2, 0⟩) := by
  decide +kernel
/-- opcode A, x 1. -/
theorem test_decode_fmsS : decode 0b1010_1_00_0000101_0000100_1111111_0000010_000000#41 = .ok (.fmsS ⟨0, 5, 4, 127, 2, 0⟩) := by
  decide +kernel
/-- opcode B, x 0. -/
theorem test_decode_fmsD : decode 0b1011_0_01_0000101_0000100_0000011_1111111_000000#41 = .ok (.fmsD ⟨1, 5, 4, 3, 127, 0⟩) := by
  decide +kernel
/-- opcode B, x 1. -/
theorem test_decode_fpms : decode 0b1011_1_01_0000101_0000100_0000011_0000010_000000#41 = .ok (.fpms ⟨1, 5, 4, 3, 2, 0⟩) := by
  decide +kernel
/-- opcode C, x 0. -/
theorem test_decode_fnma : decode 0b1100_0_01_0000101_0000100_0000011_0000010_000000#41 = .ok (.fnma ⟨1, 5, 4, 3, 2, 0⟩) := by
  decide +kernel
/-- opcode C, x 1. -/
theorem test_decode_fnmaS : decode 0b1100_1_01_0000101_0000100_0000011_0000010_000000#41 = .ok (.fnmaS ⟨1, 5, 4, 3, 2, 0⟩) := by
  decide +kernel
/-- opcode D, x 0. -/
theorem test_decode_fnmaD : decode 0b1101_0_01_0000101_0000100_0000011_0000010_000000#41 = .ok (.fnmaD ⟨1, 5, 4, 3, 2, 0⟩) := by
  decide +kernel
/-- opcode D, x 1. -/
theorem test_decode_fpnma : decode 0b1101_1_01_0000101_0000100_0000011_0000010_000000#41 = .ok (.fpnma ⟨1, 5, 4, 3, 2, 0⟩) := by
  decide +kernel
/-- opcode 0, q 0, sf 1, x 1, p2 6, f3 5, f2 4, f1 3, qp 2. -/
theorem test_decode_frcpa : decode 0b0000_0_01_1_000110_0000101_0000100_0000011_000010#41 = .ok (.frcpa ⟨1, 6, 5, 4, 3, 2⟩) := by
  decide +kernel
/-- opcode 0, q 1, bits 19:13 ignored. -/
theorem test_decode_frsqrta : decode 0b0000_1_01_1_000110_0000101_1010101_0000011_000010#41 = .ok (.frsqrta ⟨1, 6, 5, 3, 2⟩) := by
  decide +kernel
/-- opcode 1, q 0. -/
theorem test_decode_fprcpa : decode 0b0001_0_01_1_111111_0000101_0000100_0000011_000010#41 = .ok (.fprcpa ⟨1, 63, 5, 4, 3, 2⟩) := by
  decide +kernel
/-- opcode 1, q 1. -/
theorem test_decode_fprsqrta : decode 0b0001_1_01_1_000110_1111111_0000000_0000011_000010#41 = .ok (.fprsqrta ⟨1, 6, 127, 3, 2⟩) := by
  decide +kernel
/-- Bit 33 clear with opcode 0, and opcode E: no row (R38). -/
theorem test_decode_noRow : decode 0 = .error .noRow ∧ decode 0x1C000000000 = .error .noRow := by decide +kernel

/-! ### The exception stage (95_test_vectors.md, 2.1 to 2.5) -/

/-- The controls of the vectors: overflow, underflow and inexact enables, Flush-to-Zero, direction. -/
def ctl (o u i ftz : Bool) (rc : RoundMode) : Controls := ⟨o, u, i, false, false, false, ftz, rc⟩

/-- A stage environment for a fused operation. -/
def env (c : Controls) (fmt : Fmt) (swa : Bool) : StageEnv := ⟨c, fmt, .fma, swa⟩

/-- The stage on `num / den * 2^e`, with the register image of its result. -/
def stage (v : StageEnv) (neg : Bool) (num den : Nat) (e : Int) : Flt × Flags × Bool × Option TrapCode :=
  let o := fpStage v (.value neg (.ratio num den e))
  (encodeReg v.fmt o.dest, o.sets, o.freed, o.trap)

theorem test_stage_V1_V2_V5 :
    stage (env (ctl true false false false .rn) fmtSingle false) false 1 1 128 =
      (⟨false, 0x1007F, 0x8000000000000000⟩, ⟨true, false, false⟩, false, some ⟨true, false, false, false⟩) ∧
    stage (env (ctl true false false false .rn) fmtRegister false) false 1 1 65537 =
      (⟨false, 0, 0x8000000000000000⟩, ⟨true, false, false⟩, false, some ⟨true, false, false, false⟩) ∧
    stage (env (ctl true false false false .rn) fmtSingle false) false (2 ^ 25 - 1) 1 103 =
      (⟨false, 0x1007F, 0x8000000000000000⟩, ⟨true, false, true⟩, false, some ⟨true, false, true, true⟩) := by
  decide +kernel

theorem test_stage_V3_V4_V7_V9_V42 :
    stage (env (ctl false false false false .rn) fmtSingle false) false (2 ^ 25 - 1) 1 103 =
      (fInf, ⟨true, false, true⟩, false, none) ∧
    stage (env (ctl false false false false .rz) fmtSingle false) false (2 ^ 25 - 1) 1 103 =
      (⟨false, 0x1007E, 0xFFFFFF0000000000⟩, ⟨false, false, true⟩, false, none) ∧
    stage (env (ctl false false false false .rp) fmtSingle false) true 1 1 200 =
      (⟨true, 0x1007E, 0xFFFFFF0000000000⟩, ⟨true, false, true⟩, false, none) ∧
    stage (env (ctl false false true false .rz) fmtSingle false) false 1 1 200 =
      (⟨false, 0x1007E, 0xFFFFFF0000000000⟩, ⟨true, false, true⟩, false, some ⟨false, false, true, false⟩) ∧
    stage (env (ctl false false false false .rn) fmtSingle true) false 1 1 200 =
      (⟨false, 0x100C7, 0x8000000000000000⟩, {}, true, some ⟨true, false, false, false⟩) := by
  decide +kernel

theorem test_stage_V10_V11_V13_V15_V16 :
    stage (env (ctl false false false false .rn) fmtSingle false) false 1 1 (-127) =
      (⟨false, 0xFF81, 0x4000000000000000⟩, {}, false, none) ∧
    stage (env (ctl false true false false .rn) fmtSingle false) false 1 1 (-127) =
      (⟨false, 0xFF80, 0x8000000000000000⟩, ⟨false, true, false⟩, false, some ⟨false, true, false, false⟩) ∧
    stage (env (ctl false true false false .rn) fmtRegister false) false 1 1 (-65537) =
      (⟨false, 0x1FFFE, 0x8000000000000000⟩, ⟨false, true, false⟩, false, some ⟨false, true, false, false⟩) ∧
    stage (env (ctl false false false false .rn) fmtSingle false) false 3 1 (-150) =
      (⟨false, 0xFF81, 0x0000020000000000⟩, ⟨false, true, true⟩, false, none) ∧
    stage (env (ctl false false false false .rn) fmtSingle false) false (2 ^ 30 - 2 ^ 5 - 1) 1 (-156) =
      (⟨false, 0xFF81, 0x8000000000000000⟩, ⟨false, true, true⟩, false, none) := by
  decide +kernel

theorem test_stage_V18_V19_V21 :
    stage (env (ctl false false false false .rn) fmtSingle false) false (2 ^ 25 - 1) 1 (-151) =
      (⟨false, 0xFF81, 0x8000000000000000⟩, ⟨false, false, true⟩, false, none) ∧
    stage (env (ctl false false false false .rz) fmtSingle false) false (2 ^ 25 - 1) 1 (-151) =
      (⟨false, 0xFF81, 0x7FFFFF0000000000⟩, ⟨false, true, true⟩, false, none) ∧
    stage (env (ctl false false false true .rn) fmtSingle false) true 1 1 (-127) =
      (fMinusZero, ⟨false, true, true⟩, false, none) := by
  decide +kernel

theorem test_stage_V22_V25_V28 :
    stage (env (ctl false true false true .rn) fmtSingle false) false 1 1 (-127) =
      (⟨false, 0xFF80, 0x8000000000000000⟩, ⟨false, true, false⟩, false, some ⟨false, true, false, false⟩) ∧
    stage (env (ctl false false false true .rn) fmtSingle true) false 1 1 (-127) =
      (⟨false, 0, 0⟩, ⟨false, true, true⟩, false, none) ∧
    stage (env (ctl false false true false .rn) fmtSingle false) false 3 1 (-150) =
      (⟨false, 0xFF81, 0x0000020000000000⟩, ⟨false, true, true⟩, false, some ⟨false, false, true, true⟩) := by
  decide +kernel

theorem test_stage_V30_V31_V33_V35_V36 :
    stage (env (ctl false false false false .rn) fmtSingle false) false (2 ^ 24 + 1) 1 (-24) =
      (fOne, ⟨false, false, true⟩, false, none) ∧
    stage (env (ctl false false true false .rn) fmtSingle false) false (2 ^ 40 + 2 ^ 16 + 1) 1 (-40) =
      (⟨false, 0xFFFF, 0x8000010000000000⟩, ⟨false, false, true⟩, false, some ⟨false, false, true, true⟩) ∧
    stage (env (ctl false false false false .rp) fmtSingle false) true (2 ^ 24 + 1) 1 (-24) =
      (⟨true, 0xFFFF, 0x8000000000000000⟩, ⟨false, false, true⟩, false, none) ∧
    stage (env (ctl false false false false .rn) fmtSingle true) false (2 ^ 24 + 1) 1 (-24) =
      (fOne, {}, true, some ⟨false, false, true, false⟩) ∧
    stage (env (ctl false false false false .rn) fmtDouble false) false 1 3 0 =
      (⟨false, 0xFFFD, 0xAAAAAAAAAAAAA800⟩, ⟨false, false, true⟩, false, none) := by
  decide +kernel

/-- The vectors P1 to P4 of 2.5: wrapped 8-bit exponents. -/
theorem test_stage_P1_P2_P3_P4 :
    encodeElem (fpStage (env (ctl true false false false .rn) fmtSingle false) (.value false (.ratio 1 1 129))).dest = 0 ∧
    encodeElem (fpStage (env (ctl true false false false .rn) fmtSingle false) (.value false (.ratio 1 1 128))).dest =
      0x7F800000 ∧
    encodeElem (fpStage (env (ctl false true false false .rn) fmtSingle false) (.value false (.ratio 1 1 (-128)))).dest =
      0x7F800000 ∧
    encodeElem (fpStage (env (ctl false false false false .rn) fmtSingle false) (.value false (.ratio 1 1 129))).dest =
      0x7F800000 := by
  decide +kernel

/-- The vectors W1 to W4 of 2.9. -/
theorem test_recover_W1_W2_W3_W4 :
    recoverOverflowExp fmtSingle 0x1007F = 128 ∧ recoverOverflowExp fmtRegister 0 = 65537 ∧
    recoverUnderflowExp fmtRegister 0x1FFFE = -65537 ∧ recoverUnderflowExp fmtSingle 0xFF80 = -127 := by
  decide +kernel

/-- The root of 2 in double, from sqrt 2 = 1.0110 1010 0000 1001 1110 ... (0x16A09E667F3BCD at 53 bits). -/
theorem test_stage_root :
    (roundUnbounded (.root 2 0) 53 .rn false).sig = 0x16A09E667F3BCD ∧ (roundUnbounded (.root 2 0) 53 .rn false).exp = 0 := by
  decide +kernel

/-- ISR positions of R14 (GK6): program B and program D. -/
theorem test_isr_positions :
    isrOfTrap 0 ⟨true, false, false, false⟩ none = 0x801 ∧
    isrOfTrap 0 {} (some ⟨true, false, false, false⟩) = 0x81 ∧
    isrOfTrap 0 ⟨false, false, true, true⟩ none = 0x6001 ∧ isrOfFault 0 ⟨false, false, true, false⟩ none = 4 := by
  decide +kernel

/-- NaN classes NV1 to NV3 of 2.7. -/
theorem test_nan_classes :
    classifyElem 0x7FC00000 = .nan true ∧ classifyElem 0x7FA00000 = .nan false ∧
    classifyReg ⟨false, 0x1FFFF, 0xC000000000000000⟩ = .nan true := by
  decide +kernel

/-! ### Instructions: programs B to E of 95_test_vectors.md Part 3, and the vectors of 2.4, 2.6 -/

/-- Program B: destination, flags, vector, next position saved, FPSR image. -/
theorem test_programB :
    nextWith (fun t => t.readF 6 == ⟨false, 0x100C7, 0x8000000000000000⟩ && t.fpsr == 0x0009804C02710337 &&
        t.handler == some 0x5d00 && t.iip == 1)
      (exec (.fmaS ⟨0, 5, 4, 0, 6, 0⟩) (st fpsrB [(4, fBig), (5, fBig)])) = true := by
  decide +kernel

/-- Program A, step 2: an infinity goes through, flags unchanged (V38). -/
theorem test_programA_step2 :
    nextWith (fun t => t.readF 7 == fInf && t.fpsr == 0x0009804C0275033F && t.handler == none && t.pos == 1)
      (exec (.fmaS ⟨0, 1, 6, 0, 7, 0⟩) (st 0x0009804C0275033F [(6, fInf)])) = true := by
  decide +kernel

/-- Program C, step 3: Flush-to-Zero in sf1, sf0 untouched. -/
theorem test_programC_step3 :
    nextWith (fun t => t.readF 10 == ⟨false, 0, 0⟩ && t.fpsr == 0x0009804CC268033F && t.handler == none)
      (exec (.fmaS ⟨1, 5, 4, 0, 10, 0⟩)
        (st fpsrC [(4, ⟨false, 0xFF9B, 0x8000000000000000⟩), (5, ⟨false, 0xFFE4, 0x8000000000000000⟩)])) = true := by
  decide +kernel

/-- Program D: the wrapped high element, the low element, flag o, one trap. -/
theorem test_programD :
    nextWith (fun t => t.readF 11 == ⟨false, 0x1003E, 0x000000003F800000⟩ && flagsOf t.fpsr 0 == ⟨true, false, false⟩ &&
        t.handler == some 0x5d00)
      (exec (.fpma ⟨0, 5, 4, 0, 11, 0⟩) (st fpsrB [(4, fPair64), (5, fPair65)])) = true := by
  decide +kernel

/-- Program E, step 2, stepped from its slot: the inexact trap after the rounded value is written. -/
theorem test_programE_step2 :
    nextWith (fun t => t.readF 8 == ⟨false, 0xFFFF, 0x8000010000000000⟩ && flagsOf t.fpsr 0 == ⟨false, false, true⟩ &&
        t.handler == some 0x5d00 && t.iip == 1)
      (step ((st fpsrE [(5, ⟨false, 0xFFFF, 0x8000008000000000⟩), (6, ⟨false, 0xFFD7, 0x8000000000000000⟩)]).withFetchWord
        48 0x1100850C200)) = true := by
  decide +kernel

/-- V39, V40: an exact zero sum, + under RN and - under RM (sf0.rc = 1: bit 10 of FPSR). -/
theorem test_fms_zero_sign :
    nextWith (fun t => t.readF 20 == ⟨false, 0, 0⟩ && t.fpsr == fpsrA) (exec (.fms ⟨0, 1, 1, 1, 20, 0⟩) (demo fpsrA)) =
      true ∧
    nextWith (fun t => t.readF 20 == fMinusZero) (exec (.fms ⟨0, 1, 1, 1, 20, 0⟩) (demo (fpsrA ||| 0x400))) = true := by
  decide +kernel

/-- -(1.5 * 2) + 1 = -2. -/
theorem test_fnma :
    nextWith (fun t => t.readF 20 == fMinusTwo) (exec (.fnma ⟨0, 3, 4, 2, 20, 0⟩) (demo fpsrA)) = true := by
  decide +kernel

/-- 1.5 * 2 - 1 = 2, in each precision. -/
theorem test_fms_precisions :
    nextWith (fun t => t.readF 20 == fTwo) (exec (.fmsS ⟨0, 3, 4, 2, 20, 0⟩) (demo fpsrA)) = true ∧
    nextWith (fun t => t.readF 20 == fTwo) (exec (.fmsD ⟨0, 3, 4, 2, 20, 0⟩) (demo fpsrA)) = true := by
  decide +kernel

/-- -(1.5 * 2) + 1 = -2, in each precision. -/
theorem test_fnma_precisions :
    nextWith (fun t => t.readF 20 == fMinusTwo) (exec (.fnmaS ⟨0, 3, 4, 2, 20, 0⟩) (demo fpsrA)) = true ∧
    nextWith (fun t => t.readF 20 == fMinusTwo) (exec (.fnmaD ⟨0, 3, 4, 2, 20, 0⟩) (demo fpsrA)) = true := by
  decide +kernel

/-- 1.5 * 2 + 1 = 4, in double and by `sfx.pc`, a source being the destination. -/
theorem test_fma_precisions :
    nextWith (fun t => t.readF 2 == ⟨false, 0x10001, 0x8000000000000000⟩) (exec (.fmaD ⟨0, 3, 4, 2, 2, 0⟩) (demo fpsrA)) =
      true ∧
    nextWith (fun t => t.readF 2 == ⟨false, 0x10001, 0x8000000000000000⟩) (exec (.fma ⟨0, 3, 4, 2, 2, 0⟩) (demo fpsrA)) =
      true := by
  decide +kernel

/-- Elements (2, -2) squared, less 2 and -2: (2, 6); and the opposite with fpnma: (-2, -6). -/
theorem test_fpms_fpnma :
    nextWith (fun t => t.readF 20 == ⟨false, 0x1003E, 0x4000000040C00000⟩)
      (exec (.fpms ⟨0, 13, 13, 13, 20, 0⟩) (demo fpsrA)) = true ∧
    nextWith (fun t => t.readF 20 == ⟨false, 0x1003E, 0xC0000000C0C00000⟩)
      (exec (.fpnma ⟨0, 13, 13, 13, 20, 0⟩) (demo fpsrA)) = true := by
  decide +kernel

/-- frcpa: 1.5 / -0 with Zero Divide disabled is -infinity with flag z and p2 cleared; enabled, the fault. -/
theorem test_frcpa_zero_divide :
    nextWith (fun t => t.readF 20 == ⟨true, 0x1FFFF, 0x8000000000000000⟩ && sfBit t.fpsr 0 9 && !t.readP 6 &&
        t.handler == none)
      (exec (.frcpa ⟨0, 6, 9, 4, 20, 0⟩) (demo fpsrA)) = true ∧
    nextWith (fun t => t.fr == (demo fpsrZ).fr && t.handler == some 0x5c00 && t.iip == 0)
      (exec (.frcpa ⟨0, 6, 9, 4, 20, 0⟩) (demo fpsrZ)) = true := by
  decide +kernel

/-- frsqrta: the root of -0 is -0 with p2 cleared. -/
theorem test_frsqrta_minus_zero :
    nextWith (fun t => t.readF 20 == fMinusZero && !t.readP 6) (exec (.frsqrta ⟨0, 6, 9, 20, 0⟩) (demo fpsrA)) = true := by
  decide +kernel

/-- fprcpa: (+0, +0) by (2, -2) is (+0, -0); fprsqrta of (+0, +0) is (+0, +0); p2 is cleared. -/
theorem test_parallel_special :
    nextWith (fun t => t.readF 20 == ⟨false, 0x1003E, 0x80000000⟩ && !t.readP 6)
      (exec (.fprcpa ⟨0, 6, 13, 14, 20, 0⟩) (demo fpsrA)) = true ∧
    nextWith (fun t => t.readF 20 == fPairZero && !t.readP 6)
      (exec (.fprsqrta ⟨0, 6, 14, 20, 0⟩) (demo fpsrA)) = true := by
  decide +kernel

/-- CV1 to CV3, CV6: signed of +infinity, unsigned of a NaN, unsigned of a negative value; -2^63 is valid. -/
theorem test_fcvt_invalid :
    nextWith (fun t => t.readF 20 == ⟨false, 0x1003E, 0x8000000000000000⟩ && t.signaled.v)
      (exec (.fcvt ⟨false, false, false, 0, 6, 20, 0⟩) (demo fpsrA)) = true ∧
    nextWith (fun t => t.readF 20 == ⟨false, 0x1003E, 0x8000000000000000⟩ && t.signaled.v)
      (exec (.fcvt ⟨false, true, true, 0, 7, 20, 0⟩) (demo fpsrA)) = true ∧
    nextWith (fun t => t.readF 20 == ⟨false, 0x1003E, 0x8000000000000000⟩ && t.signaled.v)
      (exec (.fcvt ⟨false, true, false, 0, 8, 20, 0⟩) (demo fpsrA)) = true ∧
    nextWith (fun t => t.readF 20 == ⟨false, 0x1003E, 0x8000000000000000⟩ && !t.signaled.v)
      (exec (.fcvt ⟨false, false, false, 0, 4, 20, 0⟩) (st fpsrA [(4, ⟨true, 0x1003E, 0x8000000000000000⟩)])) = true := by
  decide +kernel

/-- CV4: 2^31 in an element; CV5: 2^63 with Invalid Operation enabled faults and writes nothing. -/
theorem test_fcvt_element_and_fault :
    nextWith (fun t => t.readF 20 == ⟨false, 0x1003E, 0x80000000FFFFFFFE⟩)
      (exec (.fcvt ⟨true, false, false, 0, 4, 20, 0⟩) (st fpsrA [(4, ⟨false, 0x1003E, 0x4F000000C0000000⟩)])) = true ∧
    nextWith (fun t => t.readF 20 == ⟨false, 0, 0⟩ && t.handler == some 0x5c00)
      (exec (.fcvt ⟨false, false, false, 0, 4, 20, 0⟩) (st fpsrV [(4, ⟨false, 0x1003E, 0x8000000000000000⟩)])) = true := by
  decide +kernel

/-- The idiom a<b?a:b of R82: fmin of (-2, 1), famax of (-2, 1), fmin of (+0, -0) delivers the second. -/
theorem test_fminmax :
    nextWith (fun t => t.readF 20 == fMinusTwo) (exec (.fminmax ⟨false, .min, 0, 8, 2, 20, 0⟩) (demo fpsrA)) = true ∧
    nextWith (fun t => t.readF 20 == fMinusTwo) (exec (.fminmax ⟨false, .amax, 0, 8, 2, 20, 0⟩) (demo fpsrA)) = true ∧
    nextWith (fun t => t.readF 20 == fMinusZero) (exec (.fminmax ⟨false, .min, 0, 0, 9, 20, 0⟩) (demo fpsrA)) = true := by
  decide +kernel

/-- A Parallel-FP maximum, element by element: max of (2, -2) and (+0, +0) is (2, +0). -/
theorem test_fminmax_parallel :
    nextWith (fun t => t.readF 20 == ⟨false, 0x1003E, 0x4000000000000000⟩)
      (exec (.fminmax ⟨true, .max, 0, 13, 14, 20, 0⟩) (demo fpsrA)) = true := by
  decide +kernel

/-! ### Witnesses: for every statement with hypotheses, states and operands that meet them -/

theorem witness_DecodeOfEncode :
    (Instr.fnmaD ⟨3, 127, 127, 127, 127, 63⟩).wellFormed = true ∧ (Instr.fprsqrta ⟨0, 0, 0, 0, 0⟩).wellFormed = true := by
  decide

theorem witness_EncodeOfDecode :
    decode 0x1BFFFFFFFFF = .ok (.fpnma ⟨3, 127, 127, 127, 127, 63⟩) ∧ decode 0x012000FE000 = .ok (.frsqrta ⟨0, 0, 0, 0, 0⟩) := by
  decide +kernel

theorem witness_EncodeOfDecode_rows :
    ∃ r ∈ rows, r.hits 0x10000000000 = true := ⟨_, List.mem_cons_self, by decide +kernel⟩

/-- A program of one slot. -/
def slotProgram (w : BitVec 41) : State := { demo fpsrA with program := [.slot w] }

theorem witness_StepStopsOnlyByName_unlisted :
    (slotProgram 0).handler = none ∧ (slotProgram 0).fetch = some (.slot 0) ∧ ∀ r ∈ rows, r.hits 0 = false := by
  refine ⟨rfl, rfl, ?_⟩
  simp only [rows, List.forall_mem_cons, List.not_mem_nil, false_imp_iff, implies_true, and_true]
  decide +kernel

/-- A program of one decoded operation. -/
def opProgram (fpsr : BitVec 64) (i : Instr) : State := { demo fpsr with program := [.op i] }

theorem witness_StepRunsTheFetchedInstruction :
    (opProgram fpsrA (.fcvt ⟨false, false, false, 0, 2, 20, 0⟩)).handler = none ∧
    (opProgram fpsrA (.fcvt ⟨false, false, false, 0, 2, 20, 0⟩)).fetch =
      some (.op (.fcvt ⟨false, false, false, 0, 2, 20, 0⟩)) ∧
    (slotProgram 0x11028400180).fetch = some (.slot 0x11028400180) ∧
    decode 0x11028400180 = .ok (.fmaS ⟨0, 5, 4, 0, 6, 0⟩) := by
  refine ⟨rfl, rfl, rfl, ?_⟩
  decide +kernel

/-- A demonstration step: fcvt of 1, an exact conversion. -/
def demoStep : State := opProgram fpsrA (.fcvt ⟨false, false, false, 3, 2, 20, 0⟩)

theorem witness_StepStopsOnlyByName :
    (State.reset.handler = none ∧ State.reset.program.length ≤ State.reset.pos) ∧
    ({ State.reset with handler := some 0x5d00 } : State).handler = some 0x5d00 ∧
    demoStep.handler = none ∧ demoStep.pos < demoStep.program.length := by
  refine ⟨⟨rfl, ?_⟩, rfl, rfl, ?_⟩ <;> decide

/-- The two converse clauses: the step refuses the unlisted slot 0, and faults on a destination f0 and on f1. -/
theorem witness_StepStopsOnlyByName_converse :
    step (slotProgram 0) = .refused .notInTable ∧
    step (opProgram fpsrA (.fma ⟨0, 1, 2, 0, 0, 0⟩)) = .fault .hardwiredRegisterWrite ∧
    step (opProgram fpsrA (.fcvt ⟨false, false, false, 0, 2, 1, 0⟩)) = .fault .hardwiredRegisterWrite :=
  ⟨rfl, rfl, rfl⟩

/-- A step that goes on, for the statements about every step. -/
theorem demoStep_next : ∃ t, step demoStep = .next t ∧ t.handler.isNone = true :=
  nextWith_exists (p := fun t => t.handler.isNone) (by decide +kernel)

theorem witness_InvariantKeptByEveryStep : demoStep.Inv ∧ ∃ t, step demoStep = .next t :=
  ⟨⟨by decide, fun a h => by cases h⟩, demoStep_next.imp fun _ h => h.1⟩

/-- The invariant also holds at a vector. -/
theorem witness_Inv_at_vector : ({ State.reset with handler := some 0x5d00 } : State).Inv :=
  ⟨by decide, fun a h => by cases h; decide⟩

theorem witness_ProgramNeverModified : ∃ t, step demoStep = .next t := demoStep_next.imp fun _ h => h.1

theorem witness_IsrWrittenOnlyByInterruptions : ∃ t, step demoStep = .next t ∧ t.handler = none :=
  demoStep_next.imp fun _ h => ⟨h.1, Option.isNone_iff_eq_none.mp h.2⟩

theorem witness_ControlsNeverWritten :
    ∃ t, step (opProgram fpsrE (.fmaS ⟨0, 1, 4, 4, 20, 0⟩)) = .next t := by
  obtain ⟨t, h, -⟩ := nextWith_exists (p := fun _ => true)
    (r := step (opProgram fpsrE (.fmaS ⟨0, 1, 4, 4, 20, 0⟩))) (by decide +kernel)
  exact ⟨t, h⟩

/-- Flags o, u and i of sf3 are bits 55 to 57 of FPSR. -/
theorem witness_FlagsStickyWithoutInterruption :
    ∃ t, step (opProgram (fpsrA ||| 0x0380000000000000) (.fcvt ⟨false, false, false, 3, 2, 20, 0⟩)) = .next t ∧
      t.handler = none ∧ (opProgram (fpsrA ||| 0x0380000000000000) (.fcvt ⟨false, false, false, 3, 2, 20, 0⟩)).fpsr =
        fpsrA ||| 0x0380000000000000 ∧ flagsOf (fpsrA ||| 0x0380000000000000) 3 = ⟨true, true, true⟩ := by
  obtain ⟨t, h, hh⟩ := nextWith_exists (p := fun t => t.handler.isNone)
    (r := step (opProgram (fpsrA ||| 0x0380000000000000) (.fcvt ⟨false, false, false, 3, 2, 20, 0⟩))) (by decide +kernel)
  exact ⟨t, h, Option.isNone_iff_eq_none.mp hh, rfl, by decide +kernel⟩

/-- The overflowing operation of program B: flags of sf0 only. -/
theorem witness_OtherStatusFieldsUntouched :
    (∃ t, exec (.fmaS ⟨0, 5, 5, 0, 6, 0⟩) (demo fpsrB) = .next t) ∧ (3 : SfNum) ≠ (Instr.fmaS ⟨0, 5, 5, 0, 6, 0⟩).sf := by
  obtain ⟨t, h, -⟩ := nextWith_exists (p := fun _ => true) (r := exec (.fmaS ⟨0, 5, 5, 0, 6, 0⟩) (demo fpsrB))
    (by decide +kernel)
  exact ⟨⟨t, h⟩, by decide⟩

/-- One without an interruption, one with the trap, one that names a predicate. -/
theorem witness_FrameOfEveryInstruction :
    (demo fpsrB).handler = none ∧
    (∃ t, exec (.fmaS ⟨0, 1, 2, 0, 20, 0⟩) (demo fpsrB) = .next t ∧ t.handler = none) ∧
    (∃ t, exec (.fmaS ⟨0, 5, 5, 0, 20, 0⟩) (demo fpsrB) = .next t ∧ t.handler.isSome = true) ∧
    (∃ t, exec (.frsqrta ⟨0, 6, 9, 20, 0⟩) (demo fpsrB) = .next t ∧ t.handler = none) := by
  refine ⟨rfl, ?_, nextWith_exists (p := fun t => t.handler.isSome) (by decide +kernel), ?_⟩
  · obtain ⟨t, h, hh⟩ := nextWith_exists (p := fun t => t.handler.isNone)
      (r := exec (.fmaS ⟨0, 1, 2, 0, 20, 0⟩) (demo fpsrB)) (by decide +kernel)
    exact ⟨t, h, Option.isNone_iff_eq_none.mp hh⟩
  · obtain ⟨t, h, hh⟩ := nextWith_exists (p := fun t => t.handler.isNone)
      (r := exec (.frsqrta ⟨0, 6, 9, 20, 0⟩) (demo fpsrB)) (by decide +kernel)
    exact ⟨t, h, Option.isNone_iff_eq_none.mp hh⟩

theorem witness_FlagFramesByClass :
    (∃ t, exec (.fminmax ⟨false, .min, 0, 8, 2, 20, 0⟩) (demo fpsrA) = .next t ∧ (true = true)) ∧
    (∃ t, exec (.fcvt ⟨false, false, false, 0, 4, 20, 0⟩) (demo fpsrA) = .next t ∧ (true = true)) ∧
    (∃ t, exec (.fmaS ⟨0, 5, 5, 0, 6, 0⟩) (demo fpsrB) = .next t ∧ (true = true)) :=
  ⟨nextWith_exists (p := fun _ => true) (by decide +kernel), nextWith_exists (p := fun _ => true) (by decide +kernel),
    nextWith_exists (p := fun _ => true) (by decide +kernel)⟩

/-- The demonstration state with f32 to f127, or f2 to f31, disabled. -/
def demoDfh : State := { demo fpsrA with psr := { Psr.reset with dfh := true } }
def demoDfl : State := { demo fpsrA with psr := { Psr.reset with dfl := true } }

/-- All three vectors are reached. -/
theorem witness_InterruptionEntry :
    (∃ t, exec (.fmaS ⟨0, 5, 5, 0, 6, 0⟩) (demo fpsrB) = .next t ∧ (t.handler == some 0x5d00) = true) ∧
    (∃ t, exec (.frcpa ⟨0, 6, 9, 4, 20, 0⟩) (demo fpsrZ) = .next t ∧ (t.handler == some 0x5c00) = true) ∧
    (∃ t, exec (.fmaS ⟨0, 127, 2, 0, 6, 0⟩) demoDfh = .next t ∧ (t.handler == some 0x5500) = true) :=
  ⟨nextWith_exists (p := fun t => t.handler == some 0x5d00) (by decide +kernel),
    nextWith_exists (p := fun t => t.handler == some 0x5c00) (by decide +kernel),
    nextWith_exists (p := fun t => t.handler == some 0x5500) (by decide +kernel)⟩

/-- The boundaries f1, f2, f31, f32, f127 of the two halves. -/
theorem witness_DisabledRegisterFaultFirst :
    demoDfl.fpDisabled 1 = false ∧ demoDfl.fpDisabled 2 = true ∧ demoDfl.fpDisabled 31 = true ∧
    demoDfl.fpDisabled 32 = false ∧ demoDfh.fpDisabled 31 = false ∧ demoDfh.fpDisabled 32 = true ∧
    demoDfh.fpDisabled 127 = true := by
  decide +kernel

theorem witness_DisabledRegisterFaultFirst_exec :
    demoDfh.readP (Instr.fmaS ⟨0, 127, 2, 0, 6, 0⟩).qp = true ∧
    ∃ n ∈ (Instr.fmaS ⟨0, 127, 2, 0, 6, 0⟩).dest :: (Instr.fmaS ⟨0, 127, 2, 0, 6, 0⟩).sources, demoDfh.fpDisabled n = true := by
  decide +kernel

theorem witness_HardwiredRegisters :
    (∃ t, step demoStep = .next t) ∧
    (demo fpsrA).readP (Instr.fma ⟨0, 1, 2, 0, 0, 0⟩).qp = true ∧
    (∀ n ∈ (Instr.fma ⟨0, 1, 2, 0, 0, 0⟩).dest :: (Instr.fma ⟨0, 1, 2, 0, 0, 0⟩).sources,
      (demo fpsrA).fpDisabled n = false) ∧
    (Instr.fma ⟨0, 1, 2, 0, 0, 0⟩).dest = 0 ∧ (Instr.fcvt ⟨false, false, false, 0, 2, 1, 0⟩).dest = 1 := by
  refine ⟨demoStep_next.imp fun _ h => h.1, ?_⟩
  decide +kernel

theorem witness_NullifiedInstruction :
    (demo fpsrA).readP (Instr.fma ⟨0, 1, 2, 0, 20, 63⟩).qp = false ∧
    (demo fpsrA).readP (Instr.frcpa ⟨0, 6, 2, 3, 20, 1⟩).qp = false := by
  decide +kernel

theorem witness_NaTValPropagates :
    (demo fpsrA).ready (.frcpa ⟨0, 6, 10, 3, 20, 0⟩) = true ∧
    ∃ n ∈ (Instr.frcpa ⟨0, 6, 10, 3, 20, 0⟩).sources, (demo fpsrA).readF n = natVal := by
  decide +kernel

/-- What the demonstration registers read. -/
theorem demo_reads :
    (demo fpsrA).readF 2 = fOne ∧ (demo fpsrA).readF 3 = fTwo ∧ (demo fpsrA).readF 4 = fOneHalfMore ∧
    (demo fpsrA).readF 8 = fMinusTwo ∧ (demo fpsrA).readF 13 = fPairTwo := by
  decide +kernel

theorem regValue_eq {r : Flt} {n : Bool} {m : Nat} {e : Int} (hn : r.neg = n) (hm : r.sig.toNat = m)
    (he : (if r.exp = 0 then (-65534 : Int) else (r.exp.toNat : Int) - 65535) = e) :
    regValue r = signRat n * m * 2 ^ (e - 63) := by
  subst hn hm he
  rfl

/-- The values of the demonstration registers. -/
theorem value_one : regValue fOne = 1 := by
  rw [regValue_eq (n := false) (m := 2 ^ 63) (e := 0) rfl (by decide) (by decide)]
  norm_num [signRat]
theorem value_two : regValue fTwo = 2 := by
  rw [regValue_eq (n := false) (m := 2 ^ 63) (e := 1) rfl (by decide) (by decide)]
  norm_num [signRat]
theorem value_minusTwo : regValue fMinusTwo = -2 := by
  rw [regValue_eq (n := true) (m := 2 ^ 63) (e := 1) rfl (by decide) (by decide)]
  norm_num [signRat]
theorem value_oneHalfMore : regValue fOneHalfMore = 3 / 2 := by
  rw [regValue_eq (n := false) (m := 3 * 2 ^ 62) (e := 0) rfl (by decide) (by decide)]
  norm_num [signRat]

/-- 1.5 * 2 + 1 = 4 = 2^63 * 2^(2 - 63), with the significand at the lower end of its range. -/
theorem witness_NormalFusedExactResult :
    (demo fpsrA).ready (.fma ⟨0, 3, 4, 2, 20, 0⟩) = true ∧
    (∀ n ∈ (Instr.fma ⟨0, 3, 4, 2, 20, 0⟩).sources,
      finiteReg ((demo fpsrA).readF n) = true ∧ unnormalReg ((demo fpsrA).readF n) = false) ∧
    (demo fpsrA).destFmt none 0 = fmtExtended ∧
    fusedRat .fma (regValue ((demo fpsrA).readF 4)) (regValue ((demo fpsrA).readF 3)) (regValue ((demo fpsrA).readF 2)) =
      signRat false * (2 ^ 63 : Nat) * 2 ^ ((2 : Int) - ((64 : Nat) - 1)) := by
  refine ⟨by decide +kernel, by decide +kernel, by decide +kernel, ?_⟩
  rw [demo_reads.1, demo_reads.2.1, demo_reads.2.2.1, value_one, value_two, value_oneHalfMore]
  norm_num [fusedRat, signRat]

/-- -(1.5 * 2) + 1 = -2 in single, and 1.5 * 2 - 1 = 2 in double. -/
theorem witness_NormalFusedExactResult_others :
    (demo fpsrA).destFmt (some .single) 0 = fmtSingle ∧ (demo fpsrA).destFmt (some .double) 0 = fmtDouble ∧
    fusedRat .fnma (regValue ((demo fpsrA).readF 4)) (regValue ((demo fpsrA).readF 3)) (regValue ((demo fpsrA).readF 2)) =
      signRat true * (2 ^ 23 : Nat) * 2 ^ ((1 : Int) - ((24 : Nat) - 1)) ∧
    fusedRat .fms (regValue ((demo fpsrA).readF 4)) (regValue ((demo fpsrA).readF 3)) (regValue ((demo fpsrA).readF 2)) =
      signRat false * (2 ^ 52 : Nat) * 2 ^ ((1 : Int) - ((53 : Nat) - 1)) := by
  refine ⟨by decide +kernel, by decide +kernel, ?_, ?_⟩ <;>
    rw [demo_reads.1, demo_reads.2.1, demo_reads.2.2.1, value_one, value_two, value_oneHalfMore] <;>
    norm_num [fusedRat, signRat]

/-- The three clauses: a denormal operand with its fault enabled, an exact result, and a trap (here the overflow trap). -/
theorem witness_NormalFusedFollowsStage :
    ((demo fpsrD).ready (.fmaS ⟨0, 16, 2, 0, 20, 0⟩) = true ∧ unnormalReg ((demo fpsrD).readF 16) = true ∧
      (controlsOf (demo fpsrD).fpsr 0).denEn = true ∧
      classifyReg ((demo fpsrD).readF 16) = .num (.fin false 0x4000000000000000 (-62)) ∧
      classifyReg ((demo fpsrD).readF 2) = .num (.fin false 0x8000000000000000 (-63)) ∧
      classifyReg ((demo fpsrD).readF 0) = .num (.fin false 0 (-65597))) ∧
    fusedExact .fma .rn (.fin false 0x8000000000000000 (-63)) (.fin false 0x4000000000000000 (-62)) (.fin false 0 (-65597)) =
      some (.value false (.ratio 0x20000000000000000000000000000000 1 (-125))) ∧
    (fpStage ⟨controlsOf (demo fpsrA).fpsr 0, fmtSingle, .fma, Config.swaRequest 0⟩
      (.value false (.ratio 0x20000000000000000000000000000000 1 (-125)))).trap = none ∧
    (fpStage ⟨controlsOf (demo fpsrB).fpsr 0, fmtSingle, .fma, Config.swaRequest 0⟩ (.value false (.ratio 1 1 200))).trap =
      some ⟨true, false, false, false⟩ := by
  decide +kernel

/-- An inexact product: (1 + 2^-63) squared needs 127 bits, and the sources are finite. -/
theorem witness_NormalFusedFollowsStage_inexact :
    classifyReg ⟨false, 0xFFFF, 0x8000000000000001⟩ = .num (.fin false (2 ^ 63 + 1) (-63)) ∧
    finiteReg ⟨false, 0xFFFF, 0x8000000000000001⟩ = true ∧
    fusedExact .fnma .rn (.fin false (2 ^ 63 + 1) (-63)) (.fin false (2 ^ 63 + 1) (-63)) (.fin false 0 (-65597)) =
      some (.value true (.ratio ((2 ^ 63 + 1) * (2 ^ 63 + 1)) 1 (-126))) ∧
    (∀ n ∈ (Instr.fnma ⟨0, 4, 4, 0, 20, 0⟩).sources, finiteReg ((demo fpsrA).readF n) = true) := by
  decide +kernel

theorem witness_FusedInfinityPrecomputed :
    (demo fpsrA).ready (.fnma ⟨0, 8, 6, 2, 20, 0⟩) = true ∧
    (∀ n ∈ (Instr.fnma ⟨0, 8, 6, 2, 20, 0⟩).sources, unnormalReg ((demo fpsrA).readF n) = false) ∧
    classifyReg ((demo fpsrA).readF 6) = .num (.inf false) ∧
    classifyReg ((demo fpsrA).readF 8) = .num (.fin true 0x8000000000000000 (-62)) ∧
    classifyReg ((demo fpsrA).readF 2) = .num (.fin false 0x8000000000000000 (-63)) := by
  decide +kernel

/-- An infinite factor in either place, both factors and an addend of the same sign, and an infinite addend alone. -/
theorem witness_FusedInfinityPrecomputed_clauses :
    productNeg .fnma (Numeric.inf false).isNeg (Numeric.fin true 1 0).isNeg = false ∧
    productNeg .fma (Numeric.fin true 1 0).isNeg (Numeric.inf false).isNeg = true ∧
    addendNeg .fms (Numeric.inf true).isNeg = productNeg .fms (Numeric.inf true).isNeg (Numeric.inf true).isNeg ∧
    addendNeg .fms (Numeric.inf false).isNeg = true := by
  decide +kernel

/-- 1 * 1 - 1 (opposite terms) and -0 * 1 + -0 (two negative zeros). -/
theorem witness_NormalFusedExactZero :
    (demo fpsrA).ready (.fms ⟨0, 2, 2, 2, 20, 0⟩) = true ∧ (demo fpsrA).ready (.fma ⟨0, 9, 2, 9, 20, 0⟩) = true ∧
    (∀ n ∈ [(2 : RegNum), 9], finiteReg ((demo fpsrA).readF n) = true ∧ unnormalReg ((demo fpsrA).readF n) = false) ∧
    fusedRat .fms (regValue ((demo fpsrA).readF 2)) (regValue ((demo fpsrA).readF 2)) (regValue ((demo fpsrA).readF 2)) =
      0 ∧
    exactZeroNeg .rn .fms false false false = false ∧ exactZeroNeg .rm .fms false false false = true ∧
    exactZeroNeg .rn .fma false true true = true := by
  refine ⟨by decide +kernel, by decide +kernel, by decide +kernel, ?_, by decide, by decide, by decide⟩
  rw [demo_reads.1, value_one]
  norm_num [fusedRat]

/-- Infinity times minus zero, with Invalid Operation enabled and disabled. -/
theorem witness_FusedInvalidOperation :
    (demo fpsrA).ready (.fma ⟨0, 9, 6, 2, 20, 0⟩) = true ∧ classifyReg ((demo fpsrA).readF 6) = .num (.inf false) ∧
    classifyReg ((demo fpsrA).readF 9) = .num (.fin true 0 (-65597)) ∧
    invalidFused .fma (.inf false) (.fin true 0 (-65597)) (.fin false 0x8000000000000000 (-63)) = true ∧
    (controlsOf (demo fpsrV).fpsr 0).invEn = true ∧ (controlsOf (demo fpsrA).fpsr 0).invEn = false := by
  decide +kernel

/-- A register of infinite elements, one with a zero and a quiet NaN, one with two denormals, one with (-0, -infinity). -/
def pairs (fpsr : BitVec 64) : State :=
  st fpsr [(4, ⟨false, 0x1003E, 0x7F8000007F800000⟩), (5, ⟨false, 0x1003E, 0x000000007FC00001⟩),
    (6, ⟨false, 0x1003E, 0x0000000100000001⟩), (7, ⟨false, 0x1003E, 0x80000000FF800000⟩), (8, fPairTwo)]

/-- Infinity times minus zero in the high element, with Invalid Operation enabled and disabled. -/
theorem witness_FusedInvalidOperation_element :
    isLane highElem 1 ∧ (pairs fpsrV).ready (.fpma ⟨0, 7, 4, 8, 20, 0⟩) = true ∧
    (pairs fpsrV).noNaT (.fpma ⟨0, 7, 4, 8, 20, 0⟩) = true ∧
    classifyElem (highElem ((pairs fpsrV).readF 4)) = .num (.inf false) ∧
    classifyElem (highElem ((pairs fpsrV).readF 7)) = .num (.fin true 0 (-149)) ∧
    invalidFused .fma (.inf false) (.fin true 0 (-149)) (.fin false (2 ^ 23) (-22)) = true :=
  ⟨.inr ⟨rfl, rfl⟩, by decide +kernel⟩

/-- A quiet NaN in the low element of each source field in turn; the other operands' low elements are numbers. -/
theorem witness_FusedNaNPriority_element :
    isLane lowElem 0 ∧ (pairs fpsrA).ready (.fpms ⟨0, 5, 8, 4, 20, 0⟩) = true ∧
    (pairs fpsrA).noNaT (.fpms ⟨0, 8, 5, 4, 20, 0⟩) = true ∧
    (∀ n ∈ [(4 : RegNum), 5, 8], classifyElem (lowElem ((pairs fpsrA).readF n)) ≠ .nan false) ∧
    classifyElem (lowElem ((pairs fpsrA).readF 5)) = .nan true ∧
    (∀ n ∈ [(4 : RegNum), 8], (classifyElem (lowElem ((pairs fpsrA).readF n))).isNaN = false) :=
  ⟨.inl ⟨rfl, rfl⟩, by decide +kernel⟩

/-- Denormal elements with the Denormal Operand fault enabled. -/
theorem witness_ParallelFusedFollowsStage_fault :
    (pairs fpsrD).ready (.fpma ⟨0, 8, 6, 8, 20, 0⟩) = true ∧ unnormalElem (highElem ((pairs fpsrD).readF 6)) = true ∧
    (controlsOf (pairs fpsrD).fpsr 0).denEn = true ∧
    classifyElem (lowElem ((pairs fpsrD).readF 6)) = .num (.fin false 1 (-149)) := by
  decide +kernel

/-- The NaN in each of the three fields. -/
theorem witness_FusedNaNPriority :
    (demo fpsrA).ready (.fma ⟨0, 7, 2, 3, 20, 0⟩) = true ∧ (demo fpsrA).noNaT (.fma ⟨0, 7, 2, 3, 20, 0⟩) = true ∧
    classifyReg ((demo fpsrA).readF 7) = .nan true ∧
    (∀ n ∈ [(2 : RegNum), 3, 7],
      classifyReg ((demo fpsrA).readF n) ≠ .nan false ∧ classifyReg ((demo fpsrA).readF n) ≠ .unsupported) ∧
    (∀ n ∈ [(2 : RegNum), 3], (classifyReg ((demo fpsrA).readF n)).isNaN = false) := by
  decide +kernel

/-- A state with a signaling NaN in f5, a quiet one in f6, an encoding without a value in f7, signaling elements in f9. -/
def nans (fpsr : BitVec 64) : State :=
  st fpsr [(2, fOne), (5, ⟨false, 0x1FFFF, 0xA000000000000000⟩), (6, fQuiet), (7, ⟨false, 0x1FFFF, 1⟩),
    (8, fPairNaN), (9, ⟨false, 0x1003E, 0x7FA000007FA00000⟩), (10, fPairTwo)]

/-- NV8: a quiet NaN in f4 beside a signaling one in f3; and a signaling one in f4 or alone, with Invalid Operation enabled
and disabled. -/
theorem witness_FusedNaNPriority_signaling :
    ((nans fpsrV).ready (.fma ⟨0, 6, 5, 2, 20, 0⟩) = true ∧ (nans fpsrV).noNaT (.fma ⟨0, 6, 5, 2, 20, 0⟩) = true) ∧
    (classifyReg ((nans fpsrV).readF 6) = .nan true ∧ classifyReg ((nans fpsrV).readF 5) = .nan false ∧
      classifyReg ((nans fpsrV).readF 7) = .unsupported ∧ (classifyReg ((nans fpsrV).readF 2)).isNaN = false) ∧
    ((controlsOf (nans fpsrV).fpsr 0).invEn = true ∧ (controlsOf (nans fpsrA).fpsr 0).invEn = false) := by
  decide +kernel

/-- A register without a value beside numbers, for each class: fused, approximation, minimum; and beside a NaN in the last. -/
theorem witness_valuelessOperand :
    (∃ n ∈ (Instr.fma ⟨0, 2, 7, 2, 20, 0⟩).sources, classifyReg ((nans fpsrV).readF n) = .unsupported) ∧
    (∀ n ∈ (Instr.fma ⟨0, 2, 7, 2, 20, 0⟩).sources, (classifyReg ((nans fpsrV).readF n)).isNaN = false) ∧
    ((nans fpsrV).ready (.fma ⟨0, 2, 7, 2, 20, 0⟩) = true ∧ (nans fpsrV).noNaT (.fma ⟨0, 2, 7, 2, 20, 0⟩) = true) ∧
    ((nans fpsrV).ready (.frcpa ⟨0, 6, 2, 7, 20, 0⟩) = true ∧ (nans fpsrV).noNaT (.frsqrta ⟨0, 6, 7, 20, 0⟩) = true) ∧
    ((nans fpsrA).ready (.fminmax ⟨false, .min, 0, 6, 7, 20, 0⟩) = true ∧
      (nans fpsrA).noNaT (.fminmax ⟨false, .min, 0, 6, 7, 20, 0⟩) = true) := by
  decide +kernel

/-- The fused one: the fault with nothing written, Invalid Operation enabled; else the event and no trap. -/
theorem test_valuelessOperand :
    nextWith (fun t => t.handler == some 0x5c00 && t.fr == (nans fpsrV).fr)
      (exec (.fma ⟨0, 2, 7, 2, 20, 0⟩) (nans fpsrV)) = true ∧
    nextWith (fun t => t.handler == none && t.signaled.v && !t.signaled.d)
      (exec (.fma ⟨0, 2, 7, 2, 20, 0⟩) (nans fpsrA)) = true := by
  decide +kernel

/-- NV8: the quiet NaN of f4 goes before the signaling one of f3. -/
theorem test_nan_priority_NV8 :
    chooseNaN (regCarrier fmtExtended) [(nans fpsrA).readF 6, (nans fpsrA).readF 2, (nans fpsrA).readF 5] = some fQuiet := by
  decide +kernel

/-- A signaling NaN in the high element beside a quiet one in a later field. -/
theorem witness_FusedNaNPriority_signaling_element :
    isLane highElem 1 ∧ (nans fpsrA).ready (.fpma ⟨0, 9, 8, 10, 20, 0⟩) = true ∧
    (nans fpsrA).noNaT (.fpma ⟨0, 9, 8, 10, 20, 0⟩) = true ∧
    classifyElem (highElem ((nans fpsrA).readF 9)) = .nan false ∧
    classifyElem (highElem ((nans fpsrA).readF 8)) = .nan true :=
  ⟨.inr ⟨rfl, rfl⟩, by decide +kernel⟩

theorem witness_NaNClassesAndOperandValues :
    classifyReg ⟨true, 0x1FFFF, 0xFFFFFFFFFFFFFFFF⟩ = .nan true ∧ classifyReg ⟨false, 0x1FFFF, 0x8000000000000001⟩ = .nan false ∧
    classifyElem 0x7FC00000 = .nan true ∧ classifyElem 0x7F800001 = .nan false := by
  decide +kernel

/-- An unnormal, an infinity, a denormal element and an infinite one; and exponent field 0 with integer bit 1, of value
2^(-65534), which is no denormal operand (log 19). -/
theorem witness_NaNClassesAndOperandValues_numbers :
    classifyReg fUnnormal = .num (.fin false 0x4000000000000000 (-62)) ∧
    classifyReg ⟨true, 0x1FFFF, 0x8000000000000000⟩ = .num (.inf true) ∧
    (classifyElem 0x80000001 = .num (.fin true 1 (-149)) ∧ classifyElem 0xFF800000 = .num (.inf true)) ∧
    (classifyReg ⟨false, 0, 0x8000000000000000⟩ = .num (.fin false (2 ^ 63) (-65597)) ∧
      unnormalReg ⟨false, 0, 0x8000000000000000⟩ = false) := by
  decide +kernel

/-- (2, -2) * (2, -2) + (+0, +0): the elements 4 and 4, no trap for any draw. -/
theorem witness_ParallelFusedFollowsStage :
    (demo fpsrA).ready (.fpma ⟨0, 13, 13, 14, 20, 0⟩) = true ∧ (demo fpsrA).noNaT (.fpma ⟨0, 13, 13, 14, 20, 0⟩) = true ∧
    (∀ n ∈ (Instr.fpma ⟨0, 13, 13, 14, 20, 0⟩).sources,
      unnormalElem (highElem ((demo fpsrA).readF n)) = false ∧ unnormalElem (lowElem ((demo fpsrA).readF n)) = false) ∧
    (classifyElem (highElem ((demo fpsrA).readF 13)) = .num (.fin false (2 ^ 23) (-22)) ∧
      classifyElem (lowElem ((demo fpsrA).readF 13)) = .num (.fin true (2 ^ 23) (-22)) ∧
      classifyElem (highElem ((demo fpsrA).readF 14)) = .num (.fin false 0 (-149))) ∧
    fusedExact .fma .rn (.fin true (2 ^ 23) (-22)) (.fin true (2 ^ 23) (-22)) (.fin false 0 (-149)) =
      some (.value false (.ratio (2 ^ 46) 1 (-44))) := by
  decide +kernel

/-- The sources' elements are finite. -/
theorem witness_ParallelFusedFollowsStage_finite :
    ∀ n ∈ (Instr.fpma ⟨0, 13, 13, 14, 20, 0⟩).sources,
      finiteElem (highElem ((demo fpsrA).readF n)) = true ∧ finiteElem (lowElem ((demo fpsrA).readF n)) = true := by
  decide +kernel

theorem witness_ParallelFusedFollowsStage_noTrap : ∀ swa,
    fpStage ⟨controlsOf (demo fpsrA).fpsr 0, fmtSingle, .fma, swa⟩ (.value false (.ratio (2 ^ 46) 1 (-44))) =
      ⟨.rounded false 2 (2 ^ 23), {}, false, none⟩ := by
  decide +kernel

/-- Program D: the high element traps, the low one does not, whatever the draw. -/
theorem witness_ParallelFusedFollowsStage_trap :
    (demo fpsrB).ready (.fpma ⟨0, 12, 11, 0, 20, 0⟩) = true ∧ (demo fpsrB).noNaT (.fpma ⟨0, 12, 11, 0, 20, 0⟩) = true ∧
    (∀ n ∈ (Instr.fpma ⟨0, 12, 11, 0, 20, 0⟩).sources,
      unnormalElem (highElem ((demo fpsrB).readF n)) = false ∧ unnormalElem (lowElem ((demo fpsrB).readF n)) = false) ∧
    (classifyElem (highElem ((demo fpsrB).readF 11)) = .num (.fin false (2 ^ 23) 41) ∧
      classifyElem (highElem ((demo fpsrB).readF 12)) = .num (.fin false (2 ^ 23) 42) ∧
      classifyElem (lowElem ((demo fpsrB).readF 11)) = .num (.fin false (2 ^ 23) (-23)) ∧
      classifyElem (highElem ((demo fpsrB).readF 0)) = .num (.fin false 0 (-149))) ∧
    fusedExact .fma .rn (.fin false (2 ^ 23) 41) (.fin false (2 ^ 23) 42) (.fin false 0 (-149)) =
      some (.value false (.ratio (2 ^ 46) 1 83)) := by
  decide +kernel

theorem witness_ParallelFusedFollowsStage_trapStage : ∀ swa,
    fpStage ⟨controlsOf (demo fpsrB).fpsr 0, fmtSingle, .fma, swa⟩ (.value false (.ratio (2 ^ 46) 1 83)) =
      ⟨.rounded false 129 (2 ^ 23), ⟨true, false, false⟩, false, some ⟨true, false, false, false⟩⟩ ∧
    (fpStage ⟨controlsOf (demo fpsrB).fpsr 0, fmtSingle, .fma, swa⟩ (.value false (.ratio (2 ^ 46) 1 (-46)))).trap = none := by
  decide +kernel

/-- 1.5 and 2, neither special; -2 for the invalid root. -/
theorem witness_FrcpaOutcomes :
    (demo fpsrA).ready (.frcpa ⟨0, 6, 3, 4, 20, 0⟩) = true ∧ (demo fpsrA).handler = none ∧
    classifyReg ((demo fpsrA).readF 4) = .num (.fin false 0xC000000000000000 (-63)) ∧
    unnormalReg ((demo fpsrA).readF 4) = false ∧
    classifyReg ((demo fpsrA).readF 3) = .num (.fin false 0x8000000000000000 (-62)) ∧
    unnormalReg ((demo fpsrA).readF 3) = false := by
  decide +kernel

/-- An unnormal divisor and an unnormal dividend, with Denormal Operand enabled and disabled. -/
theorem witness_FrcpaOutcomes_unnormal :
    ((demo fpsrD).ready (.frcpa ⟨0, 6, 16, 4, 20, 0⟩) = true ∧ (demo fpsrD).ready (.frcpa ⟨0, 6, 4, 16, 20, 0⟩) = true) ∧
    classifyReg ((demo fpsrD).readF 16) = .num (.fin false 0x4000000000000000 (-62)) ∧
    unnormalReg ((demo fpsrD).readF 16) = true ∧ (demo fpsrD).denormalStops 0 true = true ∧
    ((demo fpsrA).denormalStops 0 true = false ∧ (demo fpsrD).denormalStops 0 false = false) := by
  decide +kernel

/-- The special quotients and their operands: infinity by 2, 2 by infinity, -0 by 2, and zero elements by (2, -2). -/
theorem witness_ReciprocalSpecialCases :
    (demo fpsrA).ready (.frcpa ⟨0, 6, 3, 6, 20, 0⟩) = true ∧ (demo fpsrA).ready (.fprcpa ⟨0, 6, 13, 14, 20, 0⟩) = true ∧
    (demo fpsrA).noNaT (.fprcpa ⟨0, 6, 13, 14, 20, 0⟩) = true ∧
    specialQuotient (.inf false) (.fin false 0x8000000000000000 (-62)) = some (.infinity false) ∧
    specialQuotient (.fin true 0 (-65597)) (.fin false 0x8000000000000000 (-62)) = some (.zero true) := by
  decide +kernel

theorem witness_ReciprocalSpecialCases_operands :
    classifyReg ((demo fpsrA).readF 6) = .num (.inf false) ∧ unnormalReg ((demo fpsrA).readF 6) = false ∧
    (∀ n ∈ [(14 : RegNum), 13],
      unnormalElem (highElem ((demo fpsrA).readF n)) = false ∧ unnormalElem (lowElem ((demo fpsrA).readF n)) = false) ∧
    classifyElem (lowElem ((demo fpsrA).readF 14)) = .num (.fin false 0 (-149)) ∧
    specialQuotient (.fin false 0 (-149)) (.fin true (2 ^ 23) (-22)) = some (.zero true) := by
  decide +kernel

/-- An unnormal by infinity, and denormal elements by minus infinity and by infinities, with Denormal Operand enabled. -/
theorem witness_ReciprocalSpecialCases_unnormal :
    (demo fpsrD).ready (.frcpa ⟨0, 6, 6, 16, 20, 0⟩) = true ∧
    specialQuotient (.fin false 0x4000000000000000 (-62)) (.inf false) = some (.zero false) ∧
    ((pairs fpsrD).ready (.fprcpa ⟨0, 6, 4, 6, 20, 0⟩) = true ∧ (pairs fpsrD).noNaT (.fprcpa ⟨0, 6, 4, 6, 20, 0⟩) = true) ∧
    (unnormalElem (highElem ((pairs fpsrD).readF 6)) = true ∧ unnormalElem (highElem ((pairs fpsrD).readF 4)) = false) ∧
    (specialQuotient (.fin false 1 (-149)) (.inf false) = some (.zero false) ∧ (pairs fpsrD).denormalStops 0 true = true) := by
  decide +kernel

/-- 1.5 by -0, with Zero Divide enabled and disabled. -/
theorem witness_FrcpaZeroDivide :
    (demo fpsrZ).ready (.frcpa ⟨0, 6, 9, 4, 20, 0⟩) = true ∧
    classifyReg ((demo fpsrZ).readF 4) = .num (.fin false 0xC000000000000000 (-63)) ∧
    classifyReg ((demo fpsrZ).readF 9) = .num (.fin true 0 (-65597)) ∧
    (controlsOf (demo fpsrZ).fpsr 0).zdvEn = true ∧ (controlsOf (demo fpsrA).fpsr 0).zdvEn = false := by
  decide +kernel

/-- High elements 2 and 2, low elements -2 and -2. -/
theorem witness_FprcpaElementOutcomes :
    (demo fpsrA).ready (.fprcpa ⟨0, 6, 13, 13, 20, 0⟩) = true ∧ (demo fpsrA).noNaT (.fprcpa ⟨0, 6, 13, 13, 20, 0⟩) = true ∧
    classifyElem (highElem ((demo fpsrA).readF 13)) = .num (.fin false (2 ^ 23) (-22)) ∧
    classifyElem (lowElem ((demo fpsrA).readF 13)) = .num (.fin true (2 ^ 23) (-22)) := by
  decide +kernel

/-- Denormal elements as dividend and divisor, and as the root's operand, with Denormal Operand enabled and disabled. -/
theorem witness_ElementOutcomes_denormal :
    ((pairs fpsrD).ready (.fprcpa ⟨0, 6, 6, 8, 20, 0⟩) = true ∧ (pairs fpsrD).noNaT (.fprcpa ⟨0, 6, 8, 6, 20, 0⟩) = true) ∧
    ((pairs fpsrD).ready (.fprsqrta ⟨0, 6, 6, 20, 0⟩) = true ∧ (pairs fpsrD).noNaT (.fprsqrta ⟨0, 6, 6, 20, 0⟩) = true) ∧
    classifyElem (lowElem ((pairs fpsrD).readF 6)) = .num (.fin false 1 (-149)) ∧
    (unnormalElem (lowElem ((pairs fpsrD).readF 6)) = true ∧ (pairs fpsrA).denormalStops 0 true = false) ∧
    (finiteQuotient (.fin false 1 (-149)) (.fin false 1 (-149)) = some (false, .ratio 1 1 0) ∧
      finiteRoot (.fin false 1 (-149)) = some (.root 1 (-149))) := by
  decide +kernel

/-- 2 by -0 in the high element, with Zero Divide enabled and disabled. -/
theorem witness_FrcpaZeroDivide_element :
    isLane highElem 1 ∧ (pairs fpsrZ).ready (.fprcpa ⟨0, 6, 7, 8, 20, 0⟩) = true ∧
    (pairs fpsrZ).noNaT (.fprcpa ⟨0, 6, 7, 8, 20, 0⟩) = true ∧
    classifyElem (highElem ((pairs fpsrZ).readF 8)) = .num (.fin false (2 ^ 23) (-22)) ∧
    classifyElem (highElem ((pairs fpsrZ).readF 7)) = .num (.fin true 0 (-149)) :=
  ⟨.inr ⟨rfl, rfl⟩, by decide +kernel⟩

/-- An unnormal by -0 with both faults, the Denormal Operand fault, or none enabled; a denormal element by -0. -/
theorem witness_FrcpaZeroDivide_unnormal :
    (demo fpsrD).ready (.frcpa ⟨0, 6, 9, 16, 20, 0⟩) = true ∧
    ((controlsOf (demo fpsrD).fpsr 0).zdvEn = false ∧ (demo fpsrD).denormalStops 0 true = true) ∧
    ((controlsOf (demo (fpsrD &&& fpsrZ)).fpsr 0).zdvEn = true ∧ (demo (fpsrD &&& fpsrZ)).denormalStops 0 true = true) ∧
    ((pairs fpsrD).ready (.fprcpa ⟨0, 6, 7, 6, 20, 0⟩) = true ∧ (pairs fpsrD).noNaT (.fprcpa ⟨0, 6, 7, 6, 20, 0⟩) = true ∧
      classifyElem (highElem ((pairs fpsrD).readF 6)) = .num (.fin false 1 (-149))) := by
  decide +kernel

/-- Both pairs of (2, -2) by itself are finite quotients, and both elements of (2^64, 1) have roots. -/
theorem witness_ElementOutcomes_both :
    finiteQuotient (.fin false (2 ^ 23) (-22)) (.fin false (2 ^ 23) (-22)) = some (false, .ratio (2 ^ 23) (2 ^ 23) 0) ∧
    finiteQuotient (.fin true (2 ^ 23) (-22)) (.fin true (2 ^ 23) (-22)) = some (false, .ratio (2 ^ 23) (2 ^ 23) 0) ∧
    finiteRoot (.fin false (2 ^ 23) 41) = some (.root (2 ^ 23) 41) ∧
    finiteRoot (.fin false (2 ^ 23) (-23)) = some (.root (2 ^ 23) (-23)) := by
  decide +kernel

/-- Infinity by infinity, -0 by -0, and the root of -2. -/
theorem witness_ApproxInvalidOperation :
    (demo fpsrV).ready (.frcpa ⟨0, 6, 6, 6, 20, 0⟩) = true ∧ (demo fpsrV).noNaT (.frcpa ⟨0, 6, 6, 6, 20, 0⟩) = true ∧
    invalidQuotient (.inf false) (.inf false) = true ∧ invalidQuotient (.fin true 0 (-65597)) (.fin true 0 (-65597)) = true ∧
    invalidRoot (.fin true 0x8000000000000000 (-62)) = true := by
  decide +kernel

/-- Infinity by infinity in the high element, and the root of minus infinity in the low one. -/
theorem witness_ApproxInvalidOperation_element :
    isLane highElem 1 ∧ isLane lowElem 0 ∧ (pairs fpsrV).ready (.fprcpa ⟨0, 6, 4, 4, 20, 0⟩) = true ∧
    (pairs fpsrV).noNaT (.fprsqrta ⟨0, 6, 7, 20, 0⟩) = true ∧
    classifyElem (lowElem ((pairs fpsrV).readF 7)) = .num (.inf true) ∧ invalidRoot (.inf true) = true :=
  ⟨.inr ⟨rfl, rfl⟩, .inl ⟨rfl, rfl⟩, by decide +kernel⟩

/-- A quiet NaN as f2, as f3 beside a number, and as the root's operand; and in a low element. -/
theorem witness_ApproxNaNOperand :
    (demo fpsrA).ready (.frcpa ⟨0, 6, 2, 7, 20, 0⟩) = true ∧ (demo fpsrA).noNaT (.frcpa ⟨0, 6, 7, 2, 20, 0⟩) = true ∧
    (∀ n ∈ [(2 : RegNum), 7],
      classifyReg ((demo fpsrA).readF n) ≠ .nan false ∧ classifyReg ((demo fpsrA).readF n) ≠ .unsupported) ∧
    classifyReg ((demo fpsrA).readF 7) = .nan true ∧ (classifyReg ((demo fpsrA).readF 2)).isNaN = false := by
  decide +kernel

theorem witness_ApproxNaNOperand_element :
    isLane lowElem 0 ∧ (pairs fpsrA).ready (.fprcpa ⟨0, 6, 5, 8, 20, 0⟩) = true ∧
    (pairs fpsrA).noNaT (.fprsqrta ⟨0, 6, 5, 20, 0⟩) = true ∧
    classifyElem (lowElem ((pairs fpsrA).readF 5)) = .nan true ∧
    (classifyElem (lowElem ((pairs fpsrA).readF 8))).isNaN = false :=
  ⟨.inl ⟨rfl, rfl⟩, by decide +kernel⟩

/-- Signaling NaNs as f2 and as the root's operand, and in a high element. -/
theorem witness_ApproxNaNOperand_signaling :
    (nans fpsrA).ready (.frcpa ⟨0, 6, 6, 5, 20, 0⟩) = true ∧ (nans fpsrA).noNaT (.frcpa ⟨0, 6, 6, 5, 20, 0⟩) = true ∧
    (nans fpsrA).ready (.frsqrta ⟨0, 6, 5, 20, 0⟩) = true ∧ (classifyReg ((nans fpsrA).readF 5)).isNaN = true ∧
    ((nans fpsrA).ready (.fprcpa ⟨0, 6, 10, 9, 20, 0⟩) = true ∧ (nans fpsrA).noNaT (.fprsqrta ⟨0, 6, 9, 20, 0⟩) = true ∧
      (classifyElem (highElem ((nans fpsrA).readF 9))).isNaN = true) := by
  decide +kernel

theorem witness_RootSpecialCases :
    (demo fpsrA).ready (.frsqrta ⟨0, 6, 9, 20, 0⟩) = true ∧ classifyReg ((demo fpsrA).readF 9) = .num (.fin true 0 (-65597)) ∧
    specialRoot (.fin true 0 (-65597)) = some (.zero true) ∧ specialRoot (.inf false) = some (.infinity false) ∧
    (demo fpsrA).ready (.fprsqrta ⟨0, 6, 14, 20, 0⟩) = true := by
  decide +kernel

theorem witness_RootSpecialCases_elements :
    (demo fpsrA).noNaT (.fprsqrta ⟨0, 6, 14, 20, 0⟩) = true ∧
    classifyElem (highElem ((demo fpsrA).readF 14)) = .num (.fin false 0 (-149)) ∧
    classifyElem (lowElem ((demo fpsrA).readF 14)) = .num (.fin false 0 (-149)) ∧
    specialRoot (.fin false 0 (-149)) = some (.zero false) := by
  decide +kernel

/-- The clauses: 1.5; -2 with Invalid Operation enabled and disabled. -/
theorem witness_FrsqrtaOutcomes :
    (demo fpsrV).ready (.frsqrta ⟨0, 6, 4, 20, 0⟩) = true ∧ unnormalReg ((demo fpsrV).readF 8) = false ∧
    classifyReg ((demo fpsrV).readF 8) = .num (.fin true 0x8000000000000000 (-62)) ∧
    (controlsOf (demo fpsrV).fpsr 0).invEn = true ∧ (controlsOf (demo fpsrA).fpsr 0).invEn = false := by
  decide +kernel

theorem witness_FrsqrtaOutcomes_operands :
    (demo fpsrV).ready (.frsqrta ⟨0, 6, 8, 20, 0⟩) = true ∧ unnormalReg ((demo fpsrV).readF 4) = false ∧
    classifyReg ((demo fpsrV).readF 4) = .num (.fin false 0xC000000000000000 (-63)) := by
  decide +kernel

/-- A positive unnormal and a negative one, with Denormal Operand enabled. -/
theorem witness_FrsqrtaOutcomes_unnormal :
    (demo fpsrD).ready (.frsqrta ⟨0, 6, 16, 20, 0⟩) = true ∧ unnormalReg ((demo fpsrD).readF 16) = true ∧
    classifyReg ((demo fpsrD).readF 16) = .num (.fin false 0x4000000000000000 (-62)) ∧
    classifyReg ⟨true, 0x10000, 0x4000000000000000⟩ = .num (.fin true 0x4000000000000000 (-62)) ∧
    unnormalReg ⟨true, 0x10000, 0x4000000000000000⟩ = true := by
  decide +kernel

theorem witness_FprsqrtaElementOutcomes :
    (demo fpsrA).ready (.fprsqrta ⟨0, 6, 11, 20, 0⟩) = true ∧ (demo fpsrA).noNaT (.fprsqrta ⟨0, 6, 11, 20, 0⟩) = true ∧
    classifyElem (highElem ((demo fpsrA).readF 11)) = .num (.fin false (2 ^ 23) 41) ∧
    classifyElem (lowElem ((demo fpsrA).readF 11)) = .num (.fin false (2 ^ 23) (-23)) := by
  decide +kernel

/-- Unsigned of -2, unsigned of +infinity and signed of a NaN are invalid. -/
theorem witness_InvalidConversion :
    (demo fpsrV).ready (.fcvt ⟨false, true, false, 0, 8, 20, 0⟩) = true ∧
    (demo fpsrV).noNaT (.fcvt ⟨false, true, false, 0, 8, 20, 0⟩) = true ∧
    conversionInvalid true .rn 64 (classifyReg ((demo fpsrV).readF 8)) = true ∧
    conversionInvalid true .rn 64 (classifyReg ((demo fpsrV).readF 6)) = true ∧
    conversionInvalid false .rn 64 (classifyReg ((demo fpsrV).readF 7)) = true := by
  decide +kernel

/-- The boundary of the signed range: 2^63 is invalid and -2^63 is not. -/
theorem witness_InvalidConversion_boundary :
    conversionInvalid false .rz 64 (.num (.fin false (2 ^ 63) 0)) = true ∧
    conversionInvalid false .rz 64 (.num (.fin true (2 ^ 63) 0)) = false ∧
    conversionInvalid true .rz 64 (.num (.fin false (2 ^ 63) 0)) = false ∧
    conversionInvalid true .rz 64 (.num (.fin true 1 (-1))) = false := by
  decide +kernel

/-- A NaN in the high element, +infinity in the low one. -/
theorem witness_InvalidElementConversion :
    (demo fpsrA).ready (.fcvt ⟨true, false, false, 0, 15, 20, 0⟩) = true ∧
    (demo fpsrA).noNaT (.fcvt ⟨true, false, false, 0, 15, 20, 0⟩) = true ∧
    ((controlsOf (demo fpsrA).fpsr 0).invEn = false ∧ (controlsOf (demo fpsrA).fpsr 0).denEn = false ∧
      (controlsOf (demo fpsrA).fpsr 0).inxEn = false) ∧
    conversionInvalid false .rn 32 (classifyElem (lowElem ((demo fpsrA).readF 15))) = true ∧
    conversionInvalid false .rn 32 (classifyElem (highElem ((demo fpsrA).readF 15))) = true := by
  decide +kernel

/-- A NaN in the low element beside a number, with Invalid Operation enabled. -/
theorem witness_InvalidElementConversion_enabled :
    isLane lowElem 0 ∧ (pairs fpsrV).ready (.fcvt ⟨true, true, true, 0, 5, 20, 0⟩) = true ∧
    (pairs fpsrV).noNaT (.fcvt ⟨true, true, true, 0, 5, 20, 0⟩) = true ∧
    conversionInvalid true .rz 32 (classifyElem (lowElem ((pairs fpsrV).readF 5))) = true ∧
    (controlsOf (pairs fpsrV).fpsr 0).invEn = true :=
  ⟨.inl ⟨rfl, rfl⟩, by decide +kernel⟩

/-- Elements (1.5, 2) in a register: one inexact, one exact. -/
theorem witness_InexactConversion_elements :
    (st fpsrE [(4, ⟨false, 0x1003E, 0x3FC0000040000000⟩)]).ready (.fcvt ⟨true, false, false, 0, 4, 20, 0⟩) = true ∧
    classifyElem 0x3FC00000 = .num (.fin false (3 * 2 ^ 22) (-23)) ∧
    classifyElem 0x40000000 = .num (.fin false (2 ^ 23) (-22)) ∧
    roundToGrid (.ratio (3 * 2 ^ 22) 1 (-23)) 0 .rn false = ⟨2, true, true⟩ ∧
    (roundToGrid (.ratio (2 ^ 23) 1 (-22)) 0 .rn false = ⟨2, false, false⟩ ∧ fitsInt false 32 2 = true) := by
  decide +kernel

/-- The conversion of -2, signed. -/
theorem witness_ExactConversion :
    (demo fpsrA).ready (.fcvt ⟨false, false, false, 0, 8, 20, 0⟩) = true ∧ finiteReg ((demo fpsrA).readF 8) = true ∧
    unnormalReg ((demo fpsrA).readF 8) = false ∧ fitsInt false 64 (-2) = true ∧
    regValue ((demo fpsrA).readF 8) = ((-2 : Int) : ℚ) := by
  refine ⟨by decide +kernel, by decide +kernel, by decide +kernel, by decide +kernel, ?_⟩
  rw [demo_reads.2.2.2.1, value_minusTwo]
  norm_num

/-- An unnormal 1.0, with Denormal Operand enabled and disabled. -/
theorem witness_ExactConversion_unnormal :
    (demo fpsrD).ready (.fcvt ⟨false, false, false, 0, 16, 20, 0⟩) = true ∧
    ((demo fpsrD).readF 16 = fUnnormal ∧ finiteReg fUnnormal = true ∧ unnormalReg fUnnormal = true) ∧
    ((demo fpsrD).denormalStops 0 true = true ∧ (demo fpsrA).denormalStops 0 true = false) ∧
    regValue fUnnormal = ((1 : Int) : ℚ) := by
  refine ⟨by decide +kernel, by decide +kernel, by decide +kernel, ?_⟩
  rw [regValue_eq (n := false) (m := 2 ^ 62) (e := 1) rfl (by decide) (by decide)]
  norm_num [signRat]

/-- The unnormal 1.0 converted: the fault, or 1 with flag d. -/
theorem test_fcvt_unnormal :
    nextWith (fun t => t.handler == some 0x5c00 && t.fr == (demo fpsrD).fr)
      (exec (.fcvt ⟨false, false, false, 0, 16, 20, 0⟩) (demo fpsrD)) = true ∧
    nextWith (fun t => t.readF 20 == ⟨false, 0x1003E, 1⟩ && sfBit t.fpsr 0 8 && t.signaled.d)
      (exec (.fcvt ⟨false, false, false, 0, 16, 20, 0⟩) (demo fpsrA)) = true := by
  decide +kernel

theorem elemValue_eq {x : Elem} {s : Bool} {e f : Nat} (hs : x.getLsbD 31 = s) (he : (x.extractLsb' 23 8).toNat = e)
    (hf : (x.extractLsb' 0 23).toNat = f) :
    elemValue x =
      signRat s * (if e = 0 then (f : ℚ) * 2 ^ (-149 : Int) else ((2 ^ 23 + f : Nat) : ℚ) * 2 ^ ((e : Int) - 150)) := by
  subst hs he hf
  rfl

theorem pairTwo_high_fields :
    (highElem fPairTwo).getLsbD 31 = false ∧ ((highElem fPairTwo).extractLsb' 23 8).toNat = 128 ∧
    ((highElem fPairTwo).extractLsb' 0 23).toNat = 0 := by decide +kernel
theorem pairTwo_low_fields :
    (lowElem fPairTwo).getLsbD 31 = true ∧ ((lowElem fPairTwo).extractLsb' 23 8).toNat = 128 ∧
    ((lowElem fPairTwo).extractLsb' 0 23).toNat = 0 := by decide +kernel

/-- The values of the elements of (2, -2). -/
theorem elemValue_pairTwo_high : elemValue (highElem fPairTwo) = 2 :=
  (elemValue_eq pairTwo_high_fields.1 pairTwo_high_fields.2.1 pairTwo_high_fields.2.2).trans (by norm_num [signRat])
theorem elemValue_pairTwo_low : elemValue (lowElem fPairTwo) = -2 :=
  (elemValue_eq pairTwo_low_fields.1 pairTwo_low_fields.2.1 pairTwo_low_fields.2.2).trans (by norm_num [signRat])

theorem elemValue_zero : elemValue 0 = 0 :=
  (elemValue_eq (s := false) (e := 0) (f := 0) (by decide +kernel) (by decide +kernel) (by decide +kernel)).trans
    (by norm_num [signRat])

/-- 2 * 2 + 0 = 4, a normal single, and 0 * 0 + 0, an exact zero. -/
theorem witness_ParallelFusedExactResult :
    (demo fpsrA).ready (.fpma ⟨0, 13, 13, 14, 20, 0⟩) = true ∧ (demo fpsrA).noNaT (.fpma ⟨0, 13, 13, 14, 20, 0⟩) = true ∧
    exactElem .rn .fma (highElem fPairTwo) (highElem fPairTwo) 0 0x40800000 ∧ exactElem .rn .fma 0 0 0 0 := by
  refine ⟨by decide +kernel, by decide +kernel, .inl ⟨false, 2 ^ 23, 2, by decide, by decide, by decide, by decide, ?_, ?_⟩,
    .inr ⟨?_, by decide +kernel⟩⟩
  · rw [elemValue_pairTwo_high, elemValue_zero]
    norm_num [fusedRat, signRat]
  · decide +kernel
  · rw [elemValue_zero]
    norm_num [fusedRat]

/-- Both elements of (2, -2) are finite and normal. -/
theorem pairTwo_finite :
    ∀ x ∈ [highElem ((demo fpsrA).readF 13), lowElem ((demo fpsrA).readF 13)],
      finiteElem x = true ∧ unnormalElem x = false := by
  rw [demo_reads.2.2.2.2, List.forall_mem_cons, List.forall_mem_singleton]
  decide +kernel

theorem witness_ExactConversion_elements :
    (demo fpsrA).ready (.fcvt ⟨true, false, false, 0, 13, 20, 0⟩) = true ∧
    (demo fpsrA).noNaT (.fcvt ⟨true, false, false, 0, 13, 20, 0⟩) = true ∧
    (∀ x ∈ [highElem ((demo fpsrA).readF 13), lowElem ((demo fpsrA).readF 13)],
      finiteElem x = true ∧ unnormalElem x = false) ∧
    (elemValue (highElem ((demo fpsrA).readF 13)) = ((2 : Int) : ℚ) ∧
      elemValue (lowElem ((demo fpsrA).readF 13)) = ((-2 : Int) : ℚ)) ∧
    fitsInt false 32 2 = true ∧ fitsInt false 32 (-2) = true := by
  refine ⟨by decide +kernel, by decide +kernel, pairTwo_finite, ?_, by decide +kernel, by decide +kernel⟩
  rw [demo_reads.2.2.2.2]
  exact ⟨elemValue_pairTwo_high.trans (by norm_num), elemValue_pairTwo_low.trans (by norm_num)⟩

/-- 1.5 to nearest is 2, inexact and above the operand; with the inexact trap enabled and disabled. -/
theorem witness_InexactConversion :
    (demo fpsrE).ready (.fcvt ⟨false, false, false, 0, 4, 20, 0⟩) = true ∧
    classifyReg ((demo fpsrE).readF 4) = .num (.fin false 0xC000000000000000 (-63)) ∧
    roundToGrid (.ratio 0xC000000000000000 1 (-63)) 0 .rn false = ⟨2, true, true⟩ ∧ fitsInt false 64 2 = true ∧
    ((controlsOf (demo fpsrE).fpsr 0).inxEn = true ∧ (controlsOf (demo fpsrA).fpsr 0).inxEn = false) := by
  decide +kernel

/-- An unnormal 1.5 and denormal elements, which round to 0, with Denormal Operand enabled. -/
theorem witness_InexactConversion_unnormal :
    classifyReg ⟨false, 0x10000, 0x6000000000000000⟩ = .num (.fin false 0x6000000000000000 (-62)) ∧
    unnormalReg ⟨false, 0x10000, 0x6000000000000000⟩ = true ∧
    roundToGrid (.ratio 0x6000000000000000 1 (-62)) 0 .rn false = ⟨2, true, true⟩ ∧
    ((pairs fpsrD).ready (.fcvt ⟨true, false, false, 0, 6, 20, 0⟩) = true ∧ (pairs fpsrD).denormalStops 0 true = true) ∧
    (roundToGrid (.ratio 1 1 (-149)) 0 .rn false = ⟨0, true, false⟩ ∧ fitsInt false 32 0 = true) := by
  decide +kernel

/-- fmin of 1 and -2, whose values compare as 1 > -2 and whose magnitudes as 1 < 2; and an infinite operand. -/
theorem witness_MinMaxByValue :
    (demo fpsrA).ready (.fminmax ⟨false, .min, 0, 2, 8, 20, 0⟩) = true ∧
    (∀ r ∈ [(demo fpsrA).readF 2, (demo fpsrA).readF 8, (demo fpsrA).readF 6],
      (finiteReg r = true ∨ infReg r = true) ∧ unnormalReg r = false) ∧
    regLess fMinusTwo fOne ∧ regMagLess fOne fMinusTwo ∧ regLess fOne fInf ∧ ¬ regMagLess fInf fOne := by
  refine ⟨by decide +kernel, ?_, ?_, ?_, ?_, ?_⟩
  · simp only [List.forall_mem_cons, List.not_mem_nil, false_imp_iff, implies_true, and_true]
    decide +kernel
  all_goals
    simp only [regLess, regMagLess, show infReg fOne = false from by decide, show infReg fMinusTwo = false from by decide,
      show infReg fInf = true from by decide, extLess, value_one, value_minusTwo]
  · norm_num
  · norm_num
  · simp [fInf]
  · simp

theorem elemLess_plusInf {a b : Elem} (ha : infElem a = false) (hb : infElem b = true) (hn : b.getLsbD 31 = false) :
    elemLess a b := by
  rw [elemLess, extLess, ha, hb, if_neg Bool.false_ne_true, if_pos rfl]
  exact hn

/-- fpmin of (2, -2) with itself: never the first, by value. -/
theorem witness_MinMaxByValue_elements :
    (demo fpsrA).ready (.fminmax ⟨true, .min, 0, 13, 13, 20, 0⟩) = true ∧
    (demo fpsrA).noNaT (.fminmax ⟨true, .min, 0, 13, 13, 20, 0⟩) = true ∧
    (∀ n ∈ [(13 : RegNum), 13], ∀ x ∈ [highElem ((demo fpsrA).readF n), lowElem ((demo fpsrA).readF n)],
      (finiteElem x = true ∨ infElem x = true) ∧ unnormalElem x = false) ∧
    (false = true ↔ elemLess (highElem fPairTwo) (highElem fPairTwo)) ∧
    (true = true ↔ elemLess (lowElem fPairTwo) 0x7F800000) := by
  have h : ∀ x ∈ [highElem ((demo fpsrA).readF 13), lowElem ((demo fpsrA).readF 13)],
      (finiteElem x = true ∨ infElem x = true) ∧ unnormalElem x = false :=
    fun x hx => ⟨.inl (pairTwo_finite x hx).1, (pairTwo_finite x hx).2⟩
  refine ⟨by decide +kernel, by decide +kernel, ?_, ?_, ?_⟩
  · rw [List.forall_mem_cons, List.forall_mem_singleton]
    exact ⟨h, h⟩
  · simp [elemLess, extLess, show infElem (highElem fPairTwo) = false from by decide +kernel]
  · exact ⟨fun _ => elemLess_plusInf (by decide +kernel) (by decide +kernel) (by decide +kernel), fun _ => rfl⟩

/-- An unnormal 1.0 beside 1.0, and denormal elements beside infinities, with Denormal Operand enabled and disabled. -/
theorem witness_MinMaxByValue_unnormal :
    (demo fpsrD).ready (.fminmax ⟨false, .min, 0, 16, 2, 20, 0⟩) = true ∧
    (finiteReg ((demo fpsrD).readF 16) = true ∧ unnormalReg ((demo fpsrD).readF 16) = true) ∧
    ((demo fpsrD).denormalStops 0 true = true ∧ (demo fpsrA).denormalStops 0 true = false) ∧
    ((pairs fpsrD).ready (.fminmax ⟨true, .max, 0, 6, 4, 20, 0⟩) = true ∧
      (pairs fpsrD).noNaT (.fminmax ⟨true, .max, 0, 6, 4, 20, 0⟩) = true) ∧
    (finiteElem (lowElem ((pairs fpsrD).readF 6)) = true ∧ unnormalElem (lowElem ((pairs fpsrD).readF 6)) = true ∧
      infElem (lowElem ((pairs fpsrD).readF 4)) = true) := by
  decide +kernel

theorem witness_MinMaxNaNDeliversSecond :
    (demo fpsrA).ready (.fminmax ⟨false, .min, 0, 7, 2, 20, 0⟩) = true ∧
    (demo fpsrA).noNaT (.fminmax ⟨false, .min, 0, 7, 2, 20, 0⟩) = true ∧
    (controlsOf (demo fpsrA).fpsr 0).invEn = false ∧
    (∀ n ∈ [(7 : RegNum), 2], classifyReg ((demo fpsrA).readF n) ≠ .unsupported) ∧
    (classifyReg ((demo fpsrA).readF 7)).isNaN = true := by
  decide +kernel

/-- A NaN beside a number with Invalid Operation enabled, and in a low element. -/
theorem witness_MinMaxNaNDeliversSecond_others :
    (demo fpsrV).ready (.fminmax ⟨false, .max, 0, 2, 7, 20, 0⟩) = true ∧ (controlsOf (demo fpsrV).fpsr 0).invEn = true ∧
    isLane lowElem 0 ∧ (pairs fpsrA).ready (.fminmax ⟨true, .min, 0, 5, 8, 20, 0⟩) = true ∧
    (classifyElem (lowElem ((pairs fpsrA).readF 5))).isNaN = true :=
  ⟨by decide +kernel, by decide +kernel, .inl ⟨rfl, rfl⟩, by decide +kernel⟩

/-- Just above EMAX: 2^128 in single. -/
theorem witness_OverflowEnabledResponse :
    fmtSingle.emax < (roundUnbounded (.ratio 1 1 128) 24 .rn false).exp ∧
    (env (ctl true false false false .rn) fmtSingle true).ctl.ovfEn = true := by
  decide +kernel

/-- 2^200, RP, negative: the maximum finite value; RN: an infinity; inexact trap enabled and disabled. -/
theorem witness_OverflowDisabledResponse :
    fmtSingle.emax < (roundUnbounded (.ratio 1 1 200) 24 .rp true).exp ∧
    fmtSingle.emax < (roundUnbounded (.ratio 1 1 200) 24 .rn false).exp ∧
    (false = true ↔ RoundMode.rp = .rn ∨ (RoundMode.rp = .rp ∧ true = false) ∨ (RoundMode.rp = .rm ∧ true = true)) := by
  decide +kernel

/-- Just below EMIN: 2^-127 in single. -/
theorem witness_UnderflowEnabledResponse :
    fmtSingle.emin ≤ fmtSingle.emax ∧ (roundUnbounded (.ratio 1 1 (-127)) 24 .rn false).exp < fmtSingle.emin ∧
    (env (ctl false true false true .rn) fmtSingle true).ctl.unfEn = true := by
  decide +kernel

/-- Both clauses: 2^-127 is exact on the grid 2^-149, 3 * 2^-150 is not. -/
theorem witness_UnderflowDisabledResponse :
    (roundUnbounded (.ratio 1 1 (-127)) 24 .rn false).exp < fmtSingle.emin ∧
    (roundToGrid (.ratio 1 1 (-127)) (-149) .rn false).i = false ∧
    (roundUnbounded (.ratio 3 1 (-150)) 24 .rn false).exp < fmtSingle.emin ∧
    (roundToGrid (.ratio 3 1 (-150)) (-149) .rn false).i = true := by
  decide +kernel

theorem witness_FlushToZero :
    (roundUnbounded (.ratio 1 1 (-127)) 24 .rn true).exp < fmtSingle.emin ∧
    (env (ctl false false false true .rn) fmtSingle true).ctl.ftz = true ∧
    (env (ctl false false false true .rn) fmtSingle true).ctl.unfEn = false := by
  decide +kernel

/-- The ends of the range, exact, and 1 + 2^-24, inexact. -/
theorem witness_InRangeResponse :
    roundUnbounded (.ratio 1 1 (-126)) 24 .rn false = ⟨-126, 2 ^ 23, false, false⟩ ∧
    roundUnbounded (.ratio 1 1 127) 24 .rn false = ⟨127, 2 ^ 23, false, false⟩ ∧
    roundUnbounded (.ratio (2 ^ 24 + 1) 1 (-24)) 24 .rn false = ⟨0, 2 ^ 23, true, false⟩ := by
  decide +kernel

/-- Each of the four causes. -/
theorem witness_FourCausesOfATrap :
    (fpStage (env (ctl false false false false .rn) fmtSingle true) (.value false (.ratio 1 1 200))).freed = true ∧
    (fpStage (env (ctl true false false false .rn) fmtSingle false) (.value false (.ratio 1 1 200))).trap.isSome = true ∧
    (fpStage (env (ctl false true false false .rn) fmtSingle false) (.value false (.ratio 1 1 (-200)))).trap.isSome = true ∧
    (fpStage (env (ctl false false true false .rn) fmtSingle false) (.value false (.ratio 1 3 0))).trap.isSome = true := by
  decide +kernel

/-- Software Assist at each of the three points. -/
theorem witness_SoftwareAssistIndication :
    (fpStage (env (ctl false true true false .rn) fmtSingle true) (.value false (.ratio 1 1 200))).trap =
      some ⟨true, false, false, false⟩ ∧
    (fpStage (env (ctl true false true false .rn) fmtSingle true) (.value false (.ratio 1 1 (-200)))).trap =
      some ⟨false, true, false, false⟩ ∧
    (fpStage (env (ctl true true false false .rn) fmtSingle true) (.value false (.ratio 1 3 0))).trap =
      some ⟨false, false, true, true⟩ := by
  decide +kernel

theorem witness_SoftwareAssistDelivery :
    (fpStage (env (ctl false true true false .rn) fmtSingle true) (.value false (.ratio 1 1 200))).freed = true ∧
    (fpStage (env (ctl true false true false .rn) fmtSingle true) (.value false (.ratio 1 1 (-200)))).freed = true ∧
    (fpStage (env (ctl true true false false .rn) fmtSingle true) (.value false (.ratio 1 3 0))).freed = true := by
  decide +kernel

/-- The three points are admitted, and a tiny result under Flush-to-Zero is not. -/
theorem witness_SoftwareAssistDelivery_points :
    (fmtSingle.emax < (roundUnbounded (.ratio 1 1 200) 24 .rn false).exp ∧
      (roundUnbounded (.ratio 1 1 (-200)) 24 .rn false).exp < fmtSingle.emin) ∧
    (roundUnbounded (.ratio 1 3 0) 24 .rn false = ⟨-2, 11184811, true, true⟩ ∧ fmtSingle.emin ≤ -2 ∧ -2 ≤ fmtSingle.emax) ∧
    (fpStage (env (ctl false false false true .rn) fmtSingle true) (.value false (.ratio 1 1 (-200)))).freed = false := by
  decide +kernel

theorem witness_FpaMeansDeliveredIsGreater :
    fmtSingle ∈ destFormats ∧
    (fpStage (env (ctl false false true false .rn) fmtSingle false) (.value false (.ratio 1 1 200))).trap =
      some ⟨false, false, true, true⟩ ∧
    (fpStage (env (ctl false false true false .rz) fmtSingle false) (.value false (.ratio 1 1 200))).trap =
      some ⟨false, false, true, false⟩ ∧
    (fpStage (env (ctl false false true false .rn) fmtSingle false) (.value false (.ratio 3 1 (-150)))).trap =
      some ⟨false, false, true, true⟩ := by
  decide +kernel

/-- A trap that is no Software Assist trap, for each bit. -/
theorem witness_TrapCodeBits :
    (fpStage (env (ctl true false false false .rn) fmtSingle false) (.value false (.ratio (2 ^ 25 - 1) 1 103))).trap =
      some ⟨true, false, true, true⟩ ∧
    (fpStage (env (ctl true false false false .rn) fmtSingle false) (.value false (.ratio (2 ^ 25 - 1) 1 103))).freed = false ∧
    (fpStage (env (ctl false false true false .rn) fmtSingle false) (.value false (.ratio 1 3 0))).freed = false := by
  decide +kernel

/-- Tiny and exact, tiny and inexact, and not tiny. -/
theorem witness_UnderflowSignaledWhen :
    fmtSingle.emin ≤ fmtSingle.emax ∧
    (true = true ↔ (roundUnbounded (.ratio 1 1 (-127)) 24 .rn false).exp < fmtSingle.emin) ∧
    (roundBounded (.ratio 1 1 (-127)) 24 (-126) .rn false).i = false ∧
    (true = true ↔ (roundUnbounded (.ratio 3 1 (-150)) 24 .rn false).exp < fmtSingle.emin) ∧
    (false = true ↔ (roundUnbounded (.ratio 1 1 (-126)) 24 .rn false).exp < fmtSingle.emin) := by
  decide +kernel

/-- 2^24 + 1 in 24 bits is a tie: the values and the step of R8. -/
theorem witness_RoundUnboundedIsRounding :
    roundUnbounded (.ratio (2 ^ 24 + 1) 1 0) 24 .rn false = ⟨24, 2 ^ 23, true, false⟩ ∧
    (Mag.ratio (2 ^ 24 + 1) 1 0).ilog = 24 ∧ (Mag.ratio (2 ^ 24 + 1) 1 0).hasValue (2 ^ 24 + 1) ∧
    |((2 ^ 23 : Nat) : ℝ) * 2 ^ ((24 : Int) - ((24 : Nat) - 1)) - (2 ^ 24 + 1)| =
      2 ^ ((24 : Int) - ((24 : Nat) - 1)) / 2 := by
  refine ⟨by decide +kernel, by decide +kernel, ⟨by decide, by norm_num⟩, ?_⟩
  norm_num

/-- The square root of 2 at 2 bits is 1.5, above it; that of 9/4, the same number, is exact. -/
theorem witness_RoundUnboundedIsRounding_root :
    roundUnbounded (.root 2 0) 2 .rn false = ⟨0, 3, true, true⟩ ∧ roundUnbounded (.root 9 (-2)) 2 .rn false = ⟨0, 3, false, false⟩ ∧
    (Mag.root 2 0).hasValue (Real.sqrt 2) ∧ 0 < Real.sqrt 2 := by
  refine ⟨by decide +kernel, by decide +kernel, ?_, by positivity⟩
  simp [Mag.hasValue]

/-- 3/2 on the grid of integers is a tie, and rounds to 2; so does the square root of 9/4. -/
theorem witness_RoundToGridIsRounding :
    roundToGrid (.ratio 3 2 0) 0 .rn false = ⟨2, true, true⟩ ∧ roundToGrid (.root 9 (-2)) 0 .rn false = ⟨2, true, true⟩ ∧
    (Mag.ratio 3 2 0).hasValue (3 / 2) ∧ |((2 : Nat) : ℝ) * 2 ^ (0 : Int) - 3 / 2| = 2 ^ (0 : Int) / 2 := by
  refine ⟨by decide +kernel, by decide +kernel, ⟨by decide, by norm_num⟩, ?_⟩
  norm_num

/-- The multiples at the ends of the range, in the two kinds of exponent field a denormal has. -/
theorem witness_ResultImages :
    fmtSingle ∈ destFormats ∧ (0 < 1 ∧ 2 ^ 23 - 1 < 2 ^ (fmtSingle.p - 1)) ∧
    encodeReg fmtSingle (.bounded true 1) = ⟨true, 0xFF81, 0x0000010000000000⟩ ∧
    encodeReg fmtRegister (.bounded false 1) = ⟨false, 0, 1⟩ ∧
    encodeReg fmtSingle (.bounded false (2 ^ 23)) = ⟨false, 0xFF81, 0x8000000000000000⟩ := by
  decide +kernel

theorem witness_OverflowAndTininessByValue :
    fmtRegister ∈ destFormats ∧ roundUnbounded (.ratio (2 ^ 25 - 1) 1 103) 24 .rn false = ⟨128, 2 ^ 23, true, true⟩ ∧
    roundUnbounded (.ratio (2 ^ 25 - 1) 1 103) 24 .rz false = ⟨127, 2 ^ 24 - 1, true, false⟩ := by
  decide +kernel

/-- The ends of the ranges of recovery in single. -/
theorem witness_TrueExponentRecovered :
    (fmtSingle.emax < 128 ∧ (128 : Int) < fmtSingle.emax + 2 ^ 17 + 1) ∧
    (fmtSingle.emax < 127 + 2 ^ 17 ∧ (127 : Int) + 2 ^ 17 < fmtSingle.emax + 2 ^ 17 + 1) ∧
    (-127 < fmtSingle.emin ∧ fmtSingle.emin - 2 ^ 17 - 1 < (-127 : Int)) ∧
    (-126 - 2 ^ 17 < fmtSingle.emin ∧ fmtSingle.emin - 2 ^ 17 - 1 < (-126 : Int) - 2 ^ 17) := by
  decide +kernel

/-- The bits of FPSR: fpsrA disables all in sf0 and has wre and td in sf1; fpsrV enables Invalid Operation in sf0 alone; the
codes of the direction and of the precision in sf0. -/
theorem witness_ControlsNeverWritten_bits :
    (6 + 13 * (0 : SfNum).toNat = 6 ∧ 6 + 13 * (3 : SfNum).toNat = 45) ∧
    ((controlsOf fpsrV 0).invEn = true ∧ (controlsOf fpsrV 1).invEn = false ∧ (controlsOf fpsrA 0).invEn = false) ∧
    ((controlsOf fpsrC 1).ftz = true ∧ wreOf fpsrA 1 = true ∧ wreOf fpsrA 0 = false) ∧
    ((controlsOf 0x400 0).rc = .rm ∧ (controlsOf 0x800 0).rc = .rp ∧ (controlsOf 0xC00 0).rc = .rz) ∧
    (pcOf 0 0 = .single ∧ pcOf 0x200 0 = .double ∧ pcOf 0x300 0 = .extended) ∧
    flagsOf 0x10000 0 = ⟨true, false, false⟩ ∧ (recordSignals 0 0 { d := true, z := true }) = 0xC000 := by
  decide +kernel

/-- The formats: sf1 of fpsrA has wre, sf0 has not; and the codes 0, 2 and 3 of `pc` in sf0. -/
theorem witness_NormalFusedFollowsStage_formats :
    ((demo fpsrA).fpsr.getLsbD (6 + 1) = false ∧ (demo fpsrA).fpsr.getLsbD (19 + 1) = true) ∧
    ((demo fpsrA).destFmt (some .single) 0 = ⟨24, -126, 127⟩ ∧ (demo fpsrA).destFmt (some .single) 1 = ⟨24, -65534, 65535⟩) ∧
    ((demo fpsrA).destFmt (some .double) 0 = ⟨53, -1022, 1023⟩ ∧
      (demo fpsrA).destFmt (some .double) 1 = ⟨53, -65534, 65535⟩) ∧
    ((demo fpsrA).destFmt none 0 = ⟨64, -16382, 16383⟩ ∧ (demo fpsrA).destFmt none 1 = ⟨64, -65534, 65535⟩) ∧
    (demo 0).destFmt none 0 = ⟨24, -16382, 16383⟩ ∧ (demo 0x200).destFmt none 0 = ⟨53, -16382, 16383⟩ := by
  decide +kernel

/-- Invalid: infinity times zero either way, and an infinite product beside an infinite addend of the opposite sign; infinite:
the same with the same sign, and an infinite addend alone. -/
theorem witness_FusedInvalidOperation_conditions :
    (invalidFused .fma (.fin true 0 0) (.inf false) (.fin false 1 0) = true ∧
      invalidFused .fma (.inf false) (.fin true 0 0) (.inf false) = true) ∧
    (invalidFused .fma (.inf true) (.fin false 1 0) (.inf false) = true ∧
      invalidFused .fms (.inf true) (.fin false 1 0) (.inf false) = false) ∧
    infiniteFused .fms (.inf true) (.fin false 1 0) (.inf false) true ∧
    infiniteFused .fnma (.fin false 1 0) (.fin false 0 0) (.inf false) false := by
  refine ⟨by decide +kernel, by decide +kernel, .inl ?_, .inr ?_⟩ <;> decide +kernel

/-- Encodings at the edges of the classes, of registers and of elements. -/
theorem witness_NaNClassesAndOperandValues_encodings :
    (classifyReg ⟨true, 0x1FFFF, 0x8000000000000001⟩ = .nan false ∧
      classifyReg ⟨true, 0x1FFFF, 0xFFFFFFFFFFFFFFFF⟩ = .nan true) ∧
    (classifyReg ⟨false, 0x1FFFF, 0x7FFFFFFFFFFFFFFF⟩ = .unsupported ∧ classifyReg ⟨false, 0x1FFFE, 0⟩ = .natVal) ∧
    (infReg ⟨true, 0x1FFFF, 0x8000000000000000⟩ = true ∧ finiteReg ⟨true, 0x1FFFE, 0⟩ = true) ∧
    (classifyElem 0xFF800001 = .nan false ∧ classifyElem 0x7FFFFFFF = .nan true) ∧
    (infElem 0xFF800000 = true ∧ finiteElem 0x7F7FFFFF = true) := by
  decide +kernel

/-- Mixed elements: (1, quiet NaN), (1, +0), (1.5, 2^31), (2, -2) and (+infinity, quiet NaN). -/
def mixed (fpsr : BitVec 64) : State :=
  st fpsr [(4, ⟨false, 0x1003E, 0x3F8000007FC00000⟩), (5, ⟨false, 0x1003E, 0x3F80000000000000⟩),
    (6, ⟨false, 0x1003E, 0x3FC000004F000000⟩), (8, fPairTwo), (9, ⟨false, 0x1003E, 0x7F8000007FC00000⟩)]

/-- 2 * 2 + 1 beside a NaN, for both forms of the statement, and an infinite product beside an invalid element. -/
theorem witness_ParallelFused_mixed :
    (isLane highElem 1 ∧ isLane lowElem 0) ∧
    ((mixed fpsrA).ready (.fpma ⟨0, 8, 8, 4, 20, 0⟩) = true ∧ (mixed fpsrA).noNaT (.fpma ⟨0, 8, 8, 4, 20, 0⟩) = true) ∧
    (fusedExact .fma .rn (.fin false (2 ^ 23) (-22)) (.fin false (2 ^ 23) (-22)) (.fin false (2 ^ 23) (-23)) =
        some (.value false (.ratio (5 * 2 ^ 44) 1 (-44))) ∧
      classifyElem (highElem ((mixed fpsrA).readF 8)) = .num (.fin false (2 ^ 23) (-22)) ∧
      classifyElem (highElem ((mixed fpsrA).readF 4)) = .num (.fin false (2 ^ 23) (-23))) ∧
    ((finiteElem (highElem ((mixed fpsrA).readF 4)) = true ∧ unnormalElem (highElem ((mixed fpsrA).readF 4)) = false) ∧
      (classifyElem (lowElem ((mixed fpsrA).readF 4))).isNaN = true) ∧
    (fusedExact .fma .rn (.inf false) (.inf true) (.fin true (2 ^ 23) (-22)) = some (.inf true) ∧
      invalidFused .fma (.inf false) (.fin true 0 (-149)) (.fin false (2 ^ 23) (-22)) = true) :=
  ⟨⟨.inr ⟨rfl, rfl⟩, .inl ⟨rfl, rfl⟩⟩, by decide +kernel⟩

/-- Quotients: 1/2 beside a NaN, 2/1 beside a division by zero, and infinity/2 beside a NaN; no finite pair at all. -/
theorem witness_Quotients_mixed :
    ((mixed fpsrA).ready (.fprcpa ⟨0, 6, 8, 4, 20, 0⟩) = true ∧ (mixed fpsrA).noNaT (.fprcpa ⟨0, 6, 8, 4, 20, 0⟩) = true) ∧
    (finiteQuotient (.fin false (2 ^ 23) (-23)) (.fin false (2 ^ 23) (-22)) = some (false, .ratio (2 ^ 23) (2 ^ 23) (-1)) ∧
      (∀ y2 y3, classifyElem (lowElem ((mixed fpsrA).readF 4)) = .num y2 →
        classifyElem (lowElem ((mixed fpsrA).readF 8)) = .num y3 → finiteQuotient y2 y3 = none)) ∧
    (finiteQuotient (.fin true (2 ^ 23) (-22)) (.fin false 0 (-149)) = none ∧
      classifyElem (lowElem ((mixed fpsrA).readF 5)) = .num (.fin false 0 (-149))) ∧
    (specialQuotient (.inf false) (.fin false (2 ^ 23) (-22)) = some (.infinity false) ∧
      classifyElem (highElem ((mixed fpsrA).readF 9)) = .num (.inf false)) ∧
    (∀ pick y2 y3, pick = highElem ∨ pick = lowElem → classifyElem (pick ((mixed fpsrA).readF 9)) = .num y2 →
      classifyElem (pick ((mixed fpsrA).readF 8)) = .num y3 → finiteQuotient y2 y3 = none) := by
  have h4 : classifyElem (lowElem ((mixed fpsrA).readF 4)) = .nan true := by decide +kernel
  have h9 : classifyElem (lowElem ((mixed fpsrA).readF 9)) = .nan true := by decide +kernel
  have g9 : classifyElem (highElem ((mixed fpsrA).readF 9)) = .num (.inf false) := by decide +kernel
  refine ⟨by decide +kernel, ⟨by decide +kernel, fun y2 y3 h => ?_⟩, by decide +kernel, by decide +kernel, ?_⟩
  · exact nomatch h4.symm.trans h
  · rintro pick y2 y3 (rfl | rfl) h -
    · cases g9.symm.trans h
      cases y3 <;> rfl
    · exact nomatch h9.symm.trans h

/-- Roots: of 1 beside a NaN and beside a zero, of infinity beside a NaN; no finite positive element at all. -/
theorem witness_Roots_mixed :
    ((mixed fpsrA).ready (.fprsqrta ⟨0, 6, 4, 20, 0⟩) = true ∧ (mixed fpsrA).noNaT (.fprsqrta ⟨0, 6, 4, 20, 0⟩) = true) ∧
    (finiteRoot (.fin false (2 ^ 23) (-23)) = some (.root (2 ^ 23) (-23)) ∧ finiteRoot (.fin false 0 (-149)) = none) ∧
    (∀ y3, classifyElem (lowElem ((mixed fpsrA).readF 4)) = .num y3 → finiteRoot y3 = none) ∧
    (specialRoot (.fin false 0 (-149)) = some (.zero false) ∧ specialRoot (.inf false) = some (.infinity false)) ∧
    (∀ pick y3, pick = highElem ∨ pick = lowElem → classifyElem (pick ((mixed fpsrA).readF 9)) = .num y3 →
      finiteRoot y3 = none) := by
  have h4 : classifyElem (lowElem ((mixed fpsrA).readF 4)) = .nan true := by decide +kernel
  have h9 : classifyElem (lowElem ((mixed fpsrA).readF 9)) = .nan true := by decide +kernel
  have g9 : classifyElem (highElem ((mixed fpsrA).readF 9)) = .num (.inf false) := by decide +kernel
  refine ⟨by decide +kernel, by decide +kernel, fun y3 h => ?_, by decide +kernel, ?_⟩
  · exact nomatch h4.symm.trans h
  rintro pick y3 (rfl | rfl) h
  · cases g9.symm.trans h
    rfl
  · exact nomatch h9.symm.trans h

/-- Conversions: 1 beside a NaN, and 1.5, inexact, beside 2^31, invalid; minima of 1 and 2 beside a NaN. -/
theorem witness_Conversions_mixed :
    ((mixed fpsrE).ready (.fcvt ⟨true, false, false, 0, 6, 20, 0⟩) = true ∧
      (mixed fpsrE).noNaT (.fcvt ⟨true, false, false, 0, 6, 20, 0⟩) = true) ∧
    (classifyElem (highElem ((mixed fpsrE).readF 6)) = .num (.fin false (3 * 2 ^ 22) (-23)) ∧
      roundToGrid (.ratio (3 * 2 ^ 22) 1 (-23)) 0 .rn false = ⟨2, true, true⟩ ∧
      conversionInvalid false .rn 32 (classifyElem (lowElem ((mixed fpsrE).readF 6))) = true) ∧
    ((mixed fpsrA).ready (.fcvt ⟨true, false, false, 0, 4, 20, 0⟩) = true ∧
      finiteElem (highElem ((mixed fpsrA).readF 4)) = true ∧ fitsInt false 32 1 = true) ∧
    ((mixed fpsrA).ready (.fminmax ⟨true, .min, 0, 4, 8, 20, 0⟩) = true ∧
      (mixed fpsrA).noNaT (.fminmax ⟨true, .min, 0, 4, 8, 20, 0⟩) = true ∧
      (∀ n ∈ [(4 : RegNum), 8], finiteElem (highElem ((mixed fpsrA).readF n)) = true)) := by
  decide +kernel

/-- The elements of 1 and of 2 have those values, so the high minimum is the first; and 2 * 2 + 1 is exactly 5. -/
theorem witness_values_mixed :
    elemValue (highElem ((mixed fpsrA).readF 4)) = ((1 : Int) : ℚ) ∧
    elemLess (highElem ((mixed fpsrA).readF 4)) (highElem ((mixed fpsrA).readF 8)) ∧
    exactElem .rn .fma (highElem ((mixed fpsrA).readF 8)) (highElem ((mixed fpsrA).readF 8))
      (highElem ((mixed fpsrA).readF 4)) 0x40A00000 := by
  have e4 : highElem ((mixed fpsrA).readF 4) = 0x3F800000 := by decide +kernel
  have e8 : highElem ((mixed fpsrA).readF 8) = 0x40000000 := by decide +kernel
  have one : elemValue 0x3F800000 = 1 :=
    (elemValue_eq (s := false) (e := 127) (f := 0) (by decide +kernel) (by decide +kernel) (by decide +kernel)).trans
      (by norm_num [signRat])
  have two : elemValue 0x40000000 = 2 :=
    (elemValue_eq (s := false) (e := 128) (f := 0) (by decide +kernel) (by decide +kernel) (by decide +kernel)).trans
      (by norm_num [signRat])
  rw [e4, e8]
  refine ⟨by rw [one]; rfl, ?_, .inl ⟨false, 5 * 2 ^ 21, 2, by decide, by decide, by decide, by decide, ?_, by decide⟩⟩
  · rw [elemLess, extLess, if_neg (by decide), if_neg (by decide), one, two]
    norm_num
  · rw [fusedRat, one, two]
    norm_num [signRat]

end Sys2Proof.Tests
end

section
/-! Rounding a magnitude to a grid (R8): what `Mag.quantize` leaves of the value above a grid point, and what each direction
makes of it. -/

namespace Sys2Proof.Machine

/-- What a tail says of the part `r` of a value that lies above a grid point, on a grid of step `s`. -/
def Tail.Leaves (r s : ℝ) : Tail → Prop
  | .exact => r = 0
  | .below => 0 < r ∧ 2 * r < s
  | .tie => 2 * r = s
  | .above => s < 2 * r ∧ r < s

variable {t : Tail} {r s c v : ℝ}

theorem Tail.Leaves.nonneg (h : t.Leaves r s) (hs : 0 < s) : 0 ≤ r := by
  cases t <;> simp only [Tail.Leaves] at h <;> linarith

theorem Tail.Leaves.lt (h : t.Leaves r s) (hs : 0 < s) : r < s := by
  cases t <;> simp only [Tail.Leaves] at h <;> linarith

theorem Tail.Leaves.eq_zero_iff (h : t.Leaves r s) (hs : 0 < s) : r = 0 ↔ t = .exact := by
  cases t <;> simp only [Tail.Leaves] at h <;> simp <;> linarith

theorem Tail.Leaves.mul_right (h : t.Leaves r s) (hc : 0 < c) : t.Leaves (r * c) (s * c) := by
  cases t with
  | exact => exact mul_eq_zero_of_left h c
  | below => exact ⟨mul_pos h.1 hc, by nlinarith [h.2]⟩
  | tie =>
    obtain rfl : 2 * r = s := h
    exact (mul_assoc 2 r c).symm
  | above => exact ⟨by nlinarith [h.1], by nlinarith [h.2]⟩

theorem tailOf_leaves {r d : Nat} (h : r < d) : (tailOf r d).Leaves r d := by
  unfold tailOf
  split_ifs with h0 hlt heq
  · exact (by exact_mod_cast h0 : (r : ℝ) = 0)
  · exact ⟨by exact_mod_cast Nat.pos_of_ne_zero h0, by exact_mod_cast hlt⟩
  · exact (by exact_mod_cast heq : (2 * r : ℝ) = d)
  · exact ⟨by exact_mod_cast (by omega : d < 2 * r), by exact_mod_cast h⟩

/-! The fraction `scaled` makes of `num / den * 2^e`. -/

theorem scaled_snd_pos {num den : Nat} (e : Int) (h : 0 < den) : 0 < (scaled num den e).2 := by
  simp [scaled, Nat.shiftLeft_eq, h]

theorem scaled_div (num den : Nat) (e : Int) :
    ((scaled num den e).1 : ℝ) / (scaled num den e).2 = (num : ℝ) / den * 2 ^ e := by
  have he : (2 : ℝ) ^ e = 2 ^ e.toNat / 2 ^ (-e).toNat := by
    rw [← zpow_natCast, ← zpow_natCast, ← zpow_sub₀ two_ne_zero]
    congr 1
    omega
  simp only [scaled, Nat.shiftLeft_eq, Nat.cast_mul, Nat.cast_pow, Nat.cast_ofNat, he]
  ring

/-- A quotient of naturals is its integer part and the remainder over the divisor. -/
theorem cast_div_eq_div_add_mod {n d : Nat} (h : 0 < d) :
    (n : ℝ) / d = (n / d : Nat) + (n % d : Nat) / (d : ℝ) := by
  have hd : (d : ℝ) ≠ 0 := by exact_mod_cast h.ne'
  field_simp
  exact_mod_cast (Nat.div_add_mod n d).symm

/-! The square root. -/

/-- The invariant of the bit-by-bit root: with `k` bits to go the root of `n` lies from `r` up to below `r + 2^k`. -/
theorem isqrtFrom_isSqrt (n : Nat) : ∀ k r : Nat, r * r ≤ n → n < (r + 2 ^ k) * (r + 2 ^ k) →
    isqrtFrom n k r * isqrtFrom n k r ≤ n ∧ n < (isqrtFrom n k r + 1) * (isqrtFrom n k r + 1)
  | 0, _, hle, hlt => ⟨hle, hlt⟩
  | k + 1, r, hle, hlt => by
    unfold isqrtFrom
    split_ifs with hbit
    · exact isqrtFrom_isSqrt n k _ hbit (by rwa [add_assoc, ← two_mul, ← pow_succ'])
    · exact isqrtFrom_isSqrt n k r hle (not_le.mp hbit)

theorem isqrt_eq_sqrt (n : Nat) : isqrt n = n.sqrt := by
  have hn : n < (0 + 2 ^ (n.log2 / 2 + 1)) * (0 + 2 ^ (n.log2 / 2 + 1)) := by
    rw [zero_add, ← pow_add]
    exact Nat.lt_log2_self.trans_le (Nat.pow_le_pow_right two_pos (by omega))
  exact Nat.eq_sqrt.mpr (isqrtFrom_isSqrt n _ 0 (Nat.zero_le n) hn)

/-- Half way between `k` and `k + 1` lies the root of `k * k + k + 1/4`. -/
theorem two_mul_sqrt_sub_lt_one_iff {x : ℝ} (k : Nat) : 2 * (√x - k) < 1 ↔ x < k * k + k + 1 / 4 := by
  have hhalf : (k + 1 / 2 : ℝ) ^ 2 = k * k + k + 1 / 4 := by ring
  rw [← hhalf, ← Real.sqrt_lt' (by positivity)]
  constructor <;> intro h <;> linarith

theorem one_lt_two_mul_sqrt_sub_iff {x : ℝ} (k : Nat) : 1 < 2 * (√x - k) ↔ k * k + k + 1 / 4 < x := by
  have hhalf : (k + 1 / 2 : ℝ) ^ 2 = k * k + k + 1 / 4 := by ring
  rw [← hhalf, ← Real.lt_sqrt (by positivity)]
  constructor <;> intro h <;> linarith

/-- The root of `n + rem / den` lies above the integer root unless `n` is a square and nothing remains. -/
theorem sqrt_sub_pos {n rem den : Nat} (h : rem < den) (hne : ¬(n = n.sqrt * n.sqrt ∧ rem = 0)) :
    0 < √(n + rem / den : ℝ) - n.sqrt := by
  have hden : (0 : ℝ) < den := by exact_mod_cast h.pos
  have hle : (n.sqrt * n.sqrt : ℝ) ≤ n := by exact_mod_cast Nat.sqrt_le n
  refine sub_pos.mpr (Real.lt_sqrt_of_sq_lt ?_)
  rw [sq]
  by_cases hrem : rem = 0
  · have hlt : (n.sqrt * n.sqrt : ℝ) < n := by exact_mod_cast (Nat.sqrt_le n).lt_of_ne fun e => hne ⟨e.symm, hrem⟩
    simpa [hrem] using hlt
  · have hfrac : (0 : ℝ) < rem / den := div_pos (by exact_mod_cast Nat.pos_of_ne_zero hrem) hden
    linarith

theorem sqrt_sub_lt_one {n rem den : Nat} (h : rem < den) : √(n + rem / den : ℝ) - n.sqrt < 1 := by
  have hfrac : (rem / den : ℝ) < 1 := (div_lt_one (by exact_mod_cast h.pos)).mpr (by exact_mod_cast h)
  have hsucc : (n + 1 : ℝ) ≤ (n.sqrt + 1) ^ 2 := by exact_mod_cast Nat.lt_succ_sqrt' n
  rw [sub_lt_iff_lt_add', Real.sqrt_lt' (by positivity)]
  linarith

theorem rootTail_leaves {n rem den : Nat} (h : rem < den) :
    (rootTail n rem den n.sqrt).Leaves (√(n + rem / den) - n.sqrt) 1 := by
  have hden : (0 : ℝ) < den := by exact_mod_cast h.pos
  have hfrac0 : (0 : ℝ) ≤ rem / den := by positivity
  have hfrac1 : (rem / den : ℝ) < 1 := (div_lt_one hden).mpr (by exact_mod_cast h)
  have hbelow := two_mul_sqrt_sub_lt_one_iff (x := n + rem / den) n.sqrt
  have habove := one_lt_two_mul_sqrt_sub_iff (x := n + rem / den) n.sqrt
  have hmid (hlo : ¬n < n.sqrt * n.sqrt + n.sqrt) (hhi : ¬n > n.sqrt * n.sqrt + n.sqrt) :
      (n : ℝ) = n.sqrt * n.sqrt + n.sqrt := by exact_mod_cast (not_lt.mp hhi).antisymm (not_lt.mp hlo)
  unfold rootTail
  split_ifs with h0 hlo hhi hlt heq
  · obtain ⟨hsq, hrem⟩ := h0
    have hroot : √(n : ℝ) = n.sqrt :=
      (Real.sqrt_eq_iff_mul_self_eq (by positivity) (by positivity)).mpr (by exact_mod_cast hsq)
    simp [Tail.Leaves, hrem, hroot]
  · refine ⟨sqrt_sub_pos h h0, hbelow.mpr ?_⟩
    have hlo' : (n + 1 : ℝ) ≤ n.sqrt * n.sqrt + n.sqrt := by exact_mod_cast hlo
    linarith
  · refine ⟨habove.mpr ?_, sqrt_sub_lt_one h⟩
    have hhi' : (n.sqrt * n.sqrt + n.sqrt + 1 : ℝ) ≤ n := by exact_mod_cast hhi
    linarith
  · refine ⟨sqrt_sub_pos h h0, hbelow.mpr ?_⟩
    rw [hmid hlo hhi, add_lt_add_iff_left, div_lt_div_iff₀ hden four_pos]
    exact_mod_cast (by omega : rem * 4 < 1 * den)
  · have hquarter : (rem / den : ℝ) = 1 / 4 := by
      rw [div_eq_div_iff hden.ne' four_ne_zero]
      exact_mod_cast (by omega : rem * 4 = 1 * den)
    rw [hmid hlo hhi, hquarter] at hbelow habove ⊢
    exact le_antisymm (not_lt.mp (mt habove.mp (lt_irrefl _))) (not_lt.mp (mt hbelow.mp (lt_irrefl _)))
  · refine ⟨habove.mpr ?_, sqrt_sub_lt_one h⟩
    rw [hmid hlo hhi, add_lt_add_iff_left, div_lt_div_iff₀ four_pos hden]
    exact_mod_cast (by omega : 1 * den < rem * 4)

/-! `Mag.quantize` and `roundToGrid`. -/

theorem Mag.quantize_leaves_unit {m : Mag} (g : Int) (hv : m.hasValue v) :
    (m.quantize g).2.Leaves (v / 2 ^ g - (m.quantize g).1) 1 := by
  cases m with
  | ratio num den e =>
    obtain ⟨hden, rfl⟩ := hv
    have hpos := scaled_snd_pos (num := num) (e - g) hden
    have hd : (0 : ℝ) < (scaled num den (e - g)).2 := by exact_mod_cast hpos
    have hval : (num / den * 2 ^ e / 2 ^ g : ℝ) = (scaled num den (e - g)).1 / (scaled num den (e - g)).2 := by
      rw [scaled_div, zpow_sub₀ two_ne_zero, mul_div_assoc]
    have hunit := (tailOf_leaves (Nat.mod_lt (scaled num den (e - g)).1 hpos)).mul_right (inv_pos.mpr hd)
    rw [mul_inv_cancel₀ hd.ne', ← div_eq_mul_inv] at hunit
    rw [hval, cast_div_eq_div_add_mod hpos]
    simpa only [Mag.quantize, add_sub_cancel_left] using hunit
  | root num e =>
    obtain rfl := hv
    have hpos := scaled_snd_pos (num := num) (e - 2 * g) one_pos
    have hval : √(num * 2 ^ e) / 2 ^ g = √((scaled num 1 (e - 2 * g)).1 / (scaled num 1 (e - 2 * g)).2) := by
      rw [scaled_div, Nat.cast_one, div_one, zpow_sub₀ two_ne_zero, mul_comm 2 g, zpow_mul, zpow_ofNat, ← mul_div_assoc,
        Real.sqrt_div' _ (by positivity), Real.sqrt_sq (by positivity)]
    rw [hval, cast_div_eq_div_add_mod hpos]
    simp only [Mag.quantize, isqrt_eq_sqrt]
    exact rootTail_leaves (Nat.mod_lt _ hpos)

theorem Mag.quantize_leaves {m : Mag} (g : Int) (hv : m.hasValue v) :
    (m.quantize g).2.Leaves (v - (m.quantize g).1 * 2 ^ g) (2 ^ g) := by
  have hstep : (2 : ℝ) ^ g ≠ 0 := by positivity
  have h := (Mag.quantize_leaves_unit g hv).mul_right (c := 2 ^ g) (by positivity)
  rwa [sub_mul, div_mul_cancel₀ v hstep, one_mul] at h

theorem roundsUp_exact (rc : RoundMode) (neg odd : Bool) : roundsUp rc neg odd .exact = false := rfl

/-- To nearest increments above half a step, and at half a step an odd multiple. -/
theorem roundsUp_rn_iff {odd : Bool} (neg : Bool) (h : t.Leaves r s) (hs : 0 < s) :
    roundsUp .rn neg odd t = true ↔ s < 2 * r ∨ 2 * r = s ∧ odd = true := by
  cases t with
  | exact =>
    obtain rfl : r = 0 := h
    simp [roundsUp, hs.le, hs.ne]
  | below => simp [roundsUp, h.2.le, h.2.ne]
  | tie =>
    obtain rfl : 2 * r = s := h
    simp [roundsUp]
  | above => simp [roundsUp, h.1]

variable {m : Mag} {g : Int} {rc : RoundMode} {neg : Bool}

theorem roundToGrid_k (m : Mag) (g : Int) (rc : RoundMode) (neg : Bool) :
    (roundToGrid m g rc neg).k = if (roundToGrid m g rc neg).fpa then (m.quantize g).1 + 1 else (m.quantize g).1 := rfl

theorem roundToGrid_sub (m : Mag) (g : Int) (rc : RoundMode) (neg : Bool) (v : ℝ) :
    ((roundToGrid m g rc neg).k : ℝ) * 2 ^ g - v =
      (if (roundToGrid m g rc neg).fpa then 2 ^ g else 0) - (v - (m.quantize g).1 * 2 ^ g) := by
  rw [roundToGrid_k]
  split_ifs <;> push_cast <;> ring

/-- Only a value off the grid is rounded up. -/
theorem roundToGrid_i_of_fpa (h : (roundToGrid m g rc neg).fpa = true) : (roundToGrid m g rc neg).i = true := by
  simp only [roundToGrid, bne_iff_ne] at h ⊢
  intro ht
  rw [ht, roundsUp_exact] at h
  exact Bool.false_ne_true h

theorem roundToGrid_i_iff (hv : m.hasValue v) :
    (roundToGrid m g rc neg).i = true ↔ v - (m.quantize g).1 * 2 ^ g ≠ 0 := by
  rw [Ne, (Mag.quantize_leaves g hv).eq_zero_iff (by positivity)]
  simp [roundToGrid]

theorem roundToGrid_error_lt (hv : m.hasValue v) : |((roundToGrid m g rc neg).k : ℝ) * 2 ^ g - v| < 2 ^ g := by
  have hstep : (0 : ℝ) < 2 ^ g := by positivity
  have hlt := (Mag.quantize_leaves g hv).lt hstep
  have hnonneg := (Mag.quantize_leaves g hv).nonneg hstep
  rw [roundToGrid_sub, abs_lt]
  split_ifs with hup
  · have hne := (roundToGrid_i_iff hv).mp (roundToGrid_i_of_fpa hup)
    have hpos := hnonneg.lt_of_ne' hne
    constructor <;> linarith
  · constructor <;> linarith

theorem roundToGrid_fpa_iff_lt (hv : m.hasValue v) :
    (roundToGrid m g rc neg).fpa = true ↔ v < (roundToGrid m g rc neg).k * 2 ^ g := by
  have hstep : (0 : ℝ) < 2 ^ g := by positivity
  have hlt := (Mag.quantize_leaves g hv).lt hstep
  have hnonneg := (Mag.quantize_leaves g hv).nonneg hstep
  rw [← sub_pos (b := v), roundToGrid_sub]
  split_ifs with hup
  · exact iff_of_true hup (by linarith)
  · exact iff_of_false hup (by linarith)

theorem roundToGrid_i_iff_ne (hv : m.hasValue v) :
    (roundToGrid m g rc neg).i = true ↔ (roundToGrid m g rc neg).k * (2 : ℝ) ^ g ≠ v := by
  by_cases hup : (roundToGrid m g rc neg).fpa = true
  · simp only [roundToGrid_i_of_fpa hup, true_iff]
    exact ((roundToGrid_fpa_iff_lt hv).mp hup).ne'
  · rw [roundToGrid_i_iff hv, ← sub_ne_zero (b := v), roundToGrid_sub, if_neg hup, zero_sub, neg_ne_zero]

/-- Toward zero never increments the magnitude; toward an infinity does so off the grid, on that infinity's side of zero. -/
theorem roundToGrid_rz_fpa : (roundToGrid m g .rz neg).fpa = false := by
  cases h : (m.quantize g).2 <;> simp [roundToGrid, roundsUp, h]

theorem roundToGrid_rp_fpa : (roundToGrid m g .rp neg).fpa = ((roundToGrid m g .rp neg).i && !neg) := by
  cases h : (m.quantize g).2 <;> simp [roundToGrid, roundsUp, h]

theorem roundToGrid_rm_fpa : (roundToGrid m g .rm neg).fpa = ((roundToGrid m g .rm neg).i && neg) := by
  cases h : (m.quantize g).2 <;> simp [roundToGrid, roundsUp, h]

/-- A direction that never increments the magnitude rounds it down. -/
theorem roundToGrid_le (hv : m.hasValue v) (h : (roundToGrid m g rc neg).fpa = false) :
    (roundToGrid m g rc neg).k * (2 : ℝ) ^ g ≤ v :=
  not_lt.mp fun hlt => Bool.false_ne_true (h.symm.trans ((roundToGrid_fpa_iff_lt hv).mpr hlt))

/-- A direction that increments the magnitude of every value off the grid rounds it up. -/
theorem le_roundToGrid (hv : m.hasValue v) (h : (roundToGrid m g rc neg).fpa = (roundToGrid m g rc neg).i) :
    v ≤ (roundToGrid m g rc neg).k * (2 : ℝ) ^ g := by
  by_contra hlt
  have hi := (roundToGrid_i_iff_ne hv).mpr (not_le.mp hlt).ne
  exact hlt ((roundToGrid_fpa_iff_lt hv).mp (h.trans hi)).le

theorem roundToGrid_rn_fpa_iff (hv : m.hasValue v) :
    (roundToGrid m g .rn neg).fpa = true ↔ (2 : ℝ) ^ g < 2 * (v - (m.quantize g).1 * 2 ^ g) ∨
      2 * (v - (m.quantize g).1 * 2 ^ g) = 2 ^ g ∧ (m.quantize g).1 % 2 = 1 :=
  (roundsUp_rn_iff neg (Mag.quantize_leaves g hv) (by positivity)).trans (by rw [beq_iff_eq])

theorem roundToGrid_rn_error_le (hv : m.hasValue v) : |((roundToGrid m g .rn neg).k : ℝ) * 2 ^ g - v| ≤ 2 ^ g / 2 := by
  have hstep : (0 : ℝ) < 2 ^ g := by positivity
  have hlt := (Mag.quantize_leaves g hv).lt hstep
  have hnonneg := (Mag.quantize_leaves g hv).nonneg hstep
  rw [roundToGrid_sub, abs_le]
  split_ifs with hup <;> rw [roundToGrid_rn_fpa_iff hv] at hup
  · rcases hup with habove | ⟨htie, -⟩ <;> constructor <;> linarith
  · obtain ⟨hle, -⟩ := not_or.mp hup
    constructor <;> linarith

/-- Half a step off, the multiple chosen is the even one. -/
theorem roundToGrid_rn_even_of_tie (hv : m.hasValue v)
    (htie : |((roundToGrid m g .rn neg).k : ℝ) * 2 ^ g - v| = 2 ^ g / 2) : (roundToGrid m g .rn neg).k % 2 = 0 := by
  have hup := roundToGrid_rn_fpa_iff (g := g) (neg := neg) hv
  have hhalf : 2 * (v - (m.quantize g).1 * 2 ^ g) = (2 : ℝ) ^ g := by
    have hnonneg := (Mag.quantize_leaves g hv).nonneg (by positivity)
    have hlt := (Mag.quantize_leaves g hv).lt (by positivity)
    rw [roundToGrid_sub] at htie
    split_ifs at htie
    · rw [abs_of_pos (by linarith)] at htie
      linarith
    · rw [zero_sub, abs_neg, abs_of_nonneg hnonneg] at htie
      linarith
  rw [hhalf] at hup
  simp only [lt_irrefl, true_and, false_or] at hup
  rw [roundToGrid_k]
  split_ifs with hfpa
  · have hodd := hup.mp hfpa
    omega
  · have heven := mt hup.mpr hfpa
    omega

/-- Settles O58: `Mag.quantize` gives the grid point below the value and where in the step above it the value lies, and each
direction chooses between the two ends of that step. -/
theorem roundToGridIsRounding : Obligations.RoundToGridIsRounding := by
  unfold Obligations.RoundToGridIsRounding
  rintro m g rc neg q v step rv hv rfl rfl rfl
  refine ⟨roundToGrid_error_lt hv, roundToGrid_i_iff_ne hv, roundToGrid_fpa_iff_lt hv, ?_, ?_, ?_, ?_, ?_⟩
  · rintro rfl
    exact roundToGrid_rn_error_le hv
  · rintro rfl
    exact roundToGrid_rn_even_of_tie hv
  · rintro rfl
    exact roundToGrid_le hv roundToGrid_rz_fpa
  · rintro rfl
    cases neg
    · exact le_roundToGrid hv (by rw [roundToGrid_rp_fpa, Bool.not_false, Bool.and_true])
    · exact roundToGrid_le hv (by rw [roundToGrid_rp_fpa, Bool.not_true, Bool.and_false])
  · rintro rfl
    cases neg
    · exact roundToGrid_le hv (by rw [roundToGrid_rm_fpa, Bool.and_false])
    · exact le_roundToGrid hv (by rw [roundToGrid_rm_fpa, Bool.and_true])

end Sys2Proof.Machine
end

section
/-! Rounding a magnitude to `p` bits (R8): the exponent `Mag.ilog` finds, and the carry of `roundUnbounded`. -/

namespace Sys2Proof.Machine

variable {m : Mag} {p : Nat} {rc : RoundMode} {neg : Bool} {v : ℝ}

theorem cast_mem_binade {n : Nat} (h : 0 < n) : (2 : ℝ) ^ (n.log2 : Int) ≤ n ∧ (n : ℝ) < 2 ^ ((n.log2 : Int) + 1) := by
  constructor
  · exact_mod_cast Nat.log2_self_le h.ne'
  · exact_mod_cast Nat.lt_log2_self (n := n)

theorem scaled_snd_le_fst_iff {num den : Nat} (d : Int) (hden : 0 < den) :
    (scaled num den (-d)).2 ≤ (scaled num den (-d)).1 ↔ (2 : ℝ) ^ d ≤ num / den := by
  have hpos : (0 : ℝ) < (scaled num den (-d)).2 := by exact_mod_cast scaled_snd_pos (-d) hden
  rw [← Nat.cast_le (α := ℝ), ← one_le_div hpos, scaled_div, zpow_neg, ← div_eq_mul_inv, one_le_div (by positivity)]

/-- The quotient of two numbers lies in the binade of the difference of their logarithms or in the one below it. -/
theorem div_log2_bounds {num den : Nat} (hnum : 0 < num) (hden : 0 < den) :
    (2 : ℝ) ^ ((num.log2 : Int) - den.log2 - 1) ≤ num / den ∧
      (num / den : ℝ) < 2 ^ ((num.log2 : Int) - den.log2 + 1) := by
  obtain ⟨hnum_ge, hnum_lt⟩ := cast_mem_binade hnum
  obtain ⟨hden_ge, hden_lt⟩ := cast_mem_binade hden
  rw [sub_sub, sub_add_eq_add_sub, zpow_sub₀ two_ne_zero, zpow_sub₀ two_ne_zero]
  have hd : (0 : ℝ) < den := by exact_mod_cast hden
  constructor <;> gcongr

/-- A power of two moves a value by whole binades. -/
theorem scale_binade {x : ℝ} {k : Int} (e : Int) (h : 2 ^ k ≤ x ∧ x < 2 ^ (k + 1)) :
    2 ^ (k + e) ≤ x * 2 ^ e ∧ x * 2 ^ e < 2 ^ (k + e + 1) := by
  obtain ⟨hge, hlt⟩ := h
  rw [add_right_comm, zpow_add₀ two_ne_zero, zpow_add₀ two_ne_zero _ e]
  constructor <;> gcongr

theorem Mag.ilog_ratio_bounds {num den : Nat} {e : Int} (hnum : 0 < num) (hden : 0 < den) :
    (2 : ℝ) ^ (Mag.ratio num den e).ilog ≤ num / den * 2 ^ e ∧
      (num / den * 2 ^ e : ℝ) < 2 ^ ((Mag.ratio num den e).ilog + 1) := by
  obtain ⟨hge, hlt⟩ := div_log2_bounds hnum hden
  have hcmp := scaled_snd_le_fst_iff (num := num) ((num.log2 : Int) - den.log2) hden
  simp only [Mag.ilog]
  split_ifs with h
  · exact scale_binade e ⟨hcmp.mp h, hlt⟩
  · exact scale_binade e ⟨hge, by rw [sub_add_cancel]; exact not_le.mp (mt hcmp.mpr h)⟩

theorem Mag.ilog_root_bounds {num : Nat} {e : Int} (hnum : 0 < num) :
    (2 : ℝ) ^ (Mag.root num e).ilog ≤ √(num * 2 ^ e) ∧ √(num * 2 ^ e : ℝ) < 2 ^ ((Mag.root num e).ilog + 1) := by
  obtain ⟨hge, hlt⟩ := scale_binade e (cast_mem_binade hnum)
  have hsq (k : Int) : ((2 : ℝ) ^ k) ^ 2 = 2 ^ (2 * k) := by rw [mul_comm, zpow_mul, zpow_ofNat]
  simp only [Mag.ilog]
  rw [Real.le_sqrt' (by positivity), Real.sqrt_lt' (by positivity), hsq, hsq]
  constructor
  · exact (zpow_le_zpow_right₀ one_le_two (by omega)).trans hge
  · exact hlt.trans_le (zpow_le_zpow_right₀ one_le_two (by omega))

theorem Mag.ilog_bounds (hv : m.hasValue v) (hpos : 0 < v) : (2 : ℝ) ^ m.ilog ≤ v ∧ v < 2 ^ (m.ilog + 1) := by
  cases m with
  | ratio num den e =>
    obtain ⟨hden, rfl⟩ := hv
    refine Mag.ilog_ratio_bounds (Nat.pos_of_ne_zero ?_) hden
    rintro rfl
    simp at hpos
  | root num e =>
    obtain rfl := hv
    refine Mag.ilog_root_bounds (Nat.pos_of_ne_zero ?_)
    rintro rfl
    simp at hpos

theorem two_pow_mul_zpow {n : Nat} {e k : Int} (h : (n : Int) + e = k) : (2 : ℝ) ^ n * 2 ^ e = 2 ^ k := by
  rw [← h, zpow_add₀ two_ne_zero, zpow_natCast]

/-- In units of its last place a value has `p` bits, and so has the multiple it is rounded to, or it is `2 ^ p`. -/
theorem roundToGrid_k_bounds (hv : m.hasValue v) (hpos : 0 < v) (hp : 0 < p) :
    2 ^ (p - 1) ≤ (roundToGrid m (m.ilog - ((p : Int) - 1)) rc neg).k ∧
      (roundToGrid m (m.ilog - ((p : Int) - 1)) rc neg).k ≤ 2 ^ p := by
  obtain ⟨hge, hlt⟩ := Mag.ilog_bounds hv hpos
  have herr := roundToGrid_error_lt (g := m.ilog - ((p : Int) - 1)) (rc := rc) (neg := neg) hv
  generalize (roundToGrid m (m.ilog - ((p : Int) - 1)) rc neg).k = k at herr ⊢
  obtain ⟨hgt, hle⟩ := abs_lt.mp herr
  rw [← two_pow_mul_zpow (n := p - 1) (e := m.ilog - ((p : Int) - 1)) (by omega)] at hge
  rw [← two_pow_mul_zpow (n := p) (e := m.ilog - ((p : Int) - 1)) (by omega)] at hlt
  have hulp : (0 : ℝ) ≤ 2 ^ (m.ilog - ((p : Int) - 1)) := by positivity
  have hlow : (2 ^ (p - 1) : ℝ) < k + 1 := lt_of_mul_lt_mul_right (by linarith) hulp
  have hhigh : (k : ℝ) < 2 ^ p + 1 := lt_of_mul_lt_mul_right (by linarith) hulp
  exact ⟨Nat.lt_succ_iff.mp (by exact_mod_cast hlow), Nat.lt_succ_iff.mp (by exact_mod_cast hhigh)⟩

/-- `roundUnbounded` rounds to the grid of `p` bits and writes the carry `2 ^ p` as `2 ^ (p - 1)` with the next exponent. -/
theorem roundUnbounded_cases {q : Quantized} (hq : q = roundToGrid m (m.ilog - ((p : Int) - 1)) rc neg) :
    q.k = 2 ^ p ∧ roundUnbounded m p rc neg = ⟨m.ilog + 1, 2 ^ (p - 1), q.i, q.fpa⟩ ∨
      q.k ≠ 2 ^ p ∧ roundUnbounded m p rc neg = ⟨m.ilog, q.k, q.i, q.fpa⟩ := by
  subst hq
  by_cases hcarry : (roundToGrid m (m.ilog - ((p : Int) - 1)) rc neg).k = 2 ^ p
  · exact .inl ⟨hcarry, if_pos hcarry⟩
  · exact .inr ⟨hcarry, if_neg hcarry⟩

theorem roundUnbounded_i : (roundUnbounded m p rc neg).i = (roundToGrid m (m.ilog - ((p : Int) - 1)) rc neg).i := by
  obtain ⟨-, hr⟩ | ⟨-, hr⟩ := roundUnbounded_cases (m := m) (p := p) (rc := rc) (neg := neg) rfl <;> rw [hr]

theorem roundUnbounded_fpa : (roundUnbounded m p rc neg).fpa = (roundToGrid m (m.ilog - ((p : Int) - 1)) rc neg).fpa := by
  obtain ⟨-, hr⟩ | ⟨-, hr⟩ := roundUnbounded_cases (m := m) (p := p) (rc := rc) (neg := neg) rfl <;> rw [hr]

/-- A carry out of the significand changes its writing, not its value. -/
theorem roundUnbounded_value (hp : 0 < p) :
    ((roundUnbounded m p rc neg).sig : ℝ) * 2 ^ ((roundUnbounded m p rc neg).exp - ((p : Int) - 1)) =
      (roundToGrid m (m.ilog - ((p : Int) - 1)) rc neg).k * 2 ^ (m.ilog - ((p : Int) - 1)) := by
  obtain ⟨hcarry, hr⟩ | ⟨-, hr⟩ := roundUnbounded_cases (m := m) (p := p) (rc := rc) (neg := neg) rfl
  · rw [hr, hcarry, Nat.cast_pow, Nat.cast_pow, Nat.cast_ofNat]
    dsimp only
    rw [two_pow_mul_zpow (k := m.ilog + 1) (by omega), two_pow_mul_zpow (k := m.ilog + 1) (by omega)]
  · rw [hr]

theorem roundUnbounded_sig_bounds (hv : m.hasValue v) (hpos : 0 < v) (hp : 0 < p) :
    2 ^ (p - 1) ≤ (roundUnbounded m p rc neg).sig ∧ (roundUnbounded m p rc neg).sig < 2 ^ p := by
  obtain ⟨hge, hle⟩ := roundToGrid_k_bounds (rc := rc) (neg := neg) hv hpos hp
  obtain ⟨-, hr⟩ | ⟨hcarry, hr⟩ := roundUnbounded_cases (m := m) (p := p) (rc := rc) (neg := neg) rfl <;> rw [hr]
  · exact ⟨le_rfl, Nat.pow_lt_pow_right one_lt_two (by omega)⟩
  · exact ⟨hge, hle.lt_of_ne hcarry⟩

/-- Settles O57: it is O58 on the grid of `p` bits below the leading bit that `Mag.ilog` finds; a carry keeps the value. -/
theorem roundUnboundedIsRounding : Obligations.RoundUnboundedIsRounding := by
  unfold Obligations.RoundUnboundedIsRounding
  rintro m p rc neg r v ulp rv hv hpos hp rfl rfl rfl
  obtain ⟨hge, hlt⟩ := Mag.ilog_bounds hv hpos
  obtain ⟨hsig_ge, hsig_lt⟩ := roundUnbounded_sig_bounds (rc := rc) (neg := neg) hv hpos hp
  obtain ⟨herr, hi, hfpa, hrn, heven, hrz, hrp, hrm⟩ :=
    roundToGridIsRounding m (m.ilog - ((p : Int) - 1)) rc neg _ v _ _ hv rfl rfl rfl
  rw [roundUnbounded_value hp, roundUnbounded_i, roundUnbounded_fpa]
  refine ⟨hge, hlt, hsig_ge, hsig_lt, herr, hi, hfpa, hrn, fun hrc htie => ?_, hrz, hrp, hrm⟩
  obtain ⟨n, hn⟩ := Nat.dvd_of_mod_eq_zero (heven hrc htie)
  exact ⟨n, by rw [hn]; push_cast; ring⟩

end Sys2Proof.Machine
end

section
/-! What a step and an instruction can do, as the statements on FPSR and ISR need it. -/

namespace Sys2Proof.Machine

/-- A step that answers a next state is one instruction, executed with control in the program. -/
theorem exec_of_step {s t : State} (h : step s = .next t) : ∃ i, exec i s = .next t := by
  unfold step at h
  split at h
  · cases h
  split at h
  · cases h
  · unfold runEntry at h
    split at h
    · exact ⟨_, h⟩
    · cases h

/-- Without an interruption the guard nullifies the instruction or passes it on. -/
theorem State.guarded_of_handler_none {s t : State} {qp : PredNum} {p2 : Option PredNum} {f1 : RegNum}
    {srcs : List RegNum} {own : Result} (h : s.guarded qp p2 f1 srcs own = .next t) (ht : t.handler = none) :
    t = (s.writeOptP p2 (Config.helperPred s.draws)).advance.tick ∨ own = .next t := by
  obtain ⟨-, rfl⟩ | ⟨-, -, rfl⟩ | ⟨-, -, -, -, hown⟩ := State.guarded_cases h
  · exact .inl rfl
  · cases ht
  · exact .inr hown

/-- Without an interruption a completion raises no trap and writes its effects. -/
theorem State.finish_of_handler_none {s t : State} {sf : SfNum} {f1 : RegNum} {p2 : Option PredNum} {x : Flt}
    {low : Report} {high : Option Report} (h : s.finish sf f1 p2 x low high = .next t) (ht : t.handler = none) :
    trapOf low high = none ∧ t = (s.commit sf f1 p2 x low high).advance.tick := by
  obtain rfl | hend | ⟨code, -, rfl⟩ := State.finish_cases h
  · cases ht
  · exact hend
  · cases ht

/-- Settles O9: only `State.interrupt` writes ISR, and it also sends control to a vector. -/
theorem isrWrittenOnlyByInterruptions : Obligations.IsrWrittenOnlyByInterruptions := by
  unfold Obligations.IsrWrittenOnlyByInterruptions
  intro s t h ht
  obtain ⟨i, hi⟩ := exec_of_step h
  obtain ⟨x, low, high, hexec⟩ := exec_guarded i s
  obtain rfl | hfin := State.guarded_of_handler_none (hexec ▸ hi) ht
  · simp
  · obtain ⟨-, rfl⟩ := State.finish_of_handler_none hfin ht
    simp

end Sys2Proof.Machine
end

section
/-! The bits of FPSR (R13): where they stand, and which of them an instruction writes. -/

namespace Sys2Proof.Machine

variable {i : Instr} {s t : State}

theorem State.commit_fpsr (s : State) (sf : SfNum) (f1 : RegNum) (p2 : Option PredNum) (x : Flt) (low : Report)
    (high : Option Report) :
    (s.commit sf f1 p2 x low high).fpsr =
      recordSignals (putFlags s.fpsr sf (newFlags (flagsOf s.fpsr sf) (Config.swaFlags s.draws) low high)) sf
        (allSignals low high) := rfl

theorem putFlags_getLsbD_of_outside (w : BitVec 64) (sf : SfNum) (f : Flags) {k : Nat}
    (hk : k < sfBase sf + 10 ∨ sfBase sf + 12 < k) : (putFlags w sf f).getLsbD k = w.getLsbD k := by
  rw [getLsbD_putFlags, if_neg (by omega), if_neg (by omega), if_neg (by omega)]

theorem recordSignals_getLsbD_of_outside (w : BitVec 64) (sf : SfNum) (g : Signals) {k : Nat}
    (hk : k < sfBase sf + 7 ∨ sfBase sf + 9 < k) : (recordSignals w sf g).getLsbD k = w.getLsbD k := by
  have hv : (k == sfBase sf + 7) = false := beq_false_of_ne (by omega)
  have hd : (k == sfBase sf + 8) = false := beq_false_of_ne (by omega)
  have hz : (k == sfBase sf + 9) = false := beq_false_of_ne (by omega)
  simp only [getLsbD_recordSignals, hv, hd, hz, Bool.and_false, Bool.or_false]

/-- An instruction writes no bit of FPSR but the six flags of its own status field. -/
theorem exec_fpsr_getLsbD (h : exec i s = .next t) {k : Nat} (hk : k < sfBase i.sf + 7 ∨ sfBase i.sf + 12 < k) :
    t.fpsr.getLsbD k = s.fpsr.getLsbD k := by
  have commit_keeps (x low high) : (s.commit i.sf i.dest i.pred x low high).fpsr.getLsbD k = s.fpsr.getLsbD k := by
    rw [State.commit_fpsr, recordSignals_getLsbD_of_outside _ _ _ (by omega), putFlags_getLsbD_of_outside _ _ _ (by omega)]
  obtain ⟨-, rfl⟩ | ⟨-, -, rfl⟩ | ⟨-, x, low, high, hfin⟩ := exec_cases h
  · simp
  · rfl
  obtain rfl | ⟨-, rfl⟩ | ⟨code, -, rfl⟩ := State.finish_cases hfin
  · rfl
  · exact commit_keeps x low high
  · exact commit_keeps x low high

theorem exec_sfBit_of_ne (h : exec i s = .next t) {sf : SfNum} (hsf : sf ≠ i.sf) {k : Nat} (hk : k < 13) :
    sfBit t.fpsr sf k = sfBit s.fpsr sf k := by
  have hne : sf.toNat ≠ i.sf.toNat := mt BitVec.eq_of_toNat_eq hsf
  exact exec_fpsr_getLsbD h (by unfold sfBase; omega)

/-- Bits 0 to 6 of a status field, its controls, are written by no instruction, whichever field it uses. -/
theorem exec_sfBit_of_lt_seven (h : exec i s = .next t) (sf : SfNum) {k : Nat} (hk : k < 7) :
    sfBit t.fpsr sf k = sfBit s.fpsr sf k :=
  exec_fpsr_getLsbD h (by unfold sfBase; omega)

/-- Settles O12: two status fields have no bit in common, and the flags written are those of the instruction's own. -/
theorem otherStatusFieldsUntouched : Obligations.OtherStatusFieldsUntouched := by
  unfold Obligations.OtherStatusFieldsUntouched
  exact fun i s t h sf hsf k hk => exec_sfBit_of_ne h hsf hk

/-- The controls of a status field are read from `traps` and from its bits 0 and 4 to 6. -/
theorem controlsOf_congr {v w : BitVec 64} {sf : SfNum} (htraps : ∀ k < 6, v.getLsbD k = w.getLsbD k)
    (hsf : ∀ k < 7, sfBit v sf k = sfBit w sf k) : controlsOf v sf = controlsOf w sf := by
  simp only [controlsOf, htraps, hsf, Nat.reduceLT]

theorem exec_controlsOf (h : exec i s = .next t) (sf : SfNum) : controlsOf t.fpsr sf = controlsOf s.fpsr sf := by
  have hbase := sfBase_le i.sf
  exact controlsOf_congr (fun k hk => exec_fpsr_getLsbD h (by omega)) fun k hk => exec_sfBit_of_lt_seven h sf hk

theorem exec_wreOf (h : exec i s = .next t) (sf : SfNum) : wreOf t.fpsr sf = wreOf s.fpsr sf :=
  exec_sfBit_of_lt_seven h sf (by decide)

theorem exec_pcOf (h : exec i s = .next t) (sf : SfNum) : pcOf t.fpsr sf = pcOf s.fpsr sf := by
  unfold pcOf
  rw [exec_sfBit_of_lt_seven h sf (by decide), exec_sfBit_of_lt_seven h sf (by decide)]

theorem exec_fpsr_reserved (h : exec i s = .next t) {k : Nat} (hk : 58 ≤ k) :
    t.fpsr.getLsbD k = s.fpsr.getLsbD k := by
  have hbase := sfBase_le i.sf
  exact exec_fpsr_getLsbD h (by omega)

/-- The four directions and their codes (R13). -/
theorem rcMode_eq_iff (hi lo : Bool) :
    (rcMode hi lo = .rn ↔ hi = false ∧ lo = false) ∧ (rcMode hi lo = .rm ↔ hi = false ∧ lo = true) ∧
    (rcMode hi lo = .rp ↔ hi = true ∧ lo = false) ∧ (rcMode hi lo = .rz ↔ hi = true ∧ lo = true) := by
  cases hi <;> cases lo <;> simp [rcMode]

/-- The three precisions and their codes (R13). -/
theorem pcPrecision_eq (hi lo : Bool) :
    (hi = false → lo = false → pcPrecision hi lo = .single) ∧ (hi = true → lo = false → pcPrecision hi lo = .double) ∧
    (hi = true → lo = true → pcPrecision hi lo = .extended) := by
  cases hi <;> cases lo <;> simp [pcPrecision]

/-- An exception is enabled when its bit of `traps` and `td` of the status field are 0. -/
theorem not_and_not_eq_true_iff (trap td : Bool) : (!trap && !td) = true ↔ trap = false ∧ td = false := by
  simp

theorem flagsOf_putFlags (w : BitVec 64) (sf : SfNum) (f : Flags) : flagsOf (putFlags w sf f) sf = f := by
  simp [flagsOf, sfBit, getLsbD_putFlags]

theorem recordSignals_getLsbD_v (w : BitVec 64) (sf : SfNum) {g : Signals} (hv : g.v = false) :
    (recordSignals w sf g).getLsbD (sfBase sf + 7) = w.getLsbD (sfBase sf + 7) := by
  simp [getLsbD_recordSignals, add_beq_add_left, hv]

theorem recordSignals_getLsbD_d (w : BitVec 64) (sf : SfNum) (g : Signals) :
    (recordSignals w sf g).getLsbD (sfBase sf + 8) = (w.getLsbD (sfBase sf + 8) || g.d) := by
  simp [getLsbD_recordSignals, add_beq_add_left]

theorem recordSignals_getLsbD_z (w : BitVec 64) (sf : SfNum) (g : Signals) :
    (recordSignals w sf g).getLsbD (sfBase sf + 9) = (w.getLsbD (sfBase sf + 9) || g.z) := by
  simp [getLsbD_recordSignals, add_beq_add_left]

/-- Settles O10: the places are those of the model's accessors, and an instruction writes bits 7 to 12 of its own status
field alone, where no control, precision control or reserved bit stands. -/
theorem controlsNeverWritten : Obligations.ControlsNeverWritten := by
  unfold Obligations.ControlsNeverWritten
  refine ⟨?_, fun s t h => ?_⟩
  · rintro w sf b rfl
    have enabled (n : Nat) := not_and_not_eq_true_iff (w.getLsbD n) (sfBit w sf 6)
    exact ⟨⟨enabled 0, enabled 1, enabled 2, enabled 3, enabled 4, enabled 5⟩, ⟨rfl, rfl⟩, pcPrecision_eq .., rcMode_eq_iff ..,
      ⟨rfl, fun _ => rfl, rfl⟩, fun f => ⟨flagsOf_putFlags w sf f, fun _ => putFlags_getLsbD_of_outside w sf f⟩,
      fun g => ⟨recordSignals_getLsbD_d w sf g, recordSignals_getLsbD_z w sf g, recordSignals_getLsbD_v w sf,
        fun _ => recordSignals_getLsbD_of_outside w sf g⟩⟩
  · obtain ⟨i, hi⟩ := exec_of_step h
    exact ⟨fun sf => ⟨exec_controlsOf hi sf, exec_wreOf hi sf, exec_pcOf hi sf⟩, fun _ => exec_fpsr_reserved hi⟩

end Sys2Proof.Machine
end

section
/-! The flags o, u, i (R11): an operation replaces the old ones only when it ends in a Software Assist trap (R63). -/

namespace Sys2Proof.Machine

/-- A report that leaves the old flags standing, or raises a trap (R63). -/
def Report.KeepsOrTraps (r : Report) : Prop := r.freed = false ∨ r.trap.isSome = true

/-! The exception stage: only the branches of Software Assist give the old flags up. -/

theorem overflowStage_keepsOrTraps (v : StageEnv) (neg : Bool) (r : Rounded) :
    (overflowStage v neg r).freed = false ∨ (overflowStage v neg r).trap.isSome = true := by
  unfold overflowStage
  split_ifs with hovf hswa
  · exact .inl rfl
  · exact .inr rfl
  · exact .inl rfl

theorem tinyStage_keepsOrTraps (v : StageEnv) (neg : Bool) (m : Mag) (r : Rounded) :
    (tinyStage v neg m r).freed = false ∨ (tinyStage v neg m r).trap.isSome = true := by
  unfold tinyStage
  split_ifs with hunf hftz hswa
  · exact .inl rfl
  · exact .inl rfl
  · exact .inr rfl
  · dsimp only
    split_ifs
    · exact .inl rfl
    · exact .inl rfl

theorem inRangeStage_keepsOrTraps (v : StageEnv) (neg : Bool) (r : Rounded) :
    (inRangeStage v neg r).freed = false ∨ (inRangeStage v neg r).trap.isSome = true := by
  unfold inRangeStage
  split_ifs with hexact hswa
  · exact .inl rfl
  · exact .inr rfl
  · exact .inl rfl

theorem fpStage_keepsOrTraps (v : StageEnv) (p : Precise) :
    (fpStage v p).freed = false ∨ (fpStage v p).trap.isSome = true := by
  cases p with
  | inf | zero => exact .inl rfl
  | value neg m =>
    simp only [fpStage, valueStage]
    split_ifs
    · exact overflowStage_keepsOrTraps ..
    · exact tinyStage_keepsOrTraps ..
    · exact inRangeStage_keepsOrTraps ..

/-! The arithmetic on operands: a result is that of the stage, or it keeps the flags. -/

section
variable {α : Type} (C A : Carrier α) (env : StageEnv) (fr : HelperFree)

theorem stageResult_keepsOrTraps (den z : Bool) (p : Precise) : (stageResult C env den z p).report.KeepsOrTraps :=
  fpStage_keepsOrTraps env p

theorem invalidResult_keepsOrTraps : (invalidResult C).report.KeepsOrTraps := .inl rfl

theorem propagate_keepsOrTraps {C : Carrier α} {l : List α} {r : ElemResult α} (h : propagate C l = some r) :
    r.report.KeepsOrTraps := by
  obtain ⟨x, -, rfl⟩ := Option.map_eq_some_iff.mp h
  exact .inl rfl

theorem fusedElem_keepsOrTraps (x3 x4 x2 : α) : (fusedElem C env x3 x4 x2).report.KeepsOrTraps := by
  unfold fusedElem
  split
  · next hnan => exact propagate_keepsOrTraps hnan
  split
  · split
    · exact stageResult_keepsOrTraps ..
    · exact invalidResult_keepsOrTraps C
  · exact invalidResult_keepsOrTraps C

theorem recipFinite_keepsOrTraps (den a : Bool) (m : Nat) (e : Int) (b : Bool) (n : Nat) (f : Int) :
    (recipFinite C A env fr den a m e b n f).report.KeepsOrTraps := by
  unfold recipFinite
  split
  · exact .inl rfl
  split
  · exact .inl rfl
  · exact stageResult_keepsOrTraps ..

theorem recipNum_keepsOrTraps (den : Bool) (x y : Numeric) : (recipNum C A env fr den x y).report.KeepsOrTraps := by
  unfold recipNum
  split
  · exact invalidResult_keepsOrTraps C
  · exact stageResult_keepsOrTraps ..
  · exact stageResult_keepsOrTraps ..
  · split_ifs
    · exact invalidResult_keepsOrTraps C
    · exact stageResult_keepsOrTraps ..
    · exact stageResult_keepsOrTraps ..
    · exact recipFinite_keepsOrTraps ..

theorem recipElem_keepsOrTraps (x2 x3 : α) : (recipElem C A env fr x2 x3).report.KeepsOrTraps := by
  unfold recipElem
  split
  · next hnan => exact propagate_keepsOrTraps hnan
  split
  · exact recipNum_keepsOrTraps ..
  · exact invalidResult_keepsOrTraps C

theorem rootNum_keepsOrTraps (approx : α) (den : Bool) (x : Numeric) :
    (rootNum C env fr approx den x).report.KeepsOrTraps := by
  unfold rootNum
  split
  · split_ifs
    · exact invalidResult_keepsOrTraps C
    · exact stageResult_keepsOrTraps ..
  · split_ifs
    · exact stageResult_keepsOrTraps ..
    · exact invalidResult_keepsOrTraps C
    · exact .inl rfl
    · exact stageResult_keepsOrTraps ..
    · exact .inl rfl

theorem rootElem_keepsOrTraps (approx x3 : α) : (rootElem C env fr approx x3).report.KeepsOrTraps := by
  unfold rootElem
  split
  · next hnan => exact propagate_keepsOrTraps hnan
  split
  · exact rootNum_keepsOrTraps ..
  · exact invalidResult_keepsOrTraps C

theorem convElem_keepsOrTraps (ctl : Controls) (uns trunc : Bool) (n : Nat) (x : α) :
    (convElem C ctl uns trunc n x).report.KeepsOrTraps := by
  unfold convElem
  split
  · dsimp only
    generalize roundToGrid _ _ _ _ = q
    split
    · exact .inl rfl
    · exact .inl rfl
  · exact .inl rfl

theorem minMaxElem_keepsOrTraps (op : MinMaxOp) (x2 x3 : α) : (minMaxElem C op x2 x3).report.KeepsOrTraps := by
  unfold minMaxElem
  split
  · exact .inl rfl
  split
  · exact invalidResult_keepsOrTraps C
  · exact .inl rfl

end

/-! The completion of every instruction. -/

/-- A completion on the fields given whose elements each keep the old flags or trap. -/
def State.KeepsOrTraps (s : State) (sf : SfNum) (f1 : RegNum) (p2 : Option PredNum) (own : Result) : Prop :=
  ∃ x low high, own = s.finish sf f1 p2 x low high ∧ low.KeepsOrTraps ∧ ∀ h ∈ high, h.KeepsOrTraps

section
variable {s : State} {sf : SfNum} {f1 : RegNum} {p2 : Option PredNum}

theorem State.finishNormal_keepsOrTraps {r : ElemResult Flt} (h : r.report.KeepsOrTraps) :
    s.KeepsOrTraps sf f1 p2 (s.finishNormal sf f1 p2 r) :=
  ⟨_, _, _, rfl, h, nofun⟩

theorem State.finishParallel_keepsOrTraps {high low : ElemResult Elem} (hhigh : high.report.KeepsOrTraps)
    (hlow : low.report.KeepsOrTraps) : s.KeepsOrTraps sf f1 p2 (s.finishParallel sf f1 p2 high low) :=
  ⟨_, _, _, rfl, hlow, fun _ hh => Option.some.inj hh ▸ hhigh⟩

theorem State.unlessNaT_keepsOrTraps {srcs : List RegNum} {own : Result} (h : s.KeepsOrTraps sf f1 p2 own) :
    s.KeepsOrTraps sf f1 p2 (s.unlessNaT sf f1 p2 srcs own) := by
  unfold State.unlessNaT
  split
  · exact ⟨_, _, _, rfl, .inl rfl, nofun⟩
  · exact h

end

/-- Every instruction is the guard around such a completion. -/
theorem exec_keepsOrTraps (i : Instr) (s : State) :
    ∃ own, exec i s = s.guarded i.qp i.pred i.dest i.sources own ∧ s.KeepsOrTraps i.sf i.dest i.pred own := by
  cases i with
  | fma a | fmaS a | fmaD a | fms a | fmsS a | fmsD a | fnma a | fnmaS a | fnmaD a =>
    exact ⟨_, rfl, State.unlessNaT_keepsOrTraps (State.finishNormal_keepsOrTraps (fusedElem_keepsOrTraps ..))⟩
  | fpma a | fpms a | fpnma a =>
    exact ⟨_, rfl, State.unlessNaT_keepsOrTraps
      (State.finishParallel_keepsOrTraps (fusedElem_keepsOrTraps ..) (fusedElem_keepsOrTraps ..))⟩
  | frcpa a =>
    exact ⟨_, rfl, State.unlessNaT_keepsOrTraps (State.finishNormal_keepsOrTraps (recipElem_keepsOrTraps ..))⟩
  | fprcpa a =>
    exact ⟨_, rfl, State.unlessNaT_keepsOrTraps
      (State.finishParallel_keepsOrTraps (recipElem_keepsOrTraps ..) (recipElem_keepsOrTraps ..))⟩
  | frsqrta a =>
    exact ⟨_, rfl, State.unlessNaT_keepsOrTraps (State.finishNormal_keepsOrTraps (rootElem_keepsOrTraps ..))⟩
  | fprsqrta a =>
    exact ⟨_, rfl, State.unlessNaT_keepsOrTraps
      (State.finishParallel_keepsOrTraps (rootElem_keepsOrTraps ..) (rootElem_keepsOrTraps ..))⟩
  | fcvt a =>
    refine ⟨_, rfl, State.unlessNaT_keepsOrTraps ?_⟩
    split
    · exact State.finishParallel_keepsOrTraps (convElem_keepsOrTraps ..) (convElem_keepsOrTraps ..)
    · exact State.finishNormal_keepsOrTraps (convElem_keepsOrTraps (regCarrier fmtRegister) ..)
  | fminmax a =>
    refine ⟨_, rfl, State.unlessNaT_keepsOrTraps ?_⟩
    split
    · exact State.finishParallel_keepsOrTraps (minMaxElem_keepsOrTraps ..) (minMaxElem_keepsOrTraps ..)
    · exact State.finishNormal_keepsOrTraps (minMaxElem_keepsOrTraps ..)

/-- Without a trap the flags are the old ones and those set. -/
theorem newFlags_of_trapOf_eq_none {low : Report} {high : Option Report} (hlow : low.KeepsOrTraps)
    (hhigh : ∀ h ∈ high, h.KeepsOrTraps) (htrap : trapOf low high = none) (old free : Flags) :
    ∃ f, newFlags old free low high = old.or f := by
  cases high with
  | none =>
    have hl : low.freed = false := hlow.resolve_right (by simpa [trapOf] using htrap)
    exact ⟨low.sets, by simp [newFlags, hl]⟩
  | some h =>
    have hnone : low.trap = none ∧ h.trap = none := by simpa [trapOf] using htrap
    have hl : low.freed = false := hlow.resolve_right (by simp [hnone])
    have hh : h.freed = false := (hhigh h rfl).resolve_right (by simp [hnone])
    exact ⟨low.sets.or h.sets, by simp [newFlags, hl, hh]⟩

theorem flagsOf_congr {v w : BitVec 64} {sf : SfNum} (h : ∀ k < 13, sfBit v sf k = sfBit w sf k) :
    flagsOf v sf = flagsOf w sf := by
  simp only [flagsOf, h, Nat.reduceLT]

/-- An instruction that ends without an interruption sets flags of its status field and clears none. -/
theorem exec_flagsOf_of_handler_none {i : Instr} {s t : State} (h : exec i s = .next t) (ht : t.handler = none)
    (sf : SfNum) : ∃ f, flagsOf t.fpsr sf = (flagsOf s.fpsr sf).or f := by
  by_cases hsf : sf = i.sf
  · subst hsf
    obtain ⟨own, hexec, x, low, high, rfl, hlow, hhigh⟩ := exec_keepsOrTraps i s
    obtain rfl | hfin := State.guarded_of_handler_none (hexec ▸ h) ht
    · exact ⟨{}, by simp⟩
    · obtain ⟨htrap, rfl⟩ := State.finish_of_handler_none hfin ht
      obtain ⟨f, hf⟩ := newFlags_of_trapOf_eq_none hlow hhigh htrap (flagsOf s.fpsr i.sf) (Config.swaFlags s.draws)
      exact ⟨f, by rw [State.tick_fpsr, State.advance_fpsr, State.commit_flagsOf, hf]⟩
  · exact ⟨{}, by rw [Flags.or_none, flagsOf_congr fun k hk => exec_sfBit_of_ne h hsf hk]⟩

/-- Settles O11: without a trap an operation ORs its flags into the old ones, and a nullified one leaves them. -/
theorem flagsStickyWithoutInterruption : Obligations.FlagsStickyWithoutInterruption := by
  unfold Obligations.FlagsStickyWithoutInterruption
  intro s t h ht sf
  obtain ⟨i, hi⟩ := exec_of_step h
  obtain ⟨f, hf⟩ := exec_flagsOf_of_handler_none hi ht sf
  rw [hf]
  simp +contextual [Flags.or]

end Sys2Proof.Machine
end

section
/-! The program (R34): a field that no update of the state writes. -/

namespace Sys2Proof.Machine

/-- The completion keeps the program: a fault and a trap only enter the vector, and the effects are registers and flags. -/
theorem State.finish_program {s t : State} {sf : SfNum} {f1 : RegNum} {p2 : Option PredNum} {x : Flt} {low : Report}
    {high : Option Report} (h : s.finish sf f1 p2 x low high = .next t) : t.program = s.program := by
  obtain rfl | ⟨-, rfl⟩ | ⟨code, -, rfl⟩ := State.finish_cases h
  · rw [State.interrupt_program]
  · rw [State.tick_program, State.advance_program, State.commit_program]
  · rw [State.interrupt_program, State.commit_program]

/-- An instruction keeps the program, whether it is nullified, takes the disabled register fault, or completes. -/
theorem exec_program {i : Instr} {s t : State} (h : exec i s = .next t) : t.program = s.program := by
  obtain ⟨-, rfl⟩ | ⟨-, -, rfl⟩ | ⟨-, x, low, high, hfin⟩ := exec_cases h
  · rw [State.tick_program, State.advance_program, State.writeOptP_program]
  · rw [State.interrupt_program]
  · exact State.finish_program hfin

/-- Settles O8: a step that answers a next state executes one instruction, and no instruction writes the program. -/
theorem programNeverModified : Obligations.ProgramNeverModified := by
  unfold Obligations.ProgramNeverModified
  intro s t h
  obtain ⟨i, hi⟩ := exec_of_step h
  exact exec_program hi

end Sys2Proof.Machine
end

section
/-! Where a step stops: past the last operation, at a vector, on a slot outside the table, or on a destination f0 or f1. -/

namespace Sys2Proof.Machine

variable {s : State}

/-- A slot without an instruction is one that no row of the table matches (R38). -/
theorem decode_eq_error_iff {w : BitVec 41} : decode w = .error .noRow ↔ ∀ r ∈ rows, r.hits w = false := by
  unfold decode
  split
  next r hr =>
    have hhits : r.hits w = true := List.find?_some (p := fun r : Row => r.hits w) hr
    exact iff_of_false nofun fun h => Bool.eq_false_iff.mp (h r (List.mem_of_find?_eq_some hr)) hhits
  next hr => exact iff_of_true rfl (by simpa using hr)

/-- Only a slot can lack an instruction: a decoded operation is one. -/
theorem Entry.instr_eq_none_iff {e : Entry} :
    e.instr = none ↔ ∃ w, e = .slot w ∧ ∀ r ∈ rows, r.hits w = false := by
  cases e with
  | op i => simp [Entry.instr]
  | slot w =>
    have herr : (Entry.slot w).instr = none ↔ decode w = .error .noRow := by
      cases hd : decode w with
      | ok i => simp [Entry.instr, hd]
      | error err => cases err; simp [Entry.instr, hd]
    simp [herr, decode_eq_error_iff]

theorem step_of_handler {a : BitVec 64} (h : s.handler = some a) : step s = .refused .handlerCode := by
  simp [step, h]

theorem step_of_fetch_none (h : s.handler = none) (hf : s.fetch = none) : step s = .fault .runEnded := by
  simp [step, h, hf]

theorem step_of_instr_none {e : Entry} (h : s.handler = none) (hf : s.fetch = some e) (he : e.instr = none) :
    step s = .refused .notInTable := by
  simp [step, h, hf, runEntry, he]

theorem step_of_instr {e : Entry} {i : Instr} (h : s.handler = none) (hf : s.fetch = some e) (he : e.instr = some i) :
    step s = exec i s := by
  simp [step, h, hf, runEntry, he]

/-- Everything a step can do: stop at a vector, at the end or on a slot outside the table, or execute one instruction. -/
theorem step_cases (s : State) :
    (∃ a, s.handler = some a ∧ step s = .refused .handlerCode) ∨
    (s.handler = none ∧ s.fetch = none ∧ step s = .fault .runEnded) ∨
    (∃ e, s.fetch = some e ∧ e.instr = none ∧ step s = .refused .notInTable) ∨
    ∃ e i, s.fetch = some e ∧ e.instr = some i ∧ step s = exec i s := by
  cases hh : s.handler with
  | some a => exact .inl ⟨a, rfl, step_of_handler hh⟩
  | none =>
    cases hf : s.fetch with
    | none => exact .inr (.inl ⟨rfl, rfl, step_of_fetch_none hh hf⟩)
    | some e =>
      cases he : e.instr with
      | none => exact .inr (.inr (.inl ⟨e, rfl, he, step_of_instr_none hh hf he⟩))
      | some i => exact .inr (.inr (.inr ⟨e, i, rfl, he, step_of_instr hh hf he⟩))

theorem exec_ne_refused (i : Instr) (s : State) (r : Refusal) : exec i s ≠ .refused r := by
  rcases exec_not_next (i := i) (s := s) with ⟨t, h⟩ | h <;> simp [h]

/-- An instruction faults only through the guard's check of its destination (R17). -/
theorem dest_of_exec_fault {i : Instr} {f : Fault} (h : exec i s = .fault f) : i.dest = 0 ∨ i.dest = 1 := by
  obtain ⟨x, low, high, hexec⟩ := exec_guarded i s
  obtain ⟨t, hfin⟩ := s.finish_next i.sf i.dest i.pred x low high
  rw [hexec, hfin] at h
  unfold State.guarded at h
  split_ifs at h with hqp hdis hdest
  exact hdest

/-- Before the end of the program a step out of a handler goes on, faults on f0 or f1, or refuses the slot. -/
theorem step_before_end (hh : s.handler = none) (hpos : s.pos < s.program.length) :
    (∃ t, step s = .next t) ∨ step s = .fault .hardwiredRegisterWrite ∨ step s = .refused .notInTable := by
  obtain ⟨a, ha, -⟩ | ⟨-, hf, -⟩ | ⟨e, -, -, hs⟩ | ⟨e, i, -, -, hs⟩ := step_cases s
  · cases hh.symm.trans ha
  · exact absurd (List.getElem?_eq_none_iff.mp hf) (Nat.not_le.mpr hpos)
  · exact .inr (.inr hs)
  · rw [hs]
    exact exec_not_next.imp_right .inl

theorem fetch_of_step_notInTable (h : step s = .refused .notInTable) :
    ∃ w, s.fetch = some (.slot w) ∧ ∀ r ∈ rows, r.hits w = false := by
  obtain ⟨a, -, hs⟩ | ⟨-, -, hs⟩ | ⟨e, hf, he, -⟩ | ⟨e, i, -, -, hs⟩ := step_cases s
  · cases hs.symm.trans h
  · cases hs.symm.trans h
  · obtain ⟨w, rfl, hrows⟩ := Entry.instr_eq_none_iff.mp he
    exact ⟨w, hf, hrows⟩
  · exact absurd (hs.symm.trans h) (exec_ne_refused i s _)

theorem dest_of_step_hardwired (h : step s = .fault .hardwiredRegisterWrite) :
    ∃ e i, s.fetch = some e ∧ e.instr = some i ∧ (i.dest = 0 ∨ i.dest = 1) := by
  obtain ⟨a, -, hs⟩ | ⟨-, -, hs⟩ | ⟨e, -, -, hs⟩ | ⟨e, i, hf, he, hs⟩ := step_cases s
  · cases hs.symm.trans h
  · cases hs.symm.trans h
  · cases hs.symm.trans h
  · exact ⟨e, i, hf, he, dest_of_exec_fault (hs.symm.trans h)⟩

/-- Settles O5: the branches of the step name each stop, and an instruction it executes is never refused and faults only
through the guard. -/
theorem stepStopsOnlyByName : Obligations.StepStopsOnlyByName := by
  unfold Obligations.StepStopsOnlyByName
  exact fun s => ⟨fun hh hpos => step_of_fetch_none hh (List.getElem?_eq_none_iff.mpr hpos), fun _ => step_of_handler,
    step_before_end, fun w hh hf hrows => step_of_instr_none hh hf (Entry.instr_eq_none_iff.mpr ⟨w, rfl, hrows⟩),
    fetch_of_step_notInTable, dest_of_step_hardwired⟩

end Sys2Proof.Machine
end

section
/-! The branches of the exception stage (R56 to R60): an equation for each, and what a stage run on a value can end in, said
once. -/

namespace Sys2Proof.Machine

/-- The trap-enabled response (R48, R53): the unbounded-range rounded value, the flags and the trap `k`. -/
@[simp] def enabledResponse (neg : Bool) (r : Rounded) (k : TrapCode) : StageOut :=
  ⟨.rounded neg r.exp r.sig, ⟨k.o, k.u, k.i⟩, false, some k⟩

/-- The Software Assist response (R63): the same value and trap, with any flags. -/
@[simp] def assistResponse (neg : Bool) (r : Rounded) (k : TrapCode) : StageOut :=
  ⟨.rounded neg r.exp r.sig, {}, true, some k⟩

section
variable {v : StageEnv} (neg : Bool) (m : Mag) (r : Rounded)

theorem overflowStage_enabled (hen : v.ctl.ovfEn = true) :
    overflowStage v neg r = enabledResponse neg r ⟨true, false, r.i, r.fpa⟩ := if_pos hen

theorem overflowStage_assist (hen : v.ctl.ovfEn = false) (hswa : v.swa = true) :
    overflowStage v neg r = assistResponse neg r ⟨true, false, r.i, r.fpa⟩ := by
  simp [overflowStage, hen, hswa]

theorem overflowStage_disabled (hen : v.ctl.ovfEn = false) (hswa : v.swa = false) :
    overflowStage v neg r = inexactTail v.ctl (if ovfIsInfinity v.ctl.rc neg v.op then .infinity neg else .maxReal neg)
      { o := true } (ovfIsInfinity v.ctl.rc neg v.op) := by
  simp [overflowStage, hen, hswa]

theorem tinyStage_enabled (hen : v.ctl.unfEn = true) :
    tinyStage v neg m r = enabledResponse neg r ⟨false, true, r.i, r.fpa⟩ := if_pos hen

theorem tinyStage_flushed (hen : v.ctl.unfEn = false) (hftz : v.ctl.ftz = true) :
    tinyStage v neg m r = inexactTail v.ctl (.zero neg) { u := true } false := by
  simp [tinyStage, hen, hftz]

theorem tinyStage_assist (hen : v.ctl.unfEn = false) (hftz : v.ctl.ftz = false) (hswa : v.swa = true) :
    tinyStage v neg m r = assistResponse neg r ⟨false, true, r.i, r.fpa⟩ := by
  simp [tinyStage, hen, hftz, hswa]

theorem tinyStage_exact {q : Quantized} (hq : q = roundBounded m v.fmt.p v.fmt.emin v.ctl.rc neg)
    (hen : v.ctl.unfEn = false) (hftz : v.ctl.ftz = false) (hswa : v.swa = false) (hi : q.i = false) :
    tinyStage v neg m r = stageDone (.bounded neg q.k) := by
  simp [tinyStage, hen, hftz, hswa, ← hq, hi]

theorem tinyStage_inexact {q : Quantized} (hq : q = roundBounded m v.fmt.p v.fmt.emin v.ctl.rc neg)
    (hen : v.ctl.unfEn = false) (hftz : v.ctl.ftz = false) (hswa : v.swa = false) (hi : q.i = true) :
    tinyStage v neg m r = inexactTail v.ctl (.bounded neg q.k) { u := true } q.fpa := by
  simp [tinyStage, hen, hftz, hswa, ← hq, hi]

variable {r}

theorem inRangeStage_exact (hi : r.i = false) : inRangeStage v neg r = stageDone (.rounded neg r.exp r.sig) := by
  simp [inRangeStage, hi]

theorem inRangeStage_assist (hi : r.i = true) (hen : v.ctl.inxEn = false) (hswa : v.swa = true) :
    inRangeStage v neg r = assistResponse neg r ⟨false, false, true, r.fpa⟩ := by
  simp [inRangeStage, hi, hen, hswa]

theorem inRangeStage_inexact (hi : r.i = true) (h : v.ctl.inxEn = true ∨ v.swa = false) :
    inRangeStage v neg r = inexactTail v.ctl (.rounded neg r.exp r.sig) {} r.fpa := by
  rcases h with h | h <;> simp [inRangeStage, hi, h]

end

section
variable {v : StageEnv} {neg : Bool} {m : Mag} {r : Rounded} (hr : r = roundUnbounded m v.fmt.p v.ctl.rc neg)
include hr

/-! The three-way split of R56. -/

theorem fpStage_of_overflow (hmax : v.fmt.emax < r.exp) : fpStage v (.value neg m) = overflowStage v neg r := by
  subst hr
  exact if_pos hmax

theorem fpStage_of_tiny (hmax : r.exp ≤ v.fmt.emax) (hmin : r.exp < v.fmt.emin) :
    fpStage v (.value neg m) = tinyStage v neg m r := by
  subst hr
  exact (if_neg (not_lt.mpr hmax)).trans (if_pos hmin)

theorem fpStage_of_inRange (hmin : v.fmt.emin ≤ r.exp) (hmax : r.exp ≤ v.fmt.emax) :
    fpStage v (.value neg m) = inRangeStage v neg r := by
  subst hr
  exact (if_neg (not_lt.mpr hmax)).trans (if_neg (not_lt.mpr hmin))

end

/-- The branches of the stage on a value that `r` is the unbounded-range rounding of: the guards of each and its outcome. -/
inductive StageBranch (v : StageEnv) (neg : Bool) (m : Mag) (r : Rounded) : StageOut → Prop
  | overflowEnabled (hmax : v.fmt.emax < r.exp) (hen : v.ctl.ovfEn = true) :
    StageBranch v neg m r (enabledResponse neg r ⟨true, false, r.i, r.fpa⟩)
  | overflowAssist (hmax : v.fmt.emax < r.exp) (hen : v.ctl.ovfEn = false) (hswa : v.swa = true) :
    StageBranch v neg m r (assistResponse neg r ⟨true, false, r.i, r.fpa⟩)
  | overflowDisabled (hmax : v.fmt.emax < r.exp) (hen : v.ctl.ovfEn = false) (hswa : v.swa = false) :
    StageBranch v neg m r (inexactTail v.ctl (if ovfIsInfinity v.ctl.rc neg v.op then .infinity neg else .maxReal neg)
      { o := true } (ovfIsInfinity v.ctl.rc neg v.op))
  | tinyEnabled (hmax : r.exp ≤ v.fmt.emax) (hmin : r.exp < v.fmt.emin) (hen : v.ctl.unfEn = true) :
    StageBranch v neg m r (enabledResponse neg r ⟨false, true, r.i, r.fpa⟩)
  | tinyFlushed (hmax : r.exp ≤ v.fmt.emax) (hmin : r.exp < v.fmt.emin) (hen : v.ctl.unfEn = false)
    (hftz : v.ctl.ftz = true) : StageBranch v neg m r (inexactTail v.ctl (.zero neg) { u := true } false)
  | tinyAssist (hmax : r.exp ≤ v.fmt.emax) (hmin : r.exp < v.fmt.emin) (hen : v.ctl.unfEn = false)
    (hftz : v.ctl.ftz = false) (hswa : v.swa = true) :
    StageBranch v neg m r (assistResponse neg r ⟨false, true, r.i, r.fpa⟩)
  | tinyExact (q : Quantized) (hq : q = roundBounded m v.fmt.p v.fmt.emin v.ctl.rc neg) (hmax : r.exp ≤ v.fmt.emax)
    (hmin : r.exp < v.fmt.emin) (hen : v.ctl.unfEn = false) (hftz : v.ctl.ftz = false) (hswa : v.swa = false)
    (hi : q.i = false) : StageBranch v neg m r (stageDone (.bounded neg q.k))
  | tinyInexact (q : Quantized) (hq : q = roundBounded m v.fmt.p v.fmt.emin v.ctl.rc neg) (hmax : r.exp ≤ v.fmt.emax)
    (hmin : r.exp < v.fmt.emin) (hen : v.ctl.unfEn = false) (hftz : v.ctl.ftz = false) (hswa : v.swa = false)
    (hi : q.i = true) : StageBranch v neg m r (inexactTail v.ctl (.bounded neg q.k) { u := true } q.fpa)
  | inRangeExact (hmin : v.fmt.emin ≤ r.exp) (hmax : r.exp ≤ v.fmt.emax) (hi : r.i = false) :
    StageBranch v neg m r (stageDone (.rounded neg r.exp r.sig))
  | inRangeAssist (hmin : v.fmt.emin ≤ r.exp) (hmax : r.exp ≤ v.fmt.emax) (hi : r.i = true)
    (hen : v.ctl.inxEn = false) (hswa : v.swa = true) :
    StageBranch v neg m r (assistResponse neg r ⟨false, false, true, r.fpa⟩)
  | inRangeInexact (hmin : v.fmt.emin ≤ r.exp) (hmax : r.exp ≤ v.fmt.emax) (hi : r.i = true)
    (h : v.ctl.inxEn = true ∨ v.swa = false) :
    StageBranch v neg m r (inexactTail v.ctl (.rounded neg r.exp r.sig) {} r.fpa)

section
variable {v : StageEnv} {neg : Bool} {m : Mag} {r : Rounded}

theorem overflowStage_branch (hmax : v.fmt.emax < r.exp) : StageBranch v neg m r (overflowStage v neg r) := by
  cases hen : v.ctl.ovfEn
  · cases hswa : v.swa
    · exact overflowStage_disabled neg r hen hswa ▸ .overflowDisabled hmax hen hswa
    · exact overflowStage_assist neg r hen hswa ▸ .overflowAssist hmax hen hswa
  · exact overflowStage_enabled neg r hen ▸ .overflowEnabled hmax hen

theorem tinyStage_branch (hmax : r.exp ≤ v.fmt.emax) (hmin : r.exp < v.fmt.emin) :
    StageBranch v neg m r (tinyStage v neg m r) := by
  cases hen : v.ctl.unfEn
  · cases hftz : v.ctl.ftz
    · cases hswa : v.swa
      · cases hi : (roundBounded m v.fmt.p v.fmt.emin v.ctl.rc neg).i
        · exact tinyStage_exact neg m r rfl hen hftz hswa hi ▸ .tinyExact _ rfl hmax hmin hen hftz hswa hi
        · exact tinyStage_inexact neg m r rfl hen hftz hswa hi ▸ .tinyInexact _ rfl hmax hmin hen hftz hswa hi
      · exact tinyStage_assist neg m r hen hftz hswa ▸ .tinyAssist hmax hmin hen hftz hswa
    · exact tinyStage_flushed neg m r hen hftz ▸ .tinyFlushed hmax hmin hen hftz
  · exact tinyStage_enabled neg m r hen ▸ .tinyEnabled hmax hmin hen

theorem inRangeStage_branch (hmin : v.fmt.emin ≤ r.exp) (hmax : r.exp ≤ v.fmt.emax) :
    StageBranch v neg m r (inRangeStage v neg r) := by
  cases hi : r.i
  · exact inRangeStage_exact neg hi ▸ .inRangeExact hmin hmax hi
  · by_cases h : v.ctl.inxEn = true ∨ v.swa = false
    · exact inRangeStage_inexact neg hi h ▸ .inRangeInexact hmin hmax hi h
    · obtain ⟨hen, hswa⟩ := not_or.mp h
      rw [Bool.not_eq_true] at hen
      rw [Bool.not_eq_false] at hswa
      exact inRangeStage_assist neg hi hen hswa ▸ .inRangeAssist hmin hmax hi hen hswa

/-- What a stage run on a value can end in. -/
theorem fpStage_branch (hr : r = roundUnbounded m v.fmt.p v.ctl.rc neg) :
    StageBranch v neg m r (fpStage v (.value neg m)) := by
  rcases lt_or_ge v.fmt.emax r.exp with hmax | hmax
  · exact fpStage_of_overflow hr hmax ▸ overflowStage_branch hmax
  rcases lt_or_ge r.exp v.fmt.emin with hmin | hmin
  · exact fpStage_of_tiny hr hmax hmin ▸ tinyStage_branch hmax hmin
  · exact fpStage_of_inRange hr hmin hmax ▸ inRangeStage_branch hmin hmax

end

end Sys2Proof.Machine
end

section
/-! The responses of the stage (R46, R48, R52, R53, R54, R59, R60) and the images of a value with a wrapped exponent. -/

namespace Sys2Proof.Machine

theorem toNat_ofInt_cast (n : Nat) (e : Int) : ((BitVec.ofInt n e).toNat : Int) = e % 2 ^ n := by
  rw [BitVec.toNat_ofInt, Int.toNat_of_nonneg (Int.emod_nonneg _ (by positivity)), Nat.cast_pow, Nat.cast_ofNat]

/-- The places of the fields of an element (R20). -/
theorem getLsbD_elemOf (neg : Bool) (e : BitVec 8) (f : BitVec 23) (k : Nat) :
    (elemOf neg e f).getLsbD k =
      if k < 23 then f.getLsbD k else if k - 23 < 8 then e.getLsbD (k - 23) else (BitVec.ofBool neg).getLsbD (k - 23 - 8) :=
  (BitVec.getLsbD_append (x := BitVec.ofBool neg ++ e) (y := f)).trans (by rw [BitVec.getLsbD_append])

theorem elemOf_exponent (neg : Bool) (e : BitVec 8) (f : BitVec 23) : (elemOf neg e f).extractLsb' 23 8 = e := by
  ext i hi
  simp [getLsbD_elemOf, hi]

theorem elemOf_fraction (neg : Bool) (e : BitVec 8) (f : BitVec 23) : (elemOf neg e f).extractLsb' 0 23 = f := by
  ext i hi
  simp [getLsbD_elemOf, hi]

theorem elemOf_sign (neg : Bool) (e : BitVec 8) (f : BitVec 23) : (elemOf neg e f).getLsbD 31 = neg := by
  rw [getLsbD_elemOf]
  simp

/-- The register and the element image of a value whose exponent may wrap (R48, R53, R64). -/
theorem rounded_images (fmt : Fmt) (neg : Bool) (e : Int) (k : Nat) :
    (encodeReg fmt (.rounded neg e k)).neg = neg ∧
    ((encodeReg fmt (.rounded neg e k)).exp.toNat : Int) = (e + regBias) % 2 ^ 17 ∧
    (encodeReg fmt (.rounded neg e k)).sig = BitVec.ofNat 64 (k * 2 ^ (64 - fmt.p)) ∧
    (((encodeElem (.rounded neg e k)).extractLsb' 23 8).toNat : Int) = (e + pfpBias) % 2 ^ 8 ∧
    (encodeElem (.rounded neg e k)).extractLsb' 0 23 = BitVec.ofNat 23 k ∧
    (encodeElem (.rounded neg e k)).getLsbD 31 = neg := by
  refine ⟨rfl, toNat_ofInt_cast .., rfl, ?_, elemOf_fraction .., elemOf_sign ..⟩
  rw [encodeElem, elemOf_exponent, toNat_ofInt_cast]

/-- Settles O44: the enabled branch of an overflow delivers the rounded value with its exponent wrapped. -/
theorem overflowEnabledResponse : Obligations.OverflowEnabledResponse := by
  unfold Obligations.OverflowEnabledResponse
  rintro v neg m r o hr rfl hmax hen
  rw [fpStage_of_overflow hr hmax, overflowStage_enabled neg r hen]
  exact ⟨rfl, rfl, rfl, rounded_images ..⟩

/-- The table of R47. -/
theorem ovfIsInfinity_iff (rc : RoundMode) (neg : Bool) (op : ArithOp) :
    ovfIsInfinity rc neg op = true ↔ rc = .rn ∨ (rc = .rp ∧ neg = false) ∨ (rc = .rm ∧ neg = true) := by
  cases rc <;> simp [ovfIsInfinity]

theorem inexactTail_trap (c : Controls) (dest : Delivered) (sets : Flags) (fpa : Bool) :
    (inexactTail c dest sets fpa).trap = if c.inxEn then some ⟨false, false, true, fpa⟩ else none := rfl

/-- Settles O45: the disabled branch of an overflow is the inexact tail on the result the table of R47 gives. -/
theorem overflowDisabledResponse : Obligations.OverflowDisabledResponse := by
  unfold Obligations.OverflowDisabledResponse
  rintro v neg m r o inf hr rfl hmax hen hswa hinf
  obtain rfl : ovfIsInfinity v.ctl.rc neg v.op = inf := Bool.eq_iff_iff.mpr ((ovfIsInfinity_iff ..).trans hinf.symm)
  rw [fpStage_of_overflow hr hmax, overflowStage_disabled neg r hen hswa, inexactTail_trap]
  exact ⟨rfl, rfl, rfl, fun hinx => by rw [hinx]; rfl, fun hinx => if_pos hinx⟩

/-- Settles O46: the enabled branch of a tiny result delivers the rounded value with its exponent wrapped. -/
theorem underflowEnabledResponse : Obligations.UnderflowEnabledResponse := by
  unfold Obligations.UnderflowEnabledResponse
  rintro v neg m r o hr rfl hle hmin hen
  rw [fpStage_of_tiny hr (hmin.le.trans hle) hmin, tinyStage_enabled neg m r hen]
  exact ⟨rfl, rfl, rfl, rounded_images ..⟩

/-- A carry only raises the exponent. -/
theorem ilog_le_roundUnbounded_exp (m : Mag) (p : Nat) (rc : RoundMode) (neg : Bool) :
    m.ilog ≤ (roundUnbounded m p rc neg).exp := by
  obtain ⟨-, hr⟩ | ⟨-, hr⟩ := roundUnbounded_cases (m := m) (p := p) (rc := rc) (neg := neg) rfl <;> rw [hr]
  exact Int.le_add_one le_rfl

/-- On the grid of EMIN a magnitude below `2^EMIN` rounds to the smallest normal at most (R52). -/
theorem roundToGrid_k_le_of_lt {m : Mag} {x : ℝ} {p : Nat} {emin : Int} {rc : RoundMode} {neg : Bool}
    (hv : m.hasValue x) (hlt : x < 2 ^ emin) :
    (roundToGrid m (emin - ((p : Int) - 1)) rc neg).k ≤ 2 ^ (p - 1) := by
  have hgrid : (2 : ℝ) ^ emin ≤ 2 ^ (p - 1) * 2 ^ (emin - ((p : Int) - 1)) := by
    rw [two_pow_mul_zpow rfl]
    exact zpow_le_zpow_right₀ one_le_two (by omega)
  obtain ⟨-, herr⟩ := abs_lt.mp (roundToGrid_error_lt (g := emin - ((p : Int) - 1)) (rc := rc) (neg := neg) hv)
  have hstep : (0 : ℝ) ≤ 2 ^ (emin - ((p : Int) - 1)) := by positivity
  have hk : ((roundToGrid m (emin - ((p : Int) - 1)) rc neg).k : ℝ) < 2 ^ (p - 1) + 1 :=
    lt_of_mul_lt_mul_right (by linarith) hstep
  exact Nat.lt_succ_iff.mp (by exact_mod_cast hk)

/-- Settles O47: the disabled branch of a tiny result rounds the exact value again, which lies below `2^EMIN`. -/
theorem underflowDisabledResponse : Obligations.UnderflowDisabledResponse := by
  unfold Obligations.UnderflowDisabledResponse
  rintro v neg m q o hq rfl hle hmin hen hftz hswa
  have hk : ∀ x, m.hasValue x → 0 < x → q.k ≤ 2 ^ (v.fmt.p - 1) := fun x hv hpos => by
    have hilog := (ilog_le_roundUnbounded_exp ..).trans_lt hmin
    have hlt := (Mag.ilog_bounds hv hpos).2.trans_le (zpow_le_zpow_right₀ one_le_two hilog)
    exact hq ▸ roundToGrid_k_le_of_lt hv hlt
  rw [fpStage_of_tiny rfl (hmin.le.trans hle) hmin]
  cases hi : q.i
  · rw [tinyStage_exact neg m _ hq hen hftz hswa hi]
    exact ⟨rfl, rfl, hk, fun _ => ⟨rfl, rfl⟩, nofun⟩
  · rw [tinyStage_inexact neg m _ hq hen hftz hswa hi]
    exact ⟨rfl, rfl, hk, nofun, fun _ => ⟨rfl, rfl⟩⟩

theorem encodeElem_zero (neg : Bool) : encodeElem (.zero neg) = BitVec.ofBool neg ++ 0#31 := by
  cases neg <;> decide

/-- Settles O48: the Flush-to-Zero branch comes before the draw and is the inexact tail on a zero. -/
theorem flushToZero : Obligations.FlushToZero := by
  unfold Obligations.FlushToZero
  rintro v neg m o rfl hle hmin hen hftz
  rw [fpStage_of_tiny rfl (hmin.le.trans hle) hmin, tinyStage_flushed neg m _ hen hftz]
  exact ⟨rfl, rfl, encodeElem_zero neg, rfl, rfl, rfl⟩

/-- Settles O49: an in-range result is exact, inexact with software assistance, or ends in the inexact tail. -/
theorem inRangeResponse : Obligations.InRangeResponse := by
  unfold Obligations.InRangeResponse
  rintro v neg m r o hr rfl hmin hmax
  rw [fpStage_of_inRange hr hmin hmax]
  cases hi : r.i
  · rw [inRangeStage_exact neg hi]
    exact ⟨rfl, fun _ => ⟨rfl, rfl, rfl⟩, nofun, nofun, nofun⟩
  cases hen : v.ctl.inxEn
  · cases hswa : v.swa
    · rw [inRangeStage_inexact neg hi (.inr hswa), inexactTail_trap, hen]
      exact ⟨rfl, nofun, nofun, fun _ _ _ => ⟨rfl, rfl, rfl⟩, nofun⟩
    · rw [inRangeStage_assist neg hi hen hswa]
      exact ⟨rfl, nofun, nofun, nofun, fun _ _ _ => ⟨rfl, rfl⟩⟩
  · rw [inRangeStage_inexact neg hi (.inl hen), inexactTail_trap, hen]
    exact ⟨rfl, nofun, fun _ _ => ⟨rfl, rfl, rfl⟩, nofun, nofun⟩

end Sys2Proof.Machine
end

section
/-! Traps of the stage (R40, R61 to R63): when one is raised, and when it is a Software Assist trap. -/

namespace Sys2Proof.Machine

variable {v : StageEnv} {neg : Bool} {m : Mag} {r : Rounded} {o : StageOut}

/-! The points of R62, one for each range of the exponent. -/

theorem swaAdmitted_of_overflow (hle : v.fmt.emin ≤ v.fmt.emax) (hmax : v.fmt.emax < r.exp) :
    swaAdmitted v r ↔ v.ctl.ovfEn = false := by
  simp [swaAdmitted, hmax, (hle.trans hmax.le).not_gt, hmax.not_ge]

theorem swaAdmitted_of_tiny (hmax : r.exp ≤ v.fmt.emax) (hmin : r.exp < v.fmt.emin) :
    swaAdmitted v r ↔ v.ctl.unfEn = false ∧ v.ctl.ftz = false := by
  simp [swaAdmitted, hmax.not_gt, hmin, hmin.not_ge]

theorem swaAdmitted_of_inRange (hmin : v.fmt.emin ≤ r.exp) (hmax : r.exp ≤ v.fmt.emax) :
    swaAdmitted v r ↔ r.i = true ∧ v.ctl.inxEn = false := by
  simp [swaAdmitted, hmax.not_gt, hmin.not_gt, hmin, hmax]

/-- The flags are given up exactly where software assistance is asked for and admitted. -/
theorem StageBranch.freed_iff (h : StageBranch v neg m r o) (hle : v.fmt.emin ≤ v.fmt.emax) :
    o.freed = true ↔ v.swa = true ∧ swaAdmitted v r := by
  cases h with
  | overflowEnabled hmax | overflowAssist hmax | overflowDisabled hmax =>
    simp [swaAdmitted_of_overflow hle hmax, inexactTail, *]
  | tinyEnabled hmax hmin | tinyFlushed hmax hmin | tinyAssist hmax hmin | tinyExact _ _ hmax hmin
  | tinyInexact _ _ hmax hmin => simp [swaAdmitted_of_tiny hmax hmin, inexactTail, stageDone, *]
  | inRangeExact hmin hmax | inRangeAssist hmin hmax => simp [swaAdmitted_of_inRange hmin hmax, stageDone, *]
  | inRangeInexact hmin hmax hi h => rcases h with h | h <;> simp [swaAdmitted_of_inRange hmin hmax, inexactTail, hi, h]

theorem inexactTail_trap_isSome (c : Controls) (dest : Delivered) (sets : Flags) (fpa : Bool) :
    (inexactTail c dest sets fpa).trap.isSome = c.inxEn := by
  rw [inexactTail_trap]
  cases c.inxEn <;> rfl

/-- A trap is that of a branch which gives up the flags, of an enabled range, or of the inexact tail. -/
theorem StageBranch.trap_isSome_iff (h : StageBranch v neg m r o) (hle : v.fmt.emin ≤ v.fmt.emax) :
    o.trap.isSome = true ↔ o.freed = true ∨ (v.ctl.ovfEn = true ∧ v.fmt.emax < r.exp) ∨
      (v.ctl.unfEn = true ∧ r.exp < v.fmt.emin) ∨ (v.ctl.inxEn = true ∧ o.sets.i = true) := by
  cases h with
  | overflowEnabled hmax hen => simp [hmax, hen]
  | tinyEnabled hmax hmin hen => simp [hmin, hen]
  | overflowAssist | tinyAssist | inRangeAssist => simp
  | overflowDisabled hmax hen =>
    rw [inexactTail_trap_isSome]
    simp [inexactTail, hen, (hle.trans hmax.le).not_gt]
  | tinyFlushed hmax _ hen | tinyInexact _ _ hmax _ hen =>
    rw [inexactTail_trap_isSome]
    simp [inexactTail, hen, hmax.not_gt]
  | inRangeInexact hmin hmax =>
    rw [inexactTail_trap_isSome]
    simp [inexactTail, hmin.not_gt, hmax.not_gt]
  | tinyExact _ _ hmax _ hen => simp [stageDone, hen, hmax.not_gt]
  | inRangeExact hmin hmax => simp [stageDone, hmin.not_gt, hmax.not_gt]

/-- Settles O51: a trap has one of four causes, and the flags are given up for the first of them alone. -/
theorem fourCausesOfATrap : Obligations.FourCausesOfATrap := by
  unfold Obligations.FourCausesOfATrap
  rintro v neg m r o hr rfl hle
  have hb := fpStage_branch hr
  exact ⟨(hb.trap_isSome_iff hle).trans (or_congr_left (hb.freed_iff hle)), hb.freed_iff hle⟩

/-- The inexact tail traps with `i` alone, when its trap is enabled. -/
theorem inexactTail_trap_eq_some {c : Controls} {dest : Delivered} {sets : Flags} {fpa : Bool} {k : TrapCode}
    (h : (inexactTail c dest sets fpa).trap = some k) : c.inxEn = true ∧ k = ⟨false, false, true, fpa⟩ := by
  rw [inexactTail_trap] at h
  split_ifs at h with hen
  exact ⟨hen, (Option.some.inj h).symm⟩

/-- Settles O52: each trap of a branch has the bit of an enabled trap, or gives up the flags and has that of a disabled one. -/
theorem softwareAssistIndication : Obligations.SoftwareAssistIndication := by
  unfold Obligations.SoftwareAssistIndication
  rintro v neg m r o k hr rfl hk
  have hb := fpStage_branch hr
  generalize fpStage v (.value neg m) = o at hb hk
  cases hb with
  | overflowEnabled _ hen | overflowAssist _ hen | tinyEnabled _ _ hen | tinyAssist _ _ hen | inRangeAssist _ _ _ hen =>
    obtain rfl := Option.some.inj hk
    simp [hen]
  | overflowDisabled | tinyFlushed | tinyInexact | inRangeInexact =>
    obtain ⟨hen, rfl⟩ := inexactTail_trap_eq_some hk
    simp [inexactTail, hen]
  | tinyExact | inRangeExact => cases hk

/-- The value and the trap of a branch that gives up the flags. -/
theorem StageBranch.assist_of_freed (h : StageBranch v neg m r o) (hfreed : o.freed = true)
    (hle : v.fmt.emin ≤ v.fmt.emax) :
    o.dest = .rounded neg r.exp r.sig ∧
      o.trap = some ⟨decide (v.fmt.emax < r.exp), decide (r.exp < v.fmt.emin), r.i, r.fpa⟩ := by
  cases h with
  | overflowAssist hmax => simp [hmax, hle.trans hmax.le]
  | tinyAssist hmax hmin => simp [hmax, hmin]
  | inRangeAssist hmin hmax hi => simp [hmin, hmax, hi]
  | _ => cases hfreed

/-- Settles O53: the flags are given up exactly at the points of R62, and there the range of the exponent gives the trap. -/
theorem softwareAssistDelivery : Obligations.SoftwareAssistDelivery := by
  unfold Obligations.SoftwareAssistDelivery
  rintro v neg m r o hr rfl hle
  have hb := fpStage_branch hr
  refine ⟨fun hswa => ⟨fun hmax hen => ?_, fun hmin hen hftz => ?_, fun hmin hmax hi hen => ?_⟩, fun hfreed => ?_⟩
  · exact (hb.freed_iff hle).mpr ⟨hswa, (swaAdmitted_of_overflow hle hmax).mpr hen⟩
  · exact (hb.freed_iff hle).mpr ⟨hswa, (swaAdmitted_of_tiny (hmin.le.trans hle) hmin).mpr ⟨hen, hftz⟩⟩
  · exact (hb.freed_iff hle).mpr ⟨hswa, (swaAdmitted_of_inRange hmin hmax).mpr ⟨hi, hen⟩⟩
  · obtain ⟨hswa, hadm⟩ := (hb.freed_iff hle).mp hfreed
    obtain ⟨hdest, htrap⟩ := hb.assist_of_freed hfreed hle
    exact ⟨hswa, hdest, htrap, fun hmax => (swaAdmitted_of_overflow hle hmax).mp hadm,
      fun hmin => (swaAdmitted_of_tiny (hmin.le.trans hle) hmin).mp hadm,
      fun hmin hmax => (swaAdmitted_of_inRange hmin hmax).mp hadm⟩

/-- A result that is not tiny signals no underflow. -/
theorem StageBranch.sets_u_of_emin_le (h : StageBranch v neg m r o) (hmin : v.fmt.emin ≤ r.exp) : o.sets.u = false := by
  cases h with
  | overflowEnabled | overflowAssist | overflowDisabled | inRangeExact | inRangeAssist | inRangeInexact => rfl
  | tinyEnabled _ hlt | tinyFlushed _ hlt | tinyAssist _ hlt | tinyExact _ _ _ hlt | tinyInexact _ _ _ hlt =>
    exact absurd hlt hmin.not_gt

/-- Settles O56: for a tiny result it is O46 or O47, and no other result sets flag u. -/
theorem underflowSignaledWhen : Obligations.UnderflowSignaledWhen := by
  unfold Obligations.UnderflowSignaledWhen
  rintro v neg m o tiny q rfl hle hftz hswa htiny hq
  cases tiny with
  | false =>
    have hmin := not_lt.mp (mt htiny.mpr Bool.false_ne_true)
    simp [(fpStage_branch rfl).sets_u_of_emin_le hmin]
  | true =>
    have hmin := htiny.mp rfl
    cases hen : v.ctl.unfEn with
    | true =>
      obtain ⟨-, hsets, -⟩ := underflowEnabledResponse v neg m _ _ rfl rfl hle hmin hen
      simp [hsets]
    | false =>
      obtain ⟨hdest, -, -, hexact, hinexact⟩ := underflowDisabledResponse v neg m q _ hq rfl hle hmin hen hftz hswa
      cases hi : q.i with
      | true => simp [(hinexact hi).1]
      | false => simp [hexact hi, hdest]

end Sys2Proof.Machine
end

section
/-! `ISR.fpa` (R42): the magnitude delivered against the exact one. -/

namespace Sys2Proof.Machine

variable {fmt : Fmt} {m : Mag} {rc : RoundMode} {neg : Bool} {x : ℝ}

theorem destFormats_p_pos (h : fmt ∈ destFormats) : 0 < fmt.p := by
  revert fmt
  decide

theorem roundUnbounded_fpa_iff_above (hv : m.hasValue x) (hp : 0 < fmt.p) :
    (roundUnbounded m fmt.p rc neg).fpa = true ↔
      deliveredAbove fmt (.rounded neg (roundUnbounded m fmt.p rc neg).exp (roundUnbounded m fmt.p rc neg).sig) x := by
  rw [deliveredAbove, roundUnbounded_value hp, roundUnbounded_fpa, roundToGrid_fpa_iff_lt hv]

theorem roundBounded_fpa_iff_above (hv : m.hasValue x) :
    (roundBounded m fmt.p fmt.emin rc neg).fpa = true ↔
      deliveredAbove fmt (.bounded neg (roundBounded m fmt.p fmt.emin rc neg).k) x :=
  roundToGrid_fpa_iff_lt hv

/-- A direction whose overflow response is the maximum finite value rounds magnitudes down. -/
theorem roundToGrid_fpa_of_not_ovfIsInfinity {op : ArithOp} {g : Int} (h : ovfIsInfinity rc neg op = false) :
    (roundToGrid m g rc neg).fpa = false := by
  cases rc with
  | rn => cases h
  | rz => exact roundToGrid_rz_fpa
  | rp =>
    obtain rfl : neg = true := by simpa [ovfIsInfinity] using h
    rw [roundToGrid_rp_fpa, Bool.not_true, Bool.and_false]
  | rm =>
    obtain rfl : neg = false := h
    rw [roundToGrid_rm_fpa, Bool.and_false]

theorem maxRealRat_le (fmt : Fmt) : (maxRealRat fmt : ℝ) ≤ 2 ^ (fmt.emax + 1) := by
  have hstep : (0 : ℝ) ≤ 2 ^ (1 - (fmt.p : Int)) := by positivity
  rw [maxRealRat, zpow_add_one₀ two_ne_zero, mul_comm _ (2 : ℝ)]
  push_cast
  gcongr
  linarith

/-- A value that overflows after being rounded down is no less than the maximum finite value. -/
theorem not_maxReal_above {op : ArithOp} (hv : m.hasValue x) (hpos : 0 < x) (hp : 0 < fmt.p)
    (hmax : fmt.emax < (roundUnbounded m fmt.p rc neg).exp) (hinf : ovfIsInfinity rc neg op = false) :
    ¬ deliveredAbove fmt (.maxReal neg) x := by
  have hround := roundToGrid_le hv (roundToGrid_fpa_of_not_ovfIsInfinity (m := m) (g := m.ilog - ((fmt.p : Int) - 1)) hinf)
  have hsig : (2 ^ (fmt.p - 1) : ℝ) ≤ (roundUnbounded m fmt.p rc neg).sig := by
    exact_mod_cast (roundUnbounded_sig_bounds hv hpos hp).1
  rw [deliveredAbove, not_lt]
  calc (maxRealRat fmt : ℝ) ≤ 2 ^ (fmt.emax + 1) := maxRealRat_le fmt
    _ ≤ 2 ^ (roundUnbounded m fmt.p rc neg).exp := zpow_le_zpow_right₀ one_le_two hmax
    _ = 2 ^ (fmt.p - 1) * 2 ^ ((roundUnbounded m fmt.p rc neg).exp - ((fmt.p : Int) - 1)) :=
      (two_pow_mul_zpow (by omega)).symm
    _ ≤ (roundUnbounded m fmt.p rc neg).sig * 2 ^ ((roundUnbounded m fmt.p rc neg).exp - ((fmt.p : Int) - 1)) := by
      gcongr
    _ ≤ x := roundUnbounded_value hp ▸ hround

theorem ovfIsInfinity_iff_above {op : ArithOp} (hv : m.hasValue x) (hpos : 0 < x) (hp : 0 < fmt.p)
    (hmax : fmt.emax < (roundUnbounded m fmt.p rc neg).exp) :
    ovfIsInfinity rc neg op = true ↔
      deliveredAbove fmt (if ovfIsInfinity rc neg op then .infinity neg else .maxReal neg) x := by
  cases hinf : ovfIsInfinity rc neg op
  · exact iff_of_false Bool.false_ne_true (not_maxReal_above hv hpos hp hmax hinf)
  · exact iff_of_true rfl trivial

/-- Settles O54: each branch that traps reports the comparison of its own result with the exact value. -/
theorem fpaMeansDeliveredIsGreater : Obligations.FpaMeansDeliveredIsGreater := by
  unfold Obligations.FpaMeansDeliveredIsGreater
  rintro v neg m x k hfmt hv hpos hk
  have hp := destFormats_p_pos hfmt
  have hb := fpStage_branch (v := v) (neg := neg) (m := m) rfl
  generalize fpStage v (.value neg m) = o at hb hk ⊢
  cases hb with
  | overflowEnabled | overflowAssist | tinyEnabled | tinyAssist | inRangeAssist =>
    obtain rfl := Option.some.inj hk
    exact roundUnbounded_fpa_iff_above hv hp
  | overflowDisabled hmax =>
    obtain ⟨-, rfl⟩ := inexactTail_trap_eq_some hk
    exact ovfIsInfinity_iff_above hv hpos hp hmax
  | tinyFlushed =>
    obtain ⟨-, rfl⟩ := inexactTail_trap_eq_some hk
    exact iff_of_false Bool.false_ne_true not_false
  | tinyInexact q hq =>
    obtain ⟨-, rfl⟩ := inexactTail_trap_eq_some hk
    exact hq ▸ roundBounded_fpa_iff_above hv
  | inRangeInexact =>
    obtain ⟨-, rfl⟩ := inexactTail_trap_eq_some hk
    exact roundUnbounded_fpa_iff_above hv hp
  | tinyExact | inRangeExact => cases hk

end Sys2Proof.Machine
end

section
/-! Infinite results of the fused operations (R55, R85 to R87), and how a normal fused instruction on numbers completes. -/

namespace Sys2Proof.Machine

section
variable {x y z : Numeric} {n : Bool}

/-- An infinity times a number that is not zero is the infinity of the product's sign. -/
theorem mulNum_of_isInf (hinf : x.isInf = true ∨ y.isInf = true) (hx : x.isZero = false) (hy : y.isZero = false) :
    mulNum x y = some (.inf (x.isNeg ^^ y.isNeg)) := by
  cases x with
  | inf a =>
    cases y with
    | inf b => rfl
    | fin b m e => exact if_neg (beq_eq_false_iff_ne.mp hy)
  | fin a m e =>
    cases y with
    | inf b => exact if_neg (beq_eq_false_iff_ne.mp hx)
    | fin b m e => cases hinf <;> contradiction

/-- An infinity plus a number that is not the opposite infinity is that infinity. -/
theorem addNum_inf (rc : RoundMode) (h : y.isInf = true → y.isNeg = n) : addNum rc (.inf n) y = some (.inf n) := by
  cases y with
  | inf b => exact if_pos (h rfl).symm
  | fin => rfl

theorem negNum_isInf (b : Bool) (y : Numeric) : (negNum b y).isInf = y.isInf := by
  cases y <;> rfl

theorem negNum_isNeg (b : Bool) (y : Numeric) : (negNum b y).isNeg = (y.isNeg ^^ b) := by
  cases y <;> rfl

/-- The infinite results of IEEE 754 are those of the exact arithmetic. -/
theorem fusedExact_of_infinite {op : ArithOp} (rc : RoundMode) (h : infiniteFused op x y z n) :
    fusedExact op rc x y z = some (.inf n) := by
  obtain ⟨hinf, hx, hy, hz, rfl⟩ | ⟨hx, hy, hz, rfl⟩ := h
  · rw [fusedExact, mulNum_of_isInf hinf hx hy]
    exact addNum_inf rc fun h => (negNum_isNeg ..).trans (hz (negNum_isInf (op == .fms) z ▸ h))
  · cases x with
    | inf => cases hx
    | fin =>
      cases y with
      | inf => cases hy
      | fin =>
        cases z with
        | inf => rfl
        | fin => cases hz

end

variable {i : Instr} {op : ArithOp} {c : Option Precision} {a : F1Fields} {s : State} {x3 x4 x2 : Numeric} {p : Precise}

/-- The fields of a normal fused instruction and its meaning. -/
theorem Instr.normalFused_fields (h : i.normalFused = some (op, c, a)) :
    i.qp = a.qp ∧ i.pred = none ∧ i.dest = a.f1 ∧ i.sources = [a.f3, a.f4, a.f2] ∧ exec i s = fusedNormal op c a s := by
  cases i with
  | fma | fmaS | fmaD | fms | fmsS | fmsD | fnma | fnmaS | fnmaD =>
    cases h
    exact ⟨rfl, rfl, rfl, rfl, rfl⟩
  | _ => cases h

/-- A normal fused instruction that is ready, without a `NaTVal` source, completes with its result. -/
theorem exec_normalFused (h : i.normalFused = some (op, c, a)) (hready : s.ready i = true) (hnat : s.noNaT i = true) :
    exec i s = s.finishNormal a.sf a.f1 none (s.fusedResult op c a) := by
  obtain ⟨hqp, hpred, hdest, hsrc, hexec⟩ := Instr.normalFused_fields (s := s) h
  rw [hexec, fusedNormal, ← hqp, ← hpred, ← hdest, ← hsrc, State.guarded_ready hready, State.unlessNaT_own hnat]

/-- The same when the operands are numbers. -/
theorem exec_normalFused_of_num (h : i.normalFused = some (op, c, a)) (hready : s.ready i = true)
    (h3 : classifyReg (s.readF a.f3) = .num x3) (h4 : classifyReg (s.readF a.f4) = .num x4)
    (h2 : classifyReg (s.readF a.f2) = .num x2) :
    exec i s = s.finishNormal a.sf a.f1 none (s.fusedResult op c a) := by
  refine exec_normalFused h hready (State.noNaT_of_classify fun n hn => ?_)
  obtain ⟨-, -, -, hsrc, -⟩ := Instr.normalFused_fields (s := s) h
  simp only [hsrc, List.mem_cons, List.not_mem_nil, or_false] at hn
  rcases hn with rfl | rfl | rfl
  · simp [h3]
  · simp [h4]
  · simp [h2]

/-- On numbers a valid fused operation, of either kind of operand, is the stage on its exact result. -/
theorem fusedElem_of_num {α : Type} {C : Carrier α} {env : StageEnv} {y3 y4 y2 : α} (h3 : C.classify y3 = .num x3)
    (h4 : C.classify y4 = .num x4) (h2 : C.classify y2 = .num x2)
    (hp : fusedExact env.op env.ctl.rc x3 x4 x2 = some p) :
    fusedElem C env y3 y4 y2 = stageResult C env (C.unnormal y3 || C.unnormal y4 || C.unnormal y2) false p := by
  simp [fusedElem, propagate, chooseNaN, Operand.isNaN, h3, h4, h2, hp]

theorem State.fusedResult_of_num (h3 : classifyReg (s.readF a.f3) = .num x3) (h4 : classifyReg (s.readF a.f4) = .num x4)
    (h2 : classifyReg (s.readF a.f2) = .num x2) (hp : fusedExact op (controlsOf s.fpsr a.sf).rc x3 x4 x2 = some p) :
    s.fusedResult op c a = stageResult (regCarrier (s.destFmt c a.sf)) (s.stageEnv a.sf (s.destFmt c a.sf) op 0)
      (unnormalReg (s.readF a.f3) || unnormalReg (s.readF a.f4) || unnormalReg (s.readF a.f2)) false p :=
  fusedElem_of_num (C := regCarrier (s.destFmt c a.sf)) h3 h4 h2 hp

/-- A normal operation that reports nothing beside its value writes its destination and moves on. -/
theorem State.finishNormal_value (s : State) (sf : SfNum) (f1 : RegNum) (x : Flt) :
    s.finishNormal sf f1 none ⟨x, {}⟩ = .next { s with
      fr := s.fr.set f1.toNat x f1.isLt
      signaled := {}
      pos := s.pos + 1
      draws := s.draws + 2 } := by
  have hflags : putFlags s.fpsr sf (newFlags (flagsOf s.fpsr sf) (Config.swaFlags s.draws) {} none) = s.fpsr := by
    simp [newFlags, putFlags_flagsOf]
  rw [State.finishNormal, State.finish_quiet s sf f1 none x {} none rfl (by simp) rfl, State.commit, hflags]
  rfl

/-- Settles O23: the exact arithmetic gives the infinity, and the stage delivers it without a flag or a trap. -/
theorem fusedInfinityPrecomputed : Obligations.FusedInfinityPrecomputed := by
  unfold Obligations.FusedInfinityPrecomputed
  refine ⟨fun op rc x3 x4 x2 neg h => fusedExact_of_infinite rc h, fun v neg => ⟨rfl, rfl⟩, ?_⟩
  intro i op c a s x3 x4 x2 neg hi hready hun h3 h4 h2 hinf
  obtain ⟨-, -, -, hsrc, -⟩ := Instr.normalFused_fields (s := s) hi
  have hden : (unnormalReg (s.readF a.f3) || unnormalReg (s.readF a.f4) || unnormalReg (s.readF a.f2)) = false := by
    simp [hun, hsrc]
  have hresult : s.fusedResult op c a = ⟨⟨neg, 0x1FFFF, 0x8000000000000000⟩, {}⟩ := by
    rw [State.fusedResult_of_num h3 h4 h2 (fusedExact_of_infinite _ hinf), hden]
    rfl
  rw [exec_normalFused_of_num hi hready h3 h4 h2, hresult, State.finishNormal_value]

end Sys2Proof.Machine
end

section
/-! What the results of the arithmetic report (R55, R70, R102): which signals, flags and traps each kind of operation can have. -/

namespace Sys2Proof.Machine

section
variable {α : Type} {C : Carrier α} {env : StageEnv} {fr : HelperFree}

/-- NaN delivery reports Invalid Operation at most. -/
theorem propagate_report {l : List α} {r : ElemResult α} (h : propagate C l = some r) :
    r.report = { signals := { v := r.report.signals.v } } := by
  obtain ⟨x, -, rfl⟩ := Option.map_eq_some_iff.mp h
  rfl

theorem fusedElem_signals (x3 x4 x2 : α) :
    (fusedElem C env x3 x4 x2).report.signals.z = false ∧ (fusedElem C env x3 x4 x2).report.signals.swa = false := by
  unfold fusedElem
  split
  · next hnan => rw [propagate_report hnan]; exact ⟨rfl, rfl⟩
  split
  · split <;> exact ⟨rfl, rfl⟩
  · exact ⟨rfl, rfl⟩

theorem rootElem_signals_z (approx x3 : α) : (rootElem C env fr approx x3).report.signals.z = false := by
  unfold rootElem
  split
  · next hnan => rw [propagate_report hnan]
  split
  · unfold rootNum
    split <;> split_ifs <;> rfl
  · rfl

/-- A conversion signals Invalid Operation or a denormal operand, and sets no flag but i. -/
theorem convElem_report (ctl : Controls) (uns trunc : Bool) (n : Nat) (x : α) :
    ∃ v d i fpa, (convElem C ctl uns trunc n x).report =
      { sets := { i := i }, trap := if i && ctl.inxEn then some { i := true, fpa := fpa } else none,
        signals := { v := v, d := d } } := by
  unfold convElem
  split
  · dsimp only
    generalize roundToGrid _ _ _ _ = q
    split
    · exact ⟨false, C.unnormal x, q.i, q.fpa, rfl⟩
    · exact ⟨true, false, false, false, rfl⟩
  · exact ⟨true, false, false, false, rfl⟩

/-- A minimum or maximum signals Invalid Operation or a denormal operand, and nothing else. -/
theorem minMaxElem_report (op : MinMaxOp) (x2 x3 : α) :
    ∃ v d, (minMaxElem C op x2 x3).report = { signals := { v := v, d := d } } := by
  unfold minMaxElem
  split
  · exact ⟨_, _, rfl⟩
  split <;> exact ⟨_, _, rfl⟩

end

/-! The flag frames that follow, for every completion of an instruction. -/

/-- A completion on the fields given whose reports all satisfy `P`. -/
def State.CompletesWith (P : Report → Prop) (s : State) (sf : SfNum) (f1 : RegNum) (p2 : Option PredNum) (own : Result) :
    Prop :=
  ∃ x low high, own = s.finish sf f1 p2 x low high ∧ P low ∧ ∀ h ∈ high, P h

section
variable {P : Report → Prop} {s t : State} {sf : SfNum} {f1 : RegNum} {p2 : Option PredNum} {own : Result} {i : Instr}

theorem State.finishNormal_completesWith {r : ElemResult Flt} (h : P r.report) :
    s.CompletesWith P sf f1 p2 (s.finishNormal sf f1 p2 r) :=
  ⟨_, _, _, rfl, h, nofun⟩

theorem State.finishParallel_completesWith {high low : ElemResult Elem} (hhigh : P high.report) (hlow : P low.report) :
    s.CompletesWith P sf f1 p2 (s.finishParallel sf f1 p2 high low) :=
  ⟨_, _, _, rfl, hlow, fun _ hh => Option.some.inj hh ▸ hhigh⟩

theorem State.unlessNaT_completesWith {srcs : List RegNum} (hnone : P {}) (h : s.CompletesWith P sf f1 p2 own) :
    s.CompletesWith P sf f1 p2 (s.unlessNaT sf f1 p2 srcs own) := by
  unfold State.unlessNaT
  split
  · exact ⟨_, _, _, rfl, hnone, nofun⟩
  · exact h

/-- An instruction leaves FPSR, or writes it with reports that satisfy `P`. -/
theorem exec_fpsr_of_completesWith (hexec : exec i s = s.guarded i.qp i.pred i.dest i.sources own)
    (hown : s.CompletesWith P i.sf i.dest i.pred own) (h : exec i s = .next t) :
    t.fpsr = s.fpsr ∨
      ∃ x low high, P low ∧ (∀ r ∈ high, P r) ∧ t.fpsr = (s.commit i.sf i.dest i.pred x low high).fpsr := by
  obtain ⟨x, low, high, rfl, hlow, hhigh⟩ := hown
  obtain ⟨-, rfl⟩ | ⟨-, -, rfl⟩ | ⟨-, -, -, -, hfin⟩ := State.guarded_cases (hexec ▸ h)
  · exact .inl (by simp)
  · exact .inl rfl
  obtain rfl | ⟨-, rfl⟩ | ⟨code, -, rfl⟩ := State.finish_cases hfin
  · exact .inl rfl
  · exact .inr ⟨x, low, high, hlow, hhigh, rfl⟩
  · exact .inr ⟨x, low, high, hlow, hhigh, rfl⟩

end

/-- Reports that free no flag and set none that `keep` selects write none that it selects. -/
theorem newFlags_of_sets {low : Report} {high : Option Report} (keep : Flags → Bool)
    (hor : ∀ f g : Flags, keep (f.or g) = (keep f || keep g)) (hlow : low.freed = false ∧ keep low.sets = false)
    (hhigh : ∀ h ∈ high, h.freed = false ∧ keep h.sets = false) (old free : Flags) :
    keep (newFlags old free low high) = keep old := by
  obtain ⟨hfree, hsets⟩ := hlow
  cases high with
  | none => simp [newFlags, hfree, hor, hsets]
  | some h =>
    obtain ⟨hfree', hsets'⟩ := hhigh h rfl
    simp [newFlags, hfree, hfree', hor, hsets, hsets']

theorem allSignals_z {low : Report} {high : Option Report} (hlow : low.signals.z = false)
    (hhigh : ∀ h ∈ high, h.signals.z = false) : (allSignals low high).z = false := by
  cases high with
  | none => exact hlow
  | some h => simp [allSignals, Signals.or, hlow, hhigh h rfl]

/-- The flags a minimum, a maximum or a conversion can write: those a report of it sets. -/
theorem exec_keep_flag {i : Instr} {s t : State} {own : Result} (keep : Flags → Bool)
    (hor : ∀ f g : Flags, keep (f.or g) = (keep f || keep g))
    (hexec : exec i s = s.guarded i.qp i.pred i.dest i.sources own)
    (hown : s.CompletesWith (fun r => r.freed = false ∧ keep r.sets = false) i.sf i.dest i.pred own)
    (h : exec i s = .next t) : keep (flagsOf t.fpsr i.sf) = keep (flagsOf s.fpsr i.sf) := by
  obtain hf | ⟨x, low, high, hlow, hhigh, hf⟩ := exec_fpsr_of_completesWith hexec hown h
  · rw [hf]
  · rw [hf, State.commit_flagsOf, newFlags_of_sets keep hor hlow hhigh]

/-- A minimum or maximum writes none of o, u, i (log 27). -/
theorem exec_fminmax_flagsOf {a : MinMaxFields} {s t : State} (h : exec (.fminmax a) s = .next t) :
    flagsOf t.fpsr a.sf = flagsOf s.fpsr a.sf := by
  have hkeep (keep : Flags → Bool) (hor : ∀ f g : Flags, keep (f.or g) = (keep f || keep g)) (hnone : keep {} = false) :
      keep (flagsOf t.fpsr a.sf) = keep (flagsOf s.fpsr a.sf) := by
    have hreport {α : Type} (C : Carrier α) (x y : α) : (minMaxElem C a.op x y).report.freed = false ∧
        keep (minMaxElem C a.op x y).report.sets = false := by
      obtain ⟨v, d, hr⟩ := minMaxElem_report (C := C) a.op x y
      exact hr ▸ ⟨rfl, hnone⟩
    refine exec_keep_flag (i := .fminmax a) keep hor rfl (State.unlessNaT_completesWith ⟨rfl, hnone⟩ ?_) h
    split
    · exact State.finishParallel_completesWith (hreport ..) (hreport ..)
    · exact State.finishNormal_completesWith (hreport ..)
  rw [Flags.mk.injEq]
  exact ⟨hkeep (·.o) (fun _ _ => rfl) rfl, hkeep (·.u) (fun _ _ => rfl) rfl, hkeep (·.i) (fun _ _ => rfl) rfl⟩

/-- A conversion writes neither o nor u (R95). -/
theorem exec_fcvt_flagsOf {a : ConvFields} {s t : State} (h : exec (.fcvt a) s = .next t) :
    (flagsOf t.fpsr a.sf).o = (flagsOf s.fpsr a.sf).o ∧ (flagsOf t.fpsr a.sf).u = (flagsOf s.fpsr a.sf).u := by
  have hkeep (keep : Flags → Bool) (hor : ∀ f g : Flags, keep (f.or g) = (keep f || keep g))
      (hnone : ∀ i, keep { i := i } = false) : keep (flagsOf t.fpsr a.sf) = keep (flagsOf s.fpsr a.sf) := by
    have hreport {α : Type} (C : Carrier α) (n : Nat) (x : α) :
        (convElem C (controlsOf s.fpsr a.sf) a.unsigned a.trunc n x).report.freed = false ∧
        keep (convElem C (controlsOf s.fpsr a.sf) a.unsigned a.trunc n x).report.sets = false := by
      obtain ⟨v, d, i, fpa, hr⟩ := convElem_report (C := C) (controlsOf s.fpsr a.sf) a.unsigned a.trunc n x
      exact hr ▸ ⟨rfl, hnone i⟩
    refine exec_keep_flag (i := .fcvt a) keep hor rfl (State.unlessNaT_completesWith ⟨rfl, hnone false⟩ ?_) h
    split
    · exact State.finishParallel_completesWith (hreport ..) (hreport ..)
    · exact State.finishNormal_completesWith (hreport (regCarrier fmtRegister) ..)
  exact ⟨hkeep (·.o) (fun _ _ => rfl) fun _ => rfl, hkeep (·.u) (fun _ _ => rfl) fun _ => rfl⟩

/-- No instruction but `frcpa` and `fprcpa` signals Zero Divide (GK9, GK22). -/
theorem exec_completesWith_no_zeroDivide (i : Instr) (s : State) (hi : ∀ a, i ≠ .frcpa a ∧ i ≠ .fprcpa a) :
    ∃ own, exec i s = s.guarded i.qp i.pred i.dest i.sources own ∧
      s.CompletesWith (·.signals.z = false) i.sf i.dest i.pred own := by
  have hfused {α : Type} (C : Carrier α) (env : StageEnv) (x3 x4 x2 : α) :
      (fusedElem C env x3 x4 x2).report.signals.z = false := (fusedElem_signals x3 x4 x2).1
  have hconv {α : Type} (C : Carrier α) (ctl : Controls) (uns trunc : Bool) (n : Nat) (x : α) :
      (convElem C ctl uns trunc n x).report.signals.z = false := by
    obtain ⟨v, d, i, fpa, hr⟩ := convElem_report (C := C) ctl uns trunc n x
    rw [hr]
  have hminmax {α : Type} (C : Carrier α) (op : MinMaxOp) (x y : α) :
      (minMaxElem C op x y).report.signals.z = false := by
    obtain ⟨v, d, hr⟩ := minMaxElem_report (C := C) op x y
    rw [hr]
  cases i with
  | fma a | fmaS a | fmaD a | fms a | fmsS a | fmsD a | fnma a | fnmaS a | fnmaD a =>
    exact ⟨_, rfl, State.unlessNaT_completesWith rfl (State.finishNormal_completesWith (hfused ..))⟩
  | fpma a | fpms a | fpnma a =>
    exact ⟨_, rfl, State.unlessNaT_completesWith rfl (State.finishParallel_completesWith (hfused ..) (hfused ..))⟩
  | frcpa a => exact absurd rfl (hi a).1
  | fprcpa a => exact absurd rfl (hi a).2
  | frsqrta a =>
    exact ⟨_, rfl, State.unlessNaT_completesWith rfl (State.finishNormal_completesWith (rootElem_signals_z ..))⟩
  | fprsqrta a =>
    exact ⟨_, rfl, State.unlessNaT_completesWith rfl
      (State.finishParallel_completesWith (rootElem_signals_z ..) (rootElem_signals_z ..))⟩
  | fcvt a =>
    refine ⟨_, rfl, State.unlessNaT_completesWith rfl ?_⟩
    split
    · exact State.finishParallel_completesWith (hconv ..) (hconv ..)
    · exact State.finishNormal_completesWith (hconv (regCarrier fmtRegister) ..)
  | fminmax a =>
    refine ⟨_, rfl, State.unlessNaT_completesWith rfl ?_⟩
    split
    · exact State.finishParallel_completesWith (hminmax ..) (hminmax ..)
    · exact State.finishNormal_completesWith (hminmax ..)

/-- Settles O14: FPSR is written from the reports alone, and these are the flags and signals the reports of a class have. -/
theorem flagFramesByClass : Obligations.FlagFramesByClass := by
  unfold Obligations.FlagFramesByClass
  refine fun i s t h => ⟨?_, ?_, fun hi => ?_⟩
  · rintro ⟨a, rfl⟩
    exact exec_fminmax_flagsOf h
  · rintro ⟨a, rfl⟩
    exact exec_fcvt_flagsOf h
  · obtain ⟨own, hexec, hown⟩ := exec_completesWith_no_zeroDivide i s hi
    obtain hf | ⟨x, low, high, hlow, hhigh, hf⟩ := exec_fpsr_of_completesWith hexec hown h
    · rw [hf]
    · rw [hf, State.commit_sfBit_z, allSignals_z hlow hhigh, Bool.or_false]

end Sys2Proof.Machine
end

section
/-! The rest of a completion in exact states: how a completion that does not stop ends, and how NaNs and invalid operations do. -/

namespace Sys2Proof.Machine

section
variable {s t : State} {sf : SfNum} {f1 : RegNum} {p2 : Option PredNum} {x : Flt} {low : Report} {high : Option Report}

/-- An instruction that is ready, without a `NaTVal` source, reaches its completion. -/
theorem State.completion_reached {i : Instr} (hready : s.ready i = true) (hnat : s.noNaT i = true) (own : Result) :
    s.guarded i.qp i.pred i.dest i.sources (s.unlessNaT i.sf i.dest i.pred i.sources own) = own :=
  (State.guarded_ready hready).trans (State.unlessNaT_own hnat)

/-- A completion that neither stops nor traps writes its effects and moves on. -/
theorem State.finish_of_no_trap (hs : s.finishStops sf low high = false) (ht : trapOf low high = none) :
    s.finish sf f1 p2 x low high = .next (s.commit sf f1 p2 x low high).advance.tick := by
  unfold State.finishStops at hs
  simp only [State.finish, hs, ht, Bool.false_eq_true, if_false]

/-- A completion that does not stop writes its effects before it traps (R68). -/
theorem State.finish_of_trap {code : TrapCode × Option TrapCode} (hs : s.finishStops sf low high = false)
    (ht : trapOf low high = some code) :
    s.finish sf f1 p2 x low high =
      .next ((s.commit sf f1 p2 x low high).interrupt .fpTrap (isrOfTrap (Config.isrBits s.draws) code.1 code.2)) := by
  unfold State.finishStops at hs
  simp only [State.finish, hs, ht, Bool.false_eq_true, if_false]

theorem enabledSignals_denormal (c : Controls) (den : Bool) :
    enabledSignals c { d := den } = { d := den && c.denEn } := by
  simp [enabledSignals]

theorem enabledSignals_invalid (c : Controls) (v : Bool) : enabledSignals c { v := v } = { v := v && c.invEn } := by
  simp [enabledSignals]

/-- The fault of a denormal operand, as the state it ends in. -/
theorem State.finishNormal_of_denormalStops {r : ElemResult Flt} {den : Bool} (h : r.report.signals = { d := den })
    (hs : s.denormalStops sf den = true) :
    s.finishNormal sf f1 p2 r =
      .next (s.interrupt .fpFault (isrOfFault (Config.isrBits s.draws) { d := true } none)) := by
  have hisr : enabledSignals (controlsOf s.fpsr sf) r.report.signals = { d := true } := by
    rw [h, enabledSignals_denormal]
    exact congrArg (Signals.mk false · false false) hs
  rw [State.finishNormal, State.finish_stops ((State.finishStops_denormal h).trans hs), State.faultIsr, hisr]
  rfl

/-- A normal operation that reports nothing beside its value writes it, clears the predicate it names and moves on. -/
theorem State.finishNormal_value_pred (s : State) (sf : SfNum) (f1 : RegNum) (p2 : Option PredNum) (x : Flt) :
    s.finishNormal sf f1 p2 ⟨x, {}⟩ = .next { s.writeOptP p2 false with
      fr := s.fr.set f1.toNat x f1.isLt
      signaled := {}
      pos := s.pos + 1
      draws := s.draws + 2 } := by
  have hflags : putFlags s.fpsr sf (newFlags (flagsOf s.fpsr sf) (Config.swaFlags s.draws) {} none) = s.fpsr := by
    simp [newFlags, putFlags_flagsOf]
  rw [State.finishNormal, State.finish_quiet s sf f1 p2 x {} none rfl (by simp) rfl, State.commit, hflags]
  cases p2 with
  | none => rfl
  | some p =>
    by_cases hp : p = 0
    · simp only [State.writeOptP, State.writeP, if_pos hp]
      rfl
    · simp only [State.writeOptP, State.writeP, if_neg hp]
      rfl

/-- A normal operation that reports a denormal operand at most, its fault disabled, writes its value and sets flag d. -/
theorem State.finishNormal_value_denormal {den : Bool} (hs : s.denormalStops sf den = false) :
    s.finishNormal sf f1 none ⟨x, { signals := { d := den } }⟩ = .next { s with
      fr := s.fr.set f1.toNat x f1.isLt
      fpsr := orBit s.fpsr (sfBase sf + 8) den
      signaled := { d := den }
      pos := s.pos + 1
      draws := s.draws + 2 } := by
  have hflags : putFlags s.fpsr sf (newFlags (flagsOf s.fpsr sf) (Config.swaFlags s.draws) { signals := { d := den } } none) =
      s.fpsr := by
    simp [newFlags, putFlags_flagsOf]
  rw [State.finishNormal, State.finish_of_no_trap ((State.finishStops_denormal rfl).trans hs) rfl, State.commit, hflags]
  rfl

/-- The fault of a normal operation that signals Invalid Operation alone, reported alone, or its value. -/
theorem State.finishNormal_invalid_cases {v : Bool} (h0 : f1 ≠ 0) (h1 : f1 ≠ 1) :
    ∃ t, s.finishNormal sf f1 p2 ⟨x, { signals := { v := v } }⟩ = .next t ∧
      ((faultedFrom s t ∧ faultReport t.isr 0 { v := true } ∧ (v && (controlsOf s.fpsr sf).invEn) = true) ∨
        ((v && (controlsOf s.fpsr sf).invEn) = false ∧ t.handler = s.handler ∧ t.signaled = { v := v } ∧
          flagsOf t.fpsr sf = flagsOf s.fpsr sf ∧ (∀ n, p2 = some n → n ≠ 0 → t.readP n = false) ∧ t.readF f1 = x)) := by
  have hstops := State.finishStops_invalid (s := s) (sf := sf) (r := { signals := { v := v } }) rfl
  cases hv : v && (controlsOf s.fpsr sf).invEn with
  | true =>
    refine ⟨_, State.finish_stops (hstops.trans hv), .inl ⟨faultedFrom_interrupt .., ?_, rfl⟩⟩
    rw [← hv, ← enabledSignals_invalid]
    exact faultReport_normal ..
  | false =>
    obtain ⟨t, ht, ⟨-, -, hen, rfl⟩ | hvalue⟩ :=
      State.finishNormal_invalid (s := s) (sf := sf) (p2 := p2) (x := x) (v := v) h0 h1
    · rw [hen] at hv
      contradiction
    · exact ⟨t, ht, .inr ⟨rfl, hvalue⟩⟩

/-- `s` with the outcome `o` of the stage written to the destination, the flags and the event record. -/
def State.stageCommitted (s : State) (sf : SfNum) (f1 : RegNum) (C : Carrier Flt) (den : Bool) (o : StageOut) : State :=
  { s with
    fr := s.fr.set f1.toNat (C.encode o.dest) f1.isLt
    fpsr := recordSignals
      (putFlags s.fpsr sf ((if o.freed then Config.swaFlags s.draws else flagsOf s.fpsr sf).or o.sets)) sf { d := den }
    signaled := { d := den } }

section
variable {C : Carrier Flt} {env : StageEnv} {den : Bool} {p : Precise} (hs : s.denormalStops sf den = false)
include hs

/-- A result of the stage without a trap. -/
theorem State.finishNormal_stage_of_no_trap (ht : (fpStage env p).trap = none) :
    s.finishNormal sf f1 none (stageResult C env den false p) =
      .next (s.stageCommitted sf f1 C den (fpStage env p)).advance.tick :=
  State.finish_of_no_trap ((State.finishStops_denormal rfl).trans hs) (congrArg (Option.map _) ht)

/-- A result of the stage with a trap. -/
theorem State.finishNormal_stage_of_trap {k : TrapCode} (ht : (fpStage env p).trap = some k) :
    s.finishNormal sf f1 none (stageResult C env den false p) =
      .next ((s.stageCommitted sf f1 C den (fpStage env p)).interrupt .fpTrap
        (isrOfTrap (Config.isrBits s.draws) k none)) :=
  State.finish_of_trap (code := (k, none)) ((State.finishStops_denormal rfl).trans hs) (congrArg (Option.map _) ht)

end

end

/-! NaN delivery (R75, R76) on registers and elements alike. -/

section
variable {α : Type} {C : Carrier α} {env : StageEnv} {l : List α} {x y z w : α}

theorem chooseNaN_cons (C : Carrier α) (x : α) (l : List α) :
    chooseNaN C (x :: l) = if (C.classify x).isNaN then some x else chooseNaN C l := by
  cases h : (C.classify x).isNaN <;> simp [chooseNaN, h]

theorem Operand.isSignaling_iff (o : Operand) : o.isSignaling = true ↔ o = .nan false := by
  cases o <;> simp [Operand.isSignaling]

theorem Operand.isUnsupported_iff (o : Operand) : o.isUnsupported = true ↔ o = .unsupported := by
  cases o <;> simp [Operand.isUnsupported]

/-- The chosen NaN is delivered, or its quieted image if it is signaling; Invalid Operation is signaled only for a signaling
operand or one without a value. -/
theorem propagate_of_chooseNaN (h : chooseNaN C l = some x) :
    ∃ y v, propagate C l = some ⟨y, { signals := { v := v } }⟩ ∧
      (y = x ∨ (C.classify x = .nan false ∧ y = C.quieted x)) ∧
      (v = true → ∃ z ∈ l, C.classify z = .nan false ∨ C.classify z = .unsupported) := by
  refine ⟨_, _, by simp only [propagate, h]; rfl, ?_, fun hv => ?_⟩
  · split
    · next hs => exact .inr ⟨(Operand.isSignaling_iff _).mp (Bool.and_eq_true_iff.mp hs).1, rfl⟩
    · exact .inl rfl
  · simp only [Bool.or_eq_true, Bool.and_eq_true, List.any_eq_true, Operand.isSignaling_iff,
      Operand.isUnsupported_iff] at hv
    obtain ⟨⟨z, hz, hs⟩, -⟩ | ⟨z, hz, hs⟩ := hv
    · exact ⟨z, hz, .inl hs⟩
    · exact ⟨z, hz, .inr hs⟩

/-- Among quiet NaNs and numbers the chosen NaN is delivered unchanged and nothing is signaled. -/
theorem propagate_of_quiet (h : chooseNaN C l = some x)
    (hl : ∀ z ∈ l, C.classify z ≠ .nan false ∧ C.classify z ≠ .unsupported) : propagate C l = some ⟨x, {}⟩ := by
  obtain ⟨y, v, hp, hy, hv⟩ := propagate_of_chooseNaN h
  obtain rfl : y = x := hy.resolve_right fun hs => (hl x (List.mem_of_find?_eq_some h)).1 hs.1
  obtain rfl : v = false := Bool.eq_false_iff.mpr fun ht => by
    obtain ⟨z, hz, hs⟩ := hv ht
    exact hs.elim (hl z hz).1 (hl z hz).2
  exact hp

/-- An element always has a value or is a NaN. -/
theorem classifyElem_ne_unsupported (x : Elem) : classifyElem x ≠ .unsupported := by
  unfold classifyElem
  dsimp only
  split_ifs <;> exact nofun

/-- NaN delivery on elements. -/
theorem propagate_elem {l : List Elem} {x : Elem} (h : chooseNaN elemCarrier l = some x) :
    ∃ y v, propagate elemCarrier l = some ⟨y, { signals := { v := v } }⟩ ∧ nanElemOrQuieted x y ∧
      (v = true → ∃ z ∈ l, classifyElem z = .nan false) := by
  obtain ⟨y, v, hp, hy, hv⟩ := propagate_of_chooseNaN h
  refine ⟨y, v, hp, hy, fun ht => ?_⟩
  obtain ⟨z, hz, hs⟩ := hv ht
  exact ⟨z, hz, hs.resolve_right (classifyElem_ne_unsupported z)⟩

theorem fusedElem_of_propagate {r : ElemResult α} {x3 x4 x2 : α} (h : propagate C [x4, x2, x3] = some r) :
    fusedElem C env x3 x4 x2 = r := by
  simp only [fusedElem, h]

/-- The priority of R75 on the three operands of a fused operation. -/
theorem chooseNaN_of_priority
    (h : ((C.classify x).isNaN = true ∧ w = x) ∨
      ((C.classify x).isNaN = false ∧ (C.classify y).isNaN = true ∧ w = y) ∨
      ((C.classify x).isNaN = false ∧ (C.classify y).isNaN = false ∧ (C.classify z).isNaN = true ∧ w = z)) :
    chooseNaN C [x, y, z] = some w := by
  simp only [chooseNaN_cons]
  obtain ⟨hx, rfl⟩ | ⟨hx, hy, rfl⟩ | ⟨hx, hy, hz, rfl⟩ := h
  · rw [if_pos hx]
  · rw [if_neg (by simp [hx]), if_pos hy]
  · rw [if_neg (by simp [hx]), if_neg (by simp [hy]), if_pos hz]

end

end Sys2Proof.Machine
end

section
/-! Operands as the numbers they denote (R17, R20), and results the stage delivers exactly (R55, R59). -/

namespace Sys2Proof.Machine

/-- The finite number `x` has sign `neg` and value `v`. -/
def Numeric.Denotes (x : Numeric) (neg : Bool) (v : ℚ) : Prop :=
  ∃ m e, x = .fin neg m e ∧ v = signRat neg * m * 2 ^ e

theorem classifyReg_denotes {r : Flt} (h : finiteReg r = true) :
    ∃ x, classifyReg r = .num x ∧ x.Denotes r.neg (regValue r) := by
  simp only [finiteReg, Bool.and_eq_true, bne_iff_ne] at h
  obtain ⟨hexp, hnat⟩ := h
  exact ⟨_, by rw [classifyReg, if_neg hnat, if_neg hexp]; rfl, _, _, rfl, rfl⟩

theorem classifyElem_denotes {x : Elem} (h : finiteElem x = true) :
    ∃ y, classifyElem x = .num y ∧ y.Denotes (x.getLsbD 31) (elemValue x) := by
  have hexp : (x.extractLsb' 23 8).toNat ≠ 255 := fun e => by
    have hff : x.extractLsb' 23 8 = 0xFF := BitVec.eq_of_toNat_eq e
    simp [finiteElem, hff] at h
  unfold classifyElem
  dsimp only
  rw [if_neg hexp]
  by_cases h0 : (x.extractLsb' 23 8).toNat = 0
  · refine ⟨_, if_pos h0, _, _, rfl, ?_⟩
    simp only [elemValue, if_pos h0, mul_assoc]
  · refine ⟨_, if_neg h0, _, _, rfl, ?_⟩
    simp only [elemValue, if_neg h0, mul_assoc, pfpBias]
    congr 3
    ring

/-- The exact result of a fused operation on finite operands is the rational of their values. -/
theorem fusedExact_of_denotes {op : ArithOp} (hop : op = .fma ∨ op = .fms ∨ op = .fnma) (rc : RoundMode)
    {x3 x4 x2 : Numeric} {n3 n4 n2 : Bool} {v3 v4 v2 : ℚ} (h3 : x3.Denotes n3 v3) (h4 : x4.Denotes n4 v4)
    (h2 : x2.Denotes n2 v2) :
    ∃ p, fusedExact op rc x3 x4 x2 = some p ∧ p.isExactly (fusedRat op v3 v4 v2) (exactZeroNeg rc op n3 n4 n2) := by
  obtain ⟨m3, e3, rfl, rfl⟩ := h3
  obtain ⟨m4, e4, rfl, rfl⟩ := h4
  obtain ⟨m2, e2, rfl, rfl⟩ := h2
  exact fusedExact_isExactly hop rc ..

theorem Precise.eq_zero_of_isExactly {p : Precise} {z : Bool} (h : p.isExactly 0 z) : p = .zero z := by
  cases p with
  | inf => exact h.elim
  | zero neg => rw [h.2]
  | value => exact absurd rfl h.1

theorem abs_signRat_mul {x : ℚ} (neg : Bool) (hx : 0 < x) : |signRat neg * x| = x := by
  cases neg <;> simp [signRat, abs_of_pos hx]

theorem signRat_mul_neg_iff {x : ℚ} (neg : Bool) (hx : 0 < x) : signRat neg * x < 0 ↔ neg = true := by
  cases neg <;> simp [signRat, hx, hx.le]

/-- An exact result that is not zero is its sign and a magnitude of its value. -/
theorem Precise.eq_value_of_isExactly {p : Precise} {neg z : Bool} {x : ℚ} (hx : 0 < x)
    (h : p.isExactly (signRat neg * x) z) : ∃ m : Mag, p = .value neg m ∧ m.hasValue (x : ℝ) := by
  have hne : signRat neg * x ≠ 0 := abs_pos.mp ((abs_signRat_mul neg hx).symm ▸ hx)
  cases p with
  | inf => exact h.elim
  | zero => exact absurd h.1 hne
  | value n m =>
    obtain ⟨-, hv, hn⟩ := h
    rw [abs_signRat_mul neg hx] at hv
    exact ⟨m, by rw [Bool.eq_iff_iff.mpr (hn.trans (signRat_mul_neg_iff neg hx))], hv⟩

/-- The exponent of a magnitude is that of the binade it lies in. -/
theorem Mag.ilog_eq {m : Mag} {x : ℝ} {e : Int} (hv : m.hasValue x) (hge : 2 ^ e ≤ x) (hlt : x < 2 ^ (e + 1)) :
    m.ilog = e := by
  obtain ⟨hge', hlt'⟩ := Mag.ilog_bounds hv ((by positivity : (0 : ℝ) < 2 ^ e).trans_le hge)
  have hle := (zpow_lt_zpow_iff_right₀ (one_lt_two (α := ℝ))).mp (hge.trans_lt hlt')
  have hle' := (zpow_lt_zpow_iff_right₀ (one_lt_two (α := ℝ))).mp (hge'.trans_lt hlt)
  omega

/-- A value on the grid rounds to itself. -/
theorem roundToGrid_of_grid_point {m : Mag} {g : Int} {k : Nat} (rc : RoundMode) (neg : Bool)
    (hv : m.hasValue ((k : ℝ) * 2 ^ g)) : roundToGrid m g rc neg = ⟨k, false, false⟩ := by
  have hstep : (0 : ℝ) < 2 ^ g := by positivity
  have herr := roundToGrid_error_lt (g := g) (rc := rc) (neg := neg) hv
  have hk : (roundToGrid m g rc neg).k = k := by
    rw [← sub_mul, abs_mul, abs_of_pos hstep, mul_lt_iff_lt_one_left hstep] at herr
    have hlt : |((roundToGrid m g rc neg).k : Int) - k| < 1 := by exact_mod_cast herr
    have heq := Int.abs_lt_one_iff.mp hlt
    omega
  have hi : (roundToGrid m g rc neg).i = false := by
    rw [Bool.eq_false_iff, Ne, roundToGrid_i_iff_ne hv, hk]
    exact not_not_intro rfl
  have hfpa : (roundToGrid m g rc neg).fpa = false := Bool.eq_false_iff.mpr fun h => by
    rw [roundToGrid_i_of_fpa h] at hi
    contradiction
  calc roundToGrid m g rc neg
    _ = ⟨(roundToGrid m g rc neg).k, (roundToGrid m g rc neg).i, (roundToGrid m g rc neg).fpa⟩ := rfl
    _ = ⟨k, false, false⟩ := by rw [hk, hi, hfpa]

/-- A number of `p` bits rounds to itself. -/
theorem roundUnbounded_of_representable {m : Mag} {p k : Nat} {e : Int} (rc : RoundMode) (neg : Bool)
    (hge : 2 ^ (p - 1) ≤ k) (hlt : k < 2 ^ p) (hv : m.hasValue ((k : ℝ) * 2 ^ (e - ((p : Int) - 1)))) :
    roundUnbounded m p rc neg = ⟨e, k, false, false⟩ := by
  have hp : 0 < p := Nat.pos_of_ne_zero fun h => by
    simp only [h, Nat.zero_sub, pow_zero] at hge hlt
    omega
  have hulp : (0 : ℝ) < 2 ^ (e - ((p : Int) - 1)) := by positivity
  have hlog : m.ilog = e := by
    refine Mag.ilog_eq hv ?_ ?_
    · rw [← two_pow_mul_zpow (n := p - 1) (e := e - ((p : Int) - 1)) (by omega)]
      exact mul_le_mul_of_nonneg_right (by exact_mod_cast hge) hulp.le
    · rw [← two_pow_mul_zpow (n := p) (e := e - ((p : Int) - 1)) (k := e + 1) (by omega)]
      exact mul_lt_mul_of_pos_right (b := (k : ℝ)) (by exact_mod_cast hlt) hulp
  have hgrid := roundToGrid_of_grid_point rc neg hv
  obtain ⟨hcarry, -⟩ | ⟨-, hr⟩ := roundUnbounded_cases (m := m) (p := p) (rc := rc) (neg := neg) rfl
  · rw [hlog, hgrid] at hcarry
    exact absurd hcarry hlt.ne
  · rw [hr, hlog, hgrid]

/-- The stage delivers a number of the destination format as it is (R59). -/
theorem fpStage_of_representable {v : StageEnv} {p : Precise} {neg z : Bool} {k : Nat} {e : Int}
    (hge : 2 ^ (v.fmt.p - 1) ≤ k) (hlt : k < 2 ^ v.fmt.p) (hmin : v.fmt.emin ≤ e) (hmax : e ≤ v.fmt.emax)
    (hp : p.isExactly (signRat neg * k * 2 ^ (e - ((v.fmt.p : Int) - 1))) z) :
    fpStage v p = stageDone (.rounded neg e k) := by
  have hk : (0 : ℚ) < k := by exact_mod_cast (Nat.two_pow_pos _).trans_le hge
  rw [mul_assoc] at hp
  obtain ⟨m, rfl, hv⟩ := Precise.eq_value_of_isExactly (by positivity) hp
  rw [Rat.cast_mul, Rat.cast_zpow, Rat.cast_natCast, Rat.cast_ofNat] at hv
  have hr := roundUnbounded_of_representable v.ctl.rc neg hge hlt hv
  rw [fpStage_of_inRange hr.symm hmin hmax, inRangeStage_exact neg rfl]

end Sys2Proof.Machine
end

section
/-! The normal fused instructions on numbers (R85 to R87): exact results, exact zeros, and the stage on any other result. -/

namespace Sys2Proof.Machine

variable {i : Instr} {op : ArithOp} {c : Option Precision} {a : F1Fields} {s : State} {p : Precise}

theorem Instr.normalFused_op (h : i.normalFused = some (op, c, a)) : op = .fma ∨ op = .fms ∨ op = .fnma := by
  cases i <;> cases h <;> simp

/-- The exact result of a normal fused instruction on finite registers (R79). -/
theorem normalFused_exact (h : i.normalFused = some (op, c, a))
    (hfin : ∀ n ∈ i.sources, finiteReg (s.readF n) = true) :
    ∃ x3 x4 x2 p, classifyReg (s.readF a.f3) = .num x3 ∧ classifyReg (s.readF a.f4) = .num x4 ∧
      classifyReg (s.readF a.f2) = .num x2 ∧ fusedExact op (controlsOf s.fpsr a.sf).rc x3 x4 x2 = some p ∧
      p.isExactly (fusedRat op (regValue (s.readF a.f3)) (regValue (s.readF a.f4)) (regValue (s.readF a.f2)))
        (exactZeroNeg (controlsOf s.fpsr a.sf).rc op (s.readF a.f3).neg (s.readF a.f4).neg (s.readF a.f2).neg) := by
  obtain ⟨-, -, -, hsrc, -⟩ := Instr.normalFused_fields (s := s) h
  simp only [hsrc, List.forall_mem_cons] at hfin
  obtain ⟨hf3, hf4, hf2, -⟩ := hfin
  obtain ⟨x3, h3, hd3⟩ := classifyReg_denotes hf3
  obtain ⟨x4, h4, hd4⟩ := classifyReg_denotes hf4
  obtain ⟨x2, h2, hd2⟩ := classifyReg_denotes hf2
  obtain ⟨p, hp, hexact⟩ := fusedExact_of_denotes (Instr.normalFused_op h) (controlsOf s.fpsr a.sf).rc hd3 hd4 hd2
  exact ⟨x3, x4, x2, p, h3, h4, h2, hp, hexact⟩

/-- A normal fused instruction on finite registers, none of them unnormal, whose exact result the stage delivers as it is,
writes that result and moves on. -/
theorem exec_normalFused_of_stageDone {d : Delivered} (h : i.normalFused = some (op, c, a)) (hready : s.ready i = true)
    (hsrc : ∀ n ∈ i.sources, finiteReg (s.readF n) = true ∧ unnormalReg (s.readF n) = false)
    (hdone : ∀ p : Precise,
      p.isExactly (fusedRat op (regValue (s.readF a.f3)) (regValue (s.readF a.f4)) (regValue (s.readF a.f2)))
        (exactZeroNeg (controlsOf s.fpsr a.sf).rc op (s.readF a.f3).neg (s.readF a.f4).neg (s.readF a.f2).neg) →
      fpStage (s.stageEnv a.sf (s.destFmt c a.sf) op 0) p = stageDone d) :
    exec i s = .next { s with
      fr := s.fr.set a.f1.toNat (encodeReg (s.destFmt c a.sf) d) a.f1.isLt
      signaled := {}
      pos := s.pos + 1
      draws := s.draws + 2 } := by
  obtain ⟨-, -, -, hsources, -⟩ := Instr.normalFused_fields (s := s) h
  obtain ⟨x3, x4, x2, p, h3, h4, h2, hp, hexact⟩ := normalFused_exact h fun n hn => (hsrc n hn).1
  have hden : (unnormalReg (s.readF a.f3) || unnormalReg (s.readF a.f4) || unnormalReg (s.readF a.f2)) = false := by
    simp [hsrc, hsources]
  have hresult : s.fusedResult op c a = ⟨encodeReg (s.destFmt c a.sf) d, {}⟩ := by
    rw [State.fusedResult_of_num h3 h4 h2 hp, hden, stageResult, hdone p hexact]
    rfl
  rw [exec_normalFused_of_num h hready h3 h4 h2, hresult, State.finishNormal_value]

/-- Settles O20: a number of the destination format rounds to itself, so the stage delivers it without a flag or a trap. -/
theorem normalFusedExactResult : Obligations.NormalFusedExactResult := by
  unfold Obligations.NormalFusedExactResult
  intro i op c a s neg k e hi hready hsrc hge hlt hmin hmax hvalue
  refine exec_normalFused_of_stageDone (d := .rounded neg e k) hi hready hsrc fun p hp => ?_
  rw [hvalue] at hp
  exact fpStage_of_representable (v := s.stageEnv a.sf (s.destFmt c a.sf) op 0) hge hlt hmin hmax hp

/-- Settles O21: the exact arithmetic gives a zero of the sign of IEEE 754, and the stage delivers it. -/
theorem normalFusedExactZero : Obligations.NormalFusedExactZero := by
  unfold Obligations.NormalFusedExactZero
  intro i op c a s hi hready hsrc hzero
  refine exec_normalFused_of_stageDone (d := .zero _) hi hready hsrc fun p hp => ?_
  rw [hzero] at hp
  rw [Precise.eq_zero_of_isExactly hp]
  rfl

/-! The destination format (R19, GK3, GK13). -/

theorem fmtOf_mem_destFormats (c : Option Precision) (pc : Precision) (wre : Bool) : fmtOf c pc wre ∈ destFormats := by
  cases c with
  | none => cases pc <;> cases wre <;> decide
  | some completer => cases completer <;> cases wre <;>
      simp [fmtOf, precisionFmt, destFormats, fmtSingle, fmtDouble, fmtExtended, fmtRegister]

theorem fmtOf_none_p (pc : Precision) (wre : Bool) : (fmtOf none pc wre).p = precisionBits pc := by
  cases wre <;> rfl

/-- The formats of the completers, of `pc` and of `wre`, by the bits of FPSR. -/
theorem destFmt_eq (s : State) (sf : SfNum) :
    (s.destFmt (some .single) sf = if sfBit s.fpsr sf 1 then ⟨24, -65534, 65535⟩ else ⟨24, -126, 127⟩) ∧
    (s.destFmt (some .double) sf = if sfBit s.fpsr sf 1 then ⟨53, -65534, 65535⟩ else ⟨53, -1022, 1023⟩) ∧
    ((s.destFmt none sf).emin = (if sfBit s.fpsr sf 1 then -65534 else -16382) ∧
      (s.destFmt none sf).emax = if sfBit s.fpsr sf 1 then 65535 else 16383) ∧
    (sfBit s.fpsr sf 3 = false → sfBit s.fpsr sf 2 = false → (s.destFmt none sf).p = 24) ∧
    (sfBit s.fpsr sf 3 = true → sfBit s.fpsr sf 2 = false → (s.destFmt none sf).p = 53) ∧
    (sfBit s.fpsr sf 3 = true → sfBit s.fpsr sf 2 = true → (s.destFmt none sf).p = 64) := by
  obtain ⟨hsingle, hdouble, hextended⟩ := pcPrecision_eq (sfBit s.fpsr sf 3) (sfBit s.fpsr sf 2)
  simp only [State.destFmt, fmtOf_none_p, wreOf, pcOf]
  refine ⟨?_, ?_, ?_, fun h3 h2 => by rw [hsingle h3 h2]; rfl, fun h3 h2 => by rw [hdouble h3 h2]; rfl,
    fun h3 h2 => by rw [hextended h3 h2]; rfl⟩
  all_goals cases sfBit s.fpsr sf 1
  · rfl
  · rfl
  · rfl
  · rfl
  · exact ⟨rfl, rfl⟩
  · exact ⟨rfl, rfl⟩

/-- Settles O22: on numbers the instruction is the stage on the exact result, completed as the stage's outcome says. -/
theorem normalFusedFollowsStage : Obligations.NormalFusedFollowsStage := by
  unfold Obligations.NormalFusedFollowsStage
  refine ⟨⟨rfl, rfl, ?_⟩, ?_⟩
  · rintro s sf b rfl
    exact ⟨fun c => fmtOf_mem_destFormats .., destFmt_eq s sf⟩
  rintro i op c a s x3 x4 x2 p den o u hi hready h3 h4 h2 hp rfl rfl rfl
  have hexec := exec_normalFused_of_num hi hready h3 h4 h2
  rw [State.fusedResult_of_num h3 h4 h2 hp] at hexec
  refine ⟨fun hfin => ?_, fun ⟨hden, hen⟩ => ?_, fun hgo => ?_⟩
  · obtain ⟨y3, y4, y2, q, e3, e4, e2, hq, hexact⟩ := normalFused_exact hi hfin
    cases h3.symm.trans e3
    cases h4.symm.trans e4
    cases h2.symm.trans e2
    cases hp.symm.trans hq
    exact hexact
  · have hs := (Bool.and_eq_true ..).mpr ⟨hden, hen⟩
    exact ⟨hexec.trans (State.finishNormal_of_denormalStops rfl hs), faultReport_normal ..⟩
  · have hs := Bool.eq_false_iff.mpr fun hs => hgo ((Bool.and_eq_true ..).mp hs)
    exact ⟨fun ht => hexec.trans (State.finishNormal_stage_of_no_trap hs ht), fun k ht =>
      ⟨hexec.trans (State.finishNormal_stage_of_trap hs ht), isrOfTrap_low ..⟩⟩

end Sys2Proof.Machine
end

section
/-! Parallel-FP completions (R65, R102): one element beside the other, and both elements in exact states. -/

namespace Sys2Proof.Machine

variable {s t : State} {sf : SfNum} {f1 : RegNum} {p2 : Option PredNum} {pick other : Flt → Elem} {lane : Nat}

theorem isLane.exists_other (h : isLane pick lane) : ∃ other, isLane other (1 - lane) := by
  obtain ⟨-, rfl⟩ | ⟨-, rfl⟩ := h
  · exact ⟨highElem, .inr ⟨rfl, rfl⟩⟩
  · exact ⟨lowElem, .inl ⟨rfl, rfl⟩⟩

/-- `t` follows `s` by a fault whose ISR reports the enabled kinds of element `lane`, which signals `g`, and of the other
element, which signals `g'`; one of them has such a kind (R102). -/
def LaneFaults (s t : State) (sf : SfNum) (lane : Nat) (g g' : Signals) : Prop :=
  faultedFrom s t ∧ faultReport t.isr lane (enabledSignals (controlsOf s.fpsr sf) g) ∧
    faultReport t.isr (1 - lane) (enabledSignals (controlsOf s.fpsr sf) g') ∧
    ((enabledSignals (controlsOf s.fpsr sf) g).any = true ∨ (enabledSignals (controlsOf s.fpsr sf) g').any = true)

/-- `t` follows `s` without a fault: element `lane` of the destination is the value of `r`, what both elements signal is in the
event record, and beside an element `o` that sets no flag and raises no trap the flags and the trap are those of `r` (R65). -/
def LaneDelivers (s t : State) (sf : SfNum) (f1 : RegNum) (pick : Flt → Elem) (lane : Nat) (r o : ElemResult Elem) : Prop :=
  (enabledSignals (controlsOf s.fpsr sf) r.report.signals).any = false ∧
    (enabledSignals (controlsOf s.fpsr sf) o.report.signals).any = false ∧
    pick (t.readF f1) = r.value ∧ t.signaled.v = (r.report.signals.v || o.report.signals.v) ∧
    (r.report.signals.d = true → denormalRecorded t sf) ∧
    (o.report.sets = {} → o.report.freed = false → o.report.trap = none →
      laneEnds s t sf lane r.report.sets r.report.freed r.report.trap)

/-- A completion that does not stop leaves its signals in the event record. -/
theorem State.signaled_of_finish {x : Flt} {low : Report} {high : Option Report} (h : s.finish sf f1 p2 x low high = .next t)
    (hs : s.finishStops sf low high = false) : t.signaled = allSignals low high := by
  cases ht : trapOf low high with
  | none =>
    cases (State.finish_of_no_trap hs ht).symm.trans h
    simp
  | some code =>
    cases (State.finish_of_trap hs ht).symm.trans h
    simp

/-- A Parallel-FP operation as one element sees it: `f` gives the result of each element. -/
theorem State.finishParallel_isLane {f : (Flt → Elem) → Nat → ElemResult Elem} (h0 : f1 ≠ 0) (h1 : f1 ≠ 1)
    (hl : isLane pick lane) (ho : isLane other (1 - lane)) :
    ∃ t, s.finishParallel sf f1 p2 (f highElem 1) (f lowElem 0) = .next t ∧
      (LaneFaults s t sf lane (f pick lane).report.signals (f other (1 - lane)).report.signals ∨
        LaneDelivers s t sf f1 pick lane (f pick lane) (f other (1 - lane))) := by
  have hpos : (pick = highElem ∧ lane = 1 ∧ f highElem 1 = f pick lane ∧ f lowElem 0 = f other (1 - lane)) ∨
      (pick = lowElem ∧ lane = 0 ∧ f highElem 1 = f other (1 - lane) ∧ f lowElem 0 = f pick lane) := by
    obtain ⟨rfl, rfl⟩ | ⟨rfl, rfl⟩ := hl <;> obtain ⟨rfl, h⟩ | ⟨rfl, h⟩ := ho <;> simp at h ⊢
  obtain ⟨t, ht, hfault | ⟨hr, hq, hvalue, hden, hends⟩⟩ :=
    State.finishParallel_lane (s := s) (sf := sf) (p2 := p2) h0 h1 hpos
  · exact ⟨t, ht, .inl hfault⟩
  · refine ⟨t, ht, .inr ⟨hr, hq, hvalue, ?_, hden, hends⟩⟩
    obtain ⟨-, -, ehigh, elow⟩ | ⟨-, -, ehigh, elow⟩ := hpos
    · rw [ehigh, elow] at ht
      rw [State.signaled_of_finish ht (by simp [State.finishStops, hr, hq])]
      exact Bool.or_comm ..
    · rw [ehigh, elow] at ht
      rw [State.signaled_of_finish ht (by simp [State.finishStops, hr, hq])]
      rfl

/-- A group of ISR that reports some kind has a bit set. -/
theorem exists_faultBit {isr : BitVec 64} {g : Signals} (h : faultReport isr lane g) (hg : g.any = true) :
    ∃ kind, kind < 4 ∧ isr.getLsbD (laneFaultBit lane kind) = true := by
  obtain ⟨hv, hd, hz, hswa⟩ := h
  simp only [Signals.any, Bool.or_eq_true] at hg
  obtain ((hg | hg) | hg) | hg := hg
  · exact ⟨0, by decide, hv.trans hg⟩
  · exact ⟨1, by decide, hd.trans hg⟩
  · exact ⟨2, by decide, hz.trans hg⟩
  · exact ⟨3, by decide, hswa.trans hg⟩

theorem any_denormal (s : State) (sf : SfNum) (den : Bool) :
    (enabledSignals (controlsOf s.fpsr sf) { d := den }).any = s.denormalStops sf den := by
  simp [enabledSignals_denormal, Signals.any, State.denormalStops]

theorem any_invalid (c : Controls) (v : Bool) : (enabledSignals c { v := v }).any = (v && c.invEn) := by
  simp [enabledSignals_invalid, Signals.any]

/-- A fault beside an element that signals a denormal operand at most. -/
theorem LaneFaults.elementStops {den : Bool} {g' : Signals} (h : LaneFaults s t sf lane { d := den } g') :
    elementStops s t sf lane den := by
  obtain ⟨hfault, hlane, hother, hany⟩ := h
  refine ⟨hfault, ?_, ?_⟩
  · rw [enabledSignals_denormal] at hlane
    exact hlane
  · rw [any_denormal] at hany
    exact hany.imp_right fun ho => exists_faultBit hother ho

/-- A fault beside an element that signals Invalid Operation at most: no denormal operand of its own is reported, and the fault
is its own or the other element's. -/
theorem LaneFaults.of_invalid {v : Bool} {g' : Signals} (h : LaneFaults s t sf lane { v := v } g') :
    faultedFrom s t ∧ t.isr.getLsbD (laneFaultBit lane 1) = false ∧
      (((enabledSignals (controlsOf s.fpsr sf) g').any = true ∧
          faultReport t.isr (1 - lane) (enabledSignals (controlsOf s.fpsr sf) g')) ∨
        (t.isr.getLsbD (laneFaultBit lane 0) = true ∧ (controlsOf s.fpsr sf).invEn = true ∧ v = true)) := by
  obtain ⟨hfault, hlane, hother, hany⟩ := h
  rw [enabledSignals_invalid] at hlane
  obtain ⟨hv, hd, -, -⟩ := hlane
  refine ⟨hfault, hd, ?_⟩
  rw [any_invalid] at hany
  obtain hown | ho := hany
  · obtain ⟨hsig, hen⟩ := (Bool.and_eq_true ..).mp hown
    exact .inr ⟨hv.trans hown, hen, hsig⟩
  · exact .inl ⟨ho, hother⟩

/-! Both elements in exact states. -/

section
variable {high low : ElemResult Elem} {dh dl : Bool} (hh : high.report.signals = { d := dh })
  (hl : low.report.signals = { d := dl })
include hh hl

theorem State.finishStops_parallel :
    s.finishStops sf low.report (some high.report) = s.denormalStops sf (dl || dh) := by
  simp [State.finishStops, hh, hl, any_denormal, State.denormalStops, Bool.and_or_distrib_right]

/-- The fault of a denormal element (R102). -/
theorem State.finishParallel_of_denormalStops (hs : s.denormalStops sf (dl || dh) = true) :
    s.finishParallel sf f1 p2 high low =
      .next (s.interrupt .fpFault (isrOfFault (Config.isrBits s.draws) { d := dl } (some { d := dh }))) := by
  have hen : (controlsOf s.fpsr sf).denEn = true := ((Bool.and_eq_true ..).mp hs).2
  have hisr (den : Bool) : enabledSignals (controlsOf s.fpsr sf) { d := den } = { d := den } := by
    rw [enabledSignals_denormal, hen, Bool.and_true]
  rw [State.finishParallel, State.finish_stops ((State.finishStops_parallel hh hl).trans hs), State.faultIsr, hl,
    Option.map_some, hh, hisr, hisr]

end

/-- Two elements that report a denormal operand at most, its fault disabled, are written and flag d is set. -/
theorem State.finishParallel_value {xh xl : Elem} {dh dl : Bool} (hs : s.denormalStops sf (dl || dh) = false) :
    s.finishParallel sf f1 none ⟨xh, { signals := { d := dh } }⟩ ⟨xl, { signals := { d := dl } }⟩ = .next { s with
      fr := s.fr.set f1.toNat ⟨false, 0x1003E, xh ++ xl⟩ f1.isLt
      fpsr := orBit s.fpsr (sfBase sf + 8) (dl || dh)
      signaled := { d := dl || dh }
      pos := s.pos + 1
      draws := s.draws + 2 } := by
  have hflags : putFlags s.fpsr sf (newFlags (flagsOf s.fpsr sf) (Config.swaFlags s.draws) { signals := { d := dl } }
      (some { signals := { d := dh } })) = s.fpsr := by
    simp [newFlags, putFlags_flagsOf]
  rw [State.finishParallel, State.finish_of_no_trap ((State.finishStops_parallel rfl rfl).trans hs) rfl, State.commit,
    hflags]
  rfl

/-- `s` with the outcomes `oh` and `ol` of the stage on the two elements written (R65). -/
def State.elementsCommitted (s : State) (sf : SfNum) (f1 : RegNum) (den : Bool) (oh ol : StageOut) : State :=
  { s with
    fr := s.fr.set f1.toNat ⟨false, 0x1003E, encodeElem oh.dest ++ encodeElem ol.dest⟩ f1.isLt
    fpsr := recordSignals
      (putFlags s.fpsr sf
        ((if (ol.freed || oh.freed) = true then Config.swaFlags s.draws else flagsOf s.fpsr sf).or (ol.sets.or oh.sets)))
      sf { d := den }
    signaled := { d := den } }

section
variable {envh envl : StageEnv} {dh dl : Bool} {ph pl : Precise} (hs : s.denormalStops sf (dl || dh) = false)
include hs

/-- Two results of the stage without a trap. -/
theorem State.finishParallel_stage_of_no_trap (hh : (fpStage envh ph).trap = none) (hl : (fpStage envl pl).trap = none) :
    s.finishParallel sf f1 none (stageResult elemCarrier envh dh false ph) (stageResult elemCarrier envl dl false pl) =
      .next (s.elementsCommitted sf f1 (dl || dh) (fpStage envh ph) (fpStage envl pl)).advance.tick :=
  State.finish_of_no_trap ((State.finishStops_parallel rfl rfl).trans hs) (by simp [trapOf, stageResult, hh, hl])

/-- Two results of the stage of which one traps: one trap, which reports both. -/
theorem State.finishParallel_stage_of_trap
    (ht : (fpStage envh ph).trap.isSome = true ∨ (fpStage envl pl).trap.isSome = true) :
    s.finishParallel sf f1 none (stageResult elemCarrier envh dh false ph) (stageResult elemCarrier envl dl false pl) =
      .next ((s.elementsCommitted sf f1 (dl || dh) (fpStage envh ph) (fpStage envl pl)).interrupt .fpTrap
        (isrOfTrap (Config.isrBits s.draws) ((fpStage envl pl).trap.getD {}) (some ((fpStage envh ph).trap.getD {})))) :=
  State.finish_of_trap (code := ((fpStage envl pl).trap.getD {}, some ((fpStage envh ph).trap.getD {})))
    ((State.finishStops_parallel rfl rfl).trans hs) (if_pos ((Bool.or_eq_true ..).mpr ht.symm))

end

end Sys2Proof.Machine
end

section
/-! The Parallel-FP fused instructions (R88 to R90): the stage on each element, and exact results. -/

namespace Sys2Proof.Machine

/-! Invalid operations (GK8): the exact arithmetic has no result. -/

section
variable {x y z : Numeric} {n : Bool}

theorem mulNum_inf_zero (hx : x.isInf = true) (hy : y.isZero = true) : mulNum x y = none ∧ mulNum y x = none := by
  cases x with
  | fin => cases hx
  | inf a =>
    cases y with
    | inf => cases hy
    | fin b m e =>
      obtain rfl : m = 0 := beq_iff_eq.mp hy
      exact ⟨rfl, rfl⟩

theorem addNum_opposite (rc : RoundMode) (hz : z.isInf = true) (hn : n ≠ z.isNeg) : addNum rc (.inf n) z = none := by
  cases z with
  | fin => cases hz
  | inf => exact if_neg hn

/-- The invalid operations of IEEE 754 have no exact result. -/
theorem fusedExact_of_invalid {op : ArithOp} (rc : RoundMode) (h : invalidFused op x y z = true) :
    fusedExact op rc x y z = none := by
  by_cases hxy : (x.isInf = true ∧ y.isZero = true) ∨ (x.isZero = true ∧ y.isInf = true)
  · obtain ⟨hx, hy⟩ | ⟨hx, hy⟩ := hxy
    · rw [fusedExact, (mulNum_inf_zero hx hy).1]
      rfl
    · rw [fusedExact, (mulNum_inf_zero hy hx).2]
      rfl
  · simp only [invalidFused, Bool.or_eq_true, Bool.and_eq_true, bne_iff_ne] at h
    obtain ⟨⟨hinf, hz⟩, hopposite⟩ := h.resolve_left hxy
    have hx : x.isZero = false := by
      cases x with
      | inf => rfl
      | fin => exact Bool.eq_false_iff.mpr fun hx => hxy (.inr ⟨hx, hinf.resolve_left nofun⟩)
    have hy : y.isZero = false := by
      cases y with
      | inf => rfl
      | fin => exact Bool.eq_false_iff.mpr fun hy => hxy (.inl ⟨hinf.resolve_right nofun, hy⟩)
    rw [fusedExact, mulNum_of_isInf hinf hx hy]
    refine addNum_opposite rc ((negNum_isInf ..).trans hz) ?_
    rw [negNum_isNeg]
    exact hopposite

end

/-! One element. -/

section
variable {α : Type} {C : Carrier α} {env : StageEnv} {x3 x4 x2 : α}

/-- An element with a NaN, or invalid, sets no flag and raises no trap. -/
theorem fusedElem_quiet_of_nan (h : ∃ x ∈ [x3, x4, x2], (C.classify x).isNaN = true) :
    (fusedElem C env x3 x4 x2).report.sets = {} ∧ (fusedElem C env x3 x4 x2).report.freed = false ∧
      (fusedElem C env x3 x4 x2).report.trap = none := by
  obtain ⟨x, hx, hnan⟩ := h
  have hmem : x ∈ [x4, x2, x3] := by
    simp only [List.mem_cons, List.not_mem_nil, or_false] at hx ⊢
    tauto
  have hsome : (chooseNaN C [x4, x2, x3]).isSome = true := List.find?_isSome.mpr ⟨x, hmem, hnan⟩
  obtain ⟨w, hw⟩ := Option.isSome_iff_exists.mp hsome
  obtain ⟨y, v, hp, -⟩ := propagate_of_chooseNaN hw
  rw [fusedElem_of_propagate hp]
  exact ⟨rfl, rfl, rfl⟩

theorem fusedElem_of_invalid {y3 y4 y2 : Numeric} (h3 : C.classify x3 = .num y3) (h4 : C.classify x4 = .num y4)
    (h2 : C.classify x2 = .num y2) (h : invalidFused env.op y3 y4 y2 = true) :
    fusedElem C env x3 x4 x2 = invalidResult C := by
  simp [fusedElem, propagate, chooseNaN, Operand.isNaN, h3, h4, h2, fusedExact_of_invalid env.ctl.rc h]

end

/-- On finite elements, none denormal, an exact result that is a normal single or zero is delivered without a flag or a
trap. -/
theorem fusedElem_of_exactElem {env : StageEnv} {x3 x4 x2 r : Elem} (hfmt : env.fmt = fmtSingle)
    (hop : env.op = .fma ∨ env.op = .fms ∨ env.op = .fnma)
    (hfin : ∀ x ∈ [x3, x4, x2], finiteElem x = true ∧ unnormalElem x = false)
    (h : exactElem env.ctl.rc env.op x3 x4 x2 r) : fusedElem elemCarrier env x3 x4 x2 = ⟨r, {}⟩ := by
  simp only [List.forall_mem_cons] at hfin
  obtain ⟨⟨hf3, hu3⟩, ⟨hf4, hu4⟩, ⟨hf2, hu2⟩, -⟩ := hfin
  obtain ⟨y3, h3, hd3⟩ := classifyElem_denotes hf3
  obtain ⟨y4, h4, hd4⟩ := classifyElem_denotes hf4
  obtain ⟨y2, h2, hd2⟩ := classifyElem_denotes hf2
  obtain ⟨p, hp, hexact⟩ := fusedExact_of_denotes hop env.ctl.rc hd3 hd4 hd2
  have hden : (unnormalElem x3 || unnormalElem x4 || unnormalElem x2) = false := by simp [hu3, hu4, hu2]
  have hresult : fusedElem elemCarrier env x3 x4 x2 = stageResult elemCarrier env false false p :=
    (fusedElem_of_num (C := elemCarrier) h3 h4 h2 hp).trans (congrArg (stageResult elemCarrier env · false p) hden)
  obtain ⟨neg, k, e, hge, hlt, hmin, hmax, hvalue, rfl⟩ | ⟨hzero, rfl⟩ := h
  · rw [hvalue] at hexact
    have hstage : fpStage env p = stageDone (.rounded neg e k) := by
      refine fpStage_of_representable (z := exactZeroNeg env.ctl.rc env.op (x3.getLsbD 31) (x4.getLsbD 31) (x2.getLsbD 31))
        ?_ ?_ ?_ ?_ ?_ <;> rw [hfmt]
      · exact hge
      · exact hlt
      · exact hmin
      · exact hmax
      · exact hexact
    rw [hresult, stageResult, hstage]
    rfl
  · rw [hzero] at hexact
    rw [hresult, stageResult, Precise.eq_zero_of_isExactly hexact, ← encodeElem_zero]
    rfl

/-! The instructions. -/

section
variable {i : Instr} {op : ArithOp} {a : F1Fields} {s : State} {pick other : Flt → Elem} {lane : Nat}

/-- The fields of a Parallel-FP fused instruction and its meaning. -/
theorem Instr.parallelFused_fields (h : i.parallelFused = some (op, a)) :
    i.qp = a.qp ∧ i.pred = none ∧ i.dest = a.f1 ∧ i.sources = [a.f3, a.f4, a.f2] ∧ exec i s = fusedParallel op a s := by
  cases i with
  | fpma | fpms | fpnma =>
    cases h
    exact ⟨rfl, rfl, rfl, rfl, rfl⟩
  | _ => cases h

theorem Instr.parallelFused_op (h : i.parallelFused = some (op, a)) : op = .fma ∨ op = .fms ∨ op = .fnma := by
  cases i <;> cases h <;> simp

/-- A Parallel-FP fused instruction that is ready, without a `NaTVal` source, completes with its two elements. -/
theorem exec_parallelFused (h : i.parallelFused = some (op, a)) (hready : s.ready i = true) (hnat : s.noNaT i = true) :
    exec i s = s.finishParallel a.sf a.f1 none (s.fusedLane op highElem 1 a) (s.fusedLane op lowElem 0 a) := by
  obtain ⟨hqp, hpred, hdest, hsrc, hexec⟩ := Instr.parallelFused_fields (s := s) h
  rw [hexec, fusedParallel, ← hqp, ← hpred, ← hdest, ← hsrc, State.guarded_ready hready, State.unlessNaT_own hnat]

/-- The same as one element sees it. -/
theorem exec_parallelFused_lane (h : i.parallelFused = some (op, a)) (hready : s.ready i = true) (hnat : s.noNaT i = true)
    (hl : isLane pick lane) (ho : isLane other (1 - lane)) :
    ∃ t, exec i s = .next t ∧
      (LaneFaults s t a.sf lane (s.fusedLane op pick lane a).report.signals
          (s.fusedLane op other (1 - lane) a).report.signals ∨
        LaneDelivers s t a.sf a.f1 pick lane (s.fusedLane op pick lane a) (s.fusedLane op other (1 - lane) a)) := by
  obtain ⟨-, -, hdest, -, -⟩ := Instr.parallelFused_fields (s := s) h
  obtain ⟨h0, h1⟩ := State.ready_dest hready
  rw [exec_parallelFused h hready hnat]
  exact State.finishParallel_isLane (f := fun pick lane => s.fusedLane op pick lane a) (hdest ▸ h0) (hdest ▸ h1) hl ho

theorem State.fusedLane_of_num {x3 x4 x2 : Numeric} {p : Precise} (h3 : classifyElem (pick (s.readF a.f3)) = .num x3)
    (h4 : classifyElem (pick (s.readF a.f4)) = .num x4) (h2 : classifyElem (pick (s.readF a.f2)) = .num x2)
    (hp : fusedExact op (controlsOf s.fpsr a.sf).rc x3 x4 x2 = some p) :
    s.fusedLane op pick lane a = stageResult elemCarrier (s.stageEnv a.sf fmtSingle op lane)
      (unnormalElem (pick (s.readF a.f3)) || unnormalElem (pick (s.readF a.f4)) || unnormalElem (pick (s.readF a.f2)))
      false p :=
  fusedElem_of_num (C := elemCarrier) h3 h4 h2 hp

/-- The exact result of an element of finite operands (R79). -/
theorem parallelFused_isExactly {x3 x4 x2 : Numeric} {p : Precise} (h : i.parallelFused = some (op, a))
    (h3 : classifyElem (pick (s.readF a.f3)) = .num x3) (h4 : classifyElem (pick (s.readF a.f4)) = .num x4)
    (h2 : classifyElem (pick (s.readF a.f2)) = .num x2) (hp : fusedExact op (controlsOf s.fpsr a.sf).rc x3 x4 x2 = some p)
    (hfin : ∀ n ∈ i.sources, finiteElem (pick (s.readF n)) = true) :
    p.isExactly (fusedRat op (elemValue (pick (s.readF a.f3))) (elemValue (pick (s.readF a.f4)))
        (elemValue (pick (s.readF a.f2))))
      (exactZeroNeg (controlsOf s.fpsr a.sf).rc op ((pick (s.readF a.f3)).getLsbD 31) ((pick (s.readF a.f4)).getLsbD 31)
        ((pick (s.readF a.f2)).getLsbD 31)) := by
  obtain ⟨-, -, -, hsrc, -⟩ := Instr.parallelFused_fields (s := s) h
  simp only [hsrc, List.forall_mem_cons] at hfin
  obtain ⟨hf3, hf4, hf2, -⟩ := hfin
  obtain ⟨y3, e3, hd3⟩ := classifyElem_denotes hf3
  obtain ⟨y4, e4, hd4⟩ := classifyElem_denotes hf4
  obtain ⟨y2, e2, hd2⟩ := classifyElem_denotes hf2
  obtain ⟨q, hq, hexact⟩ := fusedExact_of_denotes (Instr.parallelFused_op h) (controlsOf s.fpsr a.sf).rc hd3 hd4 hd2
  cases h3.symm.trans e3
  cases h4.symm.trans e4
  cases h2.symm.trans e2
  cases hp.symm.trans hq
  exact hexact

end

/-- Settles O28: each element is the stage on an exact result that it delivers as it is. -/
theorem parallelFusedExactResult : Obligations.ParallelFusedExactResult := by
  unfold Obligations.ParallelFusedExactResult
  have hlane {i : Instr} {op : ArithOp} {a : F1Fields} {s : State} {pick : Flt → Elem} {r : Elem} (lane : Nat)
      (hi : i.parallelFused = some (op, a))
      (hfin : ∀ n ∈ i.sources, finiteElem (pick (s.readF n)) = true ∧ unnormalElem (pick (s.readF n)) = false)
      (hr : exactElem (controlsOf s.fpsr a.sf).rc op (pick (s.readF a.f3)) (pick (s.readF a.f4)) (pick (s.readF a.f2)) r) :
      s.fusedLane op pick lane a = ⟨r, {}⟩ := by
    obtain ⟨-, -, -, hsrc, -⟩ := Instr.parallelFused_fields (s := s) hi
    refine fusedElem_of_exactElem rfl (Instr.parallelFused_op hi) ?_ hr
    simpa [hsrc] using hfin
  constructor
  · intro i op a s rh rl hi hready hnat hfin hh hl
    rw [exec_parallelFused hi hready hnat, hlane 1 hi (fun n hn => hfin n hn _ (by simp)) hh,
      hlane 0 hi (fun n hn => hfin n hn _ (by simp)) hl]
    exact State.finishParallel_value (dh := false) (dl := false) rfl
  · intro i op a s pick lane r hpick hi hready hnat hfin hr
    obtain ⟨other, hother⟩ := hpick.exists_other
    obtain ⟨t, ht, hfault | hdone⟩ := exec_parallelFused_lane hi hready hnat hpick hother
    · rw [hlane lane hi hfin hr] at hfault
      exact ⟨t, ht, .inl (hfault.elementStops (den := false))⟩
    · rw [hlane lane hi hfin hr] at hdone
      obtain ⟨-, -, hvalue, -⟩ := hdone
      exact ⟨t, ht, .inr hvalue⟩

end Sys2Proof.Machine
end

section
/-! The Parallel-FP fused instructions on any numeric elements (R65, R88 to R90), and NaN operands of the fused instructions
(R75). -/

namespace Sys2Proof.Machine

/-- Settles O27: each element is the stage on its own exact result, and the completion ORs flags and takes one trap. -/
theorem parallelFusedFollowsStage : Obligations.ParallelFusedFollowsStage := by
  unfold Obligations.ParallelFusedFollowsStage
  constructor
  · rintro i op a s h3 h4 h2 l3 l4 l2 ph pl dh dl oh ol kh kl u hi hready hnat hh3 hh4 hh2 hl3 hl4 hl2 hph hpl rfl rfl rfl rfl
      rfl rfl rfl
    have hexec := exec_parallelFused hi hready hnat
    rw [State.fusedLane_of_num hh3 hh4 hh2 hph, State.fusedLane_of_num hl3 hl4 hl2 hpl] at hexec
    refine ⟨parallelFused_isExactly hi hh3 hh4 hh2 hph, parallelFused_isExactly hi hl3 hl4 hl2 hpl, fun ⟨hden, hen⟩ => ?_,
      fun hgo => ?_⟩
    · rw [Bool.or_comm] at hden
      exact hexec.trans (State.finishParallel_of_denormalStops rfl rfl ((Bool.and_eq_true ..).mpr ⟨hden, hen⟩))
    · rw [Bool.or_comm] at hgo
      have hs := Bool.eq_false_iff.mpr fun hs => hgo ((Bool.and_eq_true ..).mp hs)
      exact ⟨fun hth htl => hexec.trans (State.finishParallel_stage_of_no_trap hs hth htl), fun ht =>
        ⟨_, hexec.trans (State.finishParallel_stage_of_trap hs ht), isrOfTrap_low .., isrOfTrap_high ..⟩⟩
  · rintro i op a s pick other lane x3 x4 x2 p den o hpick hother hi hready hnat h3 h4 h2 hp rfl rfl
    obtain ⟨-, -, -, hsrc, -⟩ := Instr.parallelFused_fields (s := s) hi
    obtain ⟨t, ht, hfault | hdone⟩ := exec_parallelFused_lane hi hready hnat hpick hother
    · rw [State.fusedLane_of_num h3 h4 h2 hp] at hfault
      exact ⟨t, ht, .inl hfault.elementStops⟩
    · rw [State.fusedLane_of_num h3 h4 h2 hp] at hdone
      obtain ⟨hstops, -, hvalue, -, hrecorded, hends⟩ := hdone
      refine ⟨t, ht, .inr ⟨(any_denormal ..).symm.trans hstops, hvalue, hrecorded, fun hbeside => ?_⟩⟩
      obtain ⟨n, hn, hnan⟩ | ⟨y3, y4, y2, e3, e4, e2, hinvalid⟩ := hbeside
      · have hmem : other (s.readF n) ∈ [a.f3, a.f4, a.f2].map fun n => other (s.readF n) :=
          List.mem_map_of_mem (hsrc ▸ hn)
        obtain ⟨hsets, hfreed, htrap⟩ := fusedElem_quiet_of_nan (C := elemCarrier)
          (env := s.stageEnv a.sf fmtSingle op (1 - lane)) ⟨_, hmem, hnan⟩
        exact hends hsets hfreed htrap
      · have hresult := fusedElem_of_invalid (C := elemCarrier) (env := s.stageEnv a.sf fmtSingle op (1 - lane))
          e3 e4 e2 hinvalid
        rw [State.fusedLane, hresult] at hends
        exact hends rfl rfl rfl

/-- An operand in the priority order of R75 is a source. -/
theorem exists_source_of_priority {β : Type} {f : RegNum → β} {f3 f4 f2 : RegNum} {z : β} (h : z ∈ [f f4, f f2, f f3]) :
    ∃ n ∈ [f3, f4, f2], f n = z := by
  obtain ⟨n, hn, rfl⟩ := List.mem_map.mp (show z ∈ [f4, f2, f3].map f from h)
  refine ⟨n, ?_, rfl⟩
  simp only [List.mem_cons, List.not_mem_nil, or_false] at hn ⊢
  tauto

/-- An operation that signals neither Zero Divide nor Software Assist faults for one of the two other kinds. -/
theorem faultBit_v_or_d {isr : BitVec 64} {lane : Nat} {c : Controls} {g : Signals}
    (h : faultReport isr lane (enabledSignals c g)) (hany : (enabledSignals c g).any = true) (hz : g.z = false)
    (hswa : g.swa = false) :
    isr.getLsbD (laneFaultBit lane 0) = true ∨ isr.getLsbD (laneFaultBit lane 1) = true := by
  obtain ⟨hv, hd, -, -⟩ := h
  rw [hv, hd]
  simpa [Signals.any, enabledSignals, hz, hswa] using hany

/-- Settles O25: NaN delivery comes before the arithmetic, and `propagate` delivers the first NaN of the priority. -/
theorem fusedNaNPriority : Obligations.FusedNaNPriority := by
  unfold Obligations.FusedNaNPriority
  refine ⟨?_, ?_, ?_⟩
  · intro i op c a s chosen hi hready hnat hquiet hchosen
    obtain ⟨-, -, -, hsrc, -⟩ := Instr.normalFused_fields (s := s) hi
    have hnan : chooseNaN (regCarrier (s.destFmt c a.sf)) [s.readF a.f4, s.readF a.f2, s.readF a.f3] = some chosen := by
      refine chooseNaN_of_priority ?_
      obtain ⟨h, rfl⟩ | ⟨h4, h, rfl⟩ | ⟨h4, h2, h, rfl⟩ := hchosen
      · exact .inl ⟨congrArg Operand.isNaN h, rfl⟩
      · exact .inr (.inl ⟨h4, congrArg Operand.isNaN h, rfl⟩)
      · exact .inr (.inr ⟨h4, h2, congrArg Operand.isNaN h, rfl⟩)
    have hresult : s.fusedResult op c a = ⟨chosen, {}⟩ := by
      refine fusedElem_of_propagate (propagate_of_quiet hnan ?_)
      simp only [hsrc, List.forall_mem_cons] at hquiet ⊢
      obtain ⟨h3, h4, h2, -⟩ := hquiet
      exact ⟨h4, h2, h3, nofun⟩
    rw [exec_normalFused hi hready hnat, hresult, State.finishNormal_value]
  · intro i op c a s chosen hi hready hnat hhandler hchosen
    obtain ⟨-, -, hdest, hsrc, -⟩ := Instr.normalFused_fields (s := s) hi
    obtain ⟨h0, h1⟩ := State.ready_dest hready
    obtain ⟨y, v, hp, hy, hv⟩ := propagate_reg (fmt := s.destFmt c a.sf) (chooseNaN_of_priority hchosen)
    rw [exec_normalFused hi hready hnat, State.fusedResult, fusedElem_of_propagate hp]
    obtain ⟨t, ht, ⟨hfault, hisr, hstops⟩ | ⟨-, hh, hsg, hflags, -, hvalue⟩⟩ :=
      State.finishNormal_invalid_cases (s := s) (sf := a.sf) (p2 := none) (x := y) (v := v) (hdest ▸ h0) (hdest ▸ h1)
    · obtain ⟨hsig, hen⟩ := (Bool.and_eq_true ..).mp hstops
      obtain ⟨z, hz, hclass⟩ := hv hsig
      obtain ⟨hbit0, hbit1, -, -⟩ := hisr
      obtain ⟨n, hn, rfl⟩ := exists_source_of_priority hz
      exact ⟨t, ht, .inl ⟨hfault, hbit0, hbit1, hen, n, hsrc ▸ hn, hclass⟩⟩
    · exact ⟨t, ht, .inr ⟨hh.trans hhandler, by rw [hsg], hflags, hvalue ▸ hy⟩⟩
  · intro i op a s pick lane chosen hpick hi hready hnat hchosen
    obtain ⟨-, -, -, hsrc, -⟩ := Instr.parallelFused_fields (s := s) hi
    obtain ⟨y, v, hp, hy, hv⟩ := propagate_elem (chooseNaN_of_priority (C := elemCarrier) hchosen)
    have hresult : s.fusedLane op pick lane a = ⟨y, { signals := { v := v } }⟩ := fusedElem_of_propagate hp
    obtain ⟨other, hother⟩ := hpick.exists_other
    obtain ⟨t, ht, hfault | hdone⟩ := exec_parallelFused_lane hi hready hnat hpick hother
    · rw [hresult] at hfault
      obtain ⟨hfaulted, hd, ⟨hany, hreport⟩ | ⟨hbit, hen, hsig⟩⟩ := hfault.of_invalid
      · obtain ⟨hz, hswa⟩ := fusedElem_signals (C := elemCarrier) (env := s.stageEnv a.sf fmtSingle op (1 - lane))
          (other (s.readF a.f3)) (other (s.readF a.f4)) (other (s.readF a.f2))
        exact ⟨t, ht, .inl ⟨hfaulted, hd, (faultBit_v_or_d hreport hany hz hswa).imp_right .inl⟩⟩
      · obtain ⟨z, hz, hclass⟩ := hv hsig
        obtain ⟨n, hn, rfl⟩ := exists_source_of_priority (f := fun n => pick (s.readF n)) hz
        exact ⟨t, ht, .inl ⟨hfaulted, hd, .inr (.inr ⟨hbit, hen, n, hsrc ▸ hn, hclass⟩)⟩⟩
    · rw [hresult] at hdone
      obtain ⟨-, -, hvalue, -⟩ := hdone
      exact ⟨t, ht, .inr (hvalue ▸ hy)⟩

end Sys2Proof.Machine
end

section
/-! NaN operands of the approximation instructions (R75, R91 to R94). -/

namespace Sys2Proof.Machine

section
variable {α : Type} {C A : Carrier α} {env : StageEnv} {fr : HelperFree} {f : RegNum → α} {n f2 f3 : RegNum}

theorem chooseNaN_single (h : (C.classify (f n)).isNaN = true) : chooseNaN C [f n] = some (f n) := by
  rw [chooseNaN_cons, if_pos h]

/-- The priority of R75 on the two operands of an approximation instruction. -/
theorem chooseNaN_pair (h : (C.classify (f n)).isNaN = true)
    (hn : n = f2 ∨ ((C.classify (f f2)).isNaN = false ∧ n = f3)) : chooseNaN C [f f2, f f3] = some (f n) := by
  rw [chooseNaN_cons]
  obtain rfl | ⟨h2, rfl⟩ := hn
  · rw [if_pos h]
  · rw [if_neg (by simp [h2]), chooseNaN_single h]

theorem recipElem_of_propagate {r : ElemResult α} {x2 x3 : α} (h : propagate C [x2, x3] = some r) :
    recipElem C A env fr x2 x3 = r := by
  simp only [recipElem, h]

theorem rootElem_of_propagate {r : ElemResult α} {approx x3 : α} (h : propagate C [x3] = some r) :
    rootElem C env fr approx x3 = r := by
  simp only [rootElem, h]

end

variable {i : Instr} {s : State} {chosen : RegNum} {pick : Flt → Elem} {lane : Nat}

/-- `frcpa` and `frsqrta` on a NaN operand complete with its delivery. -/
theorem exec_approx_of_nan (hready : s.ready i = true) (hnat : s.noNaT i = true)
    (hnan : (classifyReg (s.readF chosen)).isNaN = true)
    (hi : (∃ a, i = .frcpa a ∧ (chosen = a.f2 ∨ ((classifyReg (s.readF a.f2)).isNaN = false ∧ chosen = a.f3))) ∨
      (∃ a, i = .frsqrta a ∧ chosen = a.f3)) :
    ∃ fmt, chooseNaN (regCarrier fmt) (i.sources.map s.readF) = some (s.readF chosen) ∧
      ∀ r, propagate (regCarrier fmt) (i.sources.map s.readF) = some r →
        exec i s = s.finishNormal i.sf i.dest i.pred r := by
  obtain ⟨a, rfl, hchosen⟩ | ⟨a, rfl, rfl⟩ := hi
  · exact ⟨s.helperFmt a.sf, chooseNaN_pair hnan hchosen, fun r hr =>
      (State.completion_reached hready hnat _).trans (congrArg (s.finishNormal a.sf a.f1 (some a.p2)) (recipElem_of_propagate hr))⟩
  · exact ⟨s.helperFmt a.sf, chooseNaN_single (f := s.readF) hnan, fun r hr =>
      (State.completion_reached hready hnat _).trans (congrArg (s.finishNormal a.sf a.f1 (some a.p2)) (rootElem_of_propagate hr))⟩

/-- `fprcpa` and `fprsqrta` on a NaN element, as that element sees it. -/
theorem exec_parallelApprox_of_nan (hpick : isLane pick lane) (hready : s.ready i = true) (hnat : s.noNaT i = true)
    (hnan : (classifyElem (pick (s.readF chosen))).isNaN = true)
    (hi : (∃ a, i = .fprcpa a ∧
        (chosen = a.f2 ∨ ((classifyElem (pick (s.readF a.f2))).isNaN = false ∧ chosen = a.f3))) ∨
      (∃ a, i = .fprsqrta a ∧ chosen = a.f3)) :
    chooseNaN elemCarrier (i.sources.map fun n => pick (s.readF n)) = some (pick (s.readF chosen)) ∧
      ∀ r, propagate elemCarrier (i.sources.map fun n => pick (s.readF n)) = some r →
        ∃ t o, exec i s = .next t ∧
          (LaneFaults s t i.sf lane r.report.signals o.report.signals ∨ LaneDelivers s t i.sf i.dest pick lane r o) := by
  obtain ⟨h0, h1⟩ := State.ready_dest hready
  obtain ⟨other, hother⟩ := hpick.exists_other
  obtain ⟨a, rfl, hchosen⟩ | ⟨a, rfl, rfl⟩ := hi
  · refine ⟨chooseNaN_pair (C := elemCarrier) (f := fun n => pick (s.readF n)) hnan hchosen, fun r hr => ?_⟩
    obtain rfl : s.recipLane pick lane a = r := recipElem_of_propagate hr
    obtain ⟨t, ht, hlane⟩ := State.finishParallel_isLane (s := s) (sf := a.sf) (p2 := some a.p2)
      (f := fun pick lane => s.recipLane pick lane a) h0 h1 hpick hother
    exact ⟨t, _, (State.completion_reached hready hnat _).trans ht, hlane⟩
  · refine ⟨chooseNaN_single (C := elemCarrier) (f := fun n => pick (s.readF n)) hnan, fun r hr => ?_⟩
    obtain rfl : s.rootLane pick lane a = r := rootElem_of_propagate hr
    obtain ⟨t, ht, hlane⟩ := State.finishParallel_isLane (s := s) (sf := a.sf) (p2 := some a.p2)
      (f := fun pick lane => s.rootLane pick lane a) h0 h1 hpick hother
    exact ⟨t, _, (State.completion_reached hready hnat _).trans ht, hlane⟩

/-- Settles O32: NaN delivery comes before the special cases and the approximation. -/
theorem approxNaNOperand : Obligations.ApproxNaNOperand := by
  unfold Obligations.ApproxNaNOperand
  refine ⟨?_, ?_, ?_⟩
  · intro i s chosen hready hnat hquiet hclass hi
    obtain ⟨fmt, hchosen, hexec⟩ := exec_approx_of_nan hready hnat (congrArg Operand.isNaN hclass) hi
    rw [hexec _ (propagate_of_quiet hchosen (List.forall_mem_map.mpr hquiet)), State.finishNormal_value_pred]
  · intro i s chosen hready hnat hhandler hnan hi
    obtain ⟨fmt, hchosen, hexec⟩ := exec_approx_of_nan hready hnat hnan hi
    obtain ⟨y, v, hp, hy, hv⟩ := propagate_reg hchosen
    obtain ⟨h0, h1⟩ := State.ready_dest hready
    rw [hexec _ hp]
    obtain ⟨t, ht, ⟨hfault, ⟨hbitv, hbitd, -, -⟩, hstops⟩ | ⟨-, hh, hsg, hflags, hpred, hvalue⟩⟩ :=
      State.finishNormal_invalid_cases (s := s) (sf := i.sf) (p2 := i.pred) (x := y) (v := v) h0 h1
    · obtain ⟨hsig, hen⟩ := (Bool.and_eq_true ..).mp hstops
      obtain ⟨z, hz, hclass⟩ := hv hsig
      obtain ⟨n, hn, rfl⟩ := List.mem_map.mp hz
      exact ⟨t, ht, .inl ⟨hfault, hbitv, hbitd, hen, n, hn, hclass⟩⟩
    · exact ⟨t, ht, .inr ⟨hh.trans hhandler, by rw [hsg], hflags, hpred, hvalue ▸ hy⟩⟩
  · intro i s pick lane chosen hpick hready hnat hnan hi
    obtain ⟨hchosen, hexec⟩ := exec_parallelApprox_of_nan hpick hready hnat hnan hi
    obtain ⟨y, v, hp, hy, hv⟩ := propagate_elem hchosen
    obtain ⟨t, o, ht, hfault | hdone⟩ := hexec _ hp
    · obtain ⟨hfaulted, hd, ⟨hany, hreport⟩ | ⟨hbit, hen, hsig⟩⟩ := hfault.of_invalid
      · exact ⟨t, ht, .inl ⟨hfaulted, hd, .inl (exists_faultBit hreport hany)⟩⟩
      · obtain ⟨z, hz, hclass⟩ := hv hsig
        obtain ⟨n, hn, rfl⟩ := List.mem_map.mp hz
        exact ⟨t, ht, .inl ⟨hfaulted, hd, .inr ⟨hbit, hen, n, hn, hclass⟩⟩⟩
    · obtain ⟨-, -, hvalue, -⟩ := hdone
      exact ⟨t, ht, .inr (hvalue ▸ hy)⟩

end Sys2Proof.Machine
end

section
/-! Invalid conversions (R70, R71, R95). -/

namespace Sys2Proof.Machine

variable {a : ConvFields} {s : State} {pick other : Flt → Elem} {lane : Nat}

/-- An invalid conversion delivers the largest magnitude negative integer and signals Invalid Operation alone. -/
theorem convElem_of_invalid {α : Type} {C : Carrier α} {ctl : Controls} {n : Nat} {x : α}
    (h : conversionInvalid a.unsigned (conversionRc a ctl) n (C.classify x) = true) :
    convElem C ctl a.unsigned a.trunc n x = invalidInt n := by
  unfold convElem
  split
  · next neg m e hx =>
    rw [hx] at h
    exact if_neg (by simpa [conversionInvalid, roundedInt, conversionRc] using h)
  · rfl

theorem State.convResult_of_invalid
    (h : conversionInvalid a.unsigned (conversionRc a (controlsOf s.fpsr a.sf)) 64 (classifyReg (s.readF a.f2)) = true) :
    s.convResult a = ⟨intReg (BitVec.intMin 64), { signals := { v := true } }⟩ := by
  simp only [State.convResult, convElem_of_invalid (C := regCarrier fmtRegister) h, invalidInt]

theorem State.convLane_of_invalid
    (h : conversionInvalid a.unsigned (conversionRc a (controlsOf s.fpsr a.sf)) 32 (classifyElem (pick (s.readF a.f2))) =
      true) : s.convLane pick a = ⟨0x80000000, { signals := { v := true } }⟩ :=
  convElem_of_invalid (C := elemCarrier) h

/-- A conversion that is ready, without a `NaTVal` source, completes with its result. -/
theorem exec_fcvt (hready : s.ready (.fcvt a) = true) (hnat : s.noNaT (.fcvt a) = true) :
    exec (.fcvt a) s =
      if a.parallel then s.finishParallel a.sf a.f1 none (s.convLane highElem a) (s.convLane lowElem a)
      else s.finishNormal a.sf a.f1 none (s.convResult a) :=
  State.completion_reached hready hnat _

theorem exec_fcvt_lane (hready : s.ready (.fcvt a) = true) (hnat : s.noNaT (.fcvt a) = true) (hpar : a.parallel = true)
    (hl : isLane pick lane) (ho : isLane other (1 - lane)) :
    ∃ t, exec (.fcvt a) s = .next t ∧
      (LaneFaults s t a.sf lane (s.convLane pick a).report.signals (s.convLane other a).report.signals ∨
        LaneDelivers s t a.sf a.f1 pick lane (s.convLane pick a) (s.convLane other a)) := by
  obtain ⟨h0, h1⟩ := State.ready_dest hready
  rw [exec_fcvt hready hnat, if_pos hpar]
  exact State.finishParallel_isLane (f := fun pick _ => s.convLane pick a) h0 h1 hl ho

/-- Settles O38: the result of an invalid conversion signals Invalid Operation alone. -/
theorem invalidConversion : Obligations.InvalidConversion := by
  unfold Obligations.InvalidConversion
  intro a s hpar hready hnat hhandler hinvalid
  obtain ⟨h0, h1⟩ := State.ready_dest hready
  rw [exec_fcvt hready hnat, if_neg (by simp [hpar]), State.convResult_of_invalid hinvalid]
  obtain ⟨t, ht, ⟨⟨hh, -, hfr, -, hfpsr⟩, ⟨hbitv, hbitd, -, -⟩, hstops⟩ | ⟨hgo, hh, hsg, hflags, -, hvalue⟩⟩ :=
    State.finishNormal_invalid_cases (s := s) (sf := a.sf) (f1 := a.f1) (p2 := none) (x := intReg (BitVec.intMin 64))
      (v := true) h0 h1
  · rw [Bool.true_and] at hstops
    exact ⟨fun hen => absurd (hstops.symm.trans hen) nofun, fun _ => ⟨t, ht, hh, hbitv, hbitd, hfr, hfpsr⟩⟩
  · rw [Bool.true_and] at hgo
    refine ⟨fun _ => ⟨t, ht, hh.trans hhandler, ?_, ?_, by rw [hsg], by rw [hsg], hflags⟩, fun hen =>
      absurd (hgo.symm.trans hen) nofun⟩
    · rw [hvalue]
      decide
    · rw [hvalue]
      decide

/-- Settles O39: the result of an invalid element signals Invalid Operation alone, and the other element signals Invalid
Operation or a denormal operand. -/
theorem invalidElementConversion : Obligations.InvalidElementConversion := by
  unfold Obligations.InvalidElementConversion
  constructor
  · intro a s hpar hready hnat hhandler hinv hden hinx
    obtain ⟨h0, h1⟩ := State.ready_dest hready
    have hreport (pick : Flt → Elem) : (s.convLane pick a).report.trap = none ∧
        (enabledSignals (controlsOf s.fpsr a.sf) (s.convLane pick a).report.signals).any = false := by
      obtain ⟨v, d, i, fpa, hr⟩ := convElem_report (C := elemCarrier) (controlsOf s.fpsr a.sf) a.unsigned a.trunc elemIntWidth
        (pick (s.readF a.f2))
      rw [State.convLane, hr]
      simp [hinx, enabledSignals, hinv, hden, Signals.any]
    obtain ⟨hth, hsh⟩ := hreport highElem
    obtain ⟨htl, hsl⟩ := hreport lowElem
    rw [exec_fcvt hready hnat, if_pos hpar]
    obtain ⟨t, ht, -, hvalue, hsg, -, hh, -⟩ := State.finish_delivers (s := s) (sf := a.sf) (f1 := a.f1) (p2 := none)
      (x := packElems (s.convLane highElem a).value (s.convLane lowElem a).value)
      (low := (s.convLane lowElem a).report) (high := some (s.convLane highElem a).report)
      (by simp [State.finishStops, hsh, hsl]) h0 h1
    refine ⟨t, ht, (hh (by simp [trapOf, hth, htl])).trans hhandler, fun h => ?_, fun h => ?_⟩
    · rw [hvalue, lowElem_packElems, hsg, State.convLane_of_invalid h]
      exact ⟨rfl, rfl⟩
    · rw [hvalue, highElem_packElems, hsg, State.convLane_of_invalid h]
      exact ⟨rfl, Bool.or_true _⟩
  · intro a s pick lane hpick hpar hready hnat hinvalid
    obtain ⟨other, hother⟩ := hpick.exists_other
    obtain ⟨t, ht, hlane⟩ := exec_fcvt_lane hready hnat hpar hpick hother
    rw [State.convLane_of_invalid hinvalid] at hlane
    refine ⟨fun hen => ?_, fun hen => ?_⟩
    · obtain ⟨hfaulted, hreport, -⟩ | ⟨hgo, -⟩ := hlane
      · rw [enabledSignals_invalid, hen] at hreport
        obtain ⟨hbitv, hbitd, -, -⟩ := hreport
        exact ⟨t, ht, hfaulted, hbitv, hbitd⟩
      · rw [any_invalid, hen] at hgo
        contradiction
    · obtain hfault | ⟨-, -, hvalue, hsg, -⟩ := hlane
      · obtain ⟨hfaulted, hd, ⟨hany, hreport⟩ | ⟨-, hen', -⟩⟩ := hfault.of_invalid
        · obtain ⟨v, d, i, fpa, hr⟩ := convElem_report (C := elemCarrier) (controlsOf s.fpsr a.sf) a.unsigned a.trunc
            elemIntWidth (other (s.readF a.f2))
          rw [State.convLane, hr] at hany hreport
          obtain ⟨-, hbitd, -, -⟩ := hreport
          have hstop : (d && (controlsOf s.fpsr a.sf).denEn) = true := by
            simpa [enabledSignals, Signals.any, hen] using hany
          exact ⟨t, ht, .inl ⟨hfaulted, hd, hbitd.trans hstop⟩⟩
        · rw [hen] at hen'
          contradiction
      · exact ⟨t, ht, .inr ⟨hvalue, hsg⟩⟩

end Sys2Proof.Machine
end

section
/-! Minimum and maximum (R82): the comparison of the idiom `a<b?a:b` is that of the exact values. -/

namespace Sys2Proof.Machine

/-- The number `x` is the infinity of sign `neg`, or has that sign and the value `v`. -/
def Numeric.Shows (x : Numeric) (inf neg : Bool) (v : ℚ) : Prop :=
  (inf = true ∧ x = .inf neg) ∨ (inf = false ∧ x.Denotes neg v)

section
variable {x y : Numeric} {ia na ib nb : Bool} {va vb : ℚ}

theorem ltFin_iff (a : Bool) (m : Nat) (e : Int) (b : Bool) (n : Nat) (f : Int) :
    ltFin a m e b n f = true ↔ signRat a * m * 2 ^ e < signRat b * n * (2 : ℚ) ^ f := by
  have hstep : (0 : ℚ) < 2 ^ min e f := by positivity
  simp only [ltFin, decide_eq_true_eq]
  rw [mul_assoc, mul_assoc, ← shiftLeft_mul_zpow m (min_le_left e f), ← shiftLeft_mul_zpow n (min_le_right e f),
    ← mul_assoc, ← mul_assoc, ← signedInt_cast, ← signedInt_cast, mul_lt_mul_iff_left₀ hstep, Int.cast_lt]

/-- The comparison of numbers is that of their values, an infinity beyond every value on its side. -/
theorem ltNum_iff (hx : x.Shows ia na va) (hy : y.Shows ib nb vb) : ltNum x y = true ↔ extLess ia na va ib nb vb := by
  obtain ⟨rfl, rfl⟩ | ⟨rfl, m, e, rfl, rfl⟩ := hx <;> obtain ⟨rfl, rfl⟩ | ⟨rfl, n, f, rfl, rfl⟩ := hy
  · simp [ltNum, extLess]
  · simp [ltNum, extLess]
  · simp [ltNum, extLess]
  · simpa [ltNum, extLess] using ltFin_iff na m e nb n f

theorem absNum_shows (hx : x.Shows ia na va) : (absNum x).Shows ia false |va| := by
  obtain ⟨rfl, rfl⟩ | ⟨rfl, m, e, rfl, rfl⟩ := hx
  · exact .inl ⟨rfl, rfl⟩
  · refine .inr ⟨rfl, m, e, rfl, ?_⟩
    have hmag : (0 : ℚ) ≤ m * 2 ^ e := by positivity
    cases na <;> simp [signRat, abs_of_nonneg hmag]

end

theorem classifyReg_shows {r : Flt} (h : finiteReg r = true ∨ infReg r = true) :
    ∃ x, classifyReg r = .num x ∧ x.Shows (infReg r) r.neg (regValue r) := by
  cases hinf : infReg r with
  | false =>
    obtain ⟨x, hx, hd⟩ := classifyReg_denotes (h.resolve_right (by simp [hinf]))
    exact ⟨x, hx, .inr ⟨rfl, hd⟩⟩
  | true =>
    obtain ⟨hexp, hsig⟩ : r.exp = 0x1FFFF ∧ r.sig = 0x8000000000000000 := by simpa [infReg] using hinf
    have hnat : r ≠ natVal := by
      rintro rfl
      exact absurd hexp (by decide)
    refine ⟨.inf r.neg, ?_, .inl ⟨rfl, rfl⟩⟩
    rw [classifyReg, if_neg hnat, if_pos hexp, if_pos (by rw [Flt.sigBit, hsig]; decide), if_pos hsig]

/-- The fields of an infinite element. -/
theorem infElem_fields {x : Elem} (h : infElem x = true) : x.extractLsb' 23 8 = 0xFF ∧ x.extractLsb' 0 23 = 0 := by
  have hbits : x.extractLsb' 0 31 = 0x7F800000 := beq_iff_eq.mp h
  have hexp : x.extractLsb' 23 8 = (x.extractLsb' 0 31).extractLsb' 23 8 := by
    ext i hi
    simp
  have hfrac : x.extractLsb' 0 23 = (x.extractLsb' 0 31).extractLsb' 0 23 := by
    ext i hi
    simp
  rw [hexp, hfrac, hbits]
  decide

theorem classifyElem_shows {x : Elem} (h : finiteElem x = true ∨ infElem x = true) :
    ∃ y, classifyElem x = .num y ∧ y.Shows (infElem x) (x.getLsbD 31) (elemValue x) := by
  cases hinf : infElem x with
  | false =>
    obtain ⟨y, hy, hd⟩ := classifyElem_denotes (h.resolve_right (by simp [hinf]))
    exact ⟨y, hy, .inr ⟨rfl, hd⟩⟩
  | true =>
    obtain ⟨hexp, hfrac⟩ := infElem_fields hinf
    refine ⟨.inf (x.getLsbD 31), ?_, .inl ⟨rfl, rfl⟩⟩
    rw [classifyElem, hexp, hfrac]
    rfl

/-- What the idiom asks for the first operand to be delivered (R82), under an order of values and one of magnitudes. -/
def idiomPicksFirst {α : Type} (op : MinMaxOp) (less magLess : α → α → Prop) (x y : α) : Prop :=
  match op with
  | .min => less x y
  | .max => less y x
  | .amin => magLess x y
  | .amax => magLess y x

section
variable {op : MinMaxOp} {first : Bool}

/-- On numbers that compare as the orders say, the operand the idiom picks is delivered. -/
theorem minMaxElem_of_picks {α : Type} {C : Carrier α} {less magLess : α → α → Prop} {x y : α} {a b : Numeric}
    (hx : C.classify x = .num a) (hy : C.classify y = .num b) (hab : ltNum a b = true ↔ less x y)
    (hba : ltNum b a = true ↔ less y x) (hmag : ltNum (absNum a) (absNum b) = true ↔ magLess x y)
    (hmag' : ltNum (absNum b) (absNum a) = true ↔ magLess y x) (h : first = true ↔ idiomPicksFirst op less magLess x y) :
    minMaxElem C op x y = ⟨if first then x else y, { signals := { d := C.unnormal x || C.unnormal y } }⟩ := by
  have hpick : minMaxTakesFirst op a b = true ↔ idiomPicksFirst op less magLess x y := by
    cases op with
    | min => exact hab
    | max => exact hba
    | amin => exact hmag
    | amax => exact hmag'
  simp only [minMaxElem, hx, hy, Bool.eq_iff_iff.mpr (hpick.trans h.symm)]

theorem minMaxElem_reg {fmt : Fmt} {x y : Flt} (hx : finiteReg x = true ∨ infReg x = true)
    (hy : finiteReg y = true ∨ infReg y = true) (h : first = true ↔ idiomPicksFirst op regLess regMagLess x y) :
    minMaxElem (regCarrier fmt) op x y =
      ⟨if first then x else y, { signals := { d := unnormalReg x || unnormalReg y } }⟩ := by
  obtain ⟨a, ha, hxa⟩ := classifyReg_shows hx
  obtain ⟨b, hb, hyb⟩ := classifyReg_shows hy
  exact minMaxElem_of_picks (C := regCarrier fmt) ha hb (ltNum_iff hxa hyb) (ltNum_iff hyb hxa)
    (ltNum_iff (absNum_shows hxa) (absNum_shows hyb)) (ltNum_iff (absNum_shows hyb) (absNum_shows hxa)) h

theorem minMaxElem_elem {x y : Elem} (hx : finiteElem x = true ∨ infElem x = true)
    (hy : finiteElem y = true ∨ infElem y = true) (h : first = true ↔ idiomPicksFirst op elemLess elemMagLess x y) :
    minMaxElem elemCarrier op x y =
      ⟨if first then x else y, { signals := { d := unnormalElem x || unnormalElem y } }⟩ := by
  obtain ⟨a, ha, hxa⟩ := classifyElem_shows hx
  obtain ⟨b, hb, hyb⟩ := classifyElem_shows hy
  exact minMaxElem_of_picks (C := elemCarrier) ha hb (ltNum_iff hxa hyb) (ltNum_iff hyb hxa)
    (ltNum_iff (absNum_shows hxa) (absNum_shows hyb)) (ltNum_iff (absNum_shows hyb) (absNum_shows hxa)) h

end

section
variable {a : MinMaxFields} {s : State} {pick other : Flt → Elem} {lane : Nat}

/-- A minimum or maximum that is ready, without a `NaTVal` source, completes with its result. -/
theorem exec_fminmax (hready : s.ready (.fminmax a) = true) (hnat : s.noNaT (.fminmax a) = true) :
    exec (.fminmax a) s =
      if a.parallel then s.finishParallel a.sf a.f1 none (s.minMaxLane highElem a) (s.minMaxLane lowElem a)
      else s.finishNormal a.sf a.f1 none (s.minMaxResult a) :=
  State.completion_reached hready hnat _

theorem exec_fminmax_lane (hready : s.ready (.fminmax a) = true) (hnat : s.noNaT (.fminmax a) = true)
    (hpar : a.parallel = true) (hl : isLane pick lane) (ho : isLane other (1 - lane)) :
    ∃ t, exec (.fminmax a) s = .next t ∧
      (LaneFaults s t a.sf lane (s.minMaxLane pick a).report.signals (s.minMaxLane other a).report.signals ∨
        LaneDelivers s t a.sf a.f1 pick lane (s.minMaxLane pick a) (s.minMaxLane other a)) := by
  obtain ⟨h0, h1⟩ := State.ready_dest hready
  rw [exec_fminmax hready hnat, if_pos hpar]
  exact State.finishParallel_isLane (f := fun pick _ => s.minMaxLane pick a) h0 h1 hl ho

end

/-- Settles O42: the model's comparison is that of the exact values, and the operand it picks passes the completion
unchanged. -/
theorem minMaxByValue : Obligations.MinMaxByValue := by
  unfold Obligations.MinMaxByValue
  refine ⟨?_, ?_, ?_⟩
  · rintro a s x y first den hpar hready rfl rfl hnum rfl hfirst
    simp only [List.forall_mem_cons] at hnum
    obtain ⟨hx, hy, -⟩ := hnum
    have hnat : s.noNaT (.fminmax a) = true := by
      obtain ⟨u, hu, -⟩ := classifyReg_shows hx
      obtain ⟨v, hv, -⟩ := classifyReg_shows hy
      refine State.noNaT_of_classify fun n hn => ?_
      obtain rfl | rfl : n = a.f2 ∨ n = a.f3 := by simpa [Instr.sources] using hn
      · simp [hu]
      · simp [hv]
    have hexec := exec_fminmax hready hnat
    rw [if_neg (by simp [hpar]), State.minMaxResult, minMaxElem_reg hx hy hfirst] at hexec
    exact ⟨fun hs => hexec.trans (State.finishNormal_of_denormalStops rfl hs),
      fun hs => hexec.trans (State.finishNormal_value_denormal hs)⟩
  · rintro a s pickFirst dh dl hpar hready hnat hnum rfl rfl hfirst
    have hlane (pick : Flt → Elem) (hpick : pick = highElem ∨ pick = lowElem) :
        s.minMaxLane pick a = ⟨if pickFirst pick then pick (s.readF a.f2) else pick (s.readF a.f3),
          { signals := { d := unnormalElem (pick (s.readF a.f2)) || unnormalElem (pick (s.readF a.f3)) } }⟩ := by
      have hmem (r : Flt) : pick r ∈ [highElem r, lowElem r] := by
        obtain rfl | rfl := hpick <;> simp
      exact minMaxElem_elem (hnum _ (by simp) _ (hmem _)) (hnum _ (by simp) _ (hmem _)) (hfirst pick hpick)
    have hexec := exec_fminmax hready hnat
    rw [if_pos hpar, hlane _ (.inl rfl), hlane _ (.inr rfl)] at hexec
    exact ⟨fun hs => hexec.trans (State.finishParallel_of_denormalStops rfl rfl hs),
      fun hs => hexec.trans (State.finishParallel_value hs)⟩
  · rintro a s pick lane first den hpick hpar hready hnat hnum rfl hfirst
    obtain ⟨other, hother⟩ := hpick.exists_other
    obtain ⟨t, ht, hlane⟩ := exec_fminmax_lane hready hnat hpar hpick hother
    have hresult : s.minMaxLane pick a = ⟨if first then pick (s.readF a.f2) else pick (s.readF a.f3),
        { signals := { d := unnormalElem (pick (s.readF a.f2)) || unnormalElem (pick (s.readF a.f3)) } }⟩ :=
      minMaxElem_elem (hnum _ (by simp)) (hnum _ (by simp)) hfirst
    rw [hresult] at hlane
    obtain hfault | ⟨hstops, -, hvalue, -, hrecorded, hends⟩ := hlane
    · exact ⟨t, ht, .inl hfault.elementStops⟩
    · obtain ⟨v, d, hr⟩ := minMaxElem_report (C := elemCarrier) a.op (other (s.readF a.f2)) (other (s.readF a.f3))
      rw [State.minMaxLane, hr] at hends
      obtain ⟨hflags, hhandler, -⟩ := hends rfl rfl rfl
      refine ⟨t, ht, .inr ⟨(any_denormal ..).symm.trans hstops, hvalue.trans ?_, hrecorded, hflags.trans (Flags.or_none _),
        hhandler rfl⟩⟩
      cases first <;> rfl

end Sys2Proof.Machine
end

section
/-! THE DISABLED REGISTER. An instruction that names a register `dfl` or `dfh` disables is interrupted before its own effect. -/

namespace Sys2Proof.Machine

/-- `dfl` disables f2 to f31 and `dfh` disables f32 to f127 (R104). -/
theorem State.fpDisabled_iff (s : State) (n : RegNum) : s.fpDisabled n = true ↔
    (s.psr.dfl = true ∧ 2 ≤ n.toNat ∧ n.toNat ≤ 31) ∨ (s.psr.dfh = true ∧ 32 ≤ n.toNat) := by
  simp [State.fpDisabled]

/-- The guard answers a disabled register with the fault, whatever the instruction's own effect is. -/
theorem State.guarded_disabled {s : State} {qp : PredNum} {p2 : Option PredNum} {f1 : RegNum} {srcs : List RegNum}
    {own : Result} (hq : s.readP qp = true) (hd : (f1 :: srcs).any s.fpDisabled = true) :
    s.guarded qp p2 f1 srcs own = .next (s.interrupt .disabledFpRegister (Config.isrBits s.draws)) := by
  unfold State.guarded
  rw [if_neg (by simp [hq]), if_pos hd]

theorem exec_disabled {i : Instr} {s : State} (hq : s.readP i.qp = true)
    (hd : ∃ n ∈ i.dest :: i.sources, s.fpDisabled n = true) :
    exec i s = .next (s.interrupt .disabledFpRegister (Config.isrBits s.draws)) := by
  obtain ⟨_, _, _, hexec⟩ := exec_guarded i s
  exact hexec.trans (State.guarded_disabled hq (List.any_eq_true.2 hd))

/-- Settles O16: the guard comes before the instruction's own effect, and the interruption it takes keeps registers,
predicates, FPSR and the event record. -/
theorem disabledRegisterFaultFirst : Obligations.DisabledRegisterFaultFirst := by
  unfold Obligations.DisabledRegisterFaultFirst
  refine ⟨State.fpDisabled_iff, fun i s hq hd => ⟨_, exec_disabled hq hd, ?handler, ?iip, ?frame⟩⟩
  case handler => rw [State.interrupt_handler, vectorOf, vectorDisabledFp]
  case iip => rw [State.interrupt_iip, State.savedPos]
  case frame => simp

end Sys2Proof.Machine
end

section
/-! Slots and instructions (30_encoding.md section 3): the rows are told apart by the opcode bits 40:36, every row's slot is its
bits and its fields side by side, and so decoding and encoding undo each other. -/

namespace Sys2Proof

/-! The table. -/

/-- Bits a mask selects are those of the pattern. -/
theorem extractLsb'_eq_of_and_eq {n start len : Nat} {w mask pattern : BitVec n} (h : w &&& mask = pattern)
    (hmask : mask.extractLsb' start len = BitVec.allOnes len) :
    w.extractLsb' start len = pattern.extractLsb' start len := by
  rw [← h, BitVec.extractLsb'_and, hmask, BitVec.and_allOnes]

/-- Every mask selects the opcode bits 40:36. -/
theorem rows_mask_opcode : ∀ r ∈ rows, r.mask.extractLsb' 36 5 = BitVec.allOnes 5 := by decide

/-- No two rows have the same opcode bits. -/
theorem rows_opcode_inj : ∀ r ∈ rows, ∀ r' ∈ rows, r.pattern.extractLsb' 36 5 = r'.pattern.extractLsb' 36 5 →
    r.pattern = r'.pattern ∧ r.mask = r'.mask := by decide

theorem rows_pattern_nodup : (rows.map Row.pattern).Nodup := by decide

theorem Row.hits_iff {r : Row} {w : BitVec 41} : r.hits w = true ↔ w &&& r.mask = r.pattern := beq_iff_eq

theorem rows_disjoint {w : BitVec 41} {r r' : Row} (hr : r ∈ rows) (hr' : r' ∈ rows) (h : r.hits w = true)
    (h' : r'.hits w = true) : r.pattern = r'.pattern ∧ r.mask = r'.mask :=
  rows_opcode_inj r hr r' hr' <|
    (extractLsb'_eq_of_and_eq (Row.hits_iff.mp h) (rows_mask_opcode r hr)).symm.trans
      (extractLsb'_eq_of_and_eq (Row.hits_iff.mp h') (rows_mask_opcode r' hr'))

/-- A slot that a row matches decodes by that row. -/
theorem decode_of_hits {w : BitVec 41} {r : Row} (hr : r ∈ rows) (h : r.hits w = true) : decode w = .ok (r.build w) := by
  unfold decode
  split
  next r' hfind =>
    have hr' := List.mem_of_find?_eq_some hfind
    have h' : r'.hits w = true := List.find?_some (p := fun r : Row => r.hits w) hfind
    rw [List.inj_on_of_nodup_map rows_pattern_nodup hr' hr (rows_disjoint hr' hr h' h).1]
  next hfind => exact absurd h (List.find?_eq_none.mp hfind r hr)

theorem exists_row_of_decode {w : BitVec 41} {i : Instr} (h : decode w = .ok i) :
    ∃ r ∈ rows, r.hits w = true ∧ i = r.build w := by
  unfold decode at h
  split at h
  next r hfind =>
    exact ⟨r, List.mem_of_find?_eq_some hfind, List.find?_some (p := fun r : Row => r.hits w) hfind, (Except.ok.inj h).symm⟩
  next => cases h

/-! The formats. -/

section
variable {opcode : BitVec 4} {x : BitVec 1} {w : BitVec 41}

theorem f1Fields_slotF1 (a : F1Fields) : f1Fields (slotF1 opcode x a) = a := by
  have hfield (start len : Nat) (field : BitVec len)
      (h : (opcode ++ x ++ a.sf ++ a.f4 ++ a.f3 ++ a.f2 ++ a.f1 ++ a.qp).extractLsb' start len = field) :
      (slotF1 opcode x a).extractLsb' start len = field := h
  rw [f1Fields, hfield 34 2 a.sf, hfield 27 7 a.f4, hfield 20 7 a.f3, hfield 13 7 a.f2, hfield 6 7 a.f1, hfield 0 6 a.qp]
  all_goals
    repeat rw [BitVec.extractLsb'_append_eq_of_le (by decide)]
    rw [BitVec.extractLsb'_append_eq_of_add_le (by decide)]
    exact BitVec.extractLsb'_eq_self

theorem f6Fields_slotF6 (a : F6Fields) : f6Fields (slotF6 opcode x a) = a := by
  have hfield (start len : Nat) (field : BitVec len)
      (h : (opcode ++ x ++ a.sf ++ 1#1 ++ a.p2 ++ a.f3 ++ a.f2 ++ a.f1 ++ a.qp).extractLsb' start len = field) :
      (slotF6 opcode x a).extractLsb' start len = field := h
  rw [f6Fields, hfield 34 2 a.sf, hfield 27 6 a.p2, hfield 20 7 a.f3, hfield 13 7 a.f2, hfield 6 7 a.f1, hfield 0 6 a.qp]
  all_goals
    repeat rw [BitVec.extractLsb'_append_eq_of_le (by decide)]
    rw [BitVec.extractLsb'_append_eq_of_add_le (by decide)]
    exact BitVec.extractLsb'_eq_self

/-- Format F7 is format F6 with `f2` left out. -/
def F6Fields.toF7 (a : F6Fields) : F7Fields := ⟨a.sf, a.p2, a.f3, a.f1, a.qp⟩

theorem slotF7_toF7 (a : F6Fields) : slotF7 opcode x a.toF7 = slotF6 opcode x { a with f2 := 0 } := rfl

theorem f7Fields_slotF7 (a : F7Fields) : f7Fields (slotF7 opcode x a) = a :=
  congrArg F6Fields.toF7 (f6Fields_slotF6 ⟨a.sf, a.p2, a.f3, 0, a.f1, a.qp⟩)

/-- The bits a row's mask selects of a slot of its format. -/
theorem slotF1_and (a : F1Fields) :
    slotF1 opcode x a &&& 0x1f000000000 = opcode ++ x ++ 0#2 ++ 0#7 ++ 0#7 ++ 0#7 ++ 0#7 ++ 0#6 := by
  have hand : (opcode ++ x ++ a.sf ++ a.f4 ++ a.f3 ++ a.f2 ++ a.f1 ++ a.qp) &&&
      (BitVec.allOnes 4 ++ BitVec.allOnes 1 ++ 0#2 ++ 0#7 ++ 0#7 ++ 0#7 ++ 0#7 ++ 0#6) =
      opcode ++ x ++ 0#2 ++ 0#7 ++ 0#7 ++ 0#7 ++ 0#7 ++ 0#6 := by
    simp only [BitVec.and_append, BitVec.and_allOnes, BitVec.and_zero]
  exact hand

theorem slotF6_and (a : F6Fields) :
    slotF6 opcode x a &&& 0x1f200000000 = opcode ++ x ++ 0#2 ++ 1#1 ++ 0#6 ++ 0#7 ++ 0#7 ++ 0#7 ++ 0#6 := by
  have hand : (opcode ++ x ++ a.sf ++ 1#1 ++ a.p2 ++ a.f3 ++ a.f2 ++ a.f1 ++ a.qp) &&&
      (BitVec.allOnes 4 ++ BitVec.allOnes 1 ++ 0#2 ++ BitVec.allOnes 1 ++ 0#6 ++ 0#7 ++ 0#7 ++ 0#7 ++ 0#6) =
      opcode ++ x ++ 0#2 ++ 1#1 ++ 0#6 ++ 0#7 ++ 0#7 ++ 0#7 ++ 0#6 := by
    simp only [BitVec.and_append, BitVec.and_allOnes, BitVec.and_zero]
  exact hand

/-- A slot is the fields read from it, put back side by side. -/
theorem slotF1_f1Fields (hopcode : w.extractLsb' 37 4 = opcode) (hx : w.extractLsb' 36 1 = x) :
    slotF1 opcode x (f1Fields w) = w := by
  subst hopcode hx
  have hslot : w.extractLsb' 37 4 ++ w.extractLsb' 36 1 ++ w.extractLsb' 34 2 ++ w.extractLsb' 27 7 ++
      w.extractLsb' 20 7 ++ w.extractLsb' 13 7 ++ w.extractLsb' 6 7 ++ w.extractLsb' 0 6 = w.extractLsb' 0 41 := by
    simp only [-Nat.reduceAdd, BitVec.extractLsb'_append_extractLsb'_eq_extractLsb']
  exact hslot.trans BitVec.extractLsb'_eq_self

theorem slotF6_f6Fields (hopcode : w.extractLsb' 37 4 = opcode) (hx : w.extractLsb' 36 1 = x)
    (hone : w.extractLsb' 33 1 = 1) : slotF6 opcode x (f6Fields w) = w := by
  subst hopcode hx
  have hslot : w.extractLsb' 37 4 ++ w.extractLsb' 36 1 ++ w.extractLsb' 34 2 ++ w.extractLsb' 33 1 ++ w.extractLsb' 27 6 ++
      w.extractLsb' 20 7 ++ w.extractLsb' 13 7 ++ w.extractLsb' 6 7 ++ w.extractLsb' 0 6 = w.extractLsb' 0 41 := by
    simp only [-Nat.reduceAdd, BitVec.extractLsb'_append_extractLsb'_eq_extractLsb']
  rw [hone] at hslot
  exact hslot.trans BitVec.extractLsb'_eq_self

/-- Clearing the ignored bits 19:13 clears `f2`. -/
theorem slotF6_and_not_ignored (a : F6Fields) :
    slotF6 opcode x a &&& ~~~0xFE000 = slotF6 opcode x { a with f2 := 0 } := by
  have hand : (opcode ++ x ++ a.sf ++ 1#1 ++ a.p2 ++ a.f3 ++ a.f2 ++ a.f1 ++ a.qp) &&&
      (BitVec.allOnes 4 ++ BitVec.allOnes 1 ++ BitVec.allOnes 2 ++ BitVec.allOnes 1 ++ BitVec.allOnes 6 ++ BitVec.allOnes 7 ++
        0#7 ++ BitVec.allOnes 7 ++ BitVec.allOnes 6) =
      opcode ++ x ++ a.sf ++ 1#1 ++ a.p2 ++ a.f3 ++ 0#7 ++ a.f1 ++ a.qp := by
    simp only [BitVec.and_append, BitVec.and_allOnes, BitVec.and_zero]
  exact hand

/-! Each format under its rows. -/

theorem decode_slotF1 {pattern : BitVec 41} {build : F1Fields → Instr} (a : F1Fields)
    (hrow : ⟨pattern, 0x1f000000000, fun w => build (f1Fields w)⟩ ∈ rows)
    (hpattern : opcode ++ x ++ 0#2 ++ 0#7 ++ 0#7 ++ 0#7 ++ 0#7 ++ 0#6 = pattern) :
    decode (slotF1 opcode x a) = .ok (build a) :=
  (decode_of_hits hrow (Row.hits_iff.mpr ((slotF1_and a).trans hpattern))).trans
    (congrArg (Except.ok ∘ build) (f1Fields_slotF1 a))

theorem decode_slotF6 {pattern : BitVec 41} {build : F6Fields → Instr} (a : F6Fields)
    (hrow : ⟨pattern, 0x1f200000000, fun w => build (f6Fields w)⟩ ∈ rows)
    (hpattern : opcode ++ x ++ 0#2 ++ 1#1 ++ 0#6 ++ 0#7 ++ 0#7 ++ 0#7 ++ 0#6 = pattern) :
    decode (slotF6 opcode x a) = .ok (build a) :=
  (decode_of_hits hrow (Row.hits_iff.mpr ((slotF6_and a).trans hpattern))).trans
    (congrArg (Except.ok ∘ build) (f6Fields_slotF6 a))

theorem decode_slotF7 {pattern : BitVec 41} {build : F7Fields → Instr} (a : F7Fields)
    (hrow : ⟨pattern, 0x1f200000000, fun w => build (f7Fields w)⟩ ∈ rows)
    (hpattern : opcode ++ x ++ 0#2 ++ 1#1 ++ 0#6 ++ 0#7 ++ 0#7 ++ 0#7 ++ 0#6 = pattern) :
    decode (slotF7 opcode x a) = .ok (build a) :=
  (decode_of_hits hrow (Row.hits_iff.mpr ((slotF6_and ⟨a.sf, a.p2, a.f3, 0, a.f1, a.qp⟩).trans hpattern))).trans
    (congrArg (Except.ok ∘ build) (f7Fields_slotF7 a))

theorem slotF1_of_hits {pattern : BitVec 41} (h : w &&& 0x1f000000000 = pattern)
    (hopcode : pattern.extractLsb' 37 4 = opcode) (hx : pattern.extractLsb' 36 1 = x) : slotF1 opcode x (f1Fields w) = w :=
  slotF1_f1Fields ((extractLsb'_eq_of_and_eq h (by decide)).trans hopcode) ((extractLsb'_eq_of_and_eq h (by decide)).trans hx)

theorem slotF6_of_hits {pattern : BitVec 41} (h : w &&& 0x1f200000000 = pattern)
    (hopcode : pattern.extractLsb' 37 4 = opcode) (hx : pattern.extractLsb' 36 1 = x)
    (hone : pattern.extractLsb' 33 1 = 1) : slotF6 opcode x (f6Fields w) = w :=
  slotF6_f6Fields ((extractLsb'_eq_of_and_eq h (by decide)).trans hopcode) ((extractLsb'_eq_of_and_eq h (by decide)).trans hx)
    ((extractLsb'_eq_of_and_eq h (by decide)).trans hone)

/-- Format F7 gives back all of the slot but the ignored bits. -/
theorem slotF7_of_hits {pattern : BitVec 41} (h : w &&& 0x1f200000000 = pattern)
    (hopcode : pattern.extractLsb' 37 4 = opcode) (hx : pattern.extractLsb' 36 1 = x)
    (hone : pattern.extractLsb' 33 1 = 1) : slotF7 opcode x (f7Fields w) = w &&& ~~~0xFE000 := by
  conv_rhs => rw [← slotF6_of_hits h hopcode hx hone, slotF6_and_not_ignored]
  exact slotF7_toF7 (f6Fields w)

end

end Sys2Proof

namespace Sys2Proof.Machine

/-- Settles O1: each instruction's slot is matched by the row of its opcode bits, and the fields read back are its own. -/
theorem decodeOfEncode : Obligations.DecodeOfEncode := by
  unfold Obligations.DecodeOfEncode
  intro i hi
  cases i with
  | fma a => exact ⟨_, rfl, decode_slotF1 a (List.mem_of_getElem? (i := 0) rfl) rfl⟩
  | fmaS a => exact ⟨_, rfl, decode_slotF1 a (List.mem_of_getElem? (i := 1) rfl) rfl⟩
  | fmaD a => exact ⟨_, rfl, decode_slotF1 a (List.mem_of_getElem? (i := 2) rfl) rfl⟩
  | fpma a => exact ⟨_, rfl, decode_slotF1 a (List.mem_of_getElem? (i := 3) rfl) rfl⟩
  | fms a => exact ⟨_, rfl, decode_slotF1 a (List.mem_of_getElem? (i := 4) rfl) rfl⟩
  | fmsS a => exact ⟨_, rfl, decode_slotF1 a (List.mem_of_getElem? (i := 5) rfl) rfl⟩
  | fmsD a => exact ⟨_, rfl, decode_slotF1 a (List.mem_of_getElem? (i := 6) rfl) rfl⟩
  | fpms a => exact ⟨_, rfl, decode_slotF1 a (List.mem_of_getElem? (i := 7) rfl) rfl⟩
  | fnma a => exact ⟨_, rfl, decode_slotF1 a (List.mem_of_getElem? (i := 8) rfl) rfl⟩
  | fnmaS a => exact ⟨_, rfl, decode_slotF1 a (List.mem_of_getElem? (i := 9) rfl) rfl⟩
  | fnmaD a => exact ⟨_, rfl, decode_slotF1 a (List.mem_of_getElem? (i := 10) rfl) rfl⟩
  | fpnma a => exact ⟨_, rfl, decode_slotF1 a (List.mem_of_getElem? (i := 11) rfl) rfl⟩
  | frcpa a => exact ⟨_, rfl, decode_slotF6 a (List.mem_of_getElem? (i := 12) rfl) rfl⟩
  | frsqrta a => exact ⟨_, rfl, decode_slotF7 a (List.mem_of_getElem? (i := 13) rfl) rfl⟩
  | fprcpa a => exact ⟨_, rfl, decode_slotF6 a (List.mem_of_getElem? (i := 14) rfl) rfl⟩
  | fprsqrta a => exact ⟨_, rfl, decode_slotF7 a (List.mem_of_getElem? (i := 15) rfl) rfl⟩
  | fcvt a | fminmax a => cases hi

/-- Settles O2: rows differ in the opcode bits every mask selects, and a row gives back the bits of the slots it matches. -/
theorem encodeOfDecode : Obligations.EncodeOfDecode := by
  unfold Obligations.EncodeOfDecode
  refine ⟨fun w r r' hr hr' h h' => rows_disjoint hr hr' h h', fun w i h => ?_⟩
  obtain ⟨r, hr, hhits, rfl⟩ := exists_row_of_decode h
  rw [Row.hits_iff] at hhits
  simp only [rows, List.mem_cons, List.not_mem_nil, or_false] at hr
  obtain rfl | rfl | rfl | rfl | rfl | rfl | rfl | rfl | rfl | rfl | rfl | rfl | hr := hr
  iterate 12 exact .inl (congrArg some (slotF1_of_hits hhits rfl rfl))
  obtain rfl | rfl | rfl | rfl := hr
  · exact .inl (congrArg some (slotF6_of_hits hhits rfl rfl rfl))
  · exact .inr ⟨⟨_, .inl rfl⟩, congrArg some (slotF7_of_hits hhits rfl rfl rfl)⟩
  · exact .inl (congrArg some (slotF6_of_hits hhits rfl rfl rfl))
  · exact .inr ⟨⟨_, .inr rfl⟩, congrArg some (slotF7_of_hits hhits rfl rfl rfl)⟩

/-- Settles O3: each slot is matched by one row of the table. -/
theorem slotsOfTheSpecDecode : Obligations.SlotsOfTheSpecDecode := by
  unfold Obligations.SlotsOfTheSpecDecode
  exact ⟨decode_of_hits (List.mem_of_getElem? (i := 1) rfl) rfl, decode_of_hits (List.mem_of_getElem? (i := 1) rfl) rfl,
    decode_of_hits (List.mem_of_getElem? (i := 1) rfl) rfl, decode_of_hits (List.mem_of_getElem? (i := 3) rfl) rfl,
    decode_of_hits (List.mem_of_getElem? (i := 12) rfl) rfl, decode_of_hits (List.mem_of_getElem? (i := 15) rfl) rfl⟩

end Sys2Proof.Machine
end

section
/-! What every instruction keeps and where a step goes: the invariant, the frame, the entry into an interruption, nullified
instructions, the hardwired registers and `NaTVal` sources. -/

namespace Sys2Proof.Machine

variable {i : Instr} {s t : State}

/-- `t` is `s` nullified: the position advances, and the predicate the instruction names is free (log 25, log 26). -/
def State.nullified (s : State) (i : Instr) : State := (s.writeOptP i.pred (Config.helperPred s.draws)).advance.tick

/-- Every next state of an instruction: nullified, a fault with nothing written, or the effects of one completion, after which
the instruction ends or traps. -/
theorem exec_ends (h : exec i s = .next t) :
    t = s.nullified i ∨
    (∃ kind isr, kind ≠ .fpTrap ∧ t = s.interrupt kind isr) ∨
    (i.dest ≠ 0 ∧ i.dest ≠ 1 ∧ ∃ x low high, t = (s.commit i.sf i.dest i.pred x low high).advance.tick ∨
      ∃ isr, t = (s.commit i.sf i.dest i.pred x low high).interrupt .fpTrap isr) := by
  obtain ⟨-, ht⟩ | ⟨-, -, ht⟩ | ⟨hready, x, low, high, hfin⟩ := exec_cases h
  · exact .inl ht
  · exact .inr (.inl ⟨.disabledFpRegister, _, by decide, ht⟩)
  obtain ⟨h0, h1⟩ := State.ready_dest hready
  obtain ht | ⟨-, ht⟩ | ⟨code, -, ht⟩ := State.finish_cases hfin
  · exact .inr (.inl ⟨.fpFault, _, by decide, ht⟩)
  · exact .inr (.inr ⟨h0, h1, x, low, high, .inl ht⟩)
  · exact .inr (.inr ⟨h0, h1, x, low, high, .inr ⟨_, ht⟩⟩)

/-! The invariant (R107, R119). -/

/-- A state in the program, its position within the list, meets the invariant. -/
theorem State.inv_of_handler_none (hpos : s.pos ≤ s.program.length) (hh : s.handler = none) : s.Inv :=
  ⟨hpos, fun a ha => by cases hh.symm.trans ha⟩

theorem vectorOf_mem_vectorAddresses (kind : Interruption) (iva : BitVec 64) : iva + vectorOf kind ∈ vectorAddresses iva := by
  cases kind <;> simp [vectorOf, vectorAddresses, vectorDisabledFp, vectorFpFault, vectorFpTrap]

/-- Entering an interruption goes to one of the three vectors with interruptions off. -/
theorem State.interrupt_inv (hpos : s.pos ≤ s.program.length) (kind : Interruption) (isr : BitVec 64) :
    (s.interrupt kind isr).Inv :=
  ⟨hpos, fun _ ha => Option.some.inj ha ▸ ⟨vectorOf_mem_vectorAddresses kind s.iva, rfl, rfl, rfl⟩⟩

/-- An instruction executed in the program, before its end, keeps the invariant. -/
theorem exec_inv (h : exec i s = .next t) (hpos : s.pos < s.program.length) (hh : s.handler = none) : t.Inv := by
  obtain rfl | ⟨kind, isr, -, rfl⟩ | ⟨-, -, x, low, high, rfl | ⟨isr, rfl⟩⟩ := exec_ends h
  · exact State.inv_of_handler_none (by simpa [State.nullified] using hpos) (by simpa [State.nullified] using hh)
  · exact State.interrupt_inv hpos.le kind isr
  · exact State.inv_of_handler_none (by simpa using hpos) (by simpa using hh)
  · exact State.interrupt_inv (by simpa using hpos.le) .fpTrap isr

/-- A step to a next state executes the instruction at the position, in the program. -/
theorem exec_of_step_at_position (h : step s = .next t) :
    s.handler = none ∧ s.pos < s.program.length ∧ ∃ i, exec i s = .next t := by
  cases hh : s.handler with
  | some a => cases (step_of_handler hh).symm.trans h
  | none =>
    refine ⟨rfl, ?_, exec_of_step h⟩
    by_contra hpos
    cases (step_of_fetch_none hh (List.getElem?_eq_none_iff.mpr (Nat.not_lt.mp hpos))).symm.trans h

/-- Settles O6: a step executes an instruction before the end of the list, which advances by one or enters a vector. -/
theorem invariantKeptByEveryStep : Obligations.InvariantKeptByEveryStep := by
  unfold Obligations.InvariantKeptByEveryStep
  intro s t _ h
  obtain ⟨hh, hpos, i, hi⟩ := exec_of_step_at_position h
  exact exec_inv hi hpos hh

/-- Settles O7: at reset the program is empty, the position 0, and control in the program. -/
theorem invariantAtReset : Obligations.InvariantAtReset := by
  unfold Obligations.InvariantAtReset
  exact State.inv_of_handler_none le_rfl rfl

/-! The frame. -/

theorem State.commit_readF_other (s : State) (sf : SfNum) {f1 n : RegNum} (p2 : Option PredNum) (x : Flt) (low : Report)
    (high : Option Report) (hn : n ≠ f1) : (s.commit sf f1 p2 x low high).readF n = s.readF n :=
  (State.readF_congr (t := s.commit sf f1 p2 x low high) (s := s.writeF f1 x) (by simp) n).trans (s.readF_writeF_other x hn)

theorem State.commit_readP_other (s : State) (sf : SfNum) (f1 : RegNum) {p2 : Option PredNum} {p : PredNum} (x : Flt)
    (low : Report) (high : Option Report) (hp : p2 ≠ some p) : (s.commit sf f1 p2 x low high).readP p = s.readP p :=
  (s.writeF f1 x).readP_writeOptP_other _ hp

/-- An instruction writes its destination register alone. -/
theorem exec_readF_other (h : exec i s = .next t) {n : RegNum} (hn : n ≠ i.dest) : t.readF n = s.readF n := by
  obtain rfl | ⟨kind, isr, -, rfl⟩ | ⟨-, -, x, low, high, rfl | ⟨isr, rfl⟩⟩ := exec_ends h
  · exact State.readF_congr (by simp [State.nullified]) n
  · exact State.readF_congr (State.interrupt_fr ..) n
  · exact s.commit_readF_other i.sf i.pred x low high hn
  · exact s.commit_readF_other i.sf i.pred x low high hn

/-- An instruction writes the predicate it names alone. -/
theorem exec_readP_other (h : exec i s = .next t) {p : PredNum} (hp : i.pred ≠ some p) : t.readP p = s.readP p := by
  obtain rfl | ⟨kind, isr, -, rfl⟩ | ⟨-, -, x, low, high, rfl | ⟨isr, rfl⟩⟩ := exec_ends h
  · exact s.readP_writeOptP_other _ hp
  · exact State.readP_congr (State.interrupt_pr ..) p
  · exact s.commit_readP_other i.sf i.dest x low high hp
  · exact s.commit_readP_other i.sf i.dest x low high hp

theorem exec_iva (h : exec i s = .next t) : t.iva = s.iva := by
  obtain rfl | ⟨kind, isr, -, rfl⟩ | ⟨-, -, x, low, high, rfl | ⟨isr, rfl⟩⟩ := exec_ends h
  all_goals simp [State.nullified]

/-- Without an interruption an instruction advances the position, and keeps ISR, the saved state and the processor status. -/
theorem exec_of_no_interruption (h : exec i s = .next t) (ht : t.handler = none) :
    t.isr = s.isr ∧ t.iip = s.iip ∧ t.ipsr = s.ipsr ∧ t.psr = s.psr ∧ t.pos = s.pos + 1 := by
  obtain rfl | ⟨kind, isr, -, rfl⟩ | ⟨-, -, x, low, high, rfl | ⟨isr, rfl⟩⟩ := exec_ends h
  · simp [State.nullified]
  · cases ht
  · simp
  · cases ht

/-- Settles O13: a completion writes the fields the instruction names, and the rest of the state changes by interruptions
alone. -/
theorem frameOfEveryInstruction : Obligations.FrameOfEveryInstruction := by
  unfold Obligations.FrameOfEveryInstruction
  exact fun i s t _ h => ⟨fun _ => exec_readF_other h, fun _ => exec_readP_other h, fun _ => exec_fpsr_getLsbD h,
    exec_program h, exec_iva h, exec_of_no_interruption h⟩

/-! Interruptions (R107). -/

/-- Settles O15: the two kinds of fault leave the state the instruction found, and a trap follows its effects. -/
theorem interruptionEntry : Obligations.InterruptionEntry := by
  unfold Obligations.InterruptionEntry
  intro i s t a hh h ht
  obtain rfl | ⟨kind, isr, hkind, rfl⟩ | ⟨-, -, x, low, high, rfl | ⟨isr, rfl⟩⟩ := exec_ends h
  · simp [State.nullified, hh] at ht
  · obtain rfl := Option.some.inj ht
    refine ⟨rfl, rfl, .inr ⟨?_, ?_, rfl, rfl, rfl, rfl⟩⟩
    · cases kind with
      | disabledFpRegister => exact .inr rfl
      | fpFault => exact .inl rfl
      | fpTrap => exact absurd rfl hkind
    · cases kind with
      | disabledFpRegister | fpFault => rfl
      | fpTrap => exact absurd rfl hkind
  · simp [hh] at ht
  · obtain rfl := Option.some.inj ht
    exact ⟨by simp, by simp, .inl ⟨by simp [vectorOf, vectorFpTrap], by simp [State.savedPos]⟩⟩

/-! The guard. -/

/-- A destination f0 or f1 is the stop of R17, once the predicate is true and no register is disabled. -/
theorem exec_hardwired (hq : s.readP i.qp = true) (hd : ∀ n ∈ i.dest :: i.sources, s.fpDisabled n = false)
    (hdest : i.dest = 0 ∨ i.dest = 1) : exec i s = .fault .hardwiredRegisterWrite := by
  obtain ⟨x, low, high, hexec⟩ := exec_guarded i s
  have hany : (i.dest :: i.sources).any s.fpDisabled = false := List.any_eq_false.mpr fun n hn => by simp [hd n hn]
  rw [hexec, State.guarded, if_neg (by simp [hq]), if_neg (by simp [hany]), if_pos hdest]

/-- Settles O17: `readF` answers f0 and f1 itself, in any state, and the guard stops a write to them. -/
theorem hardwiredRegisters : Obligations.HardwiredRegisters := by
  unfold Obligations.HardwiredRegisters
  exact ⟨fun s t _ => ⟨rfl, rfl⟩, fun i s => exec_hardwired⟩

theorem exec_nullified (hq : s.readP i.qp = false) : exec i s = .next (s.nullified i) := by
  obtain ⟨x, low, high, hexec⟩ := exec_guarded i s
  rw [hexec, State.guarded, if_pos (by simp [hq]), State.nullified]

/-- Settles O18: the guard comes first, and under a false predicate it only advances. -/
theorem nullifiedInstruction : Obligations.NullifiedInstruction := by
  unfold Obligations.NullifiedInstruction
  intro i s hq
  refine ⟨_, exec_nullified hq, ?pos, ?fr, ?fpsr, ?isr, ?psr, ?handler, ?signaled, fun hp => ?pr, fun p hp => ?pred⟩
  case pr => rw [State.nullified, hp]; rfl
  case pred => exact s.readP_writeOptP_other _ hp
  all_goals simp [State.nullified]

/-! `NaTVal` (R77). -/

/-- Every instruction looks for `NaTVal` sources before it looks at its operands. -/
theorem exec_unlessNaT (i : Instr) (s : State) :
    ∃ own, exec i s = s.guarded i.qp i.pred i.dest i.sources (s.unlessNaT i.sf i.dest i.pred i.sources own) := by
  cases i <;> exact ⟨_, rfl⟩

/-- Settles O19: a `NaTVal` source is delivered by a completion that reports nothing. -/
theorem naTValPropagates : Obligations.NaTValPropagates := by
  unfold Obligations.NaTValPropagates
  intro i s hready ⟨n, hn, hnat⟩
  obtain ⟨own, hexec⟩ := exec_unlessNaT i s
  have hany : (i.sources.any fun n => s.readF n == natVal) = true := List.any_eq_true.mpr ⟨n, hn, beq_iff_eq.mpr hnat⟩
  rw [hexec, State.guarded_ready hready, State.unlessNaT, if_pos hany]
  exact s.finishNormal_value_pred i.sf i.dest i.pred natVal

/-! The step (R36). -/

/-- Settles O4: the step runs the instruction of the entry at the position. -/
theorem stepRunsTheFetchedInstruction : Obligations.StepRunsTheFetchedInstruction := by
  unfold Obligations.StepRunsTheFetchedInstruction
  refine fun s i hh => ⟨fun hf => step_of_instr hh hf rfl, fun w hf hd => step_of_instr hh hf ?_⟩
  rw [Entry.instr, hd]

end Sys2Proof.Machine
end

section
/-! The exponents of the exception stage: the trap code, the tests of overflow and tininess by value, and the true exponent
(R45, R50, R67, R84). -/

namespace Sys2Proof.Machine

/-- Settles O55: each branch that traps reports o or u of its own range alone, and the inexact tail i alone. -/
theorem trapCodeBits : Obligations.TrapCodeBits := by
  unfold Obligations.TrapCodeBits
  intro v p k hk
  cases p with
  | inf | zero => cases hk
  | value neg m =>
    have hb := fpStage_branch (v := v) (neg := neg) (m := m) rfl
    generalize fpStage v (.value neg m) = o at hb hk ⊢
    cases hb with
    | overflowEnabled _ hen | tinyEnabled _ _ hen =>
      obtain rfl := Option.some.inj hk
      simp [hen]
    | overflowAssist | tinyAssist | inRangeAssist =>
      obtain rfl := Option.some.inj hk
      simp
    | overflowDisabled | tinyFlushed | tinyInexact | inRangeInexact =>
      obtain ⟨hen, rfl⟩ := inexactTail_trap_eq_some hk
      simp [hen]
    | tinyExact | inRangeExact => cases hk

/-! Overflow and tininess by value (R45, R50). -/

/-- A significand of `p` bits places the value in the binade of its exponent. -/
theorem significand_binade {p k : Nat} (e : Int) (hp : 0 < p) (hge : 2 ^ (p - 1) ≤ k) (hlt : k < 2 ^ p) :
    (2 : ℝ) ^ e ≤ k * 2 ^ (e - ((p : Int) - 1)) ∧
      (k : ℝ) * 2 ^ (e - ((p : Int) - 1)) ≤ (2 - 2 ^ (1 - (p : Int))) * 2 ^ e := by
  have hge' : (2 ^ (p - 1) : ℝ) ≤ k := by exact_mod_cast hge
  have hle' : (k : ℝ) ≤ 2 ^ p - 1 := le_sub_iff_add_le.mpr (by exact_mod_cast hlt)
  have htop : ((2 : ℝ) ^ p - 1) * 2 ^ (e - ((p : Int) - 1)) = (2 - 2 ^ (1 - (p : Int))) * 2 ^ e := by
    rw [sub_mul, sub_mul, two_pow_mul_zpow (k := e + 1) (by omega), one_mul, ← zpow_add₀ two_ne_zero,
      zpow_add_one₀ two_ne_zero, mul_comm _ (2 : ℝ)]
    congr 2
    ring
  constructor
  · rw [← two_pow_mul_zpow (n := p - 1) (e := e - ((p : Int) - 1)) (k := e) (by omega)]
    gcongr
  · rw [← htop]
    gcongr

/-- MAXREAL lies in the binade of EMAX. -/
theorem maxRealRat_lt (fmt : Fmt) : (maxRealRat fmt : ℝ) < 2 ^ (fmt.emax + 1) := by
  have hstep : (0 : ℝ) < 2 ^ (1 - (fmt.p : Int)) := by positivity
  rw [maxRealRat, zpow_add_one₀ two_ne_zero, mul_comm _ (2 : ℝ)]
  push_cast
  gcongr
  linarith

/-- Settles O59: the significand has `p` bits, so the exponent orders the value against MAXREAL and `2^EMIN`. -/
theorem overflowAndTininessByValue : Obligations.OverflowAndTininessByValue := by
  unfold Obligations.OverflowAndTininessByValue
  rintro fmt m rc neg r v rv hfmt hv hpos rfl rfl
  have hp := destFormats_p_pos hfmt
  obtain ⟨hge, hlt⟩ := roundUnbounded_sig_bounds (rc := rc) (neg := neg) hv hpos hp
  obtain ⟨hlow, hhigh⟩ := significand_binade (roundUnbounded m fmt.p rc neg).exp hp hge hlt
  generalize (roundUnbounded m fmt.p rc neg).exp = e at hlow hhigh ⊢
  have hulp : (2 : ℝ) ^ (1 - (fmt.p : Int)) ≤ 1 := zpow_le_one_of_nonpos₀ one_le_two (by omega)
  constructor
  · refine ⟨fun h => ?_, fun h => ?_⟩
    · exact ((maxRealRat_lt fmt).trans_le (zpow_le_zpow_right₀ one_le_two h)).trans_le hlow
    · by_contra hle
      refine h.not_ge (hhigh.trans ?_)
      rw [maxRealRat]
      push_cast
      have hexp : (2 : ℝ) ^ e ≤ 2 ^ fmt.emax := zpow_le_zpow_right₀ one_le_two (not_lt.mp hle)
      exact mul_le_mul_of_nonneg_left hexp (by linarith)
  · refine ⟨fun h => ?_, fun h => ?_⟩
    · have hexp : (2 : ℝ) ^ (e + 1) ≤ 2 ^ fmt.emin := zpow_le_zpow_right₀ one_le_two h
      have hstep : (0 : ℝ) < 2 ^ (1 - (fmt.p : Int)) * 2 ^ e := by positivity
      rw [zpow_add_one₀ two_ne_zero] at hexp
      linarith
    · exact (zpow_lt_zpow_iff_right₀ one_lt_two).mp (hlow.trans_lt h)

/-! The true exponent (R84). -/

/-- Settles O60: the exponent field is the true exponent modulo `2^17`, and its range leaves one such number. -/
theorem trueExponentRecovered : Obligations.TrueExponentRecovered := by
  unfold Obligations.TrueExponentRecovered
  intro fmt e
  have hfield : ((regExpField e).toNat : Int) = (e + 65535) % 2 ^ 17 := toNat_ofInt_cast 17 (e + regBias)
  constructor
  · intro hmin hmax
    rw [recoverOverflowExp, hfield, regBias]
    omega
  · intro hmax hmin
    rw [recoverUnderflowExp, hfield, regBias]
    omega

end Sys2Proof.Machine
end

section
/-! The class of every encoding and the number it stands for (R17, R20, R74). -/

namespace Sys2Proof.Machine

/-- With an exponent field of all ones the significand tells infinities, NaNs and the rest apart. -/
theorem classifyReg_of_exp_ones {r : Flt} (h : r.exp = 0x1FFFF) :
    (r.sig = 0x8000000000000000 → classifyReg r = .num (.inf r.neg)) ∧
    (r.sig.getLsbD 63 = true → r.sig ≠ 0x8000000000000000 → classifyReg r = .nan (r.sig.getLsbD 62)) ∧
    (r.sig.getLsbD 63 = false → classifyReg r = .unsupported) := by
  have hnat : r ≠ natVal := by
    rintro rfl
    exact absurd h (by decide)
  have hclass : classifyReg r = _ := (if_neg hnat).trans (if_pos h)
  exact ⟨fun hsig => hclass.trans ((if_pos (by rw [Flt.sigBit, hsig]; decide)).trans (if_pos hsig)),
    fun hbit hsig => hclass.trans ((if_pos hbit).trans (if_neg hsig)),
    fun hbit => hclass.trans (if_neg (Bool.eq_false_iff.mp hbit))⟩

theorem classifyElem_of_exp_ones {x : Elem} (h : x.extractLsb' 23 8 = 0xFF) :
    (x.extractLsb' 0 23 = 0 → classifyElem x = .num (.inf (x.getLsbD 31))) ∧
    (x.extractLsb' 0 23 ≠ 0 → classifyElem x = .nan (x.getLsbD 22)) := by
  have hclass : classifyElem x = _ := if_pos (congrArg BitVec.toNat h)
  exact ⟨fun hfrac => hclass.trans (if_pos (congrArg BitVec.toNat hfrac)),
    fun hfrac => hclass.trans (if_neg fun e => hfrac (BitVec.eq_of_toNat_eq e))⟩

/-- Every register encoding: `NaTVal`, without a value, an infinity, a NaN, or a finite number of the register's sign and
value. -/
theorem classifyReg_cases (r : Flt) :
    (r = natVal ∧ classifyReg r = .natVal) ∨
    (r.exp = 0x1FFFF ∧ r.sig.getLsbD 63 = false ∧ classifyReg r = .unsupported) ∨
    (r.exp = 0x1FFFF ∧ r.sig = 0x8000000000000000 ∧ classifyReg r = .num (.inf r.neg)) ∨
    (r.exp = 0x1FFFF ∧ r.sig.getLsbD 63 = true ∧ r.sig ≠ 0x8000000000000000 ∧ classifyReg r = .nan (r.sig.getLsbD 62)) ∨
    (finiteReg r = true ∧ ∃ m e, classifyReg r = .num (.fin r.neg m e) ∧ regValue r = signRat r.neg * m * 2 ^ e) := by
  by_cases hnat : r = natVal
  · exact .inl ⟨hnat, if_pos hnat⟩
  by_cases hexp : r.exp = 0x1FFFF
  · obtain ⟨hinf, hnan, hunsupported⟩ := classifyReg_of_exp_ones hexp
    cases hbit : r.sig.getLsbD 63 with
    | false => exact .inr (.inl ⟨hexp, rfl, hunsupported hbit⟩)
    | true =>
      by_cases hsig : r.sig = 0x8000000000000000
      · exact .inr (.inr (.inl ⟨hexp, hsig, hinf hsig⟩))
      · exact .inr (.inr (.inr (.inl ⟨hexp, rfl, hsig, hnan hbit hsig⟩)))
  · have hfin : finiteReg r = true := (Bool.and_eq_true ..).mpr ⟨bne_iff_ne.mpr hexp, bne_iff_ne.mpr hnat⟩
    obtain ⟨x, hx, m, e, rfl, hvalue⟩ := classifyReg_denotes hfin
    exact .inr (.inr (.inr (.inr ⟨hfin, m, e, hx, hvalue⟩)))

theorem infElem_of_fields {x : Elem} (hexp : x.extractLsb' 23 8 = 0xFF) (hfrac : x.extractLsb' 0 23 = 0) :
    infElem x = true := by
  have happend : x.extractLsb' 23 8 ++ x.extractLsb' 0 23 = x.extractLsb' 0 31 :=
    BitVec.extractLsb'_append_extractLsb'_eq_extractLsb' rfl
  rw [hexp, hfrac] at happend
  exact beq_iff_eq.mpr happend.symm

/-- Every element encoding: an infinity, a NaN, or a finite number of the element's sign and value. -/
theorem classifyElem_cases (x : Elem) :
    (infElem x = true ∧ classifyElem x = .num (.inf (x.getLsbD 31))) ∨
    (x.extractLsb' 23 8 = 0xFF ∧ x.extractLsb' 0 23 ≠ 0 ∧ classifyElem x = .nan (x.getLsbD 22)) ∨
    (finiteElem x = true ∧ ∃ m e, classifyElem x = .num (.fin (x.getLsbD 31) m e) ∧
      elemValue x = signRat (x.getLsbD 31) * m * 2 ^ e) := by
  by_cases hexp : x.extractLsb' 23 8 = 0xFF
  · obtain ⟨hinf, hnan⟩ := classifyElem_of_exp_ones hexp
    by_cases hfrac : x.extractLsb' 0 23 = 0
    · exact .inl ⟨infElem_of_fields hexp hfrac, hinf hfrac⟩
    · exact .inr (.inl ⟨hexp, hfrac, hnan hfrac⟩)
  · have hfin : finiteElem x = true := bne_iff_ne.mpr hexp
    obtain ⟨y, hy, m, e, rfl, hvalue⟩ := classifyElem_denotes hfin
    exact .inr (.inr ⟨hfin, m, e, hy, hvalue⟩)

/-! What a class says of the encoding: it belongs to one of the cases alone. -/

theorem classifyReg_finite {r : Flt} {n : Bool} {m : Nat} {e : Int} (h : classifyReg r = .num (.fin n m e)) :
    n = r.neg ∧ finiteReg r = true ∧ regValue r = signRat n * m * 2 ^ e := by
  obtain ⟨-, hc⟩ | ⟨-, -, hc⟩ | ⟨-, -, hc⟩ | ⟨-, -, -, hc⟩ | ⟨hfin, m', e', hc, hvalue⟩ := classifyReg_cases r <;>
    cases hc.symm.trans h
  exact ⟨rfl, hfin, hvalue⟩

theorem classifyElem_finite {x : Elem} {n : Bool} {m : Nat} {e : Int} (h : classifyElem x = .num (.fin n m e)) :
    n = x.getLsbD 31 ∧ finiteElem x = true ∧ elemValue x = signRat n * m * 2 ^ e := by
  obtain ⟨-, hc⟩ | ⟨-, -, hc⟩ | ⟨hfin, m', e', hc, hvalue⟩ := classifyElem_cases x <;> cases hc.symm.trans h
  exact ⟨rfl, hfin, hvalue⟩

theorem classifyReg_nan {r : Flt} {q : Bool} (h : classifyReg r = .nan q) : q = r.sig.getLsbD 62 := by
  obtain ⟨-, hc⟩ | ⟨-, -, hc⟩ | ⟨-, -, hc⟩ | ⟨-, -, -, hc⟩ | ⟨-, _, _, hc, -⟩ := classifyReg_cases r <;>
    cases hc.symm.trans h
  rfl

theorem classifyElem_nan {x : Elem} {q : Bool} (h : classifyElem x = .nan q) : q = x.getLsbD 22 := by
  obtain ⟨-, hc⟩ | ⟨-, -, hc⟩ | ⟨-, _, _, hc, -⟩ := classifyElem_cases x <;> cases hc.symm.trans h
  rfl

theorem infReg_iff {r : Flt} : infReg r = true ↔ r.exp = 0x1FFFF ∧ r.sig = 0x8000000000000000 := by
  rw [infReg, Bool.and_eq_true, beq_iff_eq, beq_iff_eq]

theorem classifyReg_inf {r : Flt} {n : Bool} (h : classifyReg r = .num (.inf n)) : n = r.neg ∧ infReg r = true := by
  obtain ⟨-, hc⟩ | ⟨-, -, hc⟩ | ⟨hexp, hsig, hc⟩ | ⟨-, -, -, hc⟩ | ⟨-, _, _, hc, -⟩ := classifyReg_cases r <;>
    cases hc.symm.trans h
  exact ⟨rfl, infReg_iff.mpr ⟨hexp, hsig⟩⟩

theorem classifyElem_inf {x : Elem} {n : Bool} (h : classifyElem x = .num (.inf n)) : n = x.getLsbD 31 ∧ infElem x = true := by
  obtain ⟨hinf, hc⟩ | ⟨-, -, hc⟩ | ⟨-, _, _, hc, -⟩ := classifyElem_cases x <;> cases hc.symm.trans h
  exact ⟨rfl, hinf⟩

theorem classifyReg_eq_natVal_iff {r : Flt} : classifyReg r = .natVal ↔ r = natVal := by
  refine ⟨fun h => ?_, fun h => if_pos h⟩
  obtain ⟨hr, -⟩ | ⟨-, -, hc⟩ | ⟨-, -, hc⟩ | ⟨-, -, -, hc⟩ | ⟨-, _, _, hc, -⟩ := classifyReg_cases r
  · exact hr
  all_goals cases hc.symm.trans h

/-- Settles O26: the classes are told apart by the exponent field and the significand or fraction. -/
theorem naNClassesAndOperandValues : Obligations.NaNClassesAndOperandValues := by
  unfold Obligations.NaNClassesAndOperandValues
  refine ⟨⟨fun _ _ => classifyReg_nan, fun _ _ => classifyElem_nan⟩,
    ⟨fun _ _ _ _ => classifyReg_finite, fun _ _ => classifyReg_inf⟩, fun _ _ _ _ => classifyElem_finite,
    fun _ _ => classifyElem_inf,
    ⟨fun r h => ?nan, fun r => classifyReg_eq_natVal_iff, fun r h => ?inf, fun r h => ?fin, fun r h => ?none⟩,
    fun x h => (classifyElem_of_exp_ones h).2, fun x h => ?infElem, fun x h => ?finElem⟩
  case nan =>
    obtain ⟨-, hnan, -⟩ := classifyReg_of_exp_ones h
    exact hnan
  case none =>
    obtain ⟨-, -, hunsupported⟩ := classifyReg_of_exp_ones h
    exact hunsupported
  case inf =>
    obtain ⟨hexp, hsig⟩ := infReg_iff.mp h
    obtain ⟨hinf, -⟩ := classifyReg_of_exp_ones hexp
    exact hinf hsig
  case fin =>
    obtain ⟨x, hx, m, e, rfl, -⟩ := classifyReg_denotes h
    exact ⟨m, e, hx⟩
  case infElem =>
    obtain ⟨hexp, hfrac⟩ := infElem_fields h
    obtain ⟨hinf, -⟩ := classifyElem_of_exp_ones hexp
    exact hinf hfrac
  case finElem =>
    obtain ⟨y, hy, m, e, rfl, -⟩ := classifyElem_denotes h
    exact ⟨m, e, hy⟩

end Sys2Proof.Machine
end

section
/-! The images of delivered results as registers and as elements, and the values they hold (R17, R20). -/

namespace Sys2Proof.Machine

/-! Registers. -/

theorem rat_two_pow_mul_zpow {n : Nat} {e k : Int} (h : (n : Int) + e = k) : (2 : ℚ) ^ n * 2 ^ e = 2 ^ k := by
  rw [← h, zpow_add₀ two_ne_zero, zpow_natCast]

theorem destFormats_bounds {fmt : Fmt} (h : fmt ∈ destFormats) :
    0 < fmt.p ∧ fmt.p ≤ 64 ∧ -65534 ≤ fmt.emin ∧ fmt.emin ≤ fmt.emax ∧ fmt.emax ≤ 65535 := by
  revert fmt
  decide

section
variable {p k : Nat} {e : Int} (neg : Bool)

theorem toNat_alignSig (hp : p ≤ 64) (hk : k < 2 ^ p) : (alignSig p k).toNat = k * 2 ^ (64 - p) := by
  rw [alignSig, BitVec.toNat_ofNat, Nat.mod_eq_of_lt]
  calc k * 2 ^ (64 - p) < 2 ^ p * 2 ^ (64 - p) := Nat.mul_lt_mul_of_pos_right hk (Nat.two_pow_pos _)
    _ = 2 ^ 64 := by rw [← pow_add, Nat.add_sub_cancel' hp]

/-- The integer bit is the top bit of the significand of `p` bits. -/
theorem alignSig_integerBit (hp0 : 0 < p) (hp : p ≤ 64) (hk : k < 2 ^ p) :
    (alignSig p k).getLsbD 63 = decide (2 ^ (p - 1) ≤ k) := by
  have htop : 2 ^ 63 = 2 ^ (p - 1) * 2 ^ (64 - p) := by
    rw [← pow_add]
    congr 1
    omega
  rw [(alignSig p k).getLsbD_last, toNat_alignSig hp hk, htop, decide_eq_decide]
  exact Nat.mul_le_mul_right_iff (Nat.two_pow_pos _)

theorem toNat_regExpField (hmin : -65534 ≤ e) (hmax : e ≤ 65535) : ((regExpField e).toNat : Int) = e + 65535 := by
  rw [regExpField, toNat_ofInt_cast, regBias]
  omega

/-- The value of an aligned significand under the exponent field of `e`, or under the field 0 of `-65534`. -/
theorem regValue_aligned {field : BitVec 17} (hp0 : 0 < p) (hp : p ≤ 64) (hk : k < 2 ^ p)
    (hfield : (if field = 0 then -65534 else (field.toNat : Int) - 65535) = e) :
    regValue ⟨neg, field, alignSig p k⟩ = signRat neg * k * 2 ^ (e - ((p : Int) - 1)) := by
  rw [regValue, hfield, toNat_alignSig hp hk, Nat.cast_mul, Nat.cast_pow, Nat.cast_ofNat, ← mul_assoc, mul_assoc,
    rat_two_pow_mul_zpow (k := e - ((p : Int) - 1)) (by omega)]

theorem regExpField_exponent (hmin : -65534 ≤ e) (hmax : e ≤ 65535) :
    (if regExpField e = 0 then -65534 else ((regExpField e).toNat : Int) - 65535) = e := by
  have hnat := toNat_regExpField hmin hmax
  have hne : regExpField e ≠ 0 := fun h => by
    rw [h] at hnat
    change ((0 : Nat) : Int) = e + 65535 at hnat
    omega
  rw [if_neg hne, hnat, add_sub_cancel_right]

/-- A register with a significand is finite unless its exponent field is all ones. -/
theorem finiteReg_of_sig {r : Flt} (hexp : r.exp ≠ 0x1FFFF) (hsig : r.sig ≠ 0) : finiteReg r = true :=
  (Bool.and_eq_true ..).mpr ⟨bne_iff_ne.mpr hexp, bne_iff_ne.mpr fun h => hsig (congrArg Flt.sig h)⟩

theorem alignSig_ne_zero (hp : p ≤ 64) (hk : k < 2 ^ p) (h0 : k ≠ 0) : alignSig p k ≠ 0 := fun h => by
  have hnat := toNat_alignSig hp hk
  rw [h] at hnat
  exact (Nat.mul_ne_zero h0 (Nat.two_pow_pos _).ne') hnat.symm

theorem regExpField_ne_ones (hmin : -65534 ≤ e) (hmax : e ≤ 65535) : regExpField e ≠ 0x1FFFF := fun h => by
  have hnat := toNat_regExpField hmin hmax
  rw [h] at hnat
  change ((131071 : Nat) : Int) = e + 65535 at hnat
  omega

end

section
variable {fmt : Fmt} {k : Nat} {e : Int}

/-- The in-range result (R59) and the maximum finite value as registers. -/
theorem encodeReg_rounded (neg : Bool) (hfmt : fmt ∈ destFormats) (hmin : fmt.emin ≤ e) (hmax : e ≤ fmt.emax)
    (hk : 2 ^ (fmt.p - 1) ≤ k) (hlt : k < 2 ^ fmt.p) :
    finiteReg (encodeReg fmt (.rounded neg e k)) = true ∧ (encodeReg fmt (.rounded neg e k)).sig.getLsbD 63 = true ∧
      regValue (encodeReg fmt (.rounded neg e k)) = signRat neg * k * 2 ^ (e - ((fmt.p : Int) - 1)) := by
  obtain ⟨hp0, hp, hemin, -, hemax⟩ := destFormats_bounds hfmt
  have hpos := (Nat.two_pow_pos _).trans_le hk
  refine ⟨finiteReg_of_sig (regExpField_ne_ones (by omega) (by omega)) (alignSig_ne_zero hp hlt hpos.ne'),
    (alignSig_integerBit hp0 hp hlt).trans (decide_eq_true hk),
    regValue_aligned neg hp0 hp hlt (regExpField_exponent (by omega) (by omega))⟩

theorem encodeReg_maxReal (neg : Bool) (hfmt : fmt ∈ destFormats) :
    finiteReg (encodeReg fmt (.maxReal neg)) = true ∧
      regValue (encodeReg fmt (.maxReal neg)) = signRat neg * maxRealRat fmt := by
  obtain ⟨hp0, -, -, hle, -⟩ := destFormats_bounds hfmt
  have htwo : 2 ^ fmt.p = 2 * 2 ^ (fmt.p - 1) := by rw [← pow_succ', Nat.sub_add_cancel hp0]
  have hpos : 0 < 2 ^ (fmt.p - 1) := Nat.two_pow_pos _
  obtain ⟨hfin, -, hvalue⟩ := encodeReg_rounded (k := 2 ^ fmt.p - 1) neg hfmt hle le_rfl (by omega) (by omega)
  refine ⟨hfin, hvalue.trans ?_⟩
  rw [mul_assoc, maxRealRat, Nat.cast_sub (Nat.two_pow_pos _), Nat.cast_pow, Nat.cast_ofNat, Nat.cast_one, sub_mul, sub_mul,
    rat_two_pow_mul_zpow (k := fmt.emax + 1) (by omega), one_mul, ← zpow_add₀ two_ne_zero, zpow_add_one₀ two_ne_zero,
    mul_comm _ (2 : ℚ)]
  congr 3
  ring

/-- The exponent field of a multiple of the smallest denormal stands for EMIN, in either form. -/
theorem denormalExpField_exponent (hmin : -65534 ≤ e) (hmax : e ≤ 65535) :
    (if denormalExpField e = 0 then -65534 else ((denormalExpField e).toNat : Int) - 65535) = e := by
  unfold denormalExpField
  by_cases h : e = -65534
  · rw [if_pos h]
    exact (if_pos rfl).trans h.symm
  · rw [if_neg h]
    exact regExpField_exponent hmin hmax

theorem denormalExpField_ne_ones (hmin : -65534 ≤ e) (hmax : e ≤ 65535) : denormalExpField e ≠ 0x1FFFF := by
  unfold denormalExpField
  split_ifs
  · decide
  · exact regExpField_ne_ones hmin hmax

/-- A multiple of the smallest denormal (R52) as a register. -/
theorem encodeReg_bounded (neg : Bool) (hfmt : fmt ∈ destFormats) (hk : k < 2 ^ fmt.p) :
    (encodeReg fmt (.bounded neg k)).neg = neg ∧ finiteReg (encodeReg fmt (.bounded neg k)) = true ∧
      regValue (encodeReg fmt (.bounded neg k)) = signRat neg * k * 2 ^ (fmt.emin - ((fmt.p : Int) - 1)) := by
  obtain ⟨hp0, hp, hemin, hle, hemax⟩ := destFormats_bounds hfmt
  have hsig := alignSig_ne_zero hp hk
  simp only [encodeReg]
  split_ifs with h0 hnormal
  · refine ⟨rfl, by cases neg <;> decide, ?_⟩
    simp [regValue, h0]
  · exact ⟨rfl, finiteReg_of_sig (regExpField_ne_ones hemin (by omega)) (hsig h0),
      regValue_aligned neg hp0 hp hk (regExpField_exponent hemin (by omega))⟩
  · exact ⟨rfl, finiteReg_of_sig (denormalExpField_ne_ones hemin (by omega)) (hsig h0),
      regValue_aligned neg hp0 hp hk (denormalExpField_exponent hemin (by omega))⟩

/-- A denormal is held with integer bit 0 and the exponent field of a denormal (R17). -/
theorem encodeReg_denormal (neg : Bool) (hfmt : fmt ∈ destFormats) (h0 : 0 < k) (hk : k < 2 ^ (fmt.p - 1)) :
    (encodeReg fmt (.bounded neg k)).sig.getLsbD 63 = false ∧
      (encodeReg fmt (.bounded neg k)).exp = if fmt.emin = -65534 then 0 else BitVec.ofInt 17 (fmt.emin + 65535) := by
  obtain ⟨hp0, hp, -⟩ := destFormats_bounds hfmt
  have hlt : k < 2 ^ fmt.p := hk.trans_le (Nat.pow_le_pow_right two_pos (Nat.sub_le ..))
  rw [encodeReg, if_neg h0.ne', if_neg hk.ne]
  exact ⟨(alignSig_integerBit hp0 hp hlt).trans (decide_eq_false hk.not_ge), rfl⟩

end

/-! Elements. -/

theorem elemValue_elemOf (neg : Bool) (e : BitVec 8) (f : BitVec 23) :
    elemValue (elemOf neg e f) = signRat neg *
      (if e.toNat = 0 then (f.toNat : ℚ) * 2 ^ (-149 : Int) else ((2 ^ 23 + f.toNat : Nat) : ℚ) * 2 ^ ((e.toNat : Int) - 150)) := by
  rw [elemValue, elemOf_exponent, elemOf_fraction, elemOf_sign]

theorem finiteElem_elemOf {e : BitVec 8} (neg : Bool) (f : BitVec 23) (he : e ≠ 0xFF) : finiteElem (elemOf neg e f) = true := by
  rw [finiteElem, elemOf_exponent]
  exact bne_iff_ne.mpr he

theorem encodeElem_infinity (neg : Bool) : encodeElem (.infinity neg) = BitVec.ofBool neg ++ 0x7F800000#31 := by
  cases neg <;> decide

theorem encodeElem_maxReal (neg : Bool) :
    (encodeElem (.maxReal neg)).getLsbD 31 = neg ∧ finiteElem (encodeElem (.maxReal neg)) = true ∧
      elemValue (encodeElem (.maxReal neg)) = signRat neg * maxRealRat fmtSingle := by
  refine ⟨elemOf_sign .., finiteElem_elemOf _ _ (by decide), ?_⟩
  have hexp : (0xFE : BitVec 8).toNat = 254 := rfl
  have hfrac : (0x7FFFFF : BitVec 23).toNat = 2 ^ 23 - 1 := rfl
  rw [encodeElem, elemValue_elemOf, maxRealRat, hexp, hfrac]
  congr 1
  norm_num [fmtSingle]

/-- A multiple of the smallest denormal (R52) as an element. -/
theorem encodeElem_bounded {k : Nat} (neg : Bool) (hk : k ≤ 2 ^ 23) :
    (encodeElem (.bounded neg k)).getLsbD 31 = neg ∧ finiteElem (encodeElem (.bounded neg k)) = true ∧
      elemValue (encodeElem (.bounded neg k)) = signRat neg * k * 2 ^ (-149 : Int) := by
  refine ⟨elemOf_sign .., finiteElem_elemOf _ _ (by split_ifs <;> decide), ?_⟩
  rw [encodeElem, elemValue_elemOf, mul_assoc]
  congr 1
  obtain rfl | hlt := hk.eq_or_lt
  · have hexp : (1 : BitVec 8).toNat = 1 := rfl
    rw [if_pos rfl, hexp]
    norm_num
  · rw [if_neg hlt.ne, BitVec.toNat_ofNat, Nat.mod_eq_of_lt hlt]
    rfl

/-- The in-range result (R59) as an element. -/
theorem encodeElem_rounded {k : Nat} {e : Int} (neg : Bool) (hmin : -126 ≤ e) (hmax : e ≤ 127) (hk : 2 ^ 23 ≤ k)
    (hlt : k < 2 ^ 24) :
    (encodeElem (.rounded neg e k)).getLsbD 31 = neg ∧ finiteElem (encodeElem (.rounded neg e k)) = true ∧
      elemValue (encodeElem (.rounded neg e k)) = signRat neg * k * 2 ^ (e - 23) := by
  have hexp : ((BitVec.ofInt 8 (e + pfpBias)).toNat : Int) = e + 127 := by
    rw [toNat_ofInt_cast, pfpBias]
    omega
  have hfrac : 2 ^ 23 + (BitVec.ofNat 23 k).toNat = k := by
    rw [BitVec.toNat_ofNat]
    omega
  have hne : BitVec.ofInt 8 (e + pfpBias) ≠ 0xFF := fun h => by
    rw [h] at hexp
    change ((255 : Nat) : Int) = e + 127 at hexp
    omega
  refine ⟨elemOf_sign .., finiteElem_elemOf _ _ hne, ?_⟩
  rw [encodeElem, elemValue_elemOf, if_neg (by omega), hfrac, hexp, ← mul_assoc]
  congr 2
  ring

/-- Settles O50: each image holds the result's significand, aligned, under the exponent field of its exponent. -/
theorem resultImages : Obligations.ResultImages := by
  unfold Obligations.ResultImages
  refine ⟨fun fmt s hfmt => ⟨rfl, rfl, ⟨rfl, encodeReg_maxReal s hfmt⟩, fun k => encodeReg_bounded s hfmt,
      fun k => encodeReg_denormal s hfmt, fun e k hmin hmax hk hlt => ⟨rfl, encodeReg_rounded s hfmt hmin hmax hk hlt⟩⟩,
    fun s => ⟨encodeElem_infinity s, encodeElem_zero s, encodeElem_maxReal s, fun k => encodeElem_bounded s,
      fun e k => encodeElem_rounded s⟩⟩

end Sys2Proof.Machine
end

section
/-! Completions of the approximation instructions, conversions and minimum and maximum: values in exact states, invalid
operations, and the predicate of a Parallel-FP approximation. -/

namespace Sys2Proof.Machine

variable {s t : State} {sf : SfNum} {f1 : RegNum} {p2 : Option PredNum} {x : Flt} {low : Report} {high : Option Report}

/-- Every next state of a completion that does not stop: destination, FPSR, event record, predicate and trap (R66, R68). -/
theorem State.delivers_of_finish (h : s.finish sf f1 p2 x low high = .next t) (hs : s.finishStops sf low high = false)
    (h0 : f1 ≠ 0) (h1 : f1 ≠ 1) :
    t.fpsr = (s.commit sf f1 p2 x low high).fpsr ∧ t.readF f1 = x ∧ t.signaled = allSignals low high ∧
      (∀ p, p2 = some p → p ≠ 0 → t.readP p = helperPredOf (Config.helperPred s.draws) low high) ∧
      (trapOf low high = none → t.handler = s.handler) ∧
      ∀ code, trapOf low high = some code → t.handler = some (s.iva + vectorFpTrap) ∧
        t.isr = isrOfTrap (Config.isrBits s.draws) code.1 code.2 := by
  obtain ⟨t', ht, hdone⟩ := State.finish_delivers (p2 := p2) (x := x) hs h0 h1
  cases ht.symm.trans h
  exact hdone

/-- A completion that signals a denormal operand at most, its fault disabled, sets no other flag, raises no trap and is no
approximation: the value is written, the predicate cleared and flag d set. -/
theorem State.finish_value_pred {den : Bool} (hs : s.finishStops sf low high = false) (ht : trapOf low high = none)
    (hflags : newFlags (flagsOf s.fpsr sf) (Config.swaFlags s.draws) low high = flagsOf s.fpsr sf)
    (hpred : helperPredOf (Config.helperPred s.draws) low high = false) (hsg : allSignals low high = { d := den }) :
    s.finish sf f1 p2 x low high = .next { s.writeOptP p2 false with
      fr := s.fr.set f1.toNat x f1.isLt
      fpsr := orBit s.fpsr (sfBase sf + 8) den
      signaled := { d := den }
      pos := s.pos + 1
      draws := s.draws + 2 } := by
  rw [State.finish_of_no_trap hs ht, State.commit, hflags, putFlags_flagsOf, hpred, hsg]
  cases p2 with
  | none => rfl
  | some p =>
    by_cases hp : p = 0
    · simp only [State.writeOptP, State.writeP, if_pos hp]
      rfl
    · simp only [State.writeOptP, State.writeP, if_neg hp]
      rfl

theorem State.finishNormal_value_pred_denormal {den : Bool} (hs : s.denormalStops sf den = false) :
    s.finishNormal sf f1 p2 ⟨x, { signals := { d := den } }⟩ = .next { s.writeOptP p2 false with
      fr := s.fr.set f1.toNat x f1.isLt
      fpsr := orBit s.fpsr (sfBase sf + 8) den
      signaled := { d := den }
      pos := s.pos + 1
      draws := s.draws + 2 } :=
  State.finish_value_pred ((State.finishStops_denormal rfl).trans hs) rfl (Flags.or_none _) rfl rfl

theorem State.finishParallel_value_pred {xh xl : Elem} {dh dl : Bool} (hs : s.denormalStops sf (dl || dh) = false) :
    s.finishParallel sf f1 p2 ⟨xh, { signals := { d := dh } }⟩ ⟨xl, { signals := { d := dl } }⟩ =
      .next { s.writeOptP p2 false with
        fr := s.fr.set f1.toNat ⟨false, 0x1003E, xh ++ xl⟩ f1.isLt
        fpsr := orBit s.fpsr (sfBase sf + 8) (dl || dh)
        signaled := { d := dl || dh }
        pos := s.pos + 1
        draws := s.draws + 2 } :=
  State.finish_value_pred ((State.finishStops_parallel rfl rfl).trans hs) rfl (Flags.or_none _) rfl rfl

/-! Invalid operations: the default NaN is quiet (R74, R76). -/

theorem classifyReg_defaultNaN (fmt : Fmt) : classifyReg (regCarrier fmt).defaultNaN = .nan true := by
  have hbit (k : Nat) : (regCarrier fmt).defaultNaN.sig.getLsbD k =
      if k < 62 then Config.nanPolicy.payload.getLsbD k else (3#2).getLsbD (k - 62) :=
    BitVec.getLsbD_append (x := 3#2) (y := Config.nanPolicy.payload)
  have htop : (regCarrier fmt).defaultNaN.sig.getLsbD 62 = true := hbit 62
  obtain ⟨-, hnan, -⟩ := classifyReg_of_exp_ones (r := (regCarrier fmt).defaultNaN) rfl
  refine (hnan (hbit 63) fun h => ?_).trans (congrArg Operand.nan htop)
  rw [h] at htop
  exact absurd htop (by decide)

theorem classifyElem_defaultNaN : classifyElem elemCarrier.defaultNaN = .nan true := by
  have htop : ((1#1) ++ Config.nanPolicy.elemPayload : BitVec 23).getLsbD 22 = true :=
    BitVec.getLsbD_append (x := 1#1) (y := Config.nanPolicy.elemPayload)
  obtain ⟨-, hnan⟩ := classifyElem_of_exp_ones (x := elemCarrier.defaultNaN) (elemOf_exponent ..)
  refine (hnan fun h => ?_).trans (congrArg Operand.nan ((getLsbD_elemOf ..).trans htop))
  rw [elemCarrier, elemOf_fraction] at h
  rw [h] at htop
  exact absurd htop (by decide)

/-- An instruction that completes with an invalid operation: the fault, reported alone, or a quiet NaN. -/
theorem State.finishNormal_invalidResult {fmt : Fmt} (h0 : f1 ≠ 0) (h1 : f1 ≠ 1) :
    ∃ t, s.finishNormal sf f1 p2 (invalidResult (regCarrier fmt)) = .next t ∧
      ((controlsOf s.fpsr sf).invEn = true → faultedFrom s t ∧ t.isr.getLsbD 0 = true ∧ t.isr.getLsbD 1 = false) ∧
      ((controlsOf s.fpsr sf).invEn = false → t.handler = s.handler ∧ t.signaled = { v := true } ∧
        classifyReg (t.readF f1) = .nan true ∧ flagsOf t.fpsr sf = flagsOf s.fpsr sf ∧
        ∀ p, p2 = some p → p ≠ 0 → t.readP p = false) := by
  obtain ⟨t, ht, ⟨hfault, ⟨hv, hd, -, -⟩, hen⟩ | ⟨hen, hh, hsg, hflags, hpred, hvalue⟩⟩ :=
    State.finishNormal_invalid_cases (s := s) (sf := sf) (p2 := p2) (x := (regCarrier fmt).defaultNaN) (v := true) h0 h1
  · exact ⟨t, ht, fun _ => ⟨hfault, hv, hd⟩, fun h => absurd (h.symm.trans hen) nofun⟩
  · exact ⟨t, ht, fun h => absurd (h.symm.trans hen) nofun,
      fun _ => ⟨hh, hsg, hvalue ▸ classifyReg_defaultNaN fmt, hflags, hpred⟩⟩

section
variable {pick : Flt → Elem} {lane : Nat} {o : ElemResult Elem}

/-- The same of an element: with Invalid Operation disabled the fault is the other element's. -/
theorem lane_of_invalidResult
    (h : LaneFaults s t sf lane (invalidResult elemCarrier).report.signals o.report.signals ∨
      LaneDelivers s t sf f1 pick lane (invalidResult elemCarrier) o) :
    ((controlsOf s.fpsr sf).invEn = true → faultedFrom s t ∧ t.isr.getLsbD (laneFaultBit lane 0) = true ∧
      t.isr.getLsbD (laneFaultBit lane 1) = false) ∧
    ((controlsOf s.fpsr sf).invEn = false →
      (faultedFrom s t ∧ t.isr.getLsbD (laneFaultBit lane 1) = false ∧
          (enabledSignals (controlsOf s.fpsr sf) o.report.signals).any = true ∧
          faultReport t.isr (1 - lane) (enabledSignals (controlsOf s.fpsr sf) o.report.signals)) ∨
        (t.signaled.v = true ∧ classifyElem (pick (t.readF f1)) = .nan true)) := by
  obtain hfault | ⟨hgo, -, hvalue, hsg, -⟩ := h
  · refine ⟨fun hen => ?_, fun hen => ?_⟩
    · obtain ⟨hfaulted, ⟨hv, hd, -, -⟩, -⟩ := hfault
      exact ⟨hfaulted, hv.trans hen, hd⟩
    · obtain ⟨hfaulted, hd, hother | ⟨-, hen', -⟩⟩ := hfault.of_invalid (v := true)
      · exact .inl ⟨hfaulted, hd, hother⟩
      · exact absurd (hen.symm.trans hen') nofun
  · refine ⟨fun hen => ?_, fun _ => .inr ⟨hsg, ?_⟩⟩
    · exact absurd (hgo.symm.trans ((any_invalid _ true).trans hen)) nofun
    · rw [hvalue]
      exact classifyElem_defaultNaN

end

end Sys2Proof.Machine
end

section
/-! The approximation instructions (R91 to R94), one element at a time: invalid, special and finite operands, and the accuracy of
the approximation. -/

namespace Sys2Proof.Machine

/-! Operands that are zero or infinite are not unnormal. -/

/-- The magnitude of a finite register is its significand. -/
theorem classifyReg_fin_mag {r : Flt} {n : Bool} {m : Nat} {e : Int} (h : classifyReg r = .num (.fin n m e)) :
    r.sig.toNat = m := by
  unfold classifyReg at h
  dsimp only at h
  split_ifs at h <;> cases h <;> rfl

/-- The magnitude of a finite element is its fraction, under the exponent field 0, or has the hidden bit. -/
theorem classifyElem_fin_mag {x : Elem} {n : Bool} {m : Nat} {e : Int} (h : classifyElem x = .num (.fin n m e)) :
    ((x.extractLsb' 23 8).toNat = 0 ∧ (x.extractLsb' 0 23).toNat = m ∧ e = -149) ∨
      ((x.extractLsb' 23 8).toNat ≠ 0 ∧ 2 ^ 23 + (x.extractLsb' 0 23).toNat = m) := by
  unfold classifyElem at h
  dsimp only at h
  split_ifs at h with hones hinf hzero
  · cases h
  · cases h
    exact .inl ⟨hzero, rfl, rfl⟩
  · cases h
    exact .inr ⟨hzero, rfl⟩

theorem unnormalReg_of_zero {r : Flt} {n : Bool} {e : Int} (h : classifyReg r = .num (.fin n 0 e)) : unnormalReg r = false := by
  have hsig : r.sig = 0 := BitVec.eq_of_toNat_eq (classifyReg_fin_mag h)
  simp [unnormalReg, hsig]

theorem unnormalReg_of_inf {r : Flt} {n : Bool} (h : classifyReg r = .num (.inf n)) : unnormalReg r = false := by
  obtain ⟨-, hinf⟩ := classifyReg_inf h
  obtain ⟨hexp, -⟩ := infReg_iff.mp hinf
  simp [unnormalReg, hexp]

theorem unnormalElem_of_zero {x : Elem} {n : Bool} {e : Int} (h : classifyElem x = .num (.fin n 0 e)) :
    unnormalElem x = false := by
  obtain ⟨-, hfrac, -⟩ | ⟨-, hmag⟩ := classifyElem_fin_mag h
  · have hzero : x.extractLsb' 0 23 = 0 := BitVec.eq_of_toNat_eq hfrac
    simp [unnormalElem, hzero]
  · omega

theorem unnormalElem_of_inf {x : Elem} {n : Bool} (h : classifyElem x = .num (.inf n)) : unnormalElem x = false := by
  obtain ⟨-, hinf⟩ := classifyElem_inf h
  obtain ⟨hexp, -⟩ := infElem_fields hinf
  simp [unnormalElem, hexp]

/-! Reciprocals: the cases of IEEE 754 (R91). -/

section
variable {α : Type} {C A : Carrier α} {env : StageEnv} {fr : HelperFree} {x2 x3 : α} {den : Bool} {a b : Numeric}

theorem recipElem_of_num (h2 : C.classify x2 = .num a) (h3 : C.classify x3 = .num b) :
    recipElem C A env fr x2 x3 = recipNum C A env fr (C.unnormal x2 || C.unnormal x3) a b := by
  simp [recipElem, propagate, chooseNaN, Operand.isNaN, h2, h3]

theorem recipNum_of_invalid (h : invalidQuotient a b = true) : recipNum C A env fr den a b = invalidResult C := by
  cases a with
  | inf s =>
    cases b with
    | inf => rfl
    | fin => simp [invalidQuotient, Numeric.isInf, Numeric.isZero] at h
  | fin s m e =>
    cases b with
    | inf => simp [invalidQuotient, Numeric.isInf, Numeric.isZero] at h
    | fin t n f =>
      obtain ⟨rfl, rfl⟩ : m = 0 ∧ n = 0 := by simpa [invalidQuotient, Numeric.isInf, Numeric.isZero] using h
      rfl

/-- A special quotient passes the stage as it is. -/
theorem recipNum_of_special {d : Delivered} (h : specialQuotient a b = some d) :
    recipNum C A env fr den a b = ⟨C.encode d, { signals := { d := den } }⟩ := by
  cases a with
  | inf s =>
    cases b with
    | inf => cases h
    | fin => cases h; rfl
  | fin s m e =>
    cases b with
    | inf => cases h; rfl
    | fin t n f =>
      rw [specialQuotient] at h
      split_ifs at h with hzero
      obtain ⟨rfl, hn⟩ := hzero
      cases h
      rw [recipNum, if_neg hn, if_pos rfl]
      rfl

theorem recipNum_of_zeroDivide {s t : Bool} {m : Nat} {e f : Int} (hm : m ≠ 0) :
    recipNum C A env fr den (.fin s m e) (.fin t 0 f) =
      ⟨C.encode (.infinity (s ^^ t)), { signals := { d := den, z := true } }⟩ := by
  rw [recipNum, if_pos rfl, if_neg hm]
  rfl

theorem propagate_of_no_nan {l : List α} (h : ∀ x ∈ l, (C.classify x).isNaN = false) : propagate C l = none :=
  congrArg (Option.map _) (List.find?_eq_none.mpr fun x hx => Bool.eq_false_iff.mp (h x hx))

/-- A pair of which one has no value, and none is a NaN, is invalid. -/
theorem recipElem_of_unsupported (hnan : ∀ x ∈ [x2, x3], (C.classify x).isNaN = false)
    (h : ∃ x ∈ [x2, x3], C.classify x = .unsupported) : recipElem C A env fr x2 x3 = invalidResult C := by
  obtain ⟨x, hx, hun⟩ := h
  unfold recipElem
  rw [propagate_of_no_nan hnan]
  dsimp only
  split
  · next h2 h3 =>
    obtain rfl | rfl : x = x2 ∨ x = x3 := by simpa using hx
    · cases hun.symm.trans h2
    · cases hun.symm.trans h3
  · rfl

end
end Sys2Proof.Machine
end

section
/-! The accuracy of the reciprocal approximation (R91): its significand lies in the bound whatever the free value is. -/

namespace Sys2Proof.Machine

/-- The bounds on the significand are not empty, and any significand between them is within 1/473 of the reciprocal; `P` is the
least significand of `p` bits. -/
theorem recipSig_between {P S k : Nat} (hP : 256 ≤ P) (hge : P ≤ S) (hlt : S < 2 * P) :
    max P ((472 * (2 * P * P) + 473 * S - 1) / (473 * S)) ≤ min (2 * P - 1) (474 * (2 * P * P) / (473 * S)) ∧
    ((472 * (2 * P * P) + 473 * S - 1) / (473 * S) ≤ k → k ≤ 474 * (2 * P * P) / (473 * S) →
      472 * (2 * P * P) ≤ k * (473 * S) ∧ k * (473 * S) ≤ 474 * (2 * P * P)) := by
  have hD : 0 < 473 * S := by omega
  have hsq : 256 * P ≤ P * P := Nat.mul_le_mul_right P hP
  have hSP : S * P ≤ 2 * P * P := Nat.mul_le_mul_right P hlt.le
  have hPS : P * P ≤ P * S := Nat.mul_le_mul_left P hge
  refine ⟨max_le (le_min (by omega) ?_) (le_min (Nat.le_sub_one_of_lt ?_) (Nat.div_le_div_right ?_)), fun hlo hhi => ⟨?_, ?_⟩⟩
  · rw [Nat.le_div_iff_mul_le hD]
    nlinarith
  · rw [Nat.div_lt_iff_lt_mul hD]
    have hprod : 0 ≤ ((S : Int) - P) * (P - 1) := mul_nonneg (by omega) (by omega)
    refine (Nat.sub_le _ 1).trans_lt ?_
    zify at *
    nlinarith
  · refine (Nat.sub_le _ 1).trans ?_
    nlinarith
  · have hceil := Nat.lt_div_mul_add (a := 472 * (2 * P * P) + 473 * S - 1) hD
    have hmul := Nat.mul_le_mul_right (473 * S) hlo
    omega
  · exact (Nat.mul_le_mul_right _ hhi).trans (Nat.div_mul_le_self ..)

theorem boundedRecipSig_bounds {p S : Nat} (free : Nat) (hp : 9 ≤ p) (hge : 2 ^ (p - 1) ≤ S) (hlt : S < 2 ^ p) :
    2 ^ (p - 1) ≤ boundedRecipSig p S free ∧ boundedRecipSig p S free < 2 ^ p ∧
      472 * 2 ^ (2 * p - 1) ≤ boundedRecipSig p S free * (473 * S) ∧
      boundedRecipSig p S free * (473 * S) ≤ 474 * 2 ^ (2 * p - 1) := by
  have hP : 256 ≤ 2 ^ (p - 1) := Nat.pow_le_pow_right (n := 2) two_pos (show 8 ≤ p - 1 by omega)
  have htwo : 2 ^ p = 2 * 2 ^ (p - 1) := by rw [← pow_succ', Nat.sub_add_cancel (by omega)]
  have hsq : 2 ^ (2 * p - 1) = 2 * 2 ^ (p - 1) * 2 ^ (p - 1) := by
    rw [← htwo, ← pow_add]
    congr 1
    omega
  rw [htwo] at hlt
  obtain ⟨hle, hbound⟩ := recipSig_between (k := boundedRecipSig p S free) hP hge hlt
  simp only [boundedRecipSig, htwo, hsq] at hbound ⊢
  have hlo := le_max_left (max (2 ^ (p - 1)) ((472 * (2 * 2 ^ (p - 1) * 2 ^ (p - 1)) + 473 * S - 1) / (473 * S)))
    (min free (min (2 * 2 ^ (p - 1) - 1) (474 * (2 * 2 ^ (p - 1) * 2 ^ (p - 1)) / (473 * S))))
  have hhi := max_le hle (min_le_right free _)
  obtain ⟨hlo1, hlo2⟩ := max_le_iff.mp hlo
  obtain ⟨hhi1, hhi2⟩ := le_min_iff.mp hhi
  exact ⟨hlo1, by omega, hbound hlo2 hhi2⟩

/-- A magnitude shifted to `p` bits. -/
theorem shiftLeft_log2_bounds {m p : Nat} (h0 : m ≠ 0) (hm : m < 2 ^ p) :
    m.log2 ≤ p - 1 ∧ 2 ^ (p - 1) ≤ m <<< (p - 1 - m.log2) ∧ m <<< (p - 1 - m.log2) < 2 ^ p := by
  have hlog : m.log2 < p := (Nat.log2_lt h0).mpr hm
  rw [Nat.shiftLeft_eq]
  refine ⟨by omega, ?_, ?_⟩
  · calc 2 ^ (p - 1) = 2 ^ m.log2 * 2 ^ (p - 1 - m.log2) := by rw [← pow_add]; congr 1; omega
      _ ≤ m * 2 ^ (p - 1 - m.log2) := Nat.mul_le_mul_right _ (Nat.log2_self_le h0)
  · calc m * 2 ^ (p - 1 - m.log2) < 2 ^ (m.log2 + 1) * 2 ^ (p - 1 - m.log2) :=
        Nat.mul_lt_mul_of_pos_right Nat.lt_log2_self (Nat.two_pow_pos _)
      _ = 2 ^ p := by rw [← pow_add]; congr 1; omega

/-- Significands within the bound multiply to nearly one. -/
theorem abs_mul_sub_one_le {k S n : Nat} (hlo : 472 * 2 ^ n ≤ k * (473 * S)) (hhi : k * (473 * S) ≤ 474 * 2 ^ n) :
    |(k : ℚ) * S / 2 ^ n - 1| ≤ 1 / 473 := by
  have hlo' : (472 * 2 ^ n : ℚ) ≤ k * (473 * S) := by exact_mod_cast hlo
  have hhi' : (k * (473 * S) : ℚ) ≤ 474 * 2 ^ n := by exact_mod_cast hhi
  have hpos : (0 : ℚ) < 2 ^ n := by positivity
  have hquot : (k : ℚ) * S / 2 ^ n * 2 ^ n = k * S := div_mul_cancel₀ _ hpos.ne'
  rw [abs_le]
  constructor
  · refine le_of_mul_le_mul_right ?_ hpos
    rw [sub_mul, hquot]
    linarith
  · refine le_of_mul_le_mul_right ?_ hpos
    rw [sub_mul, hquot]
    linarith

/-- The approximation is a number of the format that carries it, within 1/473 of the reciprocal. -/
theorem recipApprox_accurate {fmt : Fmt} {free m : Nat} {neg : Bool} {e : Int} {d : Delivered} (hp : 9 ≤ fmt.p) (h0 : m ≠ 0)
    (hm : m < 2 ^ fmt.p) (h : recipApprox fmt free neg m e = some d) :
    ∃ r k, d = .rounded neg r k ∧ fmt.emin ≤ r ∧ r ≤ fmt.emax ∧ 2 ^ (fmt.p - 1) ≤ k ∧ k < 2 ^ fmt.p ∧
      |(k * 2 ^ (r - ((fmt.p : Int) - 1)) : ℚ) * (m * 2 ^ e) - 1| ≤ 1 / 473 := by
  unfold recipApprox at h
  dsimp only at h
  split_ifs at h with hrange
  obtain ⟨hmin, hmax⟩ := hrange
  obtain ⟨hlog, hge, hlt⟩ := shiftLeft_log2_bounds h0 hm
  obtain ⟨hkge, hklt, hlo, hhi⟩ := boundedRecipSig_bounds free hp hge hlt
  refine ⟨_, _, (Option.some.inj h).symm, hmin, hmax, hkge, hklt, ?_⟩
  convert abs_mul_sub_one_le hlo hhi using 3
  rw [Nat.shiftLeft_eq, Nat.cast_mul, Nat.cast_pow, Nat.cast_ofNat, eq_div_iff (by positivity)]
  have hexp : (2 : ℚ) ^ (-((m.log2 : Int) + e) - 1 - ((fmt.p : Int) - 1)) * 2 ^ e * 2 ^ (2 * fmt.p - 1) =
      2 ^ (fmt.p - 1 - m.log2) := by
    rw [← zpow_natCast, ← zpow_natCast, ← zpow_add₀ two_ne_zero, ← zpow_add₀ two_ne_zero]
    congr 1
    omega
  rw [← hexp]
  ring

/-- The sign of the divisor cancels. -/
theorem signRat_mul_self (neg : Bool) : signRat neg * signRat neg = 1 := by
  cases neg <;> norm_num [signRat]

/-- `frcpa`'s approximation against its divisor. -/
theorem recipApprox_reg {x : Flt} {neg : Bool} {m : Nat} {e : Int} {free : Nat} {d : Delivered}
    (hx : classifyReg x = .num (.fin neg m e)) (h0 : m ≠ 0) (h : recipApprox fmtRegister free neg m e = some d) :
    |regValue (encodeReg fmtRegister d) * regValue x - 1| ≤ 1 / 473 := by
  have hm : m < 2 ^ 64 := classifyReg_fin_mag hx ▸ x.sig.isLt
  obtain ⟨-, -, hvalue⟩ := classifyReg_finite hx
  obtain ⟨r, k, rfl, hmin, hmax, hge, hlt, hacc⟩ := recipApprox_accurate (fmt := fmtRegister) (by decide) h0 hm h
  obtain ⟨-, -, himage⟩ := encodeReg_rounded neg (by decide) hmin hmax hge hlt
  rw [himage, hvalue]
  convert hacc using 3
  linear_combination (k * 2 ^ (r - ((fmtRegister.p : Int) - 1)) * (m * 2 ^ e) : ℚ) * signRat_mul_self neg

/-- The same of an element of `fprcpa`. -/
theorem recipApprox_elem {x : Elem} {neg : Bool} {m : Nat} {e : Int} {free : Nat} {d : Delivered}
    (hx : classifyElem x = .num (.fin neg m e)) (h0 : m ≠ 0) (h : recipApprox fmtSingle free neg m e = some d) :
    |elemValue (encodeElem d) * elemValue x - 1| ≤ 1 / 473 := by
  have hm : m < 2 ^ 24 := by
    have hfrac := (x.extractLsb' 0 23).isLt
    obtain ⟨-, hmag, -⟩ | ⟨-, hmag⟩ := classifyElem_fin_mag hx <;> omega
  obtain ⟨-, -, hvalue⟩ := classifyElem_finite hx
  obtain ⟨r, k, rfl, hmin, hmax, hge, hlt, hacc⟩ := recipApprox_accurate (fmt := fmtSingle) (by decide) h0 hm h
  obtain ⟨-, -, (himage : _ = signRat neg * k * 2 ^ (r - ((fmtSingle.p : Int) - 1)))⟩ :=
    encodeElem_rounded neg hmin hmax hge hlt
  rw [himage, hvalue]
  convert hacc using 3
  linear_combination (k * 2 ^ (r - ((fmtSingle.p : Int) - 1)) * (m * 2 ^ e) : ℚ) * signRat_mul_self neg

end Sys2Proof.Machine
end

section
/-! Roots, and what an approximation instruction makes of finite operands (R91 to R94): a Software Assist fault, an approximation,
or the outcome of the stage on the exact result. -/

namespace Sys2Proof.Machine

section
variable {α : Type} {C : Carrier α} {env : StageEnv} {fr : HelperFree} {approx x3 : α} {den : Bool} {b : Numeric}

/-! Roots: the cases of IEEE 754 (R93). -/

theorem rootElem_of_num (h3 : C.classify x3 = .num b) :
    rootElem C env fr approx x3 = rootNum C env fr approx (C.unnormal x3) b := by
  simp [rootElem, propagate, chooseNaN, Operand.isNaN, h3]

theorem rootNum_of_invalid (h : invalidRoot b = true) : rootNum C env fr approx den b = invalidResult C := by
  obtain ⟨hneg, hzero⟩ := (Bool.and_eq_true ..).mp h
  cases b with
  | inf s => exact if_pos hneg
  | fin s m e => exact (if_neg (by simpa [Numeric.isZero] using hzero)).trans (if_pos hneg)

/-- A special root passes the stage as it is. -/
theorem rootNum_of_special {d : Delivered} (h : specialRoot b = some d) :
    rootNum C env fr approx den b = ⟨C.encode d, { signals := { d := den } }⟩ := by
  cases b with
  | inf s =>
    rw [specialRoot] at h
    split_ifs at h with hs
    cases h
    exact if_neg hs
  | fin s m e =>
    rw [specialRoot] at h
    split_ifs at h with hm
    cases h
    exact if_pos hm

theorem rootElem_of_unsupported (h : C.classify x3 = .unsupported) : rootElem C env fr approx x3 = invalidResult C := by
  simp [rootElem, propagate, chooseNaN, Operand.isNaN, h]

end

/-- What an approximation instruction makes of an operand, or a pair, whose exact result `p` is finite and not zero: `den` says
that an operand is denormal, `near` that a value approximates. -/
inductive HelperResult {α : Type} (C : Carrier α) (env : StageEnv) (p : Precise) (den : Bool) (near : α → Prop) :
    ElemResult α → Prop
  | swaFault (x : α) : HelperResult C env p den near ⟨x, { signals := { swa := true } }⟩
  | approximation (x : α) (h : near x) : HelperResult C env p den near ⟨x, { signals := { d := den }, approx := true }⟩
  | stage : HelperResult C env p den near (stageResult C env den false p)

section
variable {α : Type} {C A : Carrier α} {env : StageEnv} {fr : HelperFree} {den : Bool}

theorem recipNum_helper {near : α → Prop} {a b : Bool} {m n : Nat} {e f : Int} (hm : m ≠ 0) (hn : n ≠ 0)
    (hnear : ∀ d, recipApprox A.fmt fr.sig b n f = some d → near (A.encode d)) :
    HelperResult C env (.value (a ^^ b) (.ratio m n (e - f))) den near
      (recipNum C A env fr den (.fin a m e) (.fin b n f)) := by
  rw [recipNum, if_neg hn, if_neg hm, recipFinite]
  cases fr.swaFault with
  | true => exact .swaFault _
  | false =>
    cases fr.special with
    | true => exact .stage
    | false =>
      rw [if_neg Bool.false_ne_true, if_neg Bool.false_ne_true]
      cases hd : recipApprox A.fmt fr.sig b n f with
      | none => exact .stage
      | some d => exact .approximation _ (hnear d hd)

theorem rootNum_helper {near : α → Prop} {approx : α} {m : Nat} {e : Int} (hm : m ≠ 0) (hnear : near approx) :
    HelperResult C env (.value false (.root m e)) den near (rootNum C env fr approx den (.fin false m e)) := by
  rw [rootNum, if_neg hm, if_neg Bool.false_ne_true]
  split_ifs
  · exact .swaFault _
  · exact .stage
  · exact .approximation _ hnear

end

/-! How a normal operation with such a result completes. -/

section
variable {s : State} {sf : SfNum} {f1 : RegNum} {p2 : PredNum} {C : Carrier Flt} {env : StageEnv} {p : Precise} {den : Bool}
  {near : Flt → Prop} {r : ElemResult Flt}

theorem State.finishNormal_helper (h : HelperResult C env p den near r) (h0 : f1 ≠ 0) (h1 : f1 ≠ 1) :
    ∃ t, s.finishNormal sf f1 (some p2) r = .next t ∧
      ((faultedFrom s t ∧ faultReport t.isr 0 { swa := true }) ∨
       (faultedFrom s t ∧ faultReport t.isr 0 { d := true } ∧ s.denormalStops sf den = true) ∨
       (s.denormalStops sf den = false ∧ t.signaled = { d := den } ∧
         ((t.handler = s.handler ∧ t.fpsr = orBit s.fpsr (sfBase sf + 8) den ∧ t.readP p2 = true ∧ near (t.readF f1)) ∨
          ((p2 ≠ 0 → t.readP p2 = false) ∧ t.readF f1 = C.encode (fpStage env p).dest ∧ stageEnds s t sf (fpStage env p) ∧
            sfBit t.fpsr sf 8 = (sfBit s.fpsr sf 8 || den))))) := by
  have hstop (hsg : r.report.signals = { d := den }) (hs : s.denormalStops sf den = true) :
      ∃ t, s.finishNormal sf f1 (some p2) r = .next t ∧ faultedFrom s t ∧ faultReport t.isr 0 { d := true } :=
    State.finishNormal_denormalFault hsg hs
  cases h with
  | swaFault x =>
    obtain ⟨t, ht, hfault⟩ := State.finishNormal_swaFault (s := s) (sf := sf) (f1 := f1) (p2 := some p2)
      (r := ⟨x, { signals := { swa := true } }⟩) rfl
    exact ⟨t, ht, .inl hfault⟩
  | approximation x hx =>
    cases hs : s.denormalStops sf den with
    | true =>
      obtain ⟨t, ht, hfault, hreport⟩ := hstop rfl hs
      exact ⟨t, ht, .inr (.inl ⟨hfault, hreport, rfl⟩)⟩
    | false =>
      obtain ⟨t, ht, hsg, hh, hfpsr, hp, hvalue⟩ := State.finishNormal_approx (p2 := p2) (x := x) h0 h1 hs
      exact ⟨t, ht, .inr (.inr ⟨rfl, hsg, .inl ⟨hh, hfpsr, hp, hvalue ▸ hx⟩⟩)⟩
  | stage =>
    cases hs : s.denormalStops sf den with
    | true =>
      obtain ⟨t, ht, hfault, hreport⟩ := hstop rfl hs
      exact ⟨t, ht, .inr (.inl ⟨hfault, hreport, rfl⟩)⟩
    | false =>
      obtain ⟨t, ht, hsg, hp, hvalue, hends, hflag⟩ := State.finishNormal_stage (p2 := some p2) (C := C) (env := env) (p := p)
        h0 h1 hs
      exact ⟨t, ht, .inr (.inr ⟨rfl, hsg, .inr ⟨hp p2 rfl, hvalue, hends, hflag⟩⟩)⟩

end

/-! How a Parallel-FP operation with such results completes. -/

section
variable {s t : State} {sf : SfNum} {f1 : RegNum} {env : StageEnv} {p : Precise} {den : Bool} {near : Elem → Prop}
  {r o : ElemResult Elem} {pick : Flt → Elem} {lane : Nat}

/-- One element: its own fault, the other element's, or its value. -/
theorem lane_of_helper (h : HelperResult elemCarrier env p den near r)
    (hlane : LaneFaults s t sf lane r.report.signals o.report.signals ∨ LaneDelivers s t sf f1 pick lane r o) :
    (faultedFrom s t ∧ elementFaultKinds s t sf lane den) ∨
      (s.denormalStops sf den = false ∧ (den = true → denormalRecorded t sf) ∧
        (near (pick (t.readF f1)) ∨ pick (t.readF f1) = encodeElem (fpStage env p).dest)) := by
  have hdenormal (hsg : r.report.signals = { d := den })
      (hfault : LaneFaults s t sf lane r.report.signals o.report.signals) :
      faultedFrom s t ∧ elementFaultKinds s t sf lane den := by
    rw [hsg] at hfault
    obtain ⟨hfaulted, hkinds⟩ := hfault.elementStops
    exact ⟨hfaulted, .inr hkinds⟩
  have hgoes (hsg : r.report.signals = { d := den }) (hdone : LaneDelivers s t sf f1 pick lane r o) :
      s.denormalStops sf den = false ∧ (den = true → denormalRecorded t sf) ∧ pick (t.readF f1) = r.value := by
    obtain ⟨hgo, -, hvalue, -, hrecorded, -⟩ := hdone
    rw [hsg] at hgo hrecorded
    exact ⟨(any_denormal ..).symm.trans hgo, hrecorded, hvalue⟩
  cases h with
  | swaFault x =>
    obtain ⟨hfaulted, hreport, -⟩ | ⟨hgo, -⟩ := hlane
    · exact .inl ⟨hfaulted, .inl hreport⟩
    · cases hgo
  | approximation x hx =>
    obtain hfault | hdone := hlane
    · exact .inl (hdenormal rfl hfault)
    · obtain ⟨hgo, hrecorded, hvalue⟩ := hgoes rfl hdone
      exact .inr ⟨hgo, hrecorded, .inl (hvalue ▸ hx)⟩
  | stage =>
    obtain hfault | hdone := hlane
    · exact .inl (hdenormal rfl hfault)
    · obtain ⟨hgo, hrecorded, hvalue⟩ := hgoes rfl hdone
      exact .inr ⟨hgo, hrecorded, .inr hvalue⟩

end

end Sys2Proof.Machine
end

section
/-! The approximation instructions on finite operands (R91 to R94), and how two elements end together (R65). -/

namespace Sys2Proof.Machine

/-! How each approximation instruction completes. -/

section
variable {s : State} {a : F6Fields} {pick other : Flt → Elem} {lane : Nat} {x2 x3 : Numeric}

/-- `frcpa` on two numbers completes with their quotient or its approximation, under some free values. -/
theorem exec_frcpa_of_num (hready : s.ready (.frcpa a) = true) (h2 : classifyReg (s.readF a.f2) = .num x2)
    (h3 : classifyReg (s.readF a.f3) = .num x3) :
    ∃ fr, exec (.frcpa a) s = s.finishNormal a.sf a.f1 (some a.p2)
      (recipNum (regCarrier (s.destFmt none a.sf)) (regCarrier fmtRegister) (s.stageEnv a.sf (s.destFmt none a.sf) .quotient 0)
        fr (unnormalReg (s.readF a.f2) || unnormalReg (s.readF a.f3)) x2 x3) := by
  have hnat : s.noNaT (.frcpa a) = true := by
    refine State.noNaT_of_classify fun n hn => ?_
    obtain rfl | rfl : n = a.f2 ∨ n = a.f3 := by simpa [Instr.sources] using hn
    · simp [h2]
    · simp [h3]
  exact ⟨_, (State.completion_reached hready hnat _).trans
    (congrArg (s.finishNormal a.sf a.f1 (some a.p2)) (recipElem_of_num (C := regCarrier (s.destFmt none a.sf)) h2 h3))⟩

theorem exec_fprcpa (hready : s.ready (.fprcpa a) = true) (hnat : s.noNaT (.fprcpa a) = true) :
    exec (.fprcpa a) s =
      s.finishParallel a.sf a.f1 (some a.p2) (s.recipLane highElem 1 a) (s.recipLane lowElem 0 a) :=
  State.completion_reached hready hnat _

theorem exec_fprcpa_lane (hready : s.ready (.fprcpa a) = true) (hnat : s.noNaT (.fprcpa a) = true)
    (hl : isLane pick lane) (ho : isLane other (1 - lane)) :
    ∃ t, exec (.fprcpa a) s = .next t ∧
      (LaneFaults s t a.sf lane (s.recipLane pick lane a).report.signals (s.recipLane other (1 - lane) a).report.signals ∨
        LaneDelivers s t a.sf a.f1 pick lane (s.recipLane pick lane a) (s.recipLane other (1 - lane) a)) := by
  obtain ⟨h0, h1⟩ := State.ready_dest hready
  rw [exec_fprcpa hready hnat]
  exact State.finishParallel_isLane (f := fun pick lane => s.recipLane pick lane a) h0 h1 hl ho

theorem State.recipLane_of_num (lane : Nat) (h2 : classifyElem (pick (s.readF a.f2)) = .num x2)
    (h3 : classifyElem (pick (s.readF a.f3)) = .num x3) :
    ∃ fr, s.recipLane pick lane a = recipNum elemCarrier elemCarrier (s.stageEnv a.sf fmtSingle .quotient lane) fr
      (unnormalElem (pick (s.readF a.f2)) || unnormalElem (pick (s.readF a.f3))) x2 x3 :=
  ⟨_, recipElem_of_num (C := elemCarrier) h2 h3⟩

end

section
variable {s : State} {a : F7Fields} {pick other : Flt → Elem} {lane : Nat} {x3 : Numeric}

/-- `frsqrta` on a number completes with its root or the approximation of it, under some free values. -/
theorem exec_frsqrta_of_num (hready : s.ready (.frsqrta a) = true) (h3 : classifyReg (s.readF a.f3) = .num x3) :
    ∃ fr, exec (.frsqrta a) s = s.finishNormal a.sf a.f1 (some a.p2)
      (rootNum (regCarrier (s.destFmt none a.sf)) (s.stageEnv a.sf (s.destFmt none a.sf) .root 0) fr
        (Config.rootApprox (s.readF a.f3)) (unnormalReg (s.readF a.f3)) x3) := by
  have hnat : s.noNaT (.frsqrta a) = true := by
    refine State.noNaT_of_classify fun n hn => ?_
    obtain rfl : n = a.f3 := by simpa [Instr.sources] using hn
    simp [h3]
  exact ⟨_, (State.completion_reached hready hnat _).trans
    (congrArg (s.finishNormal a.sf a.f1 (some a.p2)) (rootElem_of_num (C := regCarrier (s.destFmt none a.sf)) h3))⟩

theorem exec_fprsqrta (hready : s.ready (.fprsqrta a) = true) (hnat : s.noNaT (.fprsqrta a) = true) :
    exec (.fprsqrta a) s =
      s.finishParallel a.sf a.f1 (some a.p2) (s.rootLane highElem 1 a) (s.rootLane lowElem 0 a) :=
  State.completion_reached hready hnat _

theorem exec_fprsqrta_lane (hready : s.ready (.fprsqrta a) = true) (hnat : s.noNaT (.fprsqrta a) = true)
    (hl : isLane pick lane) (ho : isLane other (1 - lane)) :
    ∃ t, exec (.fprsqrta a) s = .next t ∧
      (LaneFaults s t a.sf lane (s.rootLane pick lane a).report.signals (s.rootLane other (1 - lane) a).report.signals ∨
        LaneDelivers s t a.sf a.f1 pick lane (s.rootLane pick lane a) (s.rootLane other (1 - lane) a)) := by
  obtain ⟨h0, h1⟩ := State.ready_dest hready
  rw [exec_fprsqrta hready hnat]
  exact State.finishParallel_isLane (f := fun pick lane => s.rootLane pick lane a) h0 h1 hl ho

theorem State.rootLane_of_num (lane : Nat) (h3 : classifyElem (pick (s.readF a.f3)) = .num x3) :
    ∃ fr, s.rootLane pick lane a = rootNum elemCarrier (s.stageEnv a.sf fmtSingle .root lane) fr
      (Config.elemRootApprox (pick (s.readF a.f3))) (unnormalElem (pick (s.readF a.f3))) x3 :=
  ⟨_, rootElem_of_num (C := elemCarrier) h3⟩

end

/-- Settles O29: a finite non-zero pair meets a Software Assist fault, the approximation of `recipApprox`, or the stage. -/
theorem frcpaOutcomes : Obligations.FrcpaOutcomes := by
  unfold Obligations.FrcpaOutcomes
  rintro a s n2 n3 m2 m3 e2 e3 den o hready hhandler h2 hm2 h3 hm3 rfl rfl
  obtain ⟨h0, h1⟩ := State.ready_dest hready
  obtain ⟨fr, hexec⟩ := exec_frcpa_of_num hready h2 h3
  obtain ⟨t, ht, hdone⟩ := State.finishNormal_helper (s := s) (sf := a.sf) (p2 := a.p2)
    (recipNum_helper (C := regCarrier (s.destFmt none a.sf)) (A := regCarrier fmtRegister) (fr := fr)
      (env := s.stageEnv a.sf (s.destFmt none a.sf) .quotient 0) (a := n2) (b := n3) (e := e2) (f := e3)
      (den := unnormalReg (s.readF a.f2) || unnormalReg (s.readF a.f3))
      (near := fun x => |regValue x * regValue (s.readF a.f3) - 1| ≤ 1 / 473) hm2 hm3
      fun d hd => recipApprox_reg h3 hm3 hd) h0 h1
  rw [hhandler] at hdone
  exact ⟨t, hexec.trans ht, hdone⟩

/-- Settles O36: a finite positive operand meets a Software Assist fault, the approximation, or the stage; a negative one is
invalid. -/
theorem frsqrtaOutcomes : Obligations.FrsqrtaOutcomes := by
  unfold Obligations.FrsqrtaOutcomes
  rintro a s neg m e den o hready hhandler h3 hm rfl rfl
  obtain ⟨h0, h1⟩ := State.ready_dest hready
  obtain ⟨fr, hexec⟩ := exec_frsqrta_of_num hready h3
  cases neg with
  | false =>
    obtain ⟨t, ht, hdone⟩ := State.finishNormal_helper (s := s) (sf := a.sf) (p2 := a.p2)
      (rootNum_helper (C := regCarrier (s.destFmt none a.sf)) (fr := fr) (e := e) (approx := Config.rootApprox (s.readF a.f3))
        (env := s.stageEnv a.sf (s.destFmt none a.sf) .root 0) (den := unnormalReg (s.readF a.f3))
        (near := fun x => x = Config.rootApprox (s.readF a.f3)) hm rfl) h0 h1
    rw [hhandler] at hdone
    exact ⟨t, hexec.trans ht, fun _ => hdone, nofun, nofun⟩
  | true =>
    rw [rootNum_of_invalid (b := .fin true m e) (by simpa [invalidRoot, Numeric.isNeg, Numeric.isZero] using hm)] at hexec
    obtain ⟨t, ht, hfault, hnan⟩ := State.finishNormal_invalidResult (s := s) (sf := a.sf) (p2 := some a.p2)
      (fmt := s.destFmt none a.sf) h0 h1
    refine ⟨t, hexec.trans ht, nofun, fun _ => hfault, fun _ hen => ?_⟩
    obtain ⟨hh, hsg, hclass, -, hpred⟩ := hnan hen
    exact ⟨hh.trans hhandler, by rw [hsg], by rw [hsg], hclass, hpred _ rfl⟩

end Sys2Proof.Machine
end

section
/-! Special operands of the approximation instructions (R91 to R94): zeros, infinities, zero divisors, invalid pairs. -/

namespace Sys2Proof.Machine

/-! A special quotient, and a special root, is an infinity or a zero, which has one image in every format. -/

theorem specialQuotient_cases {x2 x3 : Numeric} {d : Delivered} (h : specialQuotient x2 x3 = some d) :
    ∃ n, d = .infinity n ∨ d = .zero n := by
  cases x2 with
  | inf a =>
    cases x3 with
    | inf b => cases h
    | fin b n f => exact ⟨_, .inl (Option.some.inj h).symm⟩
  | fin a m e =>
    cases x3 with
    | inf b => exact ⟨_, .inr (Option.some.inj h).symm⟩
    | fin b n f =>
      rw [specialQuotient] at h
      split_ifs at h
      exact ⟨_, .inr (Option.some.inj h).symm⟩

theorem specialRoot_cases {x3 : Numeric} {d : Delivered} (h : specialRoot x3 = some d) :
    ∃ n, d = .infinity n ∨ d = .zero n := by
  cases x3 with
  | inf a =>
    rw [specialRoot] at h
    split_ifs at h
    exact ⟨_, .inl (Option.some.inj h).symm⟩
  | fin a m e =>
    rw [specialRoot] at h
    split_ifs at h
    exact ⟨_, .inr (Option.some.inj h).symm⟩

theorem encodeReg_of_special {d : Delivered} (fmt : Fmt) (h : ∃ n, d = .infinity n ∨ d = .zero n) :
    encodeReg fmt d = encodeReg fmtRegister d := by
  obtain ⟨n, rfl | rfl⟩ := h <;> rfl

/-- The operand of a special root is not unnormal: its encoding is that of a zero or an infinity. -/
theorem unnormalReg_of_specialRoot {r : Flt} {x3 : Numeric} {d : Delivered} (hx : classifyReg r = .num x3)
    (h : specialRoot x3 = some d) : unnormalReg r = false := by
  cases x3 with
  | inf a => exact unnormalReg_of_inf hx
  | fin a m e =>
    rw [specialRoot] at h
    split_ifs at h with hm
    subst hm
    exact unnormalReg_of_zero hx

theorem unnormalElem_of_specialRoot {x : Elem} {x3 : Numeric} {d : Delivered} (hx : classifyElem x = .num x3)
    (h : specialRoot x3 = some d) : unnormalElem x = false := by
  cases x3 with
  | inf a => exact unnormalElem_of_inf hx
  | fin a m e =>
    rw [specialRoot] at h
    split_ifs at h with hm
    subst hm
    exact unnormalElem_of_zero hx

section
variable {s : State} {pick : Flt → Elem} {x2 x3 : Numeric} {d : Delivered}

theorem State.recipLane_of_special {a : F6Fields} (lane : Nat) (h2 : classifyElem (pick (s.readF a.f2)) = .num x2)
    (h3 : classifyElem (pick (s.readF a.f3)) = .num x3) (h : specialQuotient x2 x3 = some d) :
    s.recipLane pick lane a = ⟨encodeElem d,
      { signals := { d := unnormalElem (pick (s.readF a.f2)) || unnormalElem (pick (s.readF a.f3)) } }⟩ := by
  obtain ⟨fr, hr⟩ := State.recipLane_of_num lane h2 h3
  exact hr.trans (recipNum_of_special h)

theorem State.rootLane_of_special {a : F7Fields} (lane : Nat) (h3 : classifyElem (pick (s.readF a.f3)) = .num x3)
    (h : specialRoot x3 = some d) : s.rootLane pick lane a = ⟨encodeElem d, {}⟩ := by
  obtain ⟨fr, hr⟩ := State.rootLane_of_num lane h3
  rw [hr, rootNum_of_special h, unnormalElem_of_specialRoot h3 h]
  rfl

end

/-- Settles O30: a special quotient passes the stage as it is, with a denormal operand signaled at most. -/
theorem reciprocalSpecialCases : Obligations.ReciprocalSpecialCases := by
  unfold Obligations.ReciprocalSpecialCases
  refine ⟨?_, ?_, ?_⟩
  · rintro a s x2 x3 d den hready h2 h3 hd rfl
    obtain ⟨fr, hexec⟩ := exec_frcpa_of_num hready h2 h3
    rw [recipNum_of_special hd] at hexec
    refine ⟨fun hs => hexec.trans (State.finishNormal_of_denormalStops rfl hs), fun hs => ?_⟩
    rw [← encodeReg_of_special (s.destFmt none a.sf) (specialQuotient_cases hd)]
    exact hexec.trans (State.finishNormal_value_pred_denormal hs)
  · rintro a s h2 h3 l2 l3 qh ql dh dl hready hnat hh2 hh3 hl2 hl3 hqh hql rfl rfl
    have hexec := exec_fprcpa hready hnat
    rw [State.recipLane_of_special 1 hh2 hh3 hqh, State.recipLane_of_special 0 hl2 hl3 hql] at hexec
    exact ⟨fun hs => hexec.trans (State.finishParallel_of_denormalStops rfl rfl hs),
      fun hs => hexec.trans (State.finishParallel_value_pred hs)⟩
  · rintro a s pick lane x2 x3 d den hpick hready hnat h2 h3 hd rfl
    obtain ⟨other, hother⟩ := hpick.exists_other
    obtain ⟨t, ht, hlane⟩ := exec_fprcpa_lane hready hnat hpick hother
    rw [State.recipLane_of_special lane h2 h3 hd] at hlane
    obtain hfault | ⟨hgo, -, hvalue, -, hrecorded, -⟩ := hlane
    · exact ⟨t, ht, .inl hfault.elementStops⟩
    · exact ⟨t, ht, .inr ⟨(any_denormal ..).symm.trans hgo, hvalue, hrecorded⟩⟩

/-- Settles O35: a special root passes the stage as it is, and its operand signals nothing. -/
theorem rootSpecialCases : Obligations.RootSpecialCases := by
  unfold Obligations.RootSpecialCases
  refine ⟨?_, ?_, ?_⟩
  · intro a s x3 d hready h3 hd
    obtain ⟨fr, hexec⟩ := exec_frsqrta_of_num hready h3
    rw [rootNum_of_special hd, unnormalReg_of_specialRoot h3 hd] at hexec
    rw [← encodeReg_of_special (s.destFmt none a.sf) (specialRoot_cases hd)]
    exact hexec.trans (State.finishNormal_value_pred ..)
  · intro a s h3 l3 dh dl hready hnat hh hl hdh hdl
    rw [exec_fprsqrta hready hnat, State.rootLane_of_special 1 hh hdh, State.rootLane_of_special 0 hl hdl,
      State.finishParallel_value_pred (dh := false) (dl := false) rfl]
    simp only [State.writeOptP, State.writeP_fpsr]
    rfl
  · intro a s pick lane x3 d hpick hready hnat h3 hd
    obtain ⟨other, hother⟩ := hpick.exists_other
    obtain ⟨t, ht, hlane⟩ := exec_fprsqrta_lane hready hnat hpick hother
    rw [State.rootLane_of_special lane h3 hd] at hlane
    obtain hfault | ⟨-, -, hvalue, -⟩ := hlane
    · exact ⟨t, ht, .inl (hfault.elementStops (den := false))⟩
    · exact ⟨t, ht, .inr hvalue⟩

end Sys2Proof.Machine
end

section
/-! Invalid operands and zero divisors of the approximation instructions (R91 to R94): the fault if it is enabled, else the
special result. -/

namespace Sys2Proof.Machine

variable {s t : State} {sf : SfNum} {f1 : RegNum} {p2 : Option PredNum} {pick other : Flt → Elem} {lane : Nat}

section
variable {isr : BitVec 64} {c : Controls} {g : Signals}

/-- With one kind of fault disabled, an element that faults does so for another kind. -/
theorem faultBit_of_not_invEn (h : faultReport isr lane (enabledSignals c g)) (hany : (enabledSignals c g).any = true)
    (hen : c.invEn = false) :
    isr.getLsbD (laneFaultBit lane 1) = true ∨ isr.getLsbD (laneFaultBit lane 2) = true ∨
      isr.getLsbD (laneFaultBit lane 3) = true := by
  obtain ⟨-, hd, hz, hswa⟩ := h
  rw [hd, hz, hswa]
  simpa [Signals.any, enabledSignals, hen, or_assoc] using hany

theorem faultBit_of_not_zdvEn (h : faultReport isr lane (enabledSignals c g)) (hany : (enabledSignals c g).any = true)
    (hen : c.zdvEn = false) :
    isr.getLsbD (laneFaultBit lane 0) = true ∨ isr.getLsbD (laneFaultBit lane 1) = true ∨
      isr.getLsbD (laneFaultBit lane 3) = true := by
  obtain ⟨hv, hd, -, hswa⟩ := h
  rw [hv, hd, hswa]
  simpa [Signals.any, enabledSignals, hen, or_assoc] using hany

end

/-! Invalid operands. -/

/-- `frcpa` and `frsqrta` on invalid operands, or on a register without a value, complete with the default NaN. -/
theorem exec_approx_of_invalid {i : Instr} (hready : s.ready i = true) (hnat : s.noNaT i = true)
    (h : (∃ a x2 x3, i = .frcpa a ∧ classifyReg (s.readF a.f2) = .num x2 ∧ classifyReg (s.readF a.f3) = .num x3 ∧
        invalidQuotient x2 x3 = true) ∨
      (∃ a x3, i = .frsqrta a ∧ classifyReg (s.readF a.f3) = .num x3 ∧ invalidRoot x3 = true) ∨
      (((∃ a, i = .frcpa a) ∨ ∃ a, i = .frsqrta a) ∧ s.valuelessOperand i)) :
    ∃ fmt, exec i s = s.finishNormal i.sf i.dest i.pred (invalidResult (regCarrier fmt)) := by
  have hcomplete {r r' : ElemResult Flt} (hr : r = r') :=
    (State.completion_reached hready hnat _).trans (congrArg (s.finishNormal i.sf i.dest i.pred) hr)
  obtain ⟨a, x2, x3, rfl, h2, h3, hinv⟩ | ⟨a, x3, rfl, h3, hinv⟩ | ⟨⟨a, rfl⟩ | ⟨a, rfl⟩, -, hun, hnan⟩ := h
  · refine ⟨s.destFmt none a.sf, hcomplete (r := s.recipResult a) ?_⟩
    exact (recipElem_of_num (C := regCarrier (s.destFmt none a.sf)) h2 h3).trans (recipNum_of_invalid hinv)
  · refine ⟨s.destFmt none a.sf, hcomplete (r := s.rootResult a) ?_⟩
    exact (rootElem_of_num (C := regCarrier (s.destFmt none a.sf)) h3).trans (rootNum_of_invalid hinv)
  · refine ⟨s.destFmt none a.sf, hcomplete (r := s.recipResult a) ?_⟩
    obtain ⟨n, hn, hun⟩ := hun
    have hno : ∀ x ∈ [s.readF a.f2, s.readF a.f3], (classifyReg x).isNaN = false := by simpa [Instr.sources] using hnan
    exact recipElem_of_unsupported (C := regCarrier (s.destFmt none a.sf)) hno ⟨s.readF n, List.mem_map_of_mem hn, hun⟩
  · refine ⟨s.destFmt none a.sf, hcomplete (r := s.rootResult a) ?_⟩
    obtain ⟨n, hn, hun⟩ := hun
    obtain rfl : n = a.f3 := by simpa [Instr.sources] using hn
    exact rootElem_of_unsupported (C := regCarrier (s.destFmt none a.sf)) hun

/-- `fprcpa` and `fprsqrta` on an invalid element, as that element sees it. -/
theorem exec_parallelApprox_of_invalid {i : Instr} (hpick : isLane pick lane) (hready : s.ready i = true)
    (hnat : s.noNaT i = true)
    (h : (∃ a x2 x3, i = .fprcpa a ∧ classifyElem (pick (s.readF a.f2)) = .num x2 ∧
        classifyElem (pick (s.readF a.f3)) = .num x3 ∧ invalidQuotient x2 x3 = true) ∨
      (∃ a x3, i = .fprsqrta a ∧ classifyElem (pick (s.readF a.f3)) = .num x3 ∧ invalidRoot x3 = true)) :
    ∃ t o, exec i s = .next t ∧
      (LaneFaults s t i.sf lane (invalidResult elemCarrier).report.signals o.report.signals ∨
        LaneDelivers s t i.sf i.dest pick lane (invalidResult elemCarrier) o) := by
  obtain ⟨other, hother⟩ := hpick.exists_other
  obtain ⟨a, x2, x3, rfl, h2, h3, hinv⟩ | ⟨a, x3, rfl, h3, hinv⟩ := h
  · obtain ⟨t, ht, hlane⟩ := exec_fprcpa_lane hready hnat hpick hother
    obtain ⟨fr, hr⟩ := State.recipLane_of_num (s := s) (a := a) lane h2 h3
    rw [hr, recipNum_of_invalid hinv] at hlane
    exact ⟨t, _, ht, hlane⟩
  · obtain ⟨t, ht, hlane⟩ := exec_fprsqrta_lane hready hnat hpick hother
    obtain ⟨fr, hr⟩ := State.rootLane_of_num (s := s) (a := a) lane h3
    rw [hr, rootNum_of_invalid hinv] at hlane
    exact ⟨t, _, ht, hlane⟩

/-- Settles O31: invalid operands give the result of an invalid operation, which signals nothing else. -/
theorem approxInvalidOperation : Obligations.ApproxInvalidOperation := by
  unfold Obligations.ApproxInvalidOperation
  constructor
  · intro i s hready hnat hhandler hi
    obtain ⟨h0, h1⟩ := State.ready_dest hready
    obtain ⟨fmt, hexec⟩ := exec_approx_of_invalid hready hnat hi
    obtain ⟨t, ht, hfault, hnan⟩ :=
      State.finishNormal_invalidResult (s := s) (sf := i.sf) (p2 := i.pred) (fmt := fmt) h0 h1
    refine ⟨fun hen => ⟨t, hexec.trans ht, hfault hen⟩, fun hen => ?_⟩
    obtain ⟨hh, hsg, hclass, hflags, hpred⟩ := hnan hen
    exact ⟨t, hexec.trans ht, hh.trans hhandler, by rw [hsg], by rw [hsg], hclass, hflags, hpred⟩
  · intro i s pick lane hpick hready hnat hi
    obtain ⟨t, o, ht, hlane⟩ := exec_parallelApprox_of_invalid hpick hready hnat hi
    obtain ⟨hfault, hnan⟩ := lane_of_invalidResult hlane
    refine ⟨fun hen => ⟨t, ht, hfault hen⟩, fun hen => ⟨t, ht, ?_⟩⟩
    obtain ⟨hfaulted, hd, hany, hreport⟩ | hvalue := hnan hen
    · exact .inl ⟨hfaulted, hd, faultBit_of_not_invEn hreport hany hen⟩
    · exact .inr hvalue

/-! Zero divisors. -/

section
variable {x : Flt} {den : Bool}

/-- A zero divide stops for its own enabled fault, or for that of the denormal operand beside it. -/
theorem any_zeroDivide (den : Bool) :
    (enabledSignals (controlsOf s.fpsr sf) { d := den, z := true }).any =
      (s.denormalStops sf den || (controlsOf s.fpsr sf).zdvEn) := by
  simp [enabledSignals, Signals.any, State.denormalStops]

theorem State.finishStops_zeroDivide :
    s.finishStops sf { signals := { d := den, z := true } } none =
      (s.denormalStops sf den || (controlsOf s.fpsr sf).zdvEn) :=
  (Bool.or_false _).trans (any_zeroDivide den)

theorem State.finishNormal_zeroDivide_fault (h : (s.denormalStops sf den || (controlsOf s.fpsr sf).zdvEn) = true) :
    ∃ t, s.finishNormal sf f1 p2 ⟨x, { signals := { d := den, z := true } }⟩ = .next t ∧ faultedFrom s t ∧
      t.isr.getLsbD 2 = (controlsOf s.fpsr sf).zdvEn ∧ t.isr.getLsbD 1 = s.denormalStops sf den := by
  obtain ⟨-, hd, hz, -⟩ := faultReport_normal (Config.isrBits s.draws)
    (enabledSignals (controlsOf s.fpsr sf) { d := den, z := true })
  exact ⟨_, State.finish_stops (State.finishStops_zeroDivide.trans h), faultedFrom_interrupt .., hz, hd⟩

theorem State.finishNormal_zeroDivide_value (h0 : f1 ≠ 0) (h1 : f1 ≠ 1)
    (h : (s.denormalStops sf den || (controlsOf s.fpsr sf).zdvEn) = false) :
    ∃ t, s.finishNormal sf f1 p2 ⟨x, { signals := { d := den, z := true } }⟩ = .next t ∧ t.handler = s.handler ∧
      t.readF f1 = x ∧ (∀ p, p2 = some p → p ≠ 0 → t.readP p = false) ∧ sfBit t.fpsr sf 9 = true ∧
      t.signaled = { d := den, z := true } ∧ sfBit t.fpsr sf 8 = (sfBit s.fpsr sf 8 || den) := by
  obtain ⟨t, ht, hfpsr, hvalue, hsg, hpred, hh, -⟩ :=
    State.finish_delivers (p2 := p2) (x := x) (State.finishStops_zeroDivide.trans h) h0 h1
  refine ⟨t, ht, hh rfl, hvalue, hpred, ?_, hsg, ?_⟩
  · rw [hfpsr, State.commit_sfBit_z]
    exact Bool.or_true _
  · rw [hfpsr, State.commit_sfBit_d]
    rfl

end

/-- Without a fault, the zero divide of an element sets flag z and stays in the event record. -/
theorem LaneDelivers.zeroDivide_recorded {f : (Flt → Elem) → Nat → ElemResult Elem} (hl : isLane pick lane)
    (ho : isLane other (1 - lane)) (ht : s.finishParallel sf f1 p2 (f highElem 1) (f lowElem 0) = .next t) (h0 : f1 ≠ 0)
    (h1 : f1 ≠ 1) (h : LaneDelivers s t sf f1 pick lane (f pick lane) (f other (1 - lane)))
    (hz : (f pick lane).report.signals.z = true) : sfBit t.fpsr sf 9 = true ∧ t.signaled.z = true := by
  obtain ⟨hr, hq, -⟩ := h
  have hboth : s.finishStops sf (f lowElem 0).report (some (f highElem 1).report) = false ∧
      (allSignals (f lowElem 0).report (some (f highElem 1).report)).z = true := by
    obtain ⟨rfl, rfl⟩ | ⟨rfl, rfl⟩ := hl
    · obtain ⟨-, h⟩ | ⟨rfl, -⟩ := ho
      · cases h
      · exact ⟨by simp only [State.finishStops, hr]; exact hq, by simp [allSignals, Signals.or, hz]⟩
    · obtain ⟨rfl, -⟩ | ⟨-, h⟩ := ho
      · exact ⟨by simp only [State.finishStops, Option.map_some, Option.getD_some, hr, Bool.or_false]; exact hq,
          by simp [allSignals, Signals.or, hz]⟩
      · cases h
  obtain ⟨hs, hall⟩ := hboth
  obtain ⟨hfpsr, -, hsg, -⟩ := State.delivers_of_finish ht hs h0 h1
  refine ⟨?_, hsg ▸ hall⟩
  rw [hfpsr, State.commit_sfBit_z, hall, Bool.or_true]

/-- Settles O33: a zero divide signals Zero Divide, and a denormal dividend beside it, and delivers the infinity. -/
theorem frcpaZeroDivide : Obligations.FrcpaZeroDivide := by
  unfold Obligations.FrcpaZeroDivide
  constructor
  · rintro a s n2 n3 m2 e2 e3 den hready hhandler h2 hm rfl h3
    obtain ⟨h0, h1⟩ := State.ready_dest hready
    obtain ⟨fr, hexec⟩ := exec_frcpa_of_num hready h2 h3
    rw [recipNum_of_zeroDivide hm, unnormalReg_of_zero h3, Bool.or_false] at hexec
    refine ⟨fun hz => ?_, fun hz hd => ?_, fun hz hd => ?_⟩
    · obtain ⟨t, ht, hfault, hbitz, hbitd⟩ := State.finishNormal_zeroDivide_fault (by rw [hz, Bool.or_true])
      exact ⟨t, hexec.trans ht, hfault, hbitz.trans hz, hbitd⟩
    · obtain ⟨t, ht, hfault, hbitz, hbitd⟩ := State.finishNormal_zeroDivide_fault (by rw [hd, Bool.true_or])
      exact ⟨t, hexec.trans ht, hfault, hbitz.trans hz, hbitd.trans hd⟩
    · obtain ⟨t, ht, hh, hvalue, hpred, hflags⟩ := State.finishNormal_zeroDivide_value h0 h1 (by rw [hd, hz]; rfl)
      exact ⟨t, hexec.trans ht, hh.trans hhandler, hvalue, hpred _ rfl, hflags⟩
  · rintro a s pick lane n2 n3 m2 e2 e3 den hpick hready hnat h2 hm rfl h3
    obtain ⟨h0, h1⟩ := State.ready_dest hready
    obtain ⟨other, hother⟩ := hpick.exists_other
    obtain ⟨t, ht, hlane⟩ := exec_fprcpa_lane hready hnat hpick hother
    obtain ⟨fr, hr⟩ := State.recipLane_of_num (s := s) (a := a) lane h2 h3
    rw [recipNum_of_zeroDivide hm, unnormalElem_of_zero h3, Bool.or_false] at hr
    have hstops (hdone : LaneDelivers s t a.sf a.f1 pick lane (s.recipLane pick lane a) (s.recipLane other (1 - lane) a)) :
        (s.denormalStops a.sf (unnormalElem (pick (s.readF a.f2))) || (controlsOf s.fpsr a.sf).zdvEn) = false := by
      obtain ⟨hgo, -⟩ := hdone
      rw [hr] at hgo
      exact (any_zeroDivide _).symm.trans hgo
    refine ⟨fun hz => ?_, fun hz hd => ?_, fun hz hd => ?_⟩
    · obtain ⟨hfault, hreport, -⟩ | hdone := hlane
      · rw [hr] at hreport
        obtain ⟨-, hbitd, hbitz, -⟩ := hreport
        exact ⟨t, ht, hfault, hbitz.trans hz, hbitd⟩
      · have := hstops hdone
        rw [hz, Bool.or_true] at this
        contradiction
    · obtain ⟨hfault, hreport, -⟩ | hdone := hlane
      · rw [hr] at hreport
        obtain ⟨-, hbitd, -, -⟩ := hreport
        exact ⟨t, ht, hfault, hbitd.trans hd⟩
      · have := hstops hdone
        rw [hd, Bool.true_or] at this
        contradiction
    · refine ⟨t, ht, ?_⟩
      obtain ⟨hfault, -, hreport, hany⟩ | hdone := hlane
      · rw [hr, any_zeroDivide, hz, hd] at hany
        exact .inl ⟨hfault, faultBit_of_not_zdvEn hreport (hany.resolve_left nofun) hz⟩
      · obtain ⟨hbitz, hsgz⟩ := LaneDelivers.zeroDivide_recorded (f := fun pick lane => s.recipLane pick lane a) hpick hother
          ((exec_fprcpa hready hnat).symm.trans ht) h0 h1 hdone (by rw [hr])
        rw [hr] at hdone
        obtain ⟨-, -, hvalue, -, hrecorded, -⟩ := hdone
        exact .inr ⟨hvalue.trans (encodeElem_infinity _), hbitz, hsgz, hrecorded⟩

end Sys2Proof.Machine
end

section
/-! Invalid fused operations (R55, R85 to R90), and NaNs and registers without a value in minimum and maximum (R82). -/

namespace Sys2Proof.Machine

/-! A fused operation has an exact result unless it is invalid. -/

theorem fusedExact_of_valid {op : ArithOp} (rc : RoundMode) {x y z : Numeric} (h : invalidFused op x y z = false) :
    ∃ p, fusedExact op rc x y z = some p := by
  simp only [invalidFused, Bool.or_eq_false_iff, Bool.and_eq_false_imp, bne_eq_false_iff_eq] at h
  obtain ⟨⟨hxy, hyx⟩, hsigns⟩ := h
  by_cases hprod : x.isInf = true ∨ y.isInf = true
  · have hx : x.isZero = false := by
      cases x with
      | inf => rfl
      | fin => exact Bool.eq_false_iff.mpr fun hzero => absurd (hprod.resolve_left nofun) (by simp [hyx hzero])
    have hy : y.isZero = false := by
      cases y with
      | inf => rfl
      | fin => exact hxy (hprod.resolve_right nofun)
    exact ⟨_, fusedExact_of_infinite rc
      (.inl ⟨hprod, hx, hy, fun hz => (hsigns (by simpa [hz] using hprod)).symm, rfl⟩)⟩
  · obtain ⟨hx, hy⟩ := not_or.mp hprod
    cases x with
    | inf => exact absurd rfl hx
    | fin a m e =>
      cases y with
      | inf => exact absurd rfl hy
      | fin b n f =>
        cases z with
        | inf c => exact ⟨_, fusedExact_of_infinite rc (.inr ⟨rfl, rfl, rfl, rfl⟩)⟩
        | fin c k g => exact ⟨_, rfl⟩

section
variable {α : Type} {C : Carrier α} {env : StageEnv} {op : MinMaxOp} {x3 x4 x2 : α}

/-- A fused operation on an operand without a value, and no NaN, is invalid. -/
theorem fusedElem_of_unsupported (hnan : ∀ x ∈ [x4, x2, x3], (C.classify x).isNaN = false)
    (h : ∃ x ∈ [x3, x4, x2], C.classify x = .unsupported) : fusedElem C env x3 x4 x2 = invalidResult C := by
  obtain ⟨x, hx, hun⟩ := h
  unfold fusedElem
  rw [propagate_of_no_nan hnan]
  dsimp only
  split
  · next h3 h4 h2 =>
    obtain rfl | rfl | rfl : x = x3 ∨ x = x4 ∨ x = x2 := by simpa using hx
    · cases hun.symm.trans h3
    · cases hun.symm.trans h4
    · cases hun.symm.trans h2
  · rfl

/-- Beside a NaN a minimum or maximum delivers the second operand, and signals Invalid Operation at most. -/
theorem minMaxElem_of_nan (hun : ∀ x ∈ [x2, x3], C.classify x ≠ .unsupported)
    (hnan : (C.classify x2).isNaN = true ∨ (C.classify x3).isNaN = true) :
    ∃ v, minMaxElem C op x2 x3 = ⟨x3, { signals := { v := v } }⟩ := by
  unfold minMaxElem
  split
  · next h2 h3 =>
    rw [h2, h3] at hnan
    exact absurd hnan (by simp [Operand.isNaN])
  · have hvalues : ¬ ((C.classify x2).isUnsupported || (C.classify x3).isUnsupported) = true := by
      simpa [Operand.isUnsupported_iff] using hun
    exact ⟨_, if_neg hvalues⟩

/-- An operand without a value makes a minimum or maximum invalid. -/
theorem minMaxElem_of_unsupported (h : ∃ x ∈ [x2, x3], C.classify x = .unsupported) :
    minMaxElem C op x2 x3 = invalidResult C := by
  have hun : ((C.classify x2).isUnsupported || (C.classify x3).isUnsupported) = true := by
    simpa [Operand.isUnsupported_iff] using h
  unfold minMaxElem
  split
  · next h2 h3 =>
    rw [h2, h3] at hun
    exact absurd hun (by simp [Operand.isUnsupported])
  · exact if_pos hun

end

/-- Settles O24: exactly an invalid operation has no exact result, and it delivers the default NaN, Invalid Operation alone
signaled. -/
theorem fusedInvalidOperation : Obligations.FusedInvalidOperation := by
  unfold Obligations.FusedInvalidOperation
  refine ⟨fun op rc x3 x4 x2 => ⟨fun hnone => ?_, fusedExact_of_invalid rc⟩, ?_, ?_⟩
  · by_contra hvalid
    obtain ⟨p, hp⟩ := fusedExact_of_valid (op := op) rc (Bool.eq_false_iff.mpr hvalid)
    cases hnone.symm.trans hp
  · intro i op c a s hi hready hhandler hinvalid
    obtain ⟨-, -, hdest, hsrc, -⟩ := Instr.normalFused_fields (s := s) hi
    obtain ⟨h0, h1⟩ := State.ready_dest hready
    have hexec : exec i s = s.finishNormal a.sf a.f1 none (invalidResult (regCarrier (s.destFmt c a.sf))) := by
      obtain ⟨x3, x4, x2, h3, h4, h2, hinv⟩ | ⟨hnat, ⟨n, hn, hun⟩, hnan⟩ := hinvalid
      · rw [exec_normalFused_of_num hi hready h3 h4 h2]
        exact congrArg _ (fusedElem_of_invalid (C := regCarrier (s.destFmt c a.sf)) h3 h4 h2 hinv)
      · rw [exec_normalFused hi hready hnat]
        rw [hsrc] at hn hnan
        have hno : ∀ x ∈ [s.readF a.f4, s.readF a.f2, s.readF a.f3], (classifyReg x).isNaN = false := by
          simp only [List.forall_mem_cons] at hnan ⊢
          obtain ⟨h3, h4, h2, -⟩ := hnan
          exact ⟨h4, h2, h3, nofun⟩
        exact congrArg _ (fusedElem_of_unsupported (C := regCarrier (s.destFmt c a.sf)) hno
          ⟨s.readF n, List.mem_map_of_mem hn, hun⟩)
    obtain ⟨t, ht, hfault, hnan⟩ := State.finishNormal_invalidResult (s := s) (sf := a.sf) (p2 := none)
      (fmt := s.destFmt c a.sf) (hdest ▸ h0) (hdest ▸ h1)
    refine ⟨fun hen => ⟨t, hexec.trans ht, hfault hen⟩, fun hen => ?_⟩
    obtain ⟨hh, hsg, hclass, hflags, -⟩ := hnan hen
    exact ⟨t, hexec.trans ht, hh.trans hhandler, by rw [hsg], by rw [hsg], hclass, hflags⟩
  · intro i op a s pick lane x3 x4 x2 hpick hi hready hnat h3 h4 h2 hinv
    obtain ⟨other, hother⟩ := hpick.exists_other
    obtain ⟨t, ht, hlane⟩ := exec_parallelFused_lane hi hready hnat hpick hother
    have hresult : s.fusedLane op pick lane a = invalidResult elemCarrier :=
      fusedElem_of_invalid (C := elemCarrier) h3 h4 h2 hinv
    rw [hresult] at hlane
    obtain ⟨hfault, hnan⟩ := lane_of_invalidResult hlane
    refine ⟨fun hen => ⟨t, ht, hfault hen⟩, fun hen => ⟨t, ht, ?_⟩⟩
    obtain ⟨hfaulted, hd, hany, hreport⟩ | hvalue := hnan hen
    · obtain ⟨hz, hswa⟩ := fusedElem_signals (C := elemCarrier) (env := s.stageEnv a.sf fmtSingle op (1 - lane))
        (other (s.readF a.f3)) (other (s.readF a.f4)) (other (s.readF a.f2))
      refine .inl ⟨hfaulted, hd, (faultBit_v_or_d hreport hany hz hswa).resolve_left fun hbit => ?_⟩
      obtain ⟨hv, -⟩ := hreport
      rw [enabledSignals, hen, Bool.and_false] at hv
      exact absurd (hv.symm.trans hbit) nofun
    · exact .inr hvalue

/-- A normal minimum or maximum beside a NaN, as its completion: the fault if it is enabled, or the second operand. -/
theorem exec_fminmax_of_nan {a : MinMaxFields} {s : State} (hpar : a.parallel = false)
    (hready : s.ready (.fminmax a) = true) (hnat : s.noNaT (.fminmax a) = true)
    (hun : ∀ n ∈ [a.f2, a.f3], classifyReg (s.readF n) ≠ .unsupported)
    (hnan : (classifyReg (s.readF a.f2)).isNaN = true ∨ (classifyReg (s.readF a.f3)).isNaN = true) :
    ∃ t, exec (.fminmax a) s = .next t ∧
      (((controlsOf s.fpsr a.sf).invEn = true ∧ faultedFrom s t ∧ t.isr.getLsbD 0 = true ∧ t.isr.getLsbD 1 = false) ∨
        (t.handler = s.handler ∧ t.readF a.f1 = s.readF a.f3 ∧ t.signaled.d = false ∧
          flagsOf t.fpsr a.sf = flagsOf s.fpsr a.sf)) := by
  obtain ⟨h0, h1⟩ := State.ready_dest hready
  have hvalues : ∀ x ∈ [s.readF a.f2, s.readF a.f3], classifyReg x ≠ .unsupported := by simpa using hun
  obtain ⟨v, hv⟩ := minMaxElem_of_nan (C := regCarrier fmtRegister) (op := a.op) hvalues hnan
  rw [exec_fminmax hready hnat, if_neg (by simp [hpar]), State.minMaxResult, hv]
  obtain ⟨t, ht, ⟨hfault, ⟨hbitv, hbitd, -, -⟩, hstops⟩ | ⟨-, hh, hsg, hflags, -, hvalue⟩⟩ :=
    State.finishNormal_invalid_cases (s := s) (sf := a.sf) (f1 := a.f1) (p2 := none) (x := s.readF a.f3) (v := v) h0 h1
  · exact ⟨t, ht, .inl ⟨((Bool.and_eq_true ..).mp hstops).2, hfault, hbitv, hbitd⟩⟩
  · exact ⟨t, ht, .inr ⟨hh, hvalue, by rw [hsg], hflags⟩⟩

/-- Settles O43: a NaN delivers the second operand with Invalid Operation signaled at most, a register without a value the
default NaN. -/
theorem minMaxNaNDeliversSecond : Obligations.MinMaxNaNDeliversSecond := by
  unfold Obligations.MinMaxNaNDeliversSecond
  refine ⟨?_, ?_, ?_, ?_⟩
  · intro a s hpar hready hnat hhandler hen hun hnan
    obtain ⟨t, ht, ⟨hen', -⟩ | ⟨hh, hvalue⟩⟩ := exec_fminmax_of_nan hpar hready hnat hun hnan
    · exact absurd (hen.symm.trans hen') nofun
    · exact ⟨t, ht, hh.trans hhandler, hvalue⟩
  · intro a s hpar hready hnat hhandler _ hun hnan
    obtain ⟨t, ht, ⟨-, hfault⟩ | ⟨hh, hvalue⟩⟩ := exec_fminmax_of_nan hpar hready hnat hun hnan
    · exact ⟨t, ht, .inl hfault⟩
    · exact ⟨t, ht, .inr ⟨hh.trans hhandler, hvalue⟩⟩
  · rintro a s hpar hready hnat hhandler ⟨n, hn, hun⟩
    obtain ⟨h0, h1⟩ := State.ready_dest hready
    have hresult : s.minMaxResult a = invalidResult (regCarrier fmtRegister) :=
      minMaxElem_of_unsupported (C := regCarrier fmtRegister) ⟨s.readF n, List.mem_map_of_mem hn, hun⟩
    rw [exec_fminmax hready hnat, if_neg (by simp [hpar]), hresult]
    obtain ⟨t, ht, hfault, hnan⟩ := State.finishNormal_invalidResult (s := s) (sf := a.sf) (f1 := a.f1) (p2 := none)
      (fmt := fmtRegister) h0 h1
    refine ⟨fun hen => ⟨t, ht, hfault hen⟩, fun hen => ?_⟩
    obtain ⟨hh, hsg, hclass, hflags, -⟩ := hnan hen
    exact ⟨t, ht, hh.trans hhandler, by rw [hsg], by rw [hsg], hclass, hflags⟩
  · intro a s pick lane hpick hpar hready hnat hhandler hnan
    obtain ⟨other, hother⟩ := hpick.exists_other
    obtain ⟨t, ht, hlane⟩ := exec_fminmax_lane hready hnat hpar hpick hother
    obtain ⟨v, hv⟩ := minMaxElem_of_nan (C := elemCarrier) (op := a.op) (fun x _ => classifyElem_ne_unsupported x) hnan
    obtain ⟨v', d, hreport⟩ := minMaxElem_report (C := elemCarrier) a.op (other (s.readF a.f2)) (other (s.readF a.f3))
    rw [State.minMaxLane, hv, State.minMaxLane] at hlane
    refine ⟨t, ht, ?_⟩
    obtain hfault | ⟨-, -, hvalue, -, -, hends⟩ := hlane
    · obtain ⟨hfaulted, hd, hwhy⟩ := hfault.of_invalid
      refine .inl ⟨hfaulted, hd, ?_⟩
      cases hen : (controlsOf s.fpsr a.sf).invEn with
      | true => exact .inl rfl
      | false =>
        obtain ⟨hany, hbits⟩ | ⟨-, hen', -⟩ := hwhy
        · rw [hreport] at hany hbits
          obtain ⟨-, hbitd, -, -⟩ := hbits
          have hstop : (d && (controlsOf s.fpsr a.sf).denEn) = true := by
            simpa [enabledSignals, Signals.any, hen] using hany
          exact .inr ⟨((Bool.and_eq_true ..).mp hstop).2, hbitd.trans hstop⟩
        · exact absurd (hen.symm.trans hen') nofun
    · rw [hreport] at hends
      obtain ⟨hflags, hh, -⟩ := hends rfl rfl rfl
      exact .inr ⟨(hh rfl).trans hhandler, hvalue, hflags.trans (Flags.or_none _)⟩

end Sys2Proof.Machine
end

section
/-! The Parallel-FP approximations (R92, R94): each element a fault, an approximation or the stage, and how two of them end
together (R65; log 24). -/

namespace Sys2Proof.Machine

/-! Two elements together. -/

section
variable {s t : State} {sf : SfNum} {f1 : RegNum} {p2 : Option PredNum} {pick other : Flt → Elem} {lane : Nat}
  {high low : ElemResult Elem}

/-- A completion of two elements takes a fault, or it does not stop. -/
theorem State.finishParallel_stops_or (h : s.finishParallel sf f1 p2 high low = .next t) :
    faultedFrom s t ∨ s.finishStops sf low.report (some high.report) = false := by
  cases hs : s.finishStops sf low.report (some high.report) with
  | false => exact .inr rfl
  | true =>
    cases (State.finish_stops hs).symm.trans h
    exact .inl (faultedFrom_interrupt ..)

/-- A completion that does not stop ends with the flags and the trap of the outcomes its reports carry (R65). -/
theorem elementsEnd_of_finish {oh ol : StageOut} (h : s.finishParallel sf f1 p2 high low = .next t)
    (hs : s.finishStops sf low.report (some high.report) = false) (h0 : f1 ≠ 0) (h1 : f1 ≠ 1)
    (hhigh : high.report.sets = oh.sets ∧ high.report.freed = oh.freed ∧ high.report.trap = oh.trap)
    (hlow : low.report.sets = ol.sets ∧ low.report.freed = ol.freed ∧ low.report.trap = ol.trap) :
    elementsEnd s t sf oh ol := by
  obtain ⟨hfpsr, -, -, -, hquiet, htrap⟩ := State.delivers_of_finish h hs h0 h1
  obtain ⟨hsh, hfh, hth⟩ := hhigh
  obtain ⟨hsl, hfl, htl⟩ := hlow
  rw [trapOf, hth, htl] at hquiet htrap
  refine ⟨?_, fun hoh hol => hquiet (by simp [hoh, hol]), fun htraps => ?_⟩
  · rw [hfpsr, State.commit_flagsOf, newFlags, hsh, hfh, hsl, hfl]
  · obtain ⟨hh, hisr⟩ := htrap _ (if_pos ((Bool.or_eq_true ..).mpr htraps.symm))
    exact ⟨hh, hisr ▸ isrOfTrap_low .., hisr ▸ isrOfTrap_high ..⟩

theorem helperPredOf_of_agree {free b : Bool} {low high : Report} (hl : low.approx = b) (hh : high.approx = b) :
    helperPredOf free low (some high) = b := by
  rw [helperPredOf, hl, hh, if_pos rfl]

/-- Elements of which none is an approximation clear the predicate, unless a fault is taken. -/
theorem State.finishParallel_pred_cleared (h : s.finishParallel sf f1 p2 high low = .next t) (h0 : f1 ≠ 0) (h1 : f1 ≠ 1)
    (hhigh : high.report.approx = false) (hlow : low.report.approx = false) :
    faultedFrom s t ∨ ∀ p, p2 = some p → p ≠ 0 → t.readP p = false := by
  refine (State.finishParallel_stops_or h).imp_right fun hs p hp hne => ?_
  obtain ⟨-, -, -, hpred, -⟩ := State.delivers_of_finish h hs h0 h1
  exact (hpred p hp hne).trans (helperPredOf_of_agree hlow hhigh)

/-- Elements that do no more than signal leave the flags o, u and i, take no trap and clear the predicate. -/
theorem State.finishParallel_signals_only {gh gl : Signals} (h0 : f1 ≠ 0) (h1 : f1 ≠ 1) (hh : high.report = { signals := gh })
    (hl : low.report = { signals := gl }) :
    ∃ t, s.finishParallel sf f1 p2 high low = .next t ∧
      (faultedFrom s t ∨ (t.handler = s.handler ∧ flagsOf t.fpsr sf = flagsOf s.fpsr sf ∧
        ∀ p, p2 = some p → p ≠ 0 → t.readP p = false)) := by
  obtain ⟨t, ht⟩ : ∃ t, s.finishParallel sf f1 p2 high low = .next t := State.finish_next ..
  refine ⟨t, ht, ?_⟩
  obtain hfault | hs := State.finishParallel_stops_or ht
  · exact .inl hfault
  · obtain ⟨hfpsr, -, -, -, hquiet, -⟩ := State.delivers_of_finish ht hs h0 h1
    refine (State.finishParallel_pred_cleared ht h0 h1 (by rw [hh]) (by rw [hl])).imp_right fun hpred =>
      ⟨hquiet (by rw [hh, hl]; rfl), ?_, hpred⟩
    rw [hfpsr, State.commit_flagsOf, hh, hl]
    exact Flags.or_none _

end

/-! Elements whose exact result is finite. -/

/-- The outcome an element ends with: that of the stage, or an approximation, which is done with no flag changed. -/
def helperOut (approx : Bool) (o : StageOut) : StageOut := if approx then stageDone o.dest else o

/-- An element that raises no Software Assist fault is an approximation or the stage's result, and reports so. -/
theorem HelperResult.of_no_swa {α : Type} {C : Carrier α} {env : StageEnv} {p : Precise} {den : Bool} {near : α → Prop}
    {r : ElemResult α} (h : HelperResult C env p den near r) (hswa : r.report.signals.swa = false) :
    (if r.report.approx then near r.value else r.value = C.encode (fpStage env p).dest) ∧
      r.report.sets = (helperOut r.report.approx (fpStage env p)).sets ∧
      r.report.freed = (helperOut r.report.approx (fpStage env p)).freed ∧
      r.report.trap = (helperOut r.report.approx (fpStage env p)).trap := by
  cases h with
  | swaFault x => cases hswa
  | approximation x hx => exact ⟨hx, rfl, rfl, rfl⟩
  | stage => exact ⟨rfl, rfl, rfl, rfl⟩

section
variable {s t : State} {sf : SfNum} {f1 : RegNum} {p2 : PredNum} {pick other : Flt → Elem} {lane : Nat}
  {env envh envl : StageEnv} {p ph pl : Precise} {den denh denl : Bool} {near nearh nearl : Elem → Prop} {high low : ElemResult Elem}

/-- Without a fault no element raises the Software Assist fault, which no control disables. -/
theorem swa_of_not_stops (hs : s.finishStops sf low.report (some high.report) = false) :
    high.report.signals.swa = false ∧ low.report.signals.swa = false := by
  simp only [State.finishStops, Option.map_some, Option.getD_some, enabledSignals, Signals.any, Bool.or_eq_false_iff] at hs
  obtain ⟨⟨-, hl⟩, -, hh⟩ := hs
  exact ⟨hh, hl⟩

/-- Both elements finite: a fault, or each the approximation or the stage's result, with the flags, the trap and the predicate
of the two. -/
theorem State.finishParallel_helpers (hh : HelperResult elemCarrier envh ph denh nearh high)
    (hl : HelperResult elemCarrier envl pl denl nearl low) (h0 : f1 ≠ 0) (h1 : f1 ≠ 1) :
    ∃ t, s.finishParallel sf f1 (some p2) high low = .next t ∧
      (faultedFrom s t ∨ ∃ ah al : Bool,
        (if ah then nearh (highElem (t.readF f1)) else highElem (t.readF f1) = encodeElem (fpStage envh ph).dest) ∧
        (if al then nearl (lowElem (t.readF f1)) else lowElem (t.readF f1) = encodeElem (fpStage envl pl).dest) ∧
        elementsEnd s t sf (helperOut ah (fpStage envh ph)) (helperOut al (fpStage envl pl)) ∧
        (ah = true → al = true → t.readP p2 = true ∧ t.handler = s.handler) ∧
        (ah = false → al = false → p2 ≠ 0 → t.readP p2 = false)) := by
  obtain ⟨t, ht⟩ : ∃ t, s.finishParallel sf f1 (some p2) high low = .next t := State.finish_next ..
  refine ⟨t, ht, (State.finishParallel_stops_or ht).imp_right fun hs => ?_⟩
  obtain ⟨hswah, hswal⟩ := swa_of_not_stops hs
  obtain ⟨hvh, hoh⟩ := hh.of_no_swa hswah
  obtain ⟨hvl, hol⟩ := hl.of_no_swa hswal
  obtain ⟨-, hvalue, -, hpred, -⟩ := State.delivers_of_finish ht hs h0 h1
  have hends := elementsEnd_of_finish ht hs h0 h1 hoh hol
  refine ⟨high.report.approx, low.report.approx, ?_, ?_, hends, fun hah hal => ⟨?_, ?_⟩, fun hah hal hp => ?_⟩
  · rw [hvalue, highElem_packElems]
    exact hvh
  · rw [hvalue, lowElem_packElems]
    exact hvl
  · by_cases hp : p2 = 0
    · rw [hp]
      exact Bool.true_or _
    · exact (hpred p2 rfl hp).trans (helperPredOf_of_agree hal hah)
  · obtain ⟨-, hhandler, -⟩ := hends
    rw [hah, hal] at hhandler
    exact hhandler rfl rfl
  · exact (hpred p2 rfl hp).trans (helperPredOf_of_agree hal hah)

/-- One element finite, beside one that does no more than signal: a fault, or the approximation, or the stage's result with its
own flags and trap alone. -/
theorem State.finishParallel_helper_beside {f : (Flt → Elem) → Nat → ElemResult Elem} {g : Signals}
    (hpick : isLane pick lane) (hother : isLane other (1 - lane)) (h : HelperResult elemCarrier env p den near (f pick lane))
    (hbeside : (f other (1 - lane)).report = { signals := g }) (h0 : f1 ≠ 0) (h1 : f1 ≠ 1) :
    ∃ t, s.finishParallel sf f1 (some p2) (f highElem 1) (f lowElem 0) = .next t ∧
      (faultedFrom s t ∨ (near (pick (t.readF f1)) ∧ laneEnds s t sf lane {} false none) ∨
        (pick (t.readF f1) = encodeElem (fpStage env p).dest ∧
          laneEnds s t sf lane (fpStage env p).sets (fpStage env p).freed (fpStage env p).trap ∧
          (p2 ≠ 0 → t.readP p2 = false))) := by
  obtain ⟨t, ht, ⟨hfault, -⟩ | ⟨hgo, -, hvalue, -, -, hends⟩⟩ :=
    State.finishParallel_isLane (s := s) (sf := sf) (p2 := some p2) h0 h1 hpick hother
  · exact ⟨t, ht, .inl hfault⟩
  rw [hbeside] at hends
  have hcleared (hr : (f pick lane).report.approx = false) : faultedFrom s t ∨ (p2 ≠ 0 → t.readP p2 = false) := by
    have hboth : (f highElem 1).report.approx = false ∧ (f lowElem 0).report.approx = false := by
      have hr' : (f other (1 - lane)).report.approx = false := by rw [hbeside]
      obtain ⟨rfl, rfl⟩ | ⟨rfl, rfl⟩ := hpick
      · obtain ⟨-, h⟩ | ⟨rfl, -⟩ := hother
        · cases h
        · exact ⟨hr', hr⟩
      · obtain ⟨rfl, -⟩ | ⟨-, h⟩ := hother
        · exact ⟨hr, hr'⟩
        · cases h
    obtain ⟨hhigh, hlow⟩ := hboth
    exact (State.finishParallel_pred_cleared ht h0 h1 hhigh hlow).imp_right fun hpred => hpred p2 rfl
  refine ⟨t, ht, ?_⟩
  generalize f pick lane = r at h hgo hvalue hends hcleared
  cases h with
  | swaFault x => cases hgo
  | approximation x hx => exact .inr (.inl ⟨hvalue ▸ hx, hends rfl rfl rfl⟩)
  | stage => exact (hcleared rfl).imp_right fun hpred => .inr ⟨hvalue, hends rfl rfl rfl, hpred⟩

end
end Sys2Proof.Machine
end

section
/-! The elements of `fprcpa` and `fprsqrta` (R92, R94): finite ones, and those that do no more than signal. -/

namespace Sys2Proof.Machine

theorem finiteQuotient_eq_some {x2 x3 : Numeric} {n : Bool} {m : Mag} (h : finiteQuotient x2 x3 = some (n, m)) :
    ∃ a m2 e b m3 f, x2 = .fin a m2 e ∧ m2 ≠ 0 ∧ x3 = .fin b m3 f ∧ m3 ≠ 0 ∧ n = (a ^^ b) ∧ m = .ratio m2 m3 (e - f) := by
  cases x2 with
  | inf => cases x3 <;> cases h
  | fin a m2 e =>
    cases x3 with
    | inf => cases h
    | fin b m3 f =>
      rw [finiteQuotient] at h
      split_ifs at h with hne
      cases h
      exact ⟨a, m2, e, b, m3, f, rfl, hne.1, rfl, hne.2, rfl, rfl⟩

theorem finiteRoot_eq_some {x3 : Numeric} {m : Mag} (h : finiteRoot x3 = some m) :
    ∃ k e, x3 = .fin false k e ∧ k ≠ 0 ∧ m = .root k e := by
  cases x3 with
  | inf => cases h
  | fin a k e =>
    rw [finiteRoot] at h
    split_ifs at h with hne
    obtain ⟨rfl, hk⟩ := hne
    cases h
    exact ⟨k, e, rfl, hk, rfl⟩

section
variable {α : Type} {C A : Carrier α} {env : StageEnv} {fr : HelperFree} {approx x2 x3 : α} {den : Bool} {a b : Numeric}

/-- Special, invalid and zero-divided quotients, and NaNs, do no more than signal. -/
theorem recipNum_signals_only (h : finiteQuotient a b = none) : ∃ g, (recipNum C A env fr den a b).report = { signals := g } := by
  cases a with
  | inf s => cases b <;> exact ⟨_, rfl⟩
  | fin s m e =>
    cases b with
    | inf t => exact ⟨_, rfl⟩
    | fin t n f =>
      rw [recipNum]
      split_ifs with hn hm hm
      · exact ⟨_, rfl⟩
      · exact ⟨_, rfl⟩
      · exact ⟨_, rfl⟩
      · rw [finiteQuotient, if_pos ⟨hm, hn⟩] at h
        cases h

theorem recipElem_signals_only
    (h : ∀ y2 y3, C.classify x2 = .num y2 → C.classify x3 = .num y3 → finiteQuotient y2 y3 = none) :
    ∃ g, (recipElem C A env fr x2 x3).report = { signals := g } := by
  unfold recipElem
  split
  · next hnan => exact ⟨_, propagate_report hnan⟩
  split
  · next h2 h3 => exact recipNum_signals_only (h _ _ h2 h3)
  · exact ⟨_, rfl⟩

/-- The same of roots. -/
theorem rootNum_signals_only (h : finiteRoot b = none) : ∃ g, (rootNum C env fr approx den b).report = { signals := g } := by
  cases b with
  | inf s => cases s <;> exact ⟨_, rfl⟩
  | fin s m e =>
    rw [rootNum]
    by_cases hm : m = 0
    · rw [if_pos hm]
      exact ⟨_, rfl⟩
    · cases s with
      | true =>
        rw [if_neg hm]
        exact ⟨_, rfl⟩
      | false =>
        rw [finiteRoot, if_pos ⟨rfl, hm⟩] at h
        cases h

theorem rootElem_signals_only (h : ∀ y3, C.classify x3 = .num y3 → finiteRoot y3 = none) :
    ∃ g, (rootElem C env fr approx x3).report = { signals := g } := by
  unfold rootElem
  split
  · next hnan => exact ⟨_, propagate_report hnan⟩
  split
  · next h3 => exact rootNum_signals_only (h _ h3)
  · exact ⟨_, rfl⟩

end

section
variable {s : State} {pick : Flt → Elem} {x2 x3 : Numeric} {n : Bool} {m : Mag}

/-- An element of `fprcpa` on a finite non-zero pair. -/
theorem State.recipLane_helper {a : F6Fields} (lane : Nat) (h2 : classifyElem (pick (s.readF a.f2)) = .num x2)
    (h3 : classifyElem (pick (s.readF a.f3)) = .num x3) (h : finiteQuotient x2 x3 = some (n, m)) :
    HelperResult elemCarrier (s.stageEnv a.sf fmtSingle .quotient lane) (.value n m)
      (unnormalElem (pick (s.readF a.f2)) || unnormalElem (pick (s.readF a.f3)))
      (fun y => |elemValue y * elemValue (pick (s.readF a.f3)) - 1| ≤ 1 / 473) (s.recipLane pick lane a) := by
  obtain ⟨n2, m2, e2, n3, m3, e3, rfl, hm2, rfl, hm3, rfl, rfl⟩ := finiteQuotient_eq_some h
  obtain ⟨fr, hr⟩ := State.recipLane_of_num (s := s) (a := a) lane h2 h3
  rw [hr]
  exact recipNum_helper hm2 hm3 fun d hd => recipApprox_elem h3 hm3 hd

/-- An element of `fprsqrta` on a finite positive operand. -/
theorem State.rootLane_helper {a : F7Fields} (lane : Nat) (h3 : classifyElem (pick (s.readF a.f3)) = .num x3)
    (h : finiteRoot x3 = some m) :
    HelperResult elemCarrier (s.stageEnv a.sf fmtSingle .root lane) (.value false m)
      (unnormalElem (pick (s.readF a.f3))) (fun y => y = Config.elemRootApprox (pick (s.readF a.f3)))
      (s.rootLane pick lane a) := by
  obtain ⟨k, e, rfl, hk, rfl⟩ := finiteRoot_eq_some h
  obtain ⟨fr, hr⟩ := State.rootLane_of_num (s := s) (a := a) lane h3
  rw [hr]
  exact rootNum_helper hk rfl

end

/-- Settles O34: an element on a finite pair is a `HelperResult`, and any other does no more than signal. -/
theorem fprcpaElementOutcomes : Obligations.FprcpaElementOutcomes := by
  unfold Obligations.FprcpaElementOutcomes
  refine ⟨?_, ?_, ?_, ?_⟩
  · rintro a s pick lane n2 n3 m2 m3 e2 e3 den hpick hready hnat h2 hm2 h3 hm3 rfl
    obtain ⟨other, hother⟩ := hpick.exists_other
    obtain ⟨t, ht, hlane⟩ := exec_fprcpa_lane hready hnat hpick hother
    exact ⟨t, ht, lane_of_helper (State.recipLane_helper lane h2 h3 (if_pos ⟨hm2, hm3⟩)) hlane⟩
  · rintro a s h2 h3 l2 l3 nh nl mh ml oh ol hready hnat hh2 hh3 hl2 hl3 hqh hql rfl rfl
    obtain ⟨h0, h1⟩ := State.ready_dest hready
    rw [exec_fprcpa hready hnat]
    exact State.finishParallel_helpers (State.recipLane_helper 1 hh2 hh3 hqh) (State.recipLane_helper 0 hl2 hl3 hql) h0 h1
  · rintro a s pick other lane x2 x3 n m o hpick hother hready hnat h2 h3 hq hbeside rfl
    obtain ⟨h0, h1⟩ := State.ready_dest hready
    obtain ⟨g, hg⟩ := recipElem_signals_only (C := elemCarrier) hbeside
    rw [exec_fprcpa hready hnat]
    exact State.finishParallel_helper_beside (f := fun pick lane => s.recipLane pick lane a) hpick hother
      (State.recipLane_helper lane h2 h3 hq) hg h0 h1
  · intro a s hready hnat hnone
    obtain ⟨h0, h1⟩ := State.ready_dest hready
    obtain ⟨gh, hgh⟩ := recipElem_signals_only (C := elemCarrier) fun y2 y3 => hnone highElem y2 y3 (.inl rfl)
    obtain ⟨gl, hgl⟩ := recipElem_signals_only (C := elemCarrier) fun y2 y3 => hnone lowElem y2 y3 (.inr rfl)
    obtain ⟨t, ht, hends⟩ := State.finishParallel_signals_only (s := s) (sf := a.sf) (p2 := some a.p2)
      (high := s.recipLane highElem 1 a) (low := s.recipLane lowElem 0 a) h0 h1 hgh hgl
    exact ⟨t, (exec_fprcpa hready hnat).trans ht, hends.imp_right fun ⟨hh, hflags, hpred⟩ => ⟨hh, hflags, hpred _ rfl⟩⟩

/-- Settles O37: an element on a finite positive operand is a `HelperResult`, and any other does no more than signal. -/
theorem fprsqrtaElementOutcomes : Obligations.FprsqrtaElementOutcomes := by
  unfold Obligations.FprsqrtaElementOutcomes
  refine ⟨?_, ?_, ?_, ?_⟩
  · rintro a s pick lane m e den hpick hready hnat h3 hm rfl
    obtain ⟨other, hother⟩ := hpick.exists_other
    obtain ⟨t, ht, hlane⟩ := exec_fprsqrta_lane hready hnat hpick hother
    exact ⟨t, ht, lane_of_helper (State.rootLane_helper lane h3 (if_pos ⟨rfl, hm⟩)) hlane⟩
  · rintro a s h3 l3 mh ml oh ol hready hnat hh3 hl3 hrh hrl rfl rfl
    obtain ⟨h0, h1⟩ := State.ready_dest hready
    rw [exec_fprsqrta hready hnat]
    exact State.finishParallel_helpers (State.rootLane_helper 1 hh3 hrh) (State.rootLane_helper 0 hl3 hrl) h0 h1
  · rintro a s pick other lane x3 m o hpick hother hready hnat h3 hr hbeside rfl
    obtain ⟨h0, h1⟩ := State.ready_dest hready
    obtain ⟨g, hg⟩ := rootElem_signals_only (C := elemCarrier) hbeside
    rw [exec_fprsqrta hready hnat]
    exact State.finishParallel_helper_beside (f := fun pick lane => s.rootLane pick lane a) hpick hother
      (State.rootLane_helper lane h3 hr) hg h0 h1
  · intro a s hready hnat hnone
    obtain ⟨h0, h1⟩ := State.ready_dest hready
    obtain ⟨gh, hgh⟩ := rootElem_signals_only (C := elemCarrier) fun y3 => hnone highElem y3 (.inl rfl)
    obtain ⟨gl, hgl⟩ := rootElem_signals_only (C := elemCarrier) fun y3 => hnone lowElem y3 (.inr rfl)
    obtain ⟨t, ht, hends⟩ := State.finishParallel_signals_only (s := s) (sf := a.sf) (p2 := some a.p2)
      (high := s.rootLane highElem 1 a) (low := s.rootLane lowElem 0 a) h0 h1 hgh hgl
    exact ⟨t, (exec_fprsqrta hready hnat).trans ht, hends.imp_right fun ⟨hh, hflags, hpred⟩ => ⟨hh, hflags, hpred _ rfl⟩⟩

end Sys2Proof.Machine
end

section
/-! Valid conversions to integers (R95): the rounded integer, inexact when it differs from the operand. -/

namespace Sys2Proof.Machine

/-- What a conversion to the multiple `q` of 1 reports; `den` says that the operand is denormal. -/
def conversionReport (ctl : Controls) (q : Quantized) (den : Bool) : Report :=
  { sets := { i := q.i }
    trap := if q.i = true ∧ ctl.inxEn = true then some { i := true, fpa := q.fpa } else none
    signals := { d := den } }

/-- A finite operand whose rounded integer fits. -/
theorem convElem_of_fits {α : Type} {C : Carrier α} {ctl : Controls} {a : ConvFields} {n : Nat} {x : α} {neg : Bool} {m : Nat}
    {e : Int} (q : Quantized) (hx : C.classify x = .num (.fin neg m e))
    (hq : q = roundToGrid (.ratio m 1 e) 0 (conversionRc a ctl) neg) (hfit : fitsInt a.unsigned n (signedInt neg q.k) = true) :
    convElem C ctl a.unsigned a.trunc n x = ⟨BitVec.ofInt n (signedInt neg q.k), conversionReport ctl q (C.unnormal x)⟩ := by
  rw [conversionRc] at hq
  simp only [convElem, hx, ← hq, if_pos hfit, conversionReport, Bool.and_eq_true]

/-- An operand that is an integer rounds to itself. -/
theorem roundToGrid_of_integer {neg : Bool} {m : Nat} {e z : Int} (rc : RoundMode) (h : signRat neg * m * 2 ^ e = (z : ℚ)) :
    roundToGrid (.ratio m 1 e) 0 rc neg = ⟨z.natAbs, false, false⟩ ∧ signedInt neg z.natAbs = z := by
  have hmag : (0 : ℚ) ≤ m * 2 ^ e := by positivity
  have habs : ((z.natAbs : ℚ)) = m * 2 ^ e := by
    rw [Nat.cast_natAbs, Int.cast_abs, ← h, mul_assoc, abs_mul, abs_of_nonneg hmag]
    cases neg <;> simp [signRat]
  refine ⟨roundToGrid_of_grid_point rc neg ⟨one_pos, ?_⟩, ?_⟩
  · rw [zpow_zero, mul_one, Nat.cast_one, div_one]
    simpa using congrArg (Rat.cast : ℚ → ℝ) habs
  · have hcast : ((signedInt neg z.natAbs : Int) : ℚ) = z := by rw [signedInt_cast, habs, ← mul_assoc, h]
    exact_mod_cast hcast

theorem convElem_of_integer {α : Type} {C : Carrier α} {ctl : Controls} {a : ConvFields} {n : Nat} {x : α} {neg : Bool}
    {m : Nat} {e z : Int} (hx : C.classify x = .num (.fin neg m e)) (h : signRat neg * m * 2 ^ e = (z : ℚ))
    (hfit : fitsInt a.unsigned n z = true) :
    convElem C ctl a.unsigned a.trunc n x = ⟨BitVec.ofInt n z, { signals := { d := C.unnormal x } }⟩ := by
  obtain ⟨hq, hz⟩ := roundToGrid_of_integer (conversionRc a ctl) h
  rw [convElem_of_fits _ hx hq.symm (by rw [hz]; exact hfit), hz]
  rfl

/-- A denormal element lies strictly between two integers. -/
theorem unnormalElem_of_integer {x : Elem} {z : Int} (h : elemValue x = (z : ℚ)) : unnormalElem x = false := by
  refine Bool.eq_false_iff.mpr fun hden => ?_
  obtain ⟨hexp, hfrac⟩ : x.extractLsb' 23 8 = 0 ∧ x.extractLsb' 0 23 ≠ 0 := by simpa [unnormalElem] using hden
  have hpos : (x.extractLsb' 0 23).toNat ≠ 0 := fun hzero => hfrac (BitVec.eq_of_toNat_eq hzero)
  have hlt := (x.extractLsb' 0 23).isLt
  have hvalue : signRat (x.getLsbD 31) * ((x.extractLsb' 0 23).toNat : ℕ) * 2 ^ (-149 : Int) = (z : ℚ) := by
    rw [← h]
    simp only [elemValue, hexp, mul_assoc]
    rfl
  generalize (x.extractLsb' 0 23).toNat = f at hpos hlt hvalue
  have hf : ((f : Int) : ℚ) = ((signedInt (x.getLsbD 31) 1 * z * 2 ^ 149 : Int) : ℚ) := by
    push_cast
    rw [signedInt_cast, ← hvalue]
    have hsign := signRat_mul_self (x.getLsbD 31)
    have hpow : (2 : ℚ) ^ (-149 : Int) * 2 ^ 149 = 1 := by norm_num
    linear_combination (-(f : ℚ)) * hsign - signRat (x.getLsbD 31) * signRat (x.getLsbD 31) * f * hpow
  have hdvd : ((2 : Int) ^ 149) ∣ f := ⟨signedInt (x.getLsbD 31) 1 * z, by rw [mul_comm]; exact_mod_cast hf⟩
  have hle := Int.le_of_dvd (by omega) hdvd
  omega

section
variable {s t : State} {a : ConvFields} {pick other : Flt → Elem} {lane : Nat} {z : Int}

/-- A conversion of a finite register has no `NaTVal` source. -/
theorem exec_fcvt_of_num {x : Numeric} (hpar : a.parallel = false) (hready : s.ready (.fcvt a) = true)
    (hx : classifyReg (s.readF a.f2) = .num x) :
    exec (.fcvt a) s = s.finishNormal a.sf a.f1 none (s.convResult a) := by
  have hnat : s.noNaT (.fcvt a) = true := by
    refine State.noNaT_of_classify fun n hn => ?_
    obtain rfl : n = a.f2 := by simpa [Instr.sources] using hn
    simp [hx]
  rw [exec_fcvt hready hnat, if_neg (by simp [hpar])]

/-- An element that is an integer in range. -/
theorem State.convLane_of_integer (hfin : finiteElem (pick (s.readF a.f2)) = true)
    (hz : elemValue (pick (s.readF a.f2)) = (z : ℚ)) (hfit : fitsInt a.unsigned 32 z = true) :
    s.convLane pick a = ⟨BitVec.ofInt 32 z, {}⟩ := by
  obtain ⟨x, hx, m, e, rfl, hvalue⟩ := classifyElem_denotes hfin
  refine (convElem_of_integer (C := elemCarrier) hx (hvalue.symm.trans hz) hfit).trans ?_
  have hden : elemCarrier.unnormal (pick (s.readF a.f2)) = false := unnormalElem_of_integer hz
  rw [hden]

/-- An element whose rounded integer fits. -/
theorem State.convLane_of_fits {neg : Bool} {m : Nat} {e : Int} (q : Quantized)
    (hx : classifyElem (pick (s.readF a.f2)) = .num (.fin neg m e))
    (hq : q = roundToGrid (.ratio m 1 e) 0 (conversionRc a (controlsOf s.fpsr a.sf)) neg)
    (hfit : fitsInt a.unsigned 32 (signedInt neg q.k) = true) :
    s.convLane pick a = ⟨BitVec.ofInt 32 (signedInt neg q.k),
      conversionReport (controlsOf s.fpsr a.sf) q (unnormalElem (pick (s.readF a.f2)))⟩ :=
  convElem_of_fits (C := elemCarrier) q hx hq hfit

end

/-- Settles O40: an integer lies on the grid the operand is rounded to. -/
theorem exactConversion : Obligations.ExactConversion := by
  unfold Obligations.ExactConversion
  refine ⟨?_, ?_, ?_⟩
  · rintro a s z den hpar hready hfin hz hfit rfl
    obtain ⟨x, hx, m, e, rfl, hvalue⟩ := classifyReg_denotes hfin
    have hresult : s.convResult a =
        ⟨⟨false, 0x1003E, BitVec.ofInt 64 z⟩, { signals := { d := unnormalReg (s.readF a.f2) } }⟩ := by
      rw [State.convResult, convElem_of_integer (C := regCarrier fmtRegister) hx (hvalue.symm.trans hz) hfit]
      rfl
    have hexec := exec_fcvt_of_num hpar hready hx
    rw [hresult] at hexec
    exact ⟨fun hs => hexec.trans (State.finishNormal_of_denormalStops rfl hs),
      fun hs => hexec.trans (State.finishNormal_value_denormal hs)⟩
  · intro a s zh zl hpar hready hnat hfin hzh hzl hfh hfl
    simp only [List.forall_mem_cons] at hfin
    obtain ⟨hfinh, hfinl, -⟩ := hfin
    rw [exec_fcvt hready hnat, if_pos hpar, State.convLane_of_integer hfinh hzh hfh, State.convLane_of_integer hfinl hzl hfl]
    exact State.finishParallel_value (dh := false) (dl := false) rfl
  · intro a s pick lane z hpick hpar hready hnat hfin hz hfit
    obtain ⟨other, hother⟩ := hpick.exists_other
    obtain ⟨t, ht, hlane⟩ := exec_fcvt_lane hready hnat hpar hpick hother
    rw [State.convLane_of_integer hfin hz hfit] at hlane
    obtain hfault | ⟨-, -, hvalue, -⟩ := hlane
    · exact ⟨t, ht, .inl (hfault.elementStops (den := false))⟩
    · exact ⟨t, ht, .inr hvalue⟩

end Sys2Proof.Machine
end

section
/-! Inexact conversions (R60, R65, R95): flag i, and the trap that reports each element. -/

namespace Sys2Proof.Machine

variable {s : State} {sf : SfNum} {f1 : RegNum}

/-- The outcome of the stage that ends with the flags and the trap of a conversion; nothing reads its destination. -/
def conversionOut (ctl : Controls) (q : Quantized) : StageOut :=
  ⟨.zero false, { i := q.i }, false, if q.i = true ∧ ctl.inxEn = true then some { i := true, fpa := q.fpa } else none⟩

theorem conversionOut_no_trap {ctl : Controls} {q : Quantized} (h : ctl.inxEn = false ∨ q.i = false) :
    (conversionOut ctl q).trap = none := by
  refine if_neg ?_
  rintro ⟨hi, hen⟩
  rw [hi, hen] at h
  simp at h

theorem conversionOut_traps {ctl : Controls} {q : Quantized} (hen : ctl.inxEn = true) (hi : q.i = true) :
    (conversionOut ctl q).trap = some { i := true, fpa := q.fpa } :=
  if_pos ⟨hi, hen⟩

/-- What ISR reports of a conversion once the inexact trap is enabled: nothing for an exact one, which delivers no greater
magnitude. -/
theorem conversionOut_trap {ctl : Controls} {m : Mag} {g : Int} {rc : RoundMode} {neg : Bool} (hen : ctl.inxEn = true) :
    (conversionOut ctl (roundToGrid m g rc neg)).trap.getD {} =
      { i := (roundToGrid m g rc neg).i, fpa := (roundToGrid m g rc neg).fpa } := by
  have hfpa : (roundToGrid m g rc neg).fpa = true → (roundToGrid m g rc neg).i = true := roundToGrid_i_of_fpa
  rw [conversionOut, hen]
  cases hi : (roundToGrid m g rc neg).i with
  | true => rfl
  | false =>
    rw [Bool.eq_false_iff.mpr fun h => absurd (hi.symm.trans (hfpa h)) nofun]
    rfl

/-- A valid normal conversion that does not stop: the integer, flag i, and the trap if the conversion is inexact. -/
theorem State.finishNormal_conversion {x : Flt} {q : Quantized} {den : Bool} (h0 : f1 ≠ 0) (h1 : f1 ≠ 1)
    (hs : s.denormalStops sf den = false) :
    ∃ t, s.finishNormal sf f1 none ⟨x, conversionReport (controlsOf s.fpsr sf) q den⟩ = .next t ∧ t.readF f1 = x ∧
      t.signaled = { d := den } ∧ sfBit t.fpsr sf 8 = (sfBit s.fpsr sf 8 || den) ∧
      stageEnds s t sf (conversionOut (controlsOf s.fpsr sf) q) := by
  obtain ⟨t, ht, hfpsr, hvalue, hsg, -, hquiet, htrap⟩ := State.finish_delivers (p2 := none) (x := x)
    ((State.finishStops_denormal (r := conversionReport (controlsOf s.fpsr sf) q den) rfl).trans hs) h0 h1
  refine ⟨t, ht, hvalue, hsg, ?_, ?_, fun hnone => hquiet (congrArg (Option.map _) hnone), fun k hk => ?_⟩
  · rw [hfpsr, State.commit_sfBit_d]
    rfl
  · rw [hfpsr, State.commit_flagsOf]
    rfl
  · obtain ⟨hh, hisr⟩ := htrap (k, none) (congrArg (Option.map _) hk)
    exact ⟨hh, hisr ▸ isrOfTrap_low ..⟩

/-- Two valid conversions that do not stop. -/
theorem State.finishParallel_conversions {xh xl : Elem} {qh ql : Quantized} {dh dl : Bool} (h0 : f1 ≠ 0) (h1 : f1 ≠ 1)
    (hs : s.denormalStops sf (dl || dh) = false) :
    ∃ t, s.finishParallel sf f1 none ⟨xh, conversionReport (controlsOf s.fpsr sf) qh dh⟩
        ⟨xl, conversionReport (controlsOf s.fpsr sf) ql dl⟩ = .next t ∧
      t.readF f1 = packElems xh xl ∧ t.signaled = { d := dl || dh } ∧
      sfBit t.fpsr sf 8 = (sfBit s.fpsr sf 8 || (dl || dh)) ∧
      elementsEnd s t sf (conversionOut (controlsOf s.fpsr sf) qh) (conversionOut (controlsOf s.fpsr sf) ql) := by
  have hgo : s.finishStops sf (conversionReport (controlsOf s.fpsr sf) ql dl)
      (some (conversionReport (controlsOf s.fpsr sf) qh dh)) = false :=
    (State.finishStops_parallel (low := ⟨xl, conversionReport (controlsOf s.fpsr sf) ql dl⟩)
      (high := ⟨xh, conversionReport (controlsOf s.fpsr sf) qh dh⟩) rfl rfl).trans hs
  obtain ⟨t, ht, hfpsr, hvalue, hsg, -⟩ := State.finish_delivers (p2 := none) (x := packElems xh xl) hgo h0 h1
  refine ⟨t, ht, hvalue, hsg, ?_, elementsEnd_of_finish (high := ⟨xh, _⟩) (low := ⟨xl, _⟩) ht hgo h0 h1
    ⟨rfl, rfl, rfl⟩ ⟨rfl, rfl, rfl⟩⟩
  rw [hfpsr, State.commit_sfBit_d]
  rfl

/-- Settles O41: a valid conversion reports a denormal operand, flag i, and the inexact trap if it is enabled. -/
theorem inexactConversion : Obligations.InexactConversion := by
  unfold Obligations.InexactConversion
  refine ⟨?_, ?_, ?_⟩
  · rintro a s neg m e z q den hpar hready hhandler hx rfl hq rfl hfit hi
    obtain ⟨h0, h1⟩ := State.ready_dest hready
    have hresult : s.convResult a = ⟨intReg (BitVec.ofInt 64 (signedInt neg q.k)),
        conversionReport (controlsOf s.fpsr a.sf) q (unnormalReg (s.readF a.f2))⟩ := by
      rw [State.convResult, convElem_of_fits (C := regCarrier fmtRegister) q hx hq hfit]
      rfl
    have hexec := exec_fcvt_of_num hpar hready hx
    rw [hresult] at hexec
    refine ⟨fun hs => ?_, fun hs => ?_⟩
    · obtain ⟨t, ht, hfault, -, hbitd, -⟩ := State.finishNormal_denormalFault (p2 := none) (f1 := a.f1) (s := s)
        (r := ⟨intReg (BitVec.ofInt 64 (signedInt neg q.k)), conversionReport (controlsOf s.fpsr a.sf) q _⟩) rfl hs
      exact ⟨t, hexec.trans ht, hfault, hbitd⟩
    · obtain ⟨t, ht, hvalue, hsg, hflagd, hflags, hquiet, htrap⟩ := State.finishNormal_conversion (q := q) h0 h1 hs
      refine ⟨t, hexec.trans ht, hvalue, ?_, hsg, hflagd, fun hen => (hquiet (conversionOut_no_trap (.inl hen))).trans hhandler,
        fun hen => htrap _ (conversionOut_traps hen hi)⟩
      rw [hflags, conversionOut, hi]
      exact Bool.or_true _
  · rintro a s nh nl mh ml eh el zh zl qh ql dh dl hpar hready hnat hhandler hh rfl hl rfl hqh hql rfl rfl hfh hfl
    obtain ⟨h0, h1⟩ := State.ready_dest hready
    have hexec := exec_fcvt hready hnat
    rw [if_pos hpar, State.convLane_of_fits qh hh hqh hfh, State.convLane_of_fits ql hl hql hfl] at hexec
    refine ⟨fun hs => ?_, fun hs => ?_⟩
    · obtain ⟨-, hlow, -⟩ := faultReport_low (Config.isrBits s.draws) { d := unnormalElem (lowElem (s.readF a.f2)) }
        { d := unnormalElem (highElem (s.readF a.f2)) }
      obtain ⟨-, hhigh, -⟩ := faultReport_high (Config.isrBits s.draws) { d := unnormalElem (lowElem (s.readF a.f2)) }
        { d := unnormalElem (highElem (s.readF a.f2)) }
      exact ⟨_, hexec.trans (State.finishParallel_of_denormalStops rfl rfl hs), faultedFrom_interrupt .., hlow, hhigh⟩
    · obtain ⟨t, ht, hvalue, hsg, hflagd, hflags, hquiet, htrap⟩ :=
        State.finishParallel_conversions (qh := qh) (ql := ql) h0 h1 hs
      refine ⟨t, hexec.trans ht, hvalue, hflags, hsg, hflagd, fun hno => ?_, fun hen hi => ?_⟩
      · rw [Bool.or_eq_false_iff] at hno
        exact (hquiet (conversionOut_no_trap (hno.imp_right And.right)) (conversionOut_no_trap (hno.imp_right And.left))).trans
          hhandler
      · have hsome {q : Quantized} (hq : q.i = true) : (conversionOut (controlsOf s.fpsr a.sf) q).trap.isSome = true :=
          Option.isSome_of_eq_some (conversionOut_traps hen hq)
        obtain ⟨hvector, hlow, hhigh⟩ := htrap (((Bool.or_eq_true ..).mp hi).symm.imp hsome hsome)
        rw [hql, conversionOut_trap hen, ← hql] at hlow
        rw [hqh, conversionOut_trap hen, ← hqh] at hhigh
        exact ⟨hvector, hlow, hhigh⟩
  · rintro a s pick other lane neg m e z q den hpick hother hpar hready hnat hx rfl hq rfl hfit
    obtain ⟨t, ht, hlane⟩ := exec_fcvt_lane hready hnat hpar hpick hother
    rw [State.convLane_of_fits q hx hq hfit] at hlane
    refine ⟨t, ht, ?_⟩
    obtain hfault | ⟨hgo, -, hvalue, -, hrecorded, hends⟩ := hlane
    · exact .inl (LaneFaults.elementStops hfault)
    · refine .inr ⟨(any_denormal ..).symm.trans hgo, hvalue, hrecorded, fun hinvalid => ?_⟩
      rw [State.convLane_of_invalid hinvalid] at hends
      exact hends rfl rfl rfl

end Sys2Proof.Machine
end
